-- ==== Sys2Proof/Word.lean ====
section
/-! DEFINITION. The word types of the operation port and the byte stores (30_encoding R71, 20_memory R50, R51). -/

namespace Sys2Proof

/-- A byte of a store, of a message or of the UART (00_scope 5.1). -/
abbrev Byte := BitVec 8

/-- A 16-bit operand or register (`u16`). -/
abbrev Half := BitVec 16

/-- A word of the operation port: a command word or a data word (R71, R73). -/
abbrev PortWord := BitVec 64

end Sys2Proof
end

