-- ==== Sys2Proof/Config.lean ====
section
/-! DEFINITION. What an implementation fixes: the parameters of 00_scope section 4, with their defaults, and the free values of
the bytes the spec leaves unspecified. A `Config` is carried unchanged in the machine's state (assumption 1), so that a statement
about every state is a statement about every configuration. -/

namespace Sys2Proof

/-- Endpoint direction (R33, R87). -/
inductive EpDir where
  | fromHost  -- host to device
  | toHost    -- device to host
deriving DecidableEq, Repr

/-- The constants of one buffered endpoint (R36). -/
structure EpConst where
  /-- `EP[e].addr`, the USB endpoint address -/
  addr : Byte
  /-- `EP[e].dir` -/
  dir : EpDir
  /-- `EP[e].mps`, the maximum packet size -/
  mps : Nat
deriving DecidableEq, Repr

/-- The constants of one logical interface (R37); an absent endpoint is `none`. -/
structure IfConst where
  irq : Option Nat
  inn : Option Nat
  out : Option Nat
  chan : Nat
deriving DecidableEq, Repr

/-- The implementation parameters of 00_scope section 4. `N_EP` and `N_IF` are the lengths of `eps` and `ifs`, `ATR_LEN` that of
`atr`. -/
structure Config where
  nChan : Nat
  rbCap : Nat
  rbUsable : Nat
  poolN : Nat
  ctxSize : Nat
  fiTable : List Nat
  diTable : List Nat
  ratioBase : Nat
  ratioMin : Nat
  ratioMax : Nat
  ratioReset : Nat
  uartHasWprot : Bool
  atr : List Byte
  wtReset : Half
  etuReset : Half
  eps : List EpConst
  ifs : List IfConst
  dispatchMax : Nat
  rxbufCap : Nat
  pbNull : Byte
  rstRestoresFidi : Bool
deriving DecidableEq, Repr

/-- `TXQ_CAP = CTX_SIZE - 5`, the capacity of the engine's transmit buffer (00_scope section 4). -/
def Config.txqCap (p : Config) : Nat := p.ctxSize - 5

/-- `HDR_LEN`, the fixed length of the TPDU header (00_scope section 4). -/
def hdrLen : Nat := 5

/-- `MSG_HDR_LEN`, the fixed length of the USB message header (R90). -/
def msgHdrLen : Nat := 4

/-- The default `FI_TABLE` (R131). PRESUMED by the spec (general knowledge; assumption 3); unsafe. -/
def defaultFiTable : List Nat :=
  [372, 372, 558, 744, 1116, 1488, 1860, 0, 0, 512, 768, 1024, 1536, 2048, 0, 0]

/-- The default `DI_TABLE` (R132). PRESUMED by the spec (general knowledge; assumption 3); unsafe. -/
def defaultDiTable : List Nat :=
  [0, 1, 2, 4, 8, 16, 32, 64, 12, 20, 0, 0, 0, 0, 0, 0]

/-- The defaults of 00_scope section 4, R36 and R37, at which `State.reset` stands (assumptions 1 and 3; unsafe). The spec gives
no default ATR; the one here is that of 95_test_vectors (DESIGN CHOICE, assumption 2; unsafe). -/
def Config.default : Config where
  nChan := 1
  rbCap := 1024
  rbUsable := 1024
  poolN := 8
  ctxSize := 320
  fiTable := defaultFiTable
  diTable := defaultDiTable
  ratioBase := 1
  ratioMin := 1
  ratioMax := 2047
  ratioReset := 372
  uartHasWprot := false
  atr := [0x3B#8, 0x02#8, 0x14#8, 0x50#8]
  wtReset := 9600#16
  etuReset := 372#16
  eps := [⟨0x82#8, .toHost, 64⟩, ⟨0x01#8, .fromHost, 64⟩, ⟨0x83#8, .toHost, 64⟩]
  ifs := [⟨some 2, some 0, some 1, 0⟩]
  dispatchMax := 10
  rxbufCap := 255
  pbNull := 0x60#8
  rstRestoresFidi := false

/-- The byte stores of the core (R50), each named by its channel or its context handle. -/
inductive Space where
  | rb (c : Nat)      -- the ring buffer's storage
  | ctx (h : Nat)     -- a request context's buffer
  | hdr (c : Nat)     -- the five header bytes
  | txbuf (c : Nat)   -- the engine's transmit buffer
  | rxbuf (c : Nat)   -- the engine's receive-data buffer
  | atr               -- the read-only Answer-To-Reset
deriving DecidableEq, Repr

/-- FREE VALUE (assumption 11; safe): the byte that an unwritten cell of a store holds, by store, number of the last reset and
offset. R46 leaves it unspecified; nothing here constrains it. -/
opaque Config.unwrittenByte : Space → Nat → Nat → Byte

end Sys2Proof
end

