-- ==== Sys2Proof/Machine/State.lean ====
section
/-! DEFINITION. The state of the core (10_state R10 to R37, R45): plain data, holding everything the spec gives the machine, the
requests presented at the operation port, the response word, and the main-context operation in progress; the faults and the
refusals; the state after reset (R46). -/

namespace Sys2Proof.Machine

/-- A byte store: its written cells, offsets strictly rising. An offset that is not listed has not been written since reset. -/
abbrev Memory := List Host.Cell

/-- The owner-state tag of a request context (R17, R84). -/
inductive CtxState where
  | free
  | usbRxBusy
  | usbRxPending
  | uartTxPending
  | usbTxPending
  | usbTxBusy
deriving DecidableEq, Repr

/-- A request context (R16). Its u16 fields are naturals (assumption 16). -/
structure Ctx where
  state : CtxState
  buf : Memory
  size : Nat
  totLen : Nat
  idx : Nat
  owner : Option Nat
deriving DecidableEq, Repr

/-- A ring buffer (R19): its storage and the two indices, counted modulo `2 * RB_CAP`. -/
structure Ring where
  buf : Memory
  wr : Nat
  rd : Nat
deriving DecidableEq, Repr

/-- The UART timing register group (R21). -/
structure Uart where
  fidi : Half
  rxEn : Bool
deriving DecidableEq, Repr

/-- The states of the protocol engine (R24, R83). -/
inductive CemState where
  | poweredOff
  | clockActive
  | inReset
  | atrTx
  | idle
  | procedureByte
  | dataExchange
deriving DecidableEq, Repr

/-- The direction of a data exchange (R29, R86). -/
inductive TxDir where
  | none
  | tx
  | rx
deriving DecidableEq, Repr

/-- What the host's last accepted message asked for after its bytes (R29, R86). -/
inductive Cont where
  | tx
  | rx
deriving DecidableEq, Repr

/-- The protocol engine of a channel (R23 to R31). -/
structure Cem where
  vcc : Bool
  clk : Bool
  rst : Bool
  state : CemState
  hdr : Memory
  hdrN : Nat
  atrIdx : Nat
  txbuf : Memory
  txLen : Nat
  txIdx : Nat
  rxbuf : Memory
  rxN : Nat
  rxLeft : Nat
  dir : TxDir
  cont : Cont
  nullPending : Bool
  seq : Byte
deriving DecidableEq, Repr

/-- The waiting-time timer of a channel (R32); `remaining` (u32) is a natural (assumption 16). -/
structure Wt where
  wtime : Half
  etu : Half
  remaining : Nat
  armed : Bool
deriving DecidableEq, Repr

/-- What a channel replicates (R10, R252); `stat` is `urx.stat` (R22). -/
structure Chan where
  rb : Ring
  uart : Uart
  stat : Half
  cem : Cem
  wt : Wt
deriving DecidableEq, Repr

/-- The state of a buffered endpoint (R33). -/
structure Ep where
  queue : List Nat
  inProgress : Bool
  cur : Option Nat
  zlp : Bool
deriving DecidableEq, Repr

/-- The non-fatal conditions (R230). -/
inductive DiagCode where
  | rbOverrun
  | uartRxError
  | poolOom
  | fidiUnsupported
  | msgMalformed
  | msgUnknownType
  | usbWriteSubmitFail
  | usbReadSubmitFail
  | usbXferError
  | rxBadState
  | hostmsgBadState
  | wtxSent
  | noInEp
  | noHandler
deriving DecidableEq, Repr

/-- The fatal conditions (R230). -/
inductive FatalCode where
  | doubleFree
  | badHandle
  | queueCorrupt
deriving DecidableEq, Repr

/-- The control actions on a UART (R45, R135). -/
inductive UartCtl where
  | rxdis
  | wpunlock
  | fidi (r : Half)
  | rxen
  | sttto
deriving DecidableEq, Repr

/-- The output events (R45). -/
inductive Event where
  | uartCtl (c : Nat) (act : UartCtl)
  | usbWrite (addr : Byte) (h len : Nat)
  | usbRead (addr : Byte) (h cap : Nat)
  | diag (code : DiagCode) (arg : Nat)
  | halt (code : FatalCode)
deriving DecidableEq, Repr

/-- The response codes (R77). -/
inductive RC where
  | ok
  | nodata
  | full
  | empty
  | unsupported
  | oom
  | nop
  | fail
  | discarded
  | unmodelled
  | illegal
  | halted
deriving DecidableEq, Repr

/-- The response word by its fields (R76). -/
structure Response where
  rc : RC
  aux : Byte
  val : Half
deriving DecidableEq, Repr

/-- How far a `UBT.PROCESS` has come (R199): its interface and draws, the next part (0 to 2 the refills, then dispatches), the
contexts dispatched so far, and the last diagnostic its parts emitted. -/
structure Proc where
  k : Nat
  drawIrq : Bool
  drawIn : Bool
  drawOut : Bool
  part : Nat
  n : Nat
  aux : Byte
deriving DecidableEq, Repr

/-- A main-context operation in progress: suspended between two parts (R199), or held (R200). -/
inductive MainOp where
  | process (p : Proc)
  | drain (e : Nat)
deriving DecidableEq, Repr

/-- The faults: accesses that the spec says no rule makes (assumption 14; safe). No state that meets `CoreInv` (Safety.lean) raises
one. -/
inductive Fault where
  /-- An access at offset `addr` outside the bounds of store `sp` (00_scope 5.2, R56); raised by the store accesses of any rule;
  safe. -/
  | outOfBounds (sp : Space) (addr : Nat)
  /-- A rule met a handle that is not in the pool, or a transfer in flight without a context (R16, R33, R34); raised by the
  transport rules; safe. -/
  | noContext
  /-- A counter that a rule counts down was already 0, where the spec says it is at least 1 (R32, R157); raised by `WT.TICK` and
  `CEM.RXBYTE`; safe. -/
  | underflow
deriving DecidableEq, Repr

/-- The refusals. -/
inductive Refusal where
  /-- An operation without a meaning in this model, by its mnemonic; raised by no arm of `exec`: every operation has its meaning;
  safe. -/
  | notModelled (mnemonic : String)
deriving DecidableEq, Repr

/-- The state of the core. `cfg` holds the parameters, which no operation changes (R2; assumption 1). `port` and `preempt` are the
environment's: the words presented and not yet taken, and whether an interrupt-context request steps at the next boundaries inside
`UBT.PROCESS` (R243; assumptions 4 and 6). `era` counts the resets and indexes the free values of unwritten bytes (assumption 12). -/
structure State where
  cfg : Config
  halted : Bool
  haltCode : Byte
  ctxs : List Ctx
  chans : List Chan
  eps : List Ep
  events : List Event
  resp : Response
  port : List PortWord
  preempt : List Bool
  mainOp : Option MainOp
  era : Nat
deriving DecidableEq, Repr

/-- A free context with nothing written (R46). -/
def Ctx.reset : Ctx := ⟨.free, [], 0, 0, 0, none⟩

/-- The engine after reset (R46). -/
def Cem.reset : Cem where
  vcc := false
  clk := false
  rst := false
  state := .poweredOff
  hdr := []
  hdrN := 0
  atrIdx := 0
  txbuf := []
  txLen := 0
  txIdx := 0
  rxbuf := []
  rxN := 0
  rxLeft := 0
  dir := .none
  cont := .tx
  nullPending := false
  seq := 0#8

/-- A channel after reset (R46). -/
def Chan.reset (p : Config) : Chan where
  rb := ⟨[], 0, 0⟩
  uart := ⟨BitVec.ofNat 16 p.ratioReset, true⟩
  stat := 0#16
  cem := Cem.reset
  wt := ⟨p.wtReset, p.etuReset, 0, false⟩

/-- An endpoint after reset (R46). -/
def Ep.reset : Ep := ⟨[], false, none, false⟩

/-- The reset state of a core with parameters `p` (R46). The event history may start empty (R45); the response word reads as
`SYS.RESET` answers, OK (R260; DESIGN CHOICE, assumption 5; unsafe). -/
def State.resetWith (p : Config) : State where
  cfg := p
  halted := false
  haltCode := 0#8
  ctxs := List.replicate p.poolN Ctx.reset
  chans := List.replicate p.nChan (Chan.reset p)
  eps := List.replicate p.eps.length Ep.reset
  events := []
  resp := ⟨.ok, 0#8, 0#16⟩
  port := []
  preempt := []
  mainOp := none
  era := 0

/-- The core right after power-on, at the default parameters (R46, R260; assumptions 1 to 3). -/
def State.reset : State := State.resetWith Config.default

end Sys2Proof.Machine
end

