-- ==== Sys2Proof/Machine/Codes.lean ====
section
/-! DEFINITION. The numeric codes of the enumerations: response codes (R77), engine and context states (R83, R84), directions (R86,
R87), conditions (R230), and the 32-bit response word (R76). -/

namespace Sys2Proof.Machine

/-- R77: the code of a response. -/
def RC.code : RC → Byte
  | .ok => 0x00#8
  | .nodata => 0x01#8
  | .full => 0x02#8
  | .empty => 0x03#8
  | .unsupported => 0x04#8
  | .oom => 0x05#8
  | .nop => 0x06#8
  | .fail => 0x07#8
  | .discarded => 0x08#8
  | .unmodelled => 0x0D#8
  | .illegal => 0x0E#8
  | .halted => 0x0F#8

/-- R83: the code of an engine state. -/
def CemState.code : CemState → Nat
  | .poweredOff => 0
  | .clockActive => 1
  | .inReset => 2
  | .atrTx => 3
  | .idle => 4
  | .procedureByte => 5
  | .dataExchange => 6

/-- R84: the code of a context's owner state. -/
def CtxState.code : CtxState → Nat
  | .free => 0
  | .usbRxBusy => 1
  | .usbRxPending => 2
  | .uartTxPending => 3
  | .usbTxPending => 4
  | .usbTxBusy => 5

/-- R86: the code of `cem.dir`. -/
def TxDir.code : TxDir → Nat
  | .none => 0
  | .tx => 1
  | .rx => 2

/-- R86: the code of `cem.cont`. -/
def Cont.code : Cont → Nat
  | .tx => 0
  | .rx => 1

/-- R230: the code of a non-fatal condition. -/
def DiagCode.code : DiagCode → Byte
  | .rbOverrun => 0x01#8
  | .uartRxError => 0x02#8
  | .poolOom => 0x03#8
  | .fidiUnsupported => 0x04#8
  | .msgMalformed => 0x05#8
  | .msgUnknownType => 0x06#8
  | .usbWriteSubmitFail => 0x07#8
  | .usbReadSubmitFail => 0x08#8
  | .usbXferError => 0x09#8
  | .rxBadState => 0x0A#8
  | .hostmsgBadState => 0x0B#8
  | .wtxSent => 0x0C#8
  | .noInEp => 0x0D#8
  | .noHandler => 0x0E#8

/-- R230: the code of a fatal condition. -/
def FatalCode.code : FatalCode → Byte
  | .doubleFree => 0xF0#8
  | .badHandle => 0xF1#8
  | .queueCorrupt => 0xF2#8

/-- R76: the response word. -/
def Response.word (r : Response) : BitVec 32 := r.rc.code ++ (r.aux ++ r.val)

end Sys2Proof.Machine

/-- R87: the code of an endpoint's direction. -/
def Sys2Proof.EpDir.code : EpDir → Nat
  | .fromHost => 0
  | .toHost => 1
end

