-- ==== Sys2Proof/Machine/Ops.lean ====
section
/-! DEFINITION. The named operations over the state: byte stores (R50 to R56), channels, endpoints and contexts, output events (R45),
answers (R76, R238), the fatal halt (R231) and the return from it (R260). -/

namespace Sys2Proof.Machine

/-- The three outcomes of a step of this core. -/
abbrev Outcome := Host.Outcome State Fault Refusal

/-- What ends a rule body other than its `return`: `raise Fatal(code)` (00_scope 5.3), or a fault of the model. -/
inductive Stop where
  | fatal (code : FatalCode)
  | fault (f : Fault)
deriving DecidableEq, Repr

/-- What a rule body returns: the response code and `val` (R76). -/
structure Reply where
  rc : RC
  val : Half
deriving DecidableEq, Repr

/-- A rule body's end: a stop, or the state it leaves and its reply. -/
abbrev Body := Except Stop (State × Reply)

/-- The value field of a response (R76): the low 16 bits of a natural the rules keep below 2^16. -/
def val16 (n : Nat) : Half := BitVec.ofNat 16 n

/-- `return RC(val)` (00_scope 5.3). -/
def ret (s : State) (rc : RC) (val : Half := 0#16) : Body := .ok (s, ⟨rc, val⟩)

/-! ### Byte stores -/

/-- The byte written at offset `a`, if one has been. -/
def Memory.lookup : Memory → Nat → Option Byte
  | [], _ => none
  | (k, x) :: m, a => if a = k then some x else Memory.lookup m a

/-- Write byte `b` at offset `a`, keeping the offsets strictly rising. -/
def Memory.store : Memory → Nat → Byte → Memory
  | [], a, b => [(a, b)]
  | (k, x) :: m, a, b =>
    if a < k then (a, b) :: (k, x) :: m
    else if a = k then (a, b) :: m
    else (k, x) :: Memory.store m a b

/-- Write bytes from offset `a` on, lowest offset first (R51). -/
def Memory.storeList : Memory → Nat → List Byte → Memory
  | m, _, [] => m
  | m, a, b :: bs => Memory.storeList (m.store a b) (a + 1) bs

/-- The offsets of a store rise strictly from `lo` on. -/
def Memory.risesFrom : Nat → Memory → Bool
  | _, [] => true
  | lo, (k, _) :: m => decide (lo ≤ k) && Memory.risesFrom (k + 1) m

/-- The canonical form of a store: offsets strictly rising. Every listed cell has been written and an unlisted one has no byte of
its own, so no entry equals what an unlisted offset reads as. -/
def Memory.wf (m : Memory) : Bool := Memory.risesFrom 0 m

/-! ### Channels, endpoints, contexts -/

/-- Channel `c`. A channel the state does not hold reads as after reset (assumption 19; no legal selector reaches one where `CoreInv`
holds). -/
def State.chan (s : State) (c : Nat) : Chan := s.chans.getD c (Chan.reset s.cfg)

/-- Update channel `c`. -/
def State.updChan (s : State) (c : Nat) (f : Chan → Chan) : State := { s with chans := s.chans.modify c f }

/-- The engine of channel `c`. -/
def State.cem (s : State) (c : Nat) : Cem := (s.chan c).cem

/-- Update the engine of channel `c`. -/
def State.updCem (s : State) (c : Nat) (f : Cem → Cem) : State := s.updChan c fun x => { x with cem := f x.cem }

/-- The ring buffer of channel `c`. -/
def State.rb (s : State) (c : Nat) : Ring := (s.chan c).rb

/-- Update the ring buffer of channel `c`. -/
def State.updRb (s : State) (c : Nat) (f : Ring → Ring) : State := s.updChan c fun x => { x with rb := f x.rb }

/-- The UART registers of channel `c`. -/
def State.uart (s : State) (c : Nat) : Uart := (s.chan c).uart

/-- Update the UART registers of channel `c`. -/
def State.updUart (s : State) (c : Nat) (f : Uart → Uart) : State := s.updChan c fun x => { x with uart := f x.uart }

/-- The waiting-time timer of channel `c`. -/
def State.wt (s : State) (c : Nat) : Wt := (s.chan c).wt

/-- Update the waiting-time timer of channel `c`. -/
def State.updWt (s : State) (c : Nat) (f : Wt → Wt) : State := s.updChan c fun x => { x with wt := f x.wt }

/-- Endpoint `e` (assumption 19, as for channels). -/
def State.ep (s : State) (e : Nat) : Ep := s.eps.getD e Ep.reset

/-- Update endpoint `e`. -/
def State.updEp (s : State) (e : Nat) (f : Ep → Ep) : State := { s with eps := s.eps.modify e f }

/-- The constants of endpoint `e` (R36). -/
def State.epConst (s : State) (e : Nat) : EpConst := s.cfg.eps.getD e ⟨0#8, .toHost, 1⟩

/-- Context `h`. -/
def State.ctx (s : State) (h : Nat) : Ctx := s.ctxs.getD h Ctx.reset

/-- Update context `h`. -/
def State.updCtx (s : State) (h : Nat) (f : Ctx → Ctx) : State := { s with ctxs := s.ctxs.modify h f }

/-- Context `h`, where a rule takes it from a queue or from `ep.cur`: a handle the pool does not hold stops with a fault (R16). -/
def State.heldCtx (s : State) (h : Nat) : Except Stop Ctx :=
  if h < s.ctxs.length then .ok (s.ctx h) else .error (.fault .noContext)

/-- `in_ep(c)` (R37): the IN endpoint of the interface that serves channel `c`. -/
def State.inEp (s : State) (c : Nat) : Option Nat :=
  (s.cfg.ifs.find? fun f => decide (f.chan = c)).bind IfConst.inn

/-! ### Storage spaces (R50) -/

/-- The written cells of a store; the read-only `ATR` has none. -/
def State.mem (s : State) : Space → Memory
  | .rb c => (s.rb c).buf
  | .ctx h => (s.ctx h).buf
  | .hdr c => (s.cem c).hdr
  | .txbuf c => (s.cem c).txbuf
  | .rxbuf c => (s.cem c).rxbuf
  | .atr => []

/-- Replace the written cells of a store; nothing writes `ATR` (R50). -/
def State.setMem (s : State) (sp : Space) (m : Memory) : State :=
  match sp with
  | .rb c => s.updRb c fun x => { x with buf := m }
  | .ctx h => s.updCtx h fun x => { x with buf := m }
  | .hdr c => s.updCem c fun x => { x with hdr := m }
  | .txbuf c => s.updCem c fun x => { x with txbuf := m }
  | .rxbuf c => s.updCem c fun x => { x with rxbuf := m }
  | .atr => s

/-- The number of cells of a store (R50); a channel or a context that the core does not have has none. -/
def State.spaceSize (s : State) : Space → Nat
  | .rb c => if c < s.chans.length then s.cfg.rbCap else 0
  | .ctx h => if h < s.ctxs.length then s.cfg.ctxSize else 0
  | .hdr c => if c < s.chans.length then hdrLen else 0
  | .txbuf c => if c < s.chans.length then s.cfg.txqCap else 0
  | .rxbuf c => if c < s.chans.length then s.cfg.rxbufCap else 0
  | .atr => s.cfg.atr.length

/-- The byte of one cell. A cell that nothing has written since reset holds a free value (R46; assumption 11). -/
def State.cell (s : State) (sp : Space) (a : Nat) : Byte :=
  match sp with
  | .atr => s.cfg.atr.getD a (Config.unwrittenByte .atr 0 a)
  | sp => ((s.mem sp).lookup a).getD (Config.unwrittenByte sp s.era a)

/-- `MemRead(space, addr, n)` (00_scope 5.2), lowest offset first; outside the bounds it faults (assumption 14). -/
def memRead (s : State) (sp : Space) (a n : Nat) : Except Stop (List Byte) :=
  if a + n ≤ s.spaceSize sp then .ok ((List.range n).map fun i => s.cell sp (a + i))
  else .error (.fault (.outOfBounds sp a))

/-- `MemRead(space, addr, 1)[0]`. -/
def memRead1 (s : State) (sp : Space) (a : Nat) : Except Stop Byte :=
  if a + 1 ≤ s.spaceSize sp then .ok (s.cell sp a) else .error (.fault (.outOfBounds sp a))

/-- `MemWrite(space, addr, n, bytes)` (00_scope 5.2); outside the bounds it faults (assumption 14). -/
def memWrite (s : State) (sp : Space) (a : Nat) (bs : List Byte) : Except Stop State :=
  if a + bs.length ≤ s.spaceSize sp then .ok (s.setMem sp ((s.mem sp).storeList a bs))
  else .error (.fault (.outOfBounds sp a))

/-! ### Output events and answers -/

/-- `emit ev` (R45). -/
def State.emit (s : State) (ev : Event) : State := { s with events := s.events ++ [ev] }

/-- `emit diag(code, arg)` (R230). -/
def State.diag (s : State) (code : DiagCode) (arg : Nat) : State := s.emit (.diag code arg)

/-- The code of a `diag` event. -/
def Event.diagCode : Event → Option Byte
  | .diag code _ => some code.code
  | _ => none

/-- R76: the code of the last `diag` among the events an operation emitted, or 0. -/
def lastDiag (evs : List Event) : Byte := (evs.filterMap Event.diagCode).getLastD 0#8

/-- The events that a rule body appended between two states. -/
def newEvents (s t : State) : List Event := t.events.drop s.events.length

/-- Give the response of an operation (R76). -/
def State.answer (s : State) (rc : RC) (aux : Byte) (val : Half) : State := { s with resp := ⟨rc, aux, val⟩ }

/-- R75: the answer to an illegal request. -/
def State.answerIllegal (s : State) : State := s.answer .illegal 0#8 0#16

/-- R232: the answer of a halted core. -/
def State.answerHalted (s : State) : State := s.answer .halted s.haltCode 0#16

/-! ### The fatal halt and the return from it -/

/-- R231, the entry to the fatal halt, from the state before the detecting operation: every other write and every event of the
operation is discarded. -/
def State.raiseFatal (s : State) (code : FatalCode) : State :=
  { (({ s with halted := true, haltCode := code.code }).emit (.halt code)) with
    resp := ⟨.halted, code.code, 0#16⟩ }

/-- R260, R232: `SYS.RESET`, the only return from the halt. Every state element takes its reset value (R46), the buffers become
unspecified, a main-context operation in progress ends; the event history, the parameters and the environment's requests are
kept (assumptions 13 and 21). -/
def State.sysReset (s : State) : State :=
  { State.resetWith s.cfg with
    events := s.events, port := s.port, preempt := s.preempt, era := s.era + 1 }

/-- The end of a rule body that began in state `s` (R76, R231). -/
def finish (s : State) (r : Body) : Outcome :=
  match r with
  | .ok (t, reply) => .next (t.answer reply.rc (lastDiag (newEvents s t)) reply.val)
  | .error (.fatal code) => .next (s.raiseFatal code)
  | .error (.fault f) => .fault f

/-! ### Contexts (R16, R17) -/

/-- The least free handle (R110). -/
def State.firstFree (s : State) : Option Nat := s.ctxs.findIdx? fun x => decide (x.state = .free)

/-- The body of `POOL.ALLOC` (R110), used by the engine and the transport too (transitions T1 and T4 of R17): the state it leaves
and the handle, if there is one. -/
def State.alloc (s : State) (size : Nat) (st : CtxState) : State × Option Nat :=
  if s.cfg.ctxSize < size then (s.diag .poolOom size, none)
  else
    match s.firstFree with
    | none => (s.diag .poolOom size, none)
    | some h => (s.updCtx h fun x => { x with state := st, size := 0, totLen := 0, idx := 0, owner := none }, some h)

/-- `ctx_release(h)` (R114): the bookkeeping is cleared and the buffer's bytes stay. -/
def State.release (s : State) (h : Nat) : State :=
  s.updCtx h fun x => { x with state := .free, size := 0, totLen := 0, idx := 0, owner := none }

/-- `ctx_release` of every handle of a list (R200). -/
def State.releaseAll (s : State) : List Nat → State
  | [] => s
  | h :: hs => (s.release h).releaseAll hs

end Sys2Proof.Machine
end

