-- ==== Sys2Proof/Machine/Flags.lean ====
section
/-! DEFINITION. Flag computations: the ring buffer's derived flags (R19), the receive status bits (R92), the message flags (R91,
R223), the timer's period (R32), the occupancy bitmap (R113). The core has no arithmetic condition codes (R13). -/

namespace Sys2Proof.Machine

/-- `rb.count` (R19, R126). -/
def Ring.count (p : Config) (r : Ring) : Nat := (r.wr + 2 * p.rbCap - r.rd) % (2 * p.rbCap)

/-- `rb.empty` (R19). -/
def Ring.empty (p : Config) (r : Ring) : Bool := decide (r.count p = 0)

/-- `rb.full` (R19). -/
def Ring.full (p : Config) (r : Ring) : Bool := decide (p.rbUsable ≤ r.count p)

/-- `ERRMASK` (R92): overrun, framing, parity, timeout and the reserved error bit, bits 5, 6, 7, 8 and 10. -/
def errMask : Half := 0x05E0#16

/-- The error bits of a raw UART status (R92, R140). -/
def errorBits (status : Half) : Half := status &&& errMask

/-- `wt.period` (R32). -/
def Wt.period (w : Wt) : Nat := w.wtime.toNat * w.etu.toNat

/-- The flags byte of a host-to-device message is acceptable (R91, R223): reserved bits and `F_TPDU_HDR` clear, exactly one continue
flag set. -/
def hostFlagsOk (flags : Byte) : Bool :=
  decide (flags.extractLsb' 3 5 = 0#5) && !flags.getLsbD 0 && (flags.getLsbD 1 != flags.getLsbD 2)

/-- What the continue flags ask for (R91, R224): `F_PB_AND_RX` is bit 2. -/
def contOf (flags : Byte) : Cont := if flags.getLsbD 2 then .rx else .tx

/-- `F_TPDU_HDR` (R91). -/
def fTpduHdr : Byte := 0x01#8

/-- The occupancy bitmap (R113): bit `i` is set when context `i` is not free, counting from the list's head. -/
def occupancy : List Ctx → Nat
  | [] => 0
  | x :: xs => (if x.state = .free then 0 else 1) + 2 * occupancy xs

end Sys2Proof.Machine
end

