-- ==== Sys2Proof/Syntax.lean ====
section
/-! DEFINITION. The operations of the core as syntax: one constructor per row of spec/opcode_table.json (R72, R78), its operands
the fields of the command word taken verbatim (R74). `UBT.RCOMPLETE` carries its data bytes, whose number is its `len` (R73). -/

namespace Sys2Proof

/-- One operation request (R71, R72). `c` is a channel, `e` an endpoint, `k` an interface, `h` a context handle. A draw is `true`
when the controller accepts the submission (R72). -/
inductive Instr where
  | sysReset
  | rbReset (c : Byte)
  | rbWrite (c byte : Byte)
  | rbRead (c : Byte)
  | rbPeek (c : Byte)
  | rbIsempty (c : Byte)
  | timRatio (clockIndex rateIndex : Byte)
  | timApply (c : Byte) (ratio : Half)
  | urxIrq (c : Byte) (status : Half) (data : Byte)
  | cemIosig (c : Byte) (signal : BitVec 2) (active : Bool)
  | cemTxbyte (c : Byte)
  | cemRxbyte (c byte : Byte)
  | cemFidi (c fidi : Byte)
  | cemPump (c : Byte)
  | wtSetwt (c : Byte) (wtime : Half)
  | wtSetetu (c : Byte) (ticks : Half)
  | wtTick (c : Byte)
  | poolAlloc (size : Half) (newState : BitVec 3)
  | poolFree (h : Byte)
  | poolReport
  | ubtEnq (e h : Byte)
  | ubtRefillTohost (e : Byte) (draw : Bool)
  | ubtWcomplete (e status : Byte) (draw : Bool)
  | ubtRefillFromhost (e : Byte) (draw : Bool)
  | ubtRcomplete (e status : Byte) (data : List Byte)
  | ubtProcess (k : Byte) (drawIrq drawIn drawOut : Bool)
  | ubtDrain (e : Byte)
  | ubtDispatch (e : Byte)
deriving DecidableEq, Repr

end Sys2Proof
end

