-- ==== Sys2Proof/WellFormed.lean ====
section
/-! DEFINITION. Well-formed configurations (R1) and well-formed operation requests (R75): the tests that need only the request
and the parameters. -/

namespace Sys2Proof

/-- The endpoints an interface names, each optional (R37). -/
def IfConst.endpoints (f : IfConst) : List Nat :=
  f.irq.toList ++ f.inn.toList ++ f.out.toList

/-- Endpoint index `e`, where one is named, exists and has direction `d` (R1). -/
def Config.namesEp (p : Config) (d : EpDir) (e : Option Nat) : Bool :=
  match e with
  | none => true
  | some i => (p.eps[i]?).any fun x => decide (x.dir = d)

/-- R1: what the parameters satisfy. The lengths of the tables (00_scope section 4), `1 <= N_CHAN`, `1 <= N_EP <= 16` and
`1 <= N_IF` are the constraints of section 4's own column; `255 <= RXBUF_CAP` is DEDUCED from the range of `rx_n` (R28;
assumption 18). -/
def Config.wellFormed (p : Config) : Bool :=
  decide (1 ≤ p.nChan) &&
  decide (2 ≤ p.rbCap) && decide (2 ^ Nat.log2 p.rbCap = p.rbCap) &&
  (decide (p.rbUsable = p.rbCap) || decide (p.rbUsable + 1 = p.rbCap)) &&
  decide (1 ≤ p.poolN) && decide (p.poolN ≤ 16) &&
  decide (264 ≤ p.ctxSize) && decide (p.ctxSize ≤ 65535) &&
  decide (p.fiTable.length = 16) && decide (p.diTable.length = 16) &&
  decide (1 ≤ p.atr.length) && decide (p.atr.length ≤ 33) &&
  decide (1 ≤ p.ratioBase) &&
  decide (1 ≤ p.ratioMin) && decide (p.ratioMin ≤ p.ratioMax) && decide (p.ratioMax ≤ 65535) &&
  decide (p.ratioMin ≤ p.ratioReset) && decide (p.ratioReset ≤ p.ratioMax) &&
  decide (1 ≤ p.eps.length) && decide (p.eps.length ≤ 16) &&
  p.eps.all (fun x => decide (1 ≤ x.mps)) &&
  decide (1 ≤ p.ifs.length) &&
  p.ifs.all (fun f => p.namesEp .toHost f.irq && p.namesEp .toHost f.inn && p.namesEp .fromHost f.out &&
    decide (f.chan < p.nChan)) &&
  decide (p.ifs.flatMap IfConst.endpoints).Nodup &&
  decide (p.ifs.map IfConst.chan).Nodup &&
  decide (255 ≤ p.rxbufCap)

/-- Endpoint `e` exists and has direction `d` (R75). -/
def Config.epIs (p : Config) (e : Byte) (d : EpDir) : Bool :=
  (p.eps[e.toNat]?).any fun x => decide (x.dir = d)

/-- R75, the tests that need only the request and the parameters: selectors below their bounds (`POOL.FREE` admits any handle),
signal 3 and allocation states other than 1 and 3 refused, the endpoint's direction, `len <= CTX_SIZE`. -/
def Instr.wellFormed (p : Config) : Instr → Bool
  | .sysReset => true
  | .rbReset c => decide (c.toNat < p.nChan)
  | .rbWrite c _ => decide (c.toNat < p.nChan)
  | .rbRead c => decide (c.toNat < p.nChan)
  | .rbPeek c => decide (c.toNat < p.nChan)
  | .rbIsempty c => decide (c.toNat < p.nChan)
  | .timRatio _ _ => true
  | .timApply c _ => decide (c.toNat < p.nChan)
  | .urxIrq c _ _ => decide (c.toNat < p.nChan)
  | .cemIosig c sig _ => decide (c.toNat < p.nChan) && decide (sig ≠ 3#2)
  | .cemTxbyte c => decide (c.toNat < p.nChan)
  | .cemRxbyte c _ => decide (c.toNat < p.nChan)
  | .cemFidi c _ => decide (c.toNat < p.nChan)
  | .cemPump c => decide (c.toNat < p.nChan)
  | .wtSetwt c _ => decide (c.toNat < p.nChan)
  | .wtSetetu c _ => decide (c.toNat < p.nChan)
  | .wtTick c => decide (c.toNat < p.nChan)
  | .poolAlloc _ st => decide (st = 1#3) || decide (st = 3#3)
  | .poolFree _ => true
  | .poolReport => true
  | .ubtEnq e _ => p.epIs e .toHost
  | .ubtRefillTohost e _ => p.epIs e .toHost
  | .ubtWcomplete e _ _ => p.epIs e .toHost
  | .ubtRefillFromhost e _ => p.epIs e .fromHost
  | .ubtRcomplete e _ data => p.epIs e .fromHost && decide (data.length ≤ p.ctxSize)
  | .ubtProcess k _ _ _ => decide (k.toNat < p.ifs.length)
  | .ubtDrain e => decide (e.toNat < p.eps.length)
  | .ubtDispatch e => p.epIs e .fromHost

/-- What the command word can hold: the `len` field of `UBT.RCOMPLETE` has 16 bits (R72). -/
def Instr.encodable : Instr → Bool
  | .ubtRcomplete _ _ data => decide (data.length < 65536)
  | _ => true

end Sys2Proof
end

