-- ==== Sys2Proof/Machine/Operands.lean ====
section
/-! DEFINITION. Operands: the static legality of a request and the order of checks (R75, R238), the coded operands (R84, R85, R88,
R93), little-endian halves (R51). -/

namespace Sys2Proof.Machine

/-- R75, R238 (1): the tests that need only the request and the parameters. -/
def legal (s : State) (i : Instr) : Bool := i.wellFormed s.cfg

/-- R238: static legality, then the halt, then the rule body. -/
def gate (i : Instr) (s : State) (run : State → Outcome) : Outcome :=
  if legal s i then
    if s.halted then .next s.answerHalted else run s
  else .next s.answerIllegal

/-- R85: the card signals. -/
inductive Signal where
  | vcc
  | clk
  | rst
deriving DecidableEq, Repr

/-- R85: the signal of a code; code 3 is illegal and never comes here from a legal request. -/
def signalOf (code : BitVec 2) : Signal :=
  if code = 0#2 then .vcc else if code = 1#2 then .clk else .rst

/-- R84, R110: the state a legal `POOL.ALLOC` names, 1 or 3. -/
def allocState (code : BitVec 3) : CtxState := if code = 1#3 then .usbRxBusy else .uartTxPending

/-- R88: completion status 0 is success, every other value an error. -/
def isSuccess (status : Byte) : Bool := decide (status = 0#8)

/-- R93: the clock (Fi) index of a Fi/Di byte. -/
def fidiClock (fidi : Byte) : Nat := (fidi.extractLsb' 4 4).toNat

/-- R93: the rate (Di) index of a Fi/Di byte. -/
def fidiRate (fidi : Byte) : Nat := (fidi.extractLsb' 0 4).toNat

/-- `LE16(lo, hi)` (00_scope 5.2, R51). -/
def le16 (lo hi : Byte) : Nat := lo.toNat + 256 * hi.toNat

/-- The low byte of a payload length (R90). -/
def lo8 (n : Nat) : Byte := BitVec.ofNat 8 n

/-- Bits 15:8 of a payload length (R90). -/
def hi8 (n : Nat) : Byte := BitVec.ofNat 8 (n / 256)

end Sys2Proof.Machine
end

