-- ==== Sys2Proof/Machine/Sys.lean ====
section
/-! DEFINITION. The meaning of `SYS.RESET` (R260). -/

namespace Sys2Proof.Machine

/-- `SYS.RESET` (R260), legal and answered OK while halted too (R75, R238). -/
def execSysReset (s : State) : Outcome := .next (s.sysReset.answer .ok 0#8 0#16)

end Sys2Proof.Machine
end

