-- ==== Sys2Proof/Machine/Pool.lean ====
section
/-! DEFINITION. The meanings of the request-context pool's operations (R110, R112, R113). The bodies of allocation and release, used
by the engine and the transport too, are in Ops.lean. -/

namespace Sys2Proof.Machine

/-- R110, the body of `POOL.ALLOC`. -/
def poolAllocBody (size : Nat) (st : CtxState) (s : State) : Body :=
  match s.alloc size st with
  | (s', none) => ret s' .oom
  | (s', some h) => ret s' .ok (val16 h)

/-- A queue or a transfer in flight refers to context `h` (R112). -/
def State.referenced (s : State) (h : Nat) : Bool :=
  s.eps.any fun e => decide (e.cur = some h) || e.queue.contains h

/-- R112, the body of `POOL.FREE`, its tests in the order of R238. -/
def poolFreeBody (h : Nat) (s : State) : Body :=
  if s.cfg.poolN ≤ h then .error (.fatal .badHandle)
  else if (s.ctx h).state = .free then .error (.fatal .doubleFree)
  else if s.referenced h then .error (.fatal .queueCorrupt)
  else ret (s.release h) .ok

/-- `POOL.ALLOC` (R110). -/
def execPoolAlloc (size : Half) (newState : BitVec 3) (s : State) : Outcome :=
  gate (.poolAlloc size newState) s fun s => finish s (poolAllocBody size.toNat (allocState newState) s)

/-- `POOL.FREE` (R112). -/
def execPoolFree (h : Byte) (s : State) : Outcome := gate (.poolFree h) s fun s => finish s (poolFreeBody h.toNat s)

/-- `POOL.REPORT` (R113). -/
def execPoolReport (s : State) : Outcome :=
  gate .poolReport s fun s => finish s (ret s .ok (val16 (occupancy s.ctxs)))

end Sys2Proof.Machine
end

