-- ==== Sys2Proof/Machine/Rb.lean ====
section
/-! DEFINITION. The meanings of the ring-buffer operations (R120 to R124). -/

namespace Sys2Proof.Machine

/-- R121, the body of `RB.WRITE`. -/
def rbWriteBody (c : Nat) (byte : Byte) (s : State) : Body :=
  if (s.rb c).full s.cfg then ret (s.diag .rbOverrun byte.toNat) .full
  else do
    let s' ← memWrite s (.rb c) ((s.rb c).wr % s.cfg.rbCap) [byte]
    ret (s'.updRb c fun r => { r with wr := (r.wr + 1) % (2 * s.cfg.rbCap) }) .ok

/-- The byte at the ring buffer's read index (R122, R123, R141). -/
def rbHead (c : Nat) (s : State) : Except Stop Byte := memRead1 s (.rb c) ((s.rb c).rd % s.cfg.rbCap)

/-- Advance the read index (R122, R141). -/
def rbAdvance (c : Nat) (s : State) : State := s.updRb c fun r => { r with rd := (r.rd + 1) % (2 * s.cfg.rbCap) }

/-- R122, the body of `RB.READ`. -/
def rbReadBody (c : Nat) (s : State) : Body :=
  if (s.rb c).empty s.cfg then ret s .empty
  else do
    let v ← rbHead c s
    ret (rbAdvance c s) .ok (val16 v.toNat)

/-- R123, the body of `RB.PEEK`. -/
def rbPeekBody (c : Nat) (s : State) : Body :=
  if (s.rb c).empty s.cfg then ret s .empty
  else do
    let v ← rbHead c s
    ret s .ok (val16 v.toNat)

/-- `RB.RESET` (R120): both indices to 0, the cells keep their bytes. -/
def execRbReset (c : Byte) (s : State) : Outcome :=
  gate (.rbReset c) s fun s => finish s (ret (s.updRb c.toNat fun r => { r with wr := 0, rd := 0 }) .ok)

/-- `RB.WRITE` (R121). -/
def execRbWrite (c byte : Byte) (s : State) : Outcome :=
  gate (.rbWrite c byte) s fun s => finish s (rbWriteBody c.toNat byte s)

/-- `RB.READ` (R122). -/
def execRbRead (c : Byte) (s : State) : Outcome := gate (.rbRead c) s fun s => finish s (rbReadBody c.toNat s)

/-- `RB.PEEK` (R123). -/
def execRbPeek (c : Byte) (s : State) : Outcome := gate (.rbPeek c) s fun s => finish s (rbPeekBody c.toNat s)

/-- `RB.ISEMPTY` (R124). -/
def execRbIsempty (c : Byte) (s : State) : Outcome :=
  gate (.rbIsempty c) s fun s => finish s (ret s .ok (val16 ((s.rb c.toNat).empty s.cfg).toNat))

end Sys2Proof.Machine
end

