-- ==== Sys2Proof/Machine/Tim.lean ====
section
/-! DEFINITION. The ISO7816 timing module: the ratio (R133, R136), the reprogramming of the UART (R135), and the meanings of
`TIM.RATIO` and `TIM.APPLY`. -/

namespace Sys2Proof.Machine

/-- R133: the ratio of an index pair, if it is supported. -/
def ratioOf (p : Config) (clockIndex rateIndex : Nat) : Option Nat :=
  if 16 ≤ clockIndex ∨ 16 ≤ rateIndex then none
  else
    let f := p.fiTable.getD clockIndex 0
    let d := p.diTable.getD rateIndex 0
    if f = 0 ∨ d = 0 then none
    else
      let r := f * p.ratioBase / d
      if r < p.ratioMin ∨ p.ratioMax < r then none else some r

/-- The unlock step of R135, where the UART needs one. -/
def unlockStep (c : Nat) (s : State) : State :=
  if s.cfg.uartHasWprot then s.emit (.uartCtl c .wpunlock) else s

/-- R135, the five steps of a change of ratio. -/
def applyRatio (c : Nat) (ratio : Half) (s : State) : State :=
  let s1 := (s.updUart c fun u => { u with rxEn := false }).emit (.uartCtl c .rxdis)
  let s2 := unlockStep c s1
  let s3 := (s2.updUart c fun u => { u with fidi := ratio }).emit (.uartCtl c (.fidi ratio))
  let s4 := (s3.updUart c fun u => { u with rxEn := true }).emit (.uartCtl c .rxen)
  s4.emit (.uartCtl c .sttto)

/-- R135, the body of `TIM.APPLY`. -/
def timApplyBody (c : Nat) (ratio : Half) (s : State) : Body :=
  if ratio.toNat < s.cfg.ratioMin ∨ s.cfg.ratioMax < ratio.toNat then
    ret (s.diag .fidiUnsupported ratio.toNat) .unsupported
  else ret (applyRatio c ratio s) .ok

/-- R133, the body of `TIM.RATIO`. -/
def timRatioBody (clockIndex rateIndex : Nat) (s : State) : Body :=
  match ratioOf s.cfg clockIndex rateIndex with
  | none => ret s .unsupported
  | some r => ret s .ok (val16 r)

/-- `TIM.RATIO` (R133). -/
def execTimRatio (clockIndex rateIndex : Byte) (s : State) : Outcome :=
  gate (.timRatio clockIndex rateIndex) s fun s => finish s (timRatioBody clockIndex.toNat rateIndex.toNat s)

/-- `TIM.APPLY` (R135). -/
def execTimApply (c : Byte) (ratio : Half) (s : State) : Outcome :=
  gate (.timApply c ratio) s fun s => finish s (timApplyBody c.toNat ratio s)

end Sys2Proof.Machine
end

