-- ==== Sys2Proof/Machine/Wt.lean ====
section
/-! DEFINITION. The waiting-time timer: its internal procedures (R181 to R183, R185) and the meanings of `WT.SETWT`, `WT.SETETU` and
`WT.TICK` (R186, R181, R184). -/

namespace Sys2Proof.Machine

/-- The countdown stopped (R183). -/
def Wt.stopped (w : Wt) : Wt := { w with armed := false, remaining := 0 }

/-- The countdown started from the full period, or stopped where the period is 0 (R182). -/
def Wt.started (w : Wt) : Wt :=
  if 0 < w.period then { w with armed := true, remaining := w.period } else w.stopped

/-- A running countdown starts again from the full period, or stops where the period is 0 (R181, R186). -/
def Wt.reloaded (w : Wt) : Wt := if w.armed then w.started else w

/-- A running countdown starts again from the full period (R185). -/
def Wt.restarted (w : Wt) : Wt := if w.armed then { w with remaining := w.period } else w

/-- `wt_arm(c)` (R182). -/
def wtArm (c : Nat) (s : State) : State := s.updWt c Wt.started

/-- `wt_disarm(c)` (R183). -/
def wtDisarm (c : Nat) (s : State) : State := s.updWt c Wt.stopped

/-- `wt_restart(c)` (R185). -/
def wtRestart (c : Nat) (s : State) : State := s.updWt c Wt.restarted

/-- `wt_set_etu(c, ticks)` (R181). -/
def wtSetEtu (c : Nat) (ticks : Half) (s : State) : State :=
  s.updWt c fun w => ({ w with etu := ticks }).reloaded

/-- R184, the body of `WT.TICK`. The tick that expires answers OK with `val` 1, as R184 has it, where R76 gives the operation no value
(DEDUCED, assumption 24). -/
def wtTickBody (c : Nat) (s : State) : Body :=
  let w := s.wt c
  if !w.armed then ret s .nop
  else if w.remaining = 0 then .error (.fault .underflow)
  else if 0 < w.remaining - 1 then ret (s.updWt c fun w => { w with remaining := w.remaining - 1 }) .ok
  else
    let s1 := s.updCem c fun x => { x with nullPending := true }
    let s2 := s1.diag .wtxSent c
    ret (s2.updWt c fun w => { w with remaining := w.period }) .ok 1#16

/-- `WT.SETWT` (R186). -/
def execWtSetwt (c : Byte) (wtime : Half) (s : State) : Outcome :=
  gate (.wtSetwt c wtime) s fun s =>
    finish s (ret (s.updWt c.toNat fun w => ({ w with wtime := wtime }).reloaded) .ok)

/-- `WT.SETETU` (R181). -/
def execWtSetetu (c : Byte) (ticks : Half) (s : State) : Outcome :=
  gate (.wtSetetu c ticks) s fun s => finish s (ret (wtSetEtu c.toNat ticks s) .ok)

/-- `WT.TICK` (R184). -/
def execWtTick (c : Byte) (s : State) : Outcome := gate (.wtTick c) s fun s => finish s (wtTickBody c.toNat s)

end Sys2Proof.Machine
end

