-- ==== Sys2Proof/Machine/Cem.lean ====
section
/-! DEFINITION. The UART receive front end and the protocol engine: the internal procedures (R142, R156), the meanings of `URX.IRQ`
(R140), `CEM.IOSIG` (R143 to R149), `CEM.TXBYTE` (R150 to R153), `CEM.RXBYTE` (R154 to R157), `CEM.FIDI` (R158) and `CEM.PUMP`
(R141). The enqueueing of a context (R191), which message composition runs, stands here too. -/

namespace Sys2Proof.Machine

/-! ### The receive interrupt -/

/-- R140, the body of `URX.IRQ`. -/
def urxIrqBody (c : Nat) (status : Half) (data : Byte) (s : State) : Body :=
  let s1 := s.updChan c fun x => { x with stat := 0#16 }
  let s2 := s1.updChan c fun x => { x with stat := x.stat ||| errorBits status }
  if (s2.chan c).stat = 0#16 then rbWriteBody c data s2
  else ret (s2.diag .uartRxError (s2.chan c).stat.toNat) .discarded

/-- `URX.IRQ` (R140). -/
def execUrxIrq (c : Byte) (status : Half) (data : Byte) (s : State) : Outcome :=
  gate (.urxIrq c status data) s fun s => finish s (urxIrqBody c.toNat status data s)

/-! ### State-entry procedures (R142) -/

/-- `clear_exchange(c)`: forget any TPDU in progress. -/
def clearExchange (c : Nat) (s : State) : State :=
  wtDisarm c (s.updCem c fun x =>
    { x with
      hdrN := 0, txLen := 0, txIdx := 0, rxN := 0, rxLeft := 0, dir := .none, cont := .tx, nullPending := false })

/-- `enter_idle(c)`. -/
def enterIdle (c : Nat) (s : State) : State :=
  (clearExchange c s).updCem c fun x => { x with state := .idle }

/-- `enter_pb(c)`: the engine now owes a procedure byte. -/
def enterPb (c : Nat) (s : State) : State :=
  wtArm c (s.updCem c fun x => { x with dir := .none, state := .procedureByte })

/-- `power_eval(c)`. -/
def powerEval (c : Nat) (s : State) : State :=
  s.updCem c fun x =>
    if x.state = .poweredOff ∧ x.vcc ∧ x.clk then
      { x with state := if x.rst then .inReset else .clockActive }
    else x

/-! ### Card signals (R143 to R149) -/

/-- The recorded level of a signal (R23). -/
def Cem.level (x : Cem) : Signal → Bool
  | .vcc => x.vcc
  | .clk => x.clk
  | .rst => x.rst

/-- Record the level of a signal (R23). -/
def Cem.setLevel (x : Cem) (sig : Signal) (active : Bool) : Cem :=
  match sig with
  | .vcc => { x with vcc := active }
  | .clk => { x with clk := active }
  | .rst => { x with rst := active }

/-- R147: RST becomes active. -/
def rstActive (c : Nat) (s : State) : Body := do
  let s1 := (clearExchange c s).updCem c fun x => { x with atrIdx := 0, state := .inReset }
  if s.cfg.rstRestoresFidi then
    let r := BitVec.ofNat 16 s.cfg.ratioReset
    let (s2, _) ← timApplyBody c r s1
    ret (wtSetEtu c r s2) .ok
  else ret s1 .ok

/-- R148: VCC becomes inactive. -/
def vccInactive (c : Nat) (s : State) : State :=
  (clearExchange c s).updCem c fun x => { x with atrIdx := 0, state := .poweredOff }

/-- R149: RST becomes inactive. -/
def rstInactive (c : Nat) (s : State) : State :=
  s.updCem c fun x =>
    if x.state = .inReset then
      if x.vcc ∧ x.clk then { x with state := .atrTx, atrIdx := 0 } else { x with state := .poweredOff }
    else x

/-- R143, the body of `CEM.IOSIG`. -/
def cemIosigBody (c : Nat) (sig : Signal) (active : Bool) (s : State) : Body :=
  if (s.cem c).level sig = active then ret s .ok
  else
    let s1 := s.updCem c fun x => x.setLevel sig active
    match sig, active with
    | .vcc, true => ret (powerEval c s1) .ok
    | .clk, true => ret (powerEval c s1) .ok
    | .clk, false => ret s1 .ok
    | .rst, true => rstActive c s1
    | .vcc, false => ret (vccInactive c s1) .ok
    | .rst, false => ret (rstInactive c s1) .ok

/-- `CEM.IOSIG` (R143). -/
def execCemIosig (c : Byte) (signal : BitVec 2) (active : Bool) (s : State) : Outcome :=
  gate (.cemIosig c signal active) s fun s => finish s (cemIosigBody c.toNat (signalOf signal) active s)

/-! ### Bytes to the reader (R150 to R153) -/

/-- R152: the next ATR byte. -/
def txAtr (c : Nat) (s : State) : Body := do
  let b ← memRead1 s .atr (s.cem c).atrIdx
  let s1 := s.updCem c fun x => { x with atrIdx := x.atrIdx + 1 }
  let s2 := if (s1.cem c).atrIdx = s.cfg.atr.length then enterIdle c s1 else s1
  ret s2 .ok (val16 b.toNat)

/-- `tx_finish(c)` (R153). -/
def txFinish (c : Nat) (s : State) : State :=
  let s1 := s.updCem c fun x => { x with txLen := 0, txIdx := 0 }
  match (s1.cem c).cont with
  | .tx => enterIdle c s1
  | .rx =>
    if (s1.cem c).rxLeft = 0 then enterPb c s1
    else s1.updCem c fun x => { x with dir := .rx, rxN := 0 }

/-- R153: the next byte of the host's message. -/
def txQueued (c : Nat) (s : State) : Body := do
  let b ← memRead1 s (.txbuf c) (s.cem c).txIdx
  let s1 := s.updCem c fun x => { x with txIdx := x.txIdx + 1 }
  let s2 := if (s1.cem c).txIdx = (s1.cem c).txLen then txFinish c s1 else s1
  ret s2 .ok (val16 b.toNat)

/-- R151: hand out a pending waiting-time-extension byte, or else go on. -/
def txNullOr (c : Nat) (s : State) (orElse : Body) : Body :=
  if (s.cem c).nullPending then
    ret (wtRestart c (s.updCem c fun x => { x with nullPending := false })) .ok (val16 s.cfg.pbNull.toNat)
  else orElse

/-- R150, the body of `CEM.TXBYTE`. -/
def cemTxbyteBody (c : Nat) (s : State) : Body :=
  match (s.cem c).state with
  | .atrTx => txAtr c s
  | .procedureByte => txNullOr c s (ret s .nodata)
  | .dataExchange =>
    match (s.cem c).dir with
    | .tx => txNullOr c s (txQueued c s)
    | _ => ret s .nodata
  | _ => ret s .nodata

/-- `CEM.TXBYTE` (R150). -/
def execCemTxbyte (c : Byte) (s : State) : Outcome :=
  gate (.cemTxbyte c) s fun s => finish s (cemTxbyteBody c.toNat s)

/-! ### Messages to the host (R156, R191) -/

/-- R191, the body of `UBT.ENQ`. -/
def ubtEnqBody (e h : Nat) (s : State) : Body :=
  if s.cfg.poolN ≤ h then .error (.fatal .badHandle)
  else if (s.ctx h).state ≠ .uartTxPending then .error (.fatal .queueCorrupt)
  else
    let s1 := s.updCtx h fun x => { x with state := .usbTxPending, owner := some e }
    ret (s1.updEp e fun x => { x with queue := x.queue ++ [h] }) .ok

/-- The bytes of a device-to-host message (R90, R91, R156): type `MT_RX_DATA`, sequence number, little-endian payload length, flags,
data. -/
def messageBytes (seq flags : Byte) (bytes : List Byte) : List Byte :=
  [0x81#8, seq, lo8 (1 + bytes.length), hi8 (1 + bytes.length), flags] ++ bytes

/-- `cem_send(c, flags, bytes)` (R156). -/
def cemSend (c : Nat) (flags : Byte) (bytes : List Byte) (s : State) : Body :=
  match s.inEp c with
  | none => ret (s.diag .noInEp c) .discarded
  | some e =>
    match s.alloc (5 + bytes.length) .uartTxPending with
    | (s1, none) => ret s1 .oom
    | (s1, some h) => do
      let s2 ← memWrite s1 (.ctx h) 0 (messageBytes (s1.cem c).seq flags bytes)
      let s3 := s2.updCtx h fun x => { x with size := 5 + bytes.length, totLen := 5 + bytes.length, idx := 0 }
      let s4 := s3.updCem c fun x => { x with seq := x.seq + 1#8 }
      let (s5, _) ← ubtEnqBody e h s4
      ret s5 .ok

/-- What follows a message (R155, R157): the engine owes a procedure byte if it was queued, and is idle if it was not. -/
def afterSend (c : Nat) (r : Body) : Body := do
  let (s', reply) ← r
  if reply.rc = .ok then ret (enterPb c s') .ok else ret (enterIdle c s') reply.rc

/-! ### Bytes from the reader (R154 to R157) -/

/-- R155: a header byte. -/
def rxHeader (c : Nat) (byte : Byte) (s : State) : Body :=
  if (s.cem c).hdrN = 0 ∧ byte = 0xFF#8 then ret s .unmodelled
  else do
    let s1 ← memWrite s (.hdr c) (s.cem c).hdrN [byte]
    let s2 := s1.updCem c fun x => { x with hdrN := x.hdrN + 1 }
    if (s2.cem c).hdrN < hdrLen then ret s2 .ok
    else
      let hdr ← memRead s2 (.hdr c) 0 hdrLen
      let p3 ← memRead1 s2 (.hdr c) 4
      let s3 := s2.updCem c fun x => { x with rxLeft := p3.toNat, rxN := 0 }
      afterSend c (cemSend c fTpduHdr hdr s3)

/-- R157: a data-field byte. -/
def rxData (c : Nat) (byte : Byte) (s : State) : Body :=
  if (s.cem c).rxLeft = 0 then .error (.fault .underflow)
  else do
    let s1 ← memWrite s (.rxbuf c) (s.cem c).rxN [byte]
    let s2 := s1.updCem c fun x => { x with rxN := x.rxN + 1, rxLeft := x.rxLeft - 1 }
    if 0 < (s2.cem c).rxLeft then ret s2 .ok
    else
      let bytes ← memRead s2 (.rxbuf c) 0 (s2.cem c).rxN
      afterSend c (cemSend c 0x00#8 bytes s2)

/-- R154: a byte while the engine is not receiving. -/
def rxDiscard (byte : Byte) (s : State) : Body := ret (s.diag .rxBadState byte.toNat) .discarded

/-- R154, the body of `CEM.RXBYTE`. -/
def cemRxbyteBody (c : Nat) (byte : Byte) (s : State) : Body :=
  match (s.cem c).state with
  | .idle => rxHeader c byte s
  | .dataExchange =>
    match (s.cem c).dir with
    | .rx => rxData c byte s
    | _ => rxDiscard byte s
  | _ => rxDiscard byte s

/-- `CEM.RXBYTE` (R154). -/
def execCemRxbyte (c byte : Byte) (s : State) : Outcome :=
  gate (.cemRxbyte c byte) s fun s => finish s (cemRxbyteBody c.toNat byte s)

/-- R141, the body of `CEM.PUMP`. -/
def cemPumpBody (c : Nat) (s : State) : Body :=
  if (s.rb c).empty s.cfg then ret s .empty
  else do
    let b ← rbHead c s
    let (s', reply) ← cemRxbyteBody c b s
    if reply.rc = .unmodelled then ret s .unmodelled
    else ret (rbAdvance c s') reply.rc (val16 b.toNat)

/-- `CEM.PUMP` (R141). -/
def execCemPump (c : Byte) (s : State) : Outcome := gate (.cemPump c) s fun s => finish s (cemPumpBody c.toNat s)

/-! ### Fi/Di reconfiguration (R158) -/

/-- R158, the body of `CEM.FIDI`. -/
def cemFidiBody (c : Nat) (fidi : Byte) (s : State) : Body :=
  match ratioOf s.cfg (fidiClock fidi) (fidiRate fidi) with
  | none => ret (s.diag .fidiUnsupported fidi.toNat) .unsupported
  | some r => do
    let (s1, _) ← timApplyBody c (BitVec.ofNat 16 r) s
    ret (wtSetEtu c (BitVec.ofNat 16 r) s1) .ok (val16 r)

/-- `CEM.FIDI` (R158). -/
def execCemFidi (c fidi : Byte) (s : State) : Outcome :=
  gate (.cemFidi c fidi) s fun s => finish s (cemFidiBody c.toNat fidi s)

end Sys2Proof.Machine
end

