-- ==== Sys2Proof/Machine/HostMsg.lean ====
section
/-! DEFINITION. The command dispatcher and the hand-over of the host's bytes to the engine: `msg_check` (R221 to R223), `cem_hostmsg`
(R224), and the body of `UBT.DISPATCH` (R220). -/

namespace Sys2Proof.Machine

/-- `cem_hostmsg(c, flags, data)` (R224); a pending waiting-time-extension byte is kept. -/
def cemHostmsg (c : Nat) (flags : Byte) (data : List Byte) (s : State) : Body :=
  if (s.cem c).state ≠ .procedureByte then
    ret (s.diag .hostmsgBadState (s.cem c).state.code) .discarded
  else do
    let s1 ← memWrite s (.txbuf c) 0 data
    let s2 := s1.updCem c fun x =>
      { x with txLen := data.length, txIdx := 0, cont := contOf flags, dir := .tx, state := .dataExchange }
    ret (wtDisarm c s2) .ok

/-- R223: the body of `MT_TX_DATA`, `n` the transfer's size and `plen` its payload length. -/
def msgBody (c h n plen : Nat) (s : State) : Body :=
  if plen < 2 ∨ 1 + s.cfg.txqCap < plen then ret (s.diag .msgMalformed n) .discarded
  else do
    let flags ← memRead1 s (.ctx h) 4
    if hostFlagsOk flags then
      let data ← memRead s (.ctx h) 5 (plen - 1)
      cemHostmsg c flags data s
    else ret (s.diag .msgMalformed flags.toNat) .discarded

/-- `MT_TX_DATA` (R95), the only type the core accepts. -/
def mtTxData : Byte := 0x01#8

/-- `msg_check(c, h)` (R221 to R223). -/
def msgCheck (c h : Nat) (s : State) : Body := do
  let x ← s.heldCtx h
  if x.size < msgHdrLen then ret (s.diag .msgMalformed x.size) .discarded
  else
    let t ← memRead1 s (.ctx h) 0
    let lo ← memRead1 s (.ctx h) 2
    let hi ← memRead1 s (.ctx h) 3
    if le16 lo hi ≠ x.size - msgHdrLen then ret (s.diag .msgMalformed x.size) .discarded
    else if t ≠ mtTxData then ret (s.diag .msgUnknownType t.toNat) .discarded
    else msgBody c h x.size (le16 lo hi) s

/-- The interface that names endpoint `e` as its OUT endpoint (R220). -/
def State.outIf (s : State) (e : Nat) : Option IfConst := s.cfg.ifs.find? fun f => decide (f.out = some e)

/-- R220, the body of `UBT.DISPATCH`: the head context is taken, judged and released on every path. -/
def ubtDispatchBody (e : Nat) (s : State) : Body :=
  match (s.ep e).queue with
  | [] => ret s .empty
  | h :: rest => do
    let s1 := s.updEp e fun x => { x with queue := rest }
    let _ ← s1.heldCtx h
    let (s2, reply) ←
      match s.outIf e with
      | none => ret (s1.diag .noHandler e) .discarded
      | some f => msgCheck f.chan h s1
    ret (s2.release h) reply.rc (val16 h)

end Sys2Proof.Machine
end

