-- ==== Sys2Proof/Decode.lean ====
section
/-! DEFINITION. The decoder of operation requests, total on any list of words and refusing by name, and the encoder, both from
R71 to R74, R78 and spec/opcode_table.json. The tests of R75 that need the parameters stand in WellFormed.lean. -/

namespace Sys2Proof

/-- The fields of a command word (R71). -/
structure Cmd where
  opc : Byte
  sel : Byte
  a : Half
  b : Half
  d : Half
deriving DecidableEq, Repr

/-- R71: the fields of a command word. -/
def Cmd.ofWord (w : PortWord) : Cmd where
  opc := w.extractLsb' 56 8
  sel := w.extractLsb' 48 8
  a := w.extractLsb' 32 16
  b := w.extractLsb' 16 16
  d := w.extractLsb' 0 16

/-- R71: the command word of the fields. -/
def Cmd.word (k : Cmd) : PortWord := k.opc ++ (k.sel ++ (k.a ++ (k.b ++ k.d)))

/-- Why a list of words is no request (R73, R75). -/
inductive Reject where
  | noWords          -- there is no command word
  | reservedOpcode   -- `opc` is not one of the 28 codes of R72
  | nonzeroField     -- an unused field, an unused operand bit or `d` is not zero
  | wrongLength      -- not exactly the data words that R73 asks for
  | nonzeroPadding   -- an unused high byte of the last data word is not zero
deriving DecidableEq, Repr

/-- R73: how many words a request has, told from its command word alone. -/
def requestWords (w : PortWord) : Nat :=
  if (Cmd.ofWord w).opc = 0x74#8 then 1 + ((Cmd.ofWord w).b.toNat + 7) / 8 else 1

/-- R73: the eight bytes of a data word, byte 0 in the lowest bits. -/
def wordBytes (w : PortWord) : List Byte :=
  [w.extractLsb' 0 8, w.extractLsb' 8 8, w.extractLsb' 16 8, w.extractLsb' 24 8,
   w.extractLsb' 32 8, w.extractLsb' 40 8, w.extractLsb' 48 8, w.extractLsb' 56 8]

/-- The low byte of a 16-bit operand field. -/
def lowByte (x : Half) : Byte := x.extractLsb' 0 8

/-- Whether the bits of an operand field at and above `n` are zero (R72). -/
def fitsIn (n : Nat) (x : Half) : Bool := decide (x.toNat < 2 ^ n)

/-- Accept an operation when the fields it leaves unused are zero (R72, R75). -/
def whenZero (ok : Bool) (i : Instr) : Except Reject Instr :=
  if ok then .ok i else .error .nonzeroField

/-- R73: the data bytes of `UBT.RCOMPLETE`. -/
def decodeData (k : Cmd) (ds : List PortWord) : Except Reject Instr :=
  let bytes := ds.flatMap wordBytes
  let len := k.b.toNat
  if ds.length ≠ (len + 7) / 8 then .error .wrongLength
  else if (bytes.drop len).all (fun x => decide (x = 0#8)) then
    .ok (.ubtRcomplete k.sel (lowByte k.a) (bytes.take len))
  else .error .nonzeroPadding

/-- R72: the operation of a one-word request. -/
def decodeCmd (k : Cmd) : Except Reject Instr :=
  let selZ := decide (k.sel = 0#8)
  let aZ := decide (k.a = 0#16)
  let bZ := decide (k.b = 0#16)
  let dZ := decide (k.d = 0#16)
  match k.opc.toNat with
  | 0x01 => whenZero (selZ && aZ && bZ && dZ) .sysReset
  | 0x10 => whenZero (aZ && bZ && dZ) (.rbReset k.sel)
  | 0x11 => whenZero (fitsIn 8 k.a && bZ && dZ) (.rbWrite k.sel (lowByte k.a))
  | 0x12 => whenZero (aZ && bZ && dZ) (.rbRead k.sel)
  | 0x13 => whenZero (aZ && bZ && dZ) (.rbPeek k.sel)
  | 0x14 => whenZero (aZ && bZ && dZ) (.rbIsempty k.sel)
  | 0x20 => whenZero (selZ && fitsIn 8 k.a && fitsIn 8 k.b && dZ) (.timRatio (lowByte k.a) (lowByte k.b))
  | 0x21 => whenZero (bZ && dZ) (.timApply k.sel k.a)
  | 0x30 => whenZero (fitsIn 8 k.b && dZ) (.urxIrq k.sel k.a (lowByte k.b))
  | 0x40 => whenZero (fitsIn 2 k.a && fitsIn 1 k.b && dZ) (.cemIosig k.sel (k.a.extractLsb' 0 2) (k.b.getLsbD 0))
  | 0x41 => whenZero (aZ && bZ && dZ) (.cemTxbyte k.sel)
  | 0x42 => whenZero (fitsIn 8 k.a && bZ && dZ) (.cemRxbyte k.sel (lowByte k.a))
  | 0x43 => whenZero (fitsIn 8 k.a && bZ && dZ) (.cemFidi k.sel (lowByte k.a))
  | 0x44 => whenZero (aZ && bZ && dZ) (.cemPump k.sel)
  | 0x50 => whenZero (bZ && dZ) (.wtSetwt k.sel k.a)
  | 0x51 => whenZero (bZ && dZ) (.wtSetetu k.sel k.a)
  | 0x52 => whenZero (aZ && bZ && dZ) (.wtTick k.sel)
  | 0x60 => whenZero (selZ && fitsIn 3 k.b && dZ) (.poolAlloc k.a (k.b.extractLsb' 0 3))
  | 0x61 => whenZero (aZ && bZ && dZ) (.poolFree k.sel)
  | 0x62 => whenZero (selZ && aZ && bZ && dZ) .poolReport
  | 0x70 => whenZero (fitsIn 8 k.a && bZ && dZ) (.ubtEnq k.sel (lowByte k.a))
  | 0x71 => whenZero (fitsIn 1 k.a && bZ && dZ) (.ubtRefillTohost k.sel (k.a.getLsbD 0))
  | 0x72 => whenZero (fitsIn 8 k.a && fitsIn 1 k.b && dZ) (.ubtWcomplete k.sel (lowByte k.a) (k.b.getLsbD 0))
  | 0x73 => whenZero (fitsIn 1 k.a && bZ && dZ) (.ubtRefillFromhost k.sel (k.a.getLsbD 0))
  | 0x75 => whenZero (fitsIn 3 k.a && bZ && dZ) (.ubtProcess k.sel (k.a.getLsbD 0) (k.a.getLsbD 1) (k.a.getLsbD 2))
  | 0x76 => whenZero (aZ && bZ && dZ) (.ubtDrain k.sel)
  | 0x77 => whenZero (aZ && bZ && dZ) (.ubtDispatch k.sel)
  | _ => .error .reservedOpcode

/-- The decoder: exactly the words of one request, the command word first (R71, R73, R75). -/
def decode (ws : List PortWord) : Except Reject Instr :=
  match ws with
  | [] => .error .noWords
  | w :: ds =>
    let k := Cmd.ofWord w
    if k.opc = 0x74#8 then
      if fitsIn 8 k.a && decide (k.d = 0#16) then decodeData k ds else .error .nonzeroField
    else if ds = [] then decodeCmd k
    else .error .wrongLength

/-- A byte in the low bits of a 16-bit operand field. -/
def byteField (x : Byte) : Half := x.setWidth 16

/-- A bit in bit 0 of a 16-bit operand field. -/
def bitField (x : Bool) : Half := if x then 1#16 else 0#16

/-- R72: the command word's fields for an operation. -/
def cmdOf : Instr → Cmd
  | .sysReset => ⟨0x01#8, 0#8, 0#16, 0#16, 0#16⟩
  | .rbReset c => ⟨0x10#8, c, 0#16, 0#16, 0#16⟩
  | .rbWrite c x => ⟨0x11#8, c, byteField x, 0#16, 0#16⟩
  | .rbRead c => ⟨0x12#8, c, 0#16, 0#16, 0#16⟩
  | .rbPeek c => ⟨0x13#8, c, 0#16, 0#16, 0#16⟩
  | .rbIsempty c => ⟨0x14#8, c, 0#16, 0#16, 0#16⟩
  | .timRatio ci ri => ⟨0x20#8, 0#8, byteField ci, byteField ri, 0#16⟩
  | .timApply c r => ⟨0x21#8, c, r, 0#16, 0#16⟩
  | .urxIrq c st x => ⟨0x30#8, c, st, byteField x, 0#16⟩
  | .cemIosig c sig act => ⟨0x40#8, c, sig.setWidth 16, bitField act, 0#16⟩
  | .cemTxbyte c => ⟨0x41#8, c, 0#16, 0#16, 0#16⟩
  | .cemRxbyte c x => ⟨0x42#8, c, byteField x, 0#16, 0#16⟩
  | .cemFidi c x => ⟨0x43#8, c, byteField x, 0#16, 0#16⟩
  | .cemPump c => ⟨0x44#8, c, 0#16, 0#16, 0#16⟩
  | .wtSetwt c t => ⟨0x50#8, c, t, 0#16, 0#16⟩
  | .wtSetetu c t => ⟨0x51#8, c, t, 0#16, 0#16⟩
  | .wtTick c => ⟨0x52#8, c, 0#16, 0#16, 0#16⟩
  | .poolAlloc size st => ⟨0x60#8, 0#8, size, st.setWidth 16, 0#16⟩
  | .poolFree h => ⟨0x61#8, h, 0#16, 0#16, 0#16⟩
  | .poolReport => ⟨0x62#8, 0#8, 0#16, 0#16, 0#16⟩
  | .ubtEnq e h => ⟨0x70#8, e, byteField h, 0#16, 0#16⟩
  | .ubtRefillTohost e dr => ⟨0x71#8, e, bitField dr, 0#16, 0#16⟩
  | .ubtWcomplete e st dr => ⟨0x72#8, e, byteField st, bitField dr, 0#16⟩
  | .ubtRefillFromhost e dr => ⟨0x73#8, e, bitField dr, 0#16, 0#16⟩
  | .ubtRcomplete e st data => ⟨0x74#8, e, byteField st, BitVec.ofNat 16 data.length, 0#16⟩
  | .ubtProcess k d0 d1 d2 => ⟨0x75#8, k, BitVec.ofNat 16 (4 * d2.toNat + 2 * d1.toNat + d0.toNat), 0#16, 0#16⟩
  | .ubtDrain e => ⟨0x76#8, e, 0#16, 0#16, 0#16⟩
  | .ubtDispatch e => ⟨0x77#8, e, 0#16, 0#16, 0#16⟩

/-- R73: the first eight bytes as one data word, missing bytes zero. -/
def packWord (bs : List Byte) : PortWord :=
  bs.getD 7 0#8 ++ (bs.getD 6 0#8 ++ (bs.getD 5 0#8 ++ (bs.getD 4 0#8 ++
    (bs.getD 3 0#8 ++ (bs.getD 2 0#8 ++ (bs.getD 1 0#8 ++ bs.getD 0 0#8))))))

/-- R73: bytes as `n` data words. -/
def packWords : Nat → List Byte → List PortWord
  | 0, _ => []
  | n + 1, bs => packWord bs :: packWords n (bs.drop 8)

/-- The data words that follow an operation's command word (R73). -/
def dataWords : Instr → List PortWord
  | .ubtRcomplete _ _ data => packWords ((data.length + 7) / 8) data
  | _ => []

/-- The encoder: the words of an operation request (R71 to R73). -/
def encode (i : Instr) : List PortWord := (cmdOf i).word :: dataWords i

/-- The words of an instruction whose bits are `w`, numbered as spec/opcode_table.json numbers them, `n` words. -/
def wordsOfNat : Nat → Nat → List PortWord
  | 0, _ => []
  | n + 1, w => BitVec.ofNat 64 w :: wordsOfNat n (w / 2 ^ 64)

/-- The request whose bits are `w`: as many words as the command word asks for (R73), the bits at and above `nbits` zero. -/
def requestOfNat (nbits w : Nat) : List PortWord :=
  let v := w % 2 ^ nbits
  wordsOfNat (requestWords (BitVec.ofNat 64 v)) v

/-- What the decoder reads from an instruction whose bits are `w` (bit 0 the least significant bit of the command word). -/
def decodeTableWord (nbits w : Nat) : Option Instr :=
  (decode (requestOfNat nbits w)).toOption

end Sys2Proof
end

