-- ==== Sys2Proof/Machine/Port.lean ====
section
/-! DEFINITION. The operation port: how the presented words divide into requests (R73), which operations are interrupt context (R240),
and when an interrupt-context request steps at a boundary inside a main-context operation (R243). -/

namespace Sys2Proof.Machine

/-- R73: the words of the first request on the port and the words after it; none while its words are not all there (assumption
9). -/
def splitRequest : List PortWord → Option (List PortWord × List PortWord)
  | [] => none
  | w :: ws =>
    let n := requestWords w
    if n ≤ ws.length + 1 then some ((w :: ws).take n, (w :: ws).drop n) else none

/-- R240: the operation codes that agents AG1 to AG5 present in interrupt context, and `SYS.RESET` (AG7), which may come at any
boundary. R240 gives `TIM.APPLY` and `POOL.ALLOC` to the main loop alone and R248 calls them usable from both contexts; a request for
either counts as the main loop's here (DEDUCED, assumption 8). -/
def interruptOpcodes : List Byte := [0x30#8, 0x40#8, 0x41#8, 0x52#8, 0x72#8, 0x74#8, 0x01#8]

/-- A command word whose operation may step inside a main-context operation (R240, R243). -/
def isInterruptWord (w : PortWord) : Bool := interruptOpcodes.contains (Cmd.ofWord w).opc

/-- The first request on the port is one that may step inside a main-context operation. -/
def State.irqPresented (s : State) : Bool :=
  match splitRequest s.port with
  | some (w :: _, _) => isInterruptWord w
  | _ => false

/-- R243: at this boundary inside `UBT.PROCESS` an interrupt-context request steps (assumption 6). -/
def State.preempted (s : State) : Bool := decide (s.preempt.head? = some true) && s.irqPresented

/-- The boundary passes: the choice made there is used up (assumption 6). -/
def State.passBoundary (s : State) : State := { s with preempt := s.preempt.tail }

end Sys2Proof.Machine
end

