-- ==== Sys2Proof/Machine/Ubt.lean ====
section
/-! DEFINITION. The meanings of the buffered USB transport's operations: `UBT.ENQ` (R191), the refills and completions (R192 to R198),
`UBT.PROCESS` (R199), `UBT.DRAIN` (R200) and `UBT.DISPATCH` (R220). -/

namespace Sys2Proof.Machine

/-! ### Device to host -/

/-- `UBT.ENQ` (R191). -/
def execUbtEnq (e h : Byte) (s : State) : Outcome :=
  gate (.ubtEnq e h) s fun s => finish s (ubtEnqBody e.toNat h.toNat s)

/-- R192, the body of `UBT.REFILL_TOHOST`. -/
def refillTohostBody (e : Nat) (draw : Bool) (s : State) : Body :=
  if (s.ep e).inProgress then ret s .nop
  else
    match (s.ep e).queue with
    | [] => ret s .nop
    | h :: rest => do
      let x ← s.heldCtx h
      let s1 := s.updEp e fun y => { y with queue := rest, inProgress := true, cur := some h, zlp := false }
      let s2 := s1.emit (.usbWrite (s.epConst e).addr h x.size)
      if draw then ret (s2.updCtx h fun y => { y with state := .usbTxBusy }) .ok (val16 h)
      else
        let s3 := s2.updEp e fun y => { y with queue := h :: y.queue, inProgress := false, cur := none }
        ret (s3.diag .usbWriteSubmitFail h) .fail (val16 h)

/-- `UBT.REFILL_TOHOST` (R192). -/
def execUbtRefillTohost (e : Byte) (draw : Bool) (s : State) : Outcome :=
  gate (.ubtRefillTohost e draw) s fun s => finish s (refillTohostBody e.toNat draw s)

/-- The end of a write transfer (R194): the context is released and the endpoint idle. -/
def writeDone (e h : Nat) (s : State) : State :=
  (s.release h).updEp e fun y => { y with inProgress := false, cur := none, zlp := false }

/-- R194 and R195, the body of `UBT.WCOMPLETE`, after the test of R198. A failed completion and a refused follow-up answer OK with their
diagnostic, as R194 has it, where R233 says a non-OK code (DEDUCED, assumption 25). -/
def wcompleteBody (e : Nat) (status : Byte) (draw : Bool) (s : State) : Body :=
  if !(s.ep e).inProgress then ret s .illegal
  else
    match (s.ep e).cur with
    | none => .error (.fault .noContext)
    | some h => do
      let x ← s.heldCtx h
      if !(s.ep e).zlp && isSuccess status && decide (x.size % (s.epConst e).mps = 0) then
        let s1 := s.emit (.usbWrite (s.epConst e).addr h 0)
        if draw then ret (s1.updEp e fun y => { y with zlp := true }) .ok
        else ret (writeDone e h (s1.diag .usbWriteSubmitFail h)) .ok
      else if isSuccess status then ret (writeDone e h s) .ok
      else ret (writeDone e h (s.diag .usbXferError status.toNat)) .ok

/-- `UBT.WCOMPLETE` (R194). -/
def execUbtWcomplete (e status : Byte) (draw : Bool) (s : State) : Outcome :=
  gate (.ubtWcomplete e status draw) s fun s => finish s (wcompleteBody e.toNat status draw s)

/-! ### Host to device -/

/-- R196, the body of `UBT.REFILL_FROMHOST`. -/
def refillFromhostBody (e : Nat) (draw : Bool) (s : State) : Body :=
  if (s.ep e).inProgress then ret s .nop
  else
    match s.alloc s.cfg.ctxSize .usbRxBusy with
    | (s1, none) => ret s1 .oom
    | (s1, some h) =>
      let s2 := s1.updCtx h fun y => { y with owner := some e }
      let s3 := s2.updEp e fun y => { y with inProgress := true, cur := some h }
      let s4 := s3.emit (.usbRead (s.epConst e).addr h s.cfg.ctxSize)
      if draw then ret s4 .ok (val16 h)
      else
        let s5 := (s4.release h).updEp e fun y => { y with inProgress := false, cur := none }
        ret (s5.diag .usbReadSubmitFail e) .fail

/-- `UBT.REFILL_FROMHOST` (R196). -/
def execUbtRefillFromhost (e : Byte) (draw : Bool) (s : State) : Outcome :=
  gate (.ubtRefillFromhost e draw) s fun s => finish s (refillFromhostBody e.toNat draw s)

/-- The end of a read transfer (R197): the endpoint is idle. -/
def readDone (e : Nat) (s : State) : State := s.updEp e fun y => { y with inProgress := false, cur := none }

/-- R197, the body of `UBT.RCOMPLETE`, after the test of R198. A failed completion answers OK with its diagnostic, as R197 has it, where
R233 says a non-OK code (DEDUCED, assumption 25). -/
def rcompleteBody (e : Nat) (status : Byte) (data : List Byte) (s : State) : Body :=
  if !(s.ep e).inProgress then ret s .illegal
  else
    match (s.ep e).cur with
    | none => .error (.fault .noContext)
    | some h => do
      let _ ← s.heldCtx h
      if isSuccess status then
        let s1 ← memWrite s (.ctx h) 0 data
        let s2 := s1.updCtx h fun y =>
          { y with size := data.length, totLen := data.length, idx := 0, state := .usbRxPending }
        ret (readDone e (s2.updEp e fun y => { y with queue := y.queue ++ [h] })) .ok
      else ret (readDone e ((s.diag .usbXferError status.toNat).release h)) .ok

/-- `UBT.RCOMPLETE` (R197). -/
def execUbtRcomplete (e status : Byte) (data : List Byte) (s : State) : Outcome :=
  gate (.ubtRcomplete e status data) s fun s => finish s (rcompleteBody e.toNat status data s)

/-! ### The dispatcher -/

/-- `UBT.DISPATCH` (R220). -/
def execUbtDispatch (e : Byte) (s : State) : Outcome :=
  gate (.ubtDispatch e) s fun s => finish s (ubtDispatchBody e.toNat s)

/-! ### Polling (R199) -/

/-- A refill part of R199, where the interface names the endpoint. -/
def optRefill (e : Option Nat) (body : Nat → Body) (s : State) : Body :=
  match e with
  | none => ret s .nop
  | some e => body e

/-- One part of R199: the state it leaves, the contexts dispatched by now, and whether the operation is over. -/
def processPart (p : Proc) (s : State) : Except Stop (State × Nat × Bool) :=
  match s.cfg.ifs[p.k]? with
  | none => .ok (s, p.n, true)
  | some f =>
    match p.part with
    | 0 => do
      let (s', _) ← optRefill f.irq (fun e => refillTohostBody e p.drawIrq s) s
      .ok (s', p.n, false)
    | 1 => do
      let (s', _) ← optRefill f.inn (fun e => refillTohostBody e p.drawIn s) s
      .ok (s', p.n, false)
    | 2 => do
      let (s', _) ← optRefill f.out (fun e => refillFromhostBody e p.drawOut s) s
      .ok (s', p.n, f.out.isNone || decide (s.cfg.dispatchMax = 0))
    | _ =>
      match f.out with
      | none => .ok (s, p.n, true)
      | some e => do
        let (s', reply) ← ubtDispatchBody e s
        if reply.rc = .empty then .ok (s', p.n, true)
        else .ok (s', p.n + 1, decide (s.cfg.dispatchMax ≤ p.n + 1))

/-- The last diagnostic of the operation's parts after one more part (R199). -/
def partAux (aux : Byte) (s t : State) : Byte :=
  let a := lastDiag (newEvents s t)
  if a = 0#8 then aux else a

/-- R199: the end of `UBT.PROCESS`, `OK(n)`. -/
def processDone (aux : Byte) (n : Nat) (s : State) : State :=
  ({ s with mainOp := none }).answer .ok aux (val16 n)

/-- R199: run parts until the operation is over or an interrupt-context request steps between two of them; then the operation
stays in progress (assumption 7). `fuel` bounds the parts left. -/
def processRun : Nat → Proc → State → Outcome
  | 0, p, s => .next (processDone p.aux p.n s)
  | fuel + 1, p, s =>
    match processPart p s with
    | .error (.fatal code) => .next (({ s with mainOp := none }).raiseFatal code)
    | .error (.fault f) => .fault f
    | .ok (t, n, done) =>
      let p' := { p with part := p.part + 1, n := n, aux := partAux p.aux s t }
      if done then .next (processDone p'.aux n t)
      else if t.preempted then .next { t with mainOp := some (.process p') }
      else processRun fuel p' t.passBoundary

/-- Enough for the three refills and the dispatches (R199). -/
def processFuel (s : State) : Nat := s.cfg.dispatchMax + 4

/-- Go on with a suspended `UBT.PROCESS` (R199); a halted core answers HALTED (R232; assumption 22). -/
def processResume (p : Proc) (s : State) : Outcome :=
  if s.halted then .next ({ s with mainOp := none }).answerHalted
  else processRun (processFuel s) p s

/-- `UBT.PROCESS` (R199). -/
def execUbtProcess (k : Byte) (drawIrq drawIn drawOut : Bool) (s : State) : Outcome :=
  gate (.ubtProcess k drawIrq drawIn drawOut) s fun s =>
    processRun (processFuel s) ⟨k.toNat, drawIrq, drawIn, drawOut, 0, 0, 0#8⟩ s

/-! ### Teardown (R200) -/

/-- R200, the rest of the body once no transfer is in flight: every queued context is released. -/
def drainBody (e : Nat) (s : State) : Body :=
  let q := (s.ep e).queue
  if q.all fun h => decide (h < s.ctxs.length) then
    ret ((s.releaseAll q).updEp e fun y => { y with queue := [] }) .ok (val16 q.length)
  else .error (.fault .noContext)

/-- R200: the end of a `UBT.DRAIN`, when its hold is over; on a core halted meanwhile it ends with HALTED (R232). -/
def drainEnd (e : Nat) (s : State) : Outcome :=
  let s0 := { s with mainOp := none }
  if s.halted then .next s0.answerHalted else finish s0 (drainBody e s0)

/-- `UBT.DRAIN` (R200): with a transfer in flight it is held, answers nothing yet and changes nothing but that it is pending
(assumption 7). -/
def execUbtDrain (e : Byte) (s : State) : Outcome :=
  gate (.ubtDrain e) s fun s =>
    if (s.ep e.toNat).inProgress then .next { s with mainOp := some (.drain e.toNat) } else drainEnd e.toNat s

end Sys2Proof.Machine
end

