-- ==== Sys2Proof/Machine/Dispatch.lean ====
section
/-! DEFINITION. One arm per operation: the meaning of a decoded request (R72). -/

namespace Sys2Proof.Machine

def exec (i : Instr) (s : State) : Host.Outcome State Fault Refusal :=
  match i with
  | .sysReset => Sys2Proof.Machine.execSysReset s
  | .rbReset c => Sys2Proof.Machine.execRbReset c s
  | .rbWrite c byte => Sys2Proof.Machine.execRbWrite c byte s
  | .rbRead c => Sys2Proof.Machine.execRbRead c s
  | .rbPeek c => Sys2Proof.Machine.execRbPeek c s
  | .rbIsempty c => Sys2Proof.Machine.execRbIsempty c s
  | .timRatio clockIndex rateIndex => Sys2Proof.Machine.execTimRatio clockIndex rateIndex s
  | .timApply c ratio => Sys2Proof.Machine.execTimApply c ratio s
  | .urxIrq c status data => Sys2Proof.Machine.execUrxIrq c status data s
  | .cemIosig c signal active => Sys2Proof.Machine.execCemIosig c signal active s
  | .cemTxbyte c => Sys2Proof.Machine.execCemTxbyte c s
  | .cemRxbyte c byte => Sys2Proof.Machine.execCemRxbyte c byte s
  | .cemFidi c fidi => Sys2Proof.Machine.execCemFidi c fidi s
  | .cemPump c => Sys2Proof.Machine.execCemPump c s
  | .wtSetwt c wtime => Sys2Proof.Machine.execWtSetwt c wtime s
  | .wtSetetu c ticks => Sys2Proof.Machine.execWtSetetu c ticks s
  | .wtTick c => Sys2Proof.Machine.execWtTick c s
  | .poolAlloc size newState => Sys2Proof.Machine.execPoolAlloc size newState s
  | .poolFree h => Sys2Proof.Machine.execPoolFree h s
  | .poolReport => Sys2Proof.Machine.execPoolReport s
  | .ubtEnq e h => Sys2Proof.Machine.execUbtEnq e h s
  | .ubtRefillTohost e draw => Sys2Proof.Machine.execUbtRefillTohost e draw s
  | .ubtWcomplete e status draw => Sys2Proof.Machine.execUbtWcomplete e status draw s
  | .ubtRefillFromhost e draw => Sys2Proof.Machine.execUbtRefillFromhost e draw s
  | .ubtRcomplete e status data => Sys2Proof.Machine.execUbtRcomplete e status data s
  | .ubtProcess k drawIrq drawIn drawOut => Sys2Proof.Machine.execUbtProcess k drawIrq drawIn drawOut s
  | .ubtDrain e => Sys2Proof.Machine.execUbtDrain e s
  | .ubtDispatch e => Sys2Proof.Machine.execUbtDispatch e s

end Sys2Proof.Machine
end

