-- ==== Sys2Proof/Machine/Cycle.lean ====
section
/-! DEFINITION. One step of the core: take the request presented at the port, or go on with the main-context operation in progress
(R57, R199, R200, R243). -/

namespace Sys2Proof.Machine

/-- Take the first request on the port and run it. With none there, or not all of its words, the core waits unchanged (R251, R262;
assumptions 4 and 9). A request that does not decode answers ILLEGAL (R75). -/
def takeRequest (s : State) : Outcome :=
  match splitRequest s.port with
  | none => .next s
  | some (ws, rest) =>
    match decode ws with
    | .ok i => exec i { s with port := rest }
    | .error _ => .next ({ s with port := rest }).answerIllegal

/-- One step. A held `UBT.DRAIN` ends at the first boundary where its endpoint is idle or the core halted; until then only
interrupt-context requests step (R200). A suspended `UBT.PROCESS` goes on unless an interrupt-context request steps first (R199). -/
def cycle (s : State) : Outcome :=
  match s.mainOp with
  | none => takeRequest s
  | some (.drain e) =>
    if s.halted || !(s.ep e).inProgress then drainEnd e s
    else if s.irqPresented then takeRequest s
    else .next s
  | some (.process p) =>
    if s.preempted then takeRequest s.passBoundary else processResume p s.passBoundary

/-- The state whose next step takes the request whose bits are `w`: its words stand first on the port, and no main-context
operation is in progress (assumption 4). -/
def placeRequest (s : State) (nbits w : Nat) : State :=
  { s with port := requestOfNat nbits w ++ s.port, mainOp := none }

end Sys2Proof.Machine
end

