-- ==== Sys2Proof/Machine/Step.lean ====
section
/-! DEFINITION. The step of the machine, and the placing of a request where the step takes its next one. -/

namespace Sys2Proof.Machine

/-- One step of the core (see `cycle`). -/
def step (s : State) : Host.Outcome State Fault Refusal := cycle s

/-- `s` with the request whose bits are `w` presented first (see `placeRequest`). -/
def State.withFetchWord (s : State) (nbits w : Nat) : State := placeRequest s nbits w

end Sys2Proof.Machine
end

