-- ==== Sys2Proof/Safety.lean ====
section
/-! DEFINITION. What counts as a safe state and a legal run, in the terms the statements use: the invariants of 10_state (R15 to R22,
R24 to R34) and of the transport (R203), the operations that may run, the bytes an operation stores, the transition tables of the
engine (R162) and of the contexts (R17), the ring buffer as a queue (R125), sequences of operations. -/

namespace Sys2Proof.Machine

/-! ### Shapes -/

/-- The lists of the state have the lengths of the parameters (R10). -/
abbrev State.shape (s : State) : Prop :=
  s.chans.length = s.cfg.nChan ∧ s.ctxs.length = s.cfg.poolN ∧ s.eps.length = s.cfg.eps.length

/-- A request that reaches its rule body: well-formed parameters, a state of their shape, a legal request, a core that is not
halted (R75, R238). -/
abbrev Ready (i : Instr) (s : State) : Prop :=
  s.cfg.wellFormed = true ∧ s.shape ∧ i.wellFormed s.cfg = true ∧ s.halted = false

/-! ### Invariants of one channel -/

/-- A store in canonical form with every written offset below `n`. -/
abbrev Memory.within (n : Nat) (m : Memory) : Prop := m.wf = true ∧ ∀ x ∈ m, x.1 < n

/-- R19, R20: the indices in their range, the count within what the buffer holds. -/
abbrev RingOk (p : Config) (r : Ring) : Prop :=
  r.wr < 2 * p.rbCap ∧ r.rd < 2 * p.rbCap ∧ r.count p ≤ p.rbUsable ∧ Memory.within p.rbCap r.buf

/-- R21, R22: a ratio in range, the receiver enabled, only error bits in the status word. -/
abbrev UartOk (p : Config) (x : Chan) : Prop :=
  p.ratioMin ≤ x.uart.fidi.toNat ∧ x.uart.fidi.toNat ≤ p.ratioMax ∧ x.uart.rxEn = true ∧ x.stat &&& 0x05E0#16 = x.stat

/-- R24: what each engine state says of the signal levels. -/
abbrev LevelsOk (x : Cem) : Prop :=
  (x.state = .poweredOff → ¬(x.vcc = true ∧ x.clk = true)) ∧
  (x.state = .inReset → x.rst = true) ∧
  (x.state ≠ .poweredOff → x.state ≠ .inReset → x.vcc = true ∧ x.rst = false)

/-- R24, R25: how many header bytes each engine state holds. -/
abbrev HeaderOk (x : Cem) : Prop :=
  (x.state = .idle → x.hdrN ≤ 4) ∧
  (x.state = .procedureByte ∨ x.state = .dataExchange → x.hdrN = 5) ∧
  (x.state ≠ .idle → x.state ≠ .procedureByte → x.state ≠ .dataExchange → x.hdrN = 0)

/-- R26 to R30, R153, R157: the counters of the exchange. -/
abbrev ExchangeOk (p : Config) (x : Cem) : Prop :=
  x.atrIdx ≤ p.atr.length ∧ (x.state = .atrTx → x.atrIdx < p.atr.length) ∧
  x.txIdx ≤ x.txLen ∧ x.txLen ≤ p.txqCap ∧
  (x.dir = .none ↔ x.state ≠ .dataExchange) ∧
  (x.dir = .tx → x.txIdx < x.txLen) ∧ (x.dir ≠ .tx → x.txLen = 0) ∧
  (x.dir = .rx → 1 ≤ x.rxLeft) ∧ x.rxN + x.rxLeft ≤ 255 ∧
  (x.nullPending = true → x.state = .procedureByte ∨ x.dir = .tx)

/-- The engine's stores are canonical and within their bounds (R50). -/
abbrev BuffersOk (p : Config) (x : Cem) : Prop :=
  Memory.within hdrLen x.hdr ∧ Memory.within p.txqCap x.txbuf ∧ Memory.within p.rxbufCap x.rxbuf

/-- R32, R183: a running countdown, and that it runs only while a procedure byte is owed. -/
abbrev TimerOk (x : Chan) : Prop :=
  (x.wt.armed = true → 0 < x.wt.period ∧ 1 ≤ x.wt.remaining ∧ x.wt.remaining ≤ x.wt.period ∧
    x.cem.state = .procedureByte) ∧
  (x.wt.armed = false → x.wt.remaining = 0)

/-- The invariants of one channel. -/
abbrev ChanOk (p : Config) (x : Chan) : Prop :=
  RingOk p x.rb ∧ UartOk p x ∧ LevelsOk x.cem ∧ HeaderOk x.cem ∧ ExchangeOk p x.cem ∧ BuffersOk p x.cem ∧ TimerOk x

/-! ### Invariants of the pool and the endpoints -/

/-- R16, R46, R114: the sizes of a context, and the cleared bookkeeping of a free one. -/
abbrev CtxOk (p : Config) (x : Ctx) : Prop :=
  x.size ≤ p.ctxSize ∧ x.idx ≤ x.size ∧ x.totLen ≤ p.ctxSize ∧ Memory.within p.ctxSize x.buf ∧
  (x.state = .free → x.size = 0 ∧ x.totLen = 0 ∧ x.idx = 0 ∧ x.owner = none)

/-- R34: the state of a context queued on an endpoint. -/
def pendingState : EpDir → CtxState
  | .toHost => .usbTxPending
  | .fromHost => .usbRxPending

/-- R34: the state of a context that an endpoint's transfer in flight refers to. -/
def busyState : EpDir → CtxState
  | .toHost => .usbTxBusy
  | .fromHost => .usbRxBusy

/-- R33, R34, R18: endpoint `e`, its queue without repeats, every context it refers to owned by it and in the state that goes with
the reference. -/
abbrev EpOk (s : State) (e : Nat) : Prop :=
  ((s.ep e).inProgress = false ↔ (s.ep e).cur = none) ∧
  ((s.ep e).zlp = true → (s.ep e).inProgress = true ∧ (s.epConst e).dir = .toHost) ∧
  (∀ h ∈ (s.ep e).cur.toList,
    h < s.ctxs.length ∧ (s.ctx h).owner = some e ∧ (s.ctx h).state = busyState (s.epConst e).dir) ∧
  (∀ h ∈ (s.ep e).queue,
    h < s.ctxs.length ∧ (s.ctx h).owner = some e ∧ (s.ctx h).state = pendingState (s.epConst e).dir) ∧
  (s.ep e).queue.Nodup

/-- R18, R203: where context `h` is. One without an owner is free or came from `POOL.ALLOC`; one with an owner is in that
endpoint's queue or in its transfer in flight. -/
abbrev OwnerOk (s : State) (h : Nat) : Prop :=
  ((s.ctx h).owner = none →
    (s.ctx h).state = .free ∨ (s.ctx h).state = .uartTxPending ∨ (s.ctx h).state = .usbRxBusy) ∧
  (∀ e ∈ (s.ctx h).owner.toList, e < s.eps.length ∧
    (((s.ctx h).state = pendingState (s.epConst e).dir ∧ h ∈ (s.ep e).queue) ∨
      ((s.ctx h).state = busyState (s.epConst e).dir ∧ (s.ep e).cur = some h)))

/-- The invariants of the pool and of the endpoints together. -/
abbrev TransportOk (s : State) : Prop :=
  (∀ x ∈ s.ctxs, CtxOk s.cfg x) ∧ (∀ e, e < s.eps.length → EpOk s e) ∧ (∀ h, h < s.ctxs.length → OwnerOk s h)

/-- R15, R230: the halt code is 0 while not halted, else a fatal code. -/
abbrev HaltOk (s : State) : Prop :=
  (s.halted = false → s.haltCode = 0#8) ∧
  (s.halted = true → s.haltCode = 0xF0#8 ∨ s.haltCode = 0xF1#8 ∨ s.haltCode = 0xF2#8)

/-- What a main-context operation in progress has recorded. A held `UBT.DRAIN` names an endpoint that exists (R200). A suspended
`UBT.PROCESS` names an interface by a selector, has run its first part, counts one context for each dispatch behind it, and has a
dispatch left where its refills are done (R199). -/
def mainOk (s : State) : Bool :=
  match s.mainOp with
  | none => true
  | some (.drain e) => decide (e < s.eps.length)
  | some (.process p) =>
    decide (p.k < 256) && decide (1 ≤ p.part) && decide (p.n = p.part - 3) && (s.cfg.ifs[p.k]?).any fun f =>
      decide (p.part < 3) || (f.out.isSome && decide (p.n < s.cfg.dispatchMax))

/-- The invariant of the core: what holds at every operation boundary. -/
abbrev CoreInv (s : State) : Prop :=
  s.cfg.wellFormed = true ∧ s.shape ∧ (∀ x ∈ s.chans, ChanOk s.cfg x) ∧ TransportOk s ∧ HaltOk s ∧ mainOk s = true

/-! ### Operations and the rest of an operation -/

/-- The next step takes no request: it goes on with a suspended `UBT.PROCESS` (R199) or ends a held `UBT.DRAIN` (R200). -/
def State.goesOn (s : State) : Bool :=
  match s.mainOp with
  | none => false
  | some (.drain e) => s.halted || !(s.ep e).inProgress
  | some (.process _) => !s.preempted

/-- The main-context operation in progress is the rest of operation `i`. -/
def MainOp.isRestOf : MainOp → Instr → Bool
  | .process p, .ubtProcess k drawIrq drawIn drawOut =>
    decide (p.k = k.toNat ∧ p.drawIrq = drawIrq ∧ p.drawIn = drawIn ∧ p.drawOut = drawOut)
  | .drain e, .ubtDrain d => decide (e = d.toNat)
  | _, _ => false

/-- Operation `i` leads from `s` to `t`: as a request, or as the step that goes on with the rest of it. -/
abbrev Runs (i : Instr) (s t : State) : Prop :=
  exec i s = .next t ∨ (s.mainOp.any (·.isRestOf i) = true ∧ s.goesOn = true ∧ step s = .next t)

/-! ### Sequences of operations -/

/-- Run requests one after another: the responses and the last state, if none of them stops. -/
def runAll : List Instr → State → Option (List Response × State)
  | [], s => some ([], s)
  | i :: is, s =>
    match exec i s with
    | .next t => (runAll is t).map fun r => (t.resp :: r.1, r.2)
    | _ => none

/-! ### The ring buffer as a queue (R125) -/

/-- The bytes that ring buffer `c` holds, oldest first. -/
def State.ringBytes (s : State) (c : Nat) : List Byte :=
  (List.range ((s.rb c).count s.cfg)).map fun i => s.cell (.rb c) (((s.rb c).rd + i) % s.cfg.rbCap)

/-- The operations of R125's sequences on channel `c`. -/
def isFifoOp (c : Byte) : Instr → Bool
  | .rbWrite d _ => decide (d = c)
  | .rbRead d => decide (d = c)
  | .rbPeek d => decide (d = c)
  | .rbIsempty d => decide (d = c)
  | _ => false

/-- The bytes of the writes that were answered OK, in order. -/
def bytesWritten : List Instr → List Response → List Byte
  | .rbWrite _ b :: is, r :: rs => (if r.rc = .ok then [b] else []) ++ bytesWritten is rs
  | _ :: is, _ :: rs => bytesWritten is rs
  | _, _ => []

/-- The bytes of the reads that were answered OK, in order. -/
def bytesRead : List Instr → List Response → List Byte
  | .rbRead _ :: is, r :: rs => (if r.rc = .ok then [r.val.extractLsb' 0 8] else []) ++ bytesRead is rs
  | _ :: is, _ :: rs => bytesRead is rs
  | _, _ => []

/-! ### What an operation stores -/

/-- The offsets `0` to `n - 1` of store `sp`. -/
def firstBytes (sp : Space) (n : Nat) (sp' : Space) (a : Nat) : Bool := decide (sp' = sp ∧ a < n)

/-- The one cell `a` of store `sp`. -/
def oneByte (sp : Space) (a : Nat) (sp' : Space) (a' : Nat) : Bool := decide (sp' = sp ∧ a' = a)

/-- The bytes of a device-to-host message of `n` data bytes (R156): the first `5 + n` of the context it is composed in, if the channel
has an IN endpoint and the pool a free context. -/
def messageStore (s : State) (c n : Nat) (sp : Space) (a : Nat) : Bool :=
  (s.inEp c).isSome && (s.firstFree).any fun h => firstBytes (.ctx h) (5 + n) sp a

/-- The bytes that `CEM.RXBYTE` stores (R155, R157). -/
def rxStore (s : State) (c : Nat) (sp : Space) (a : Nat) : Bool :=
  match (s.cem c).state, (s.cem c).dir with
  | .idle, _ =>
    oneByte (.hdr c) (s.cem c).hdrN sp a || (decide ((s.cem c).hdrN = 4) && messageStore s c 5 sp a)
  | .dataExchange, .rx =>
    oneByte (.rxbuf c) (s.cem c).rxN sp a ||
      (decide ((s.cem c).rxLeft = 1) && messageStore s c ((s.cem c).rxN + 1) sp a)
  | _, _ => false

/-- The cell that a byte entering ring buffer `c` is stored to (R121); none while it is full. -/
def ringStore (s : State) (c : Nat) (sp : Space) (a : Nat) : Bool :=
  !(s.rb c).full s.cfg && oneByte (.rb c) ((s.rb c).wr % s.cfg.rbCap) sp a

/-- The data bytes that the message of context `h` hands to the engine of channel `c` (R224): its payload length less one. -/
def messageData (s : State) (h : Nat) : Nat := le16 (s.cell (.ctx h) 2) (s.cell (.ctx h) 3) - 1

/-- The bytes an operation may store to (20_memory R50), computed as its rule computes them; every other byte of every store is
unchanged. `UBT.PROCESS` may store to the transmit buffer of its interface's channel, by its dispatches. `SYS.RESET` leaves every
byte unspecified (R46). -/
def mayStore (i : Instr) (s : State) (sp : Space) (a : Nat) : Bool :=
  match i with
  | .sysReset => true
  | .rbWrite c _ => ringStore s c.toNat sp a
  | .urxIrq c status _ => decide (status &&& 0x05E0#16 = 0#16) && ringStore s c.toNat sp a
  | .cemRxbyte c _ => rxStore s c.toNat sp a
  | .cemPump c => rxStore s c.toNat sp a
  | .ubtRcomplete e status data =>
    decide (status = 0#8) && (s.ep e.toNat).cur.any fun h => firstBytes (.ctx h) data.length sp a
  | .ubtDispatch e =>
    match (s.ep e.toNat).queue, s.outIf e.toNat with
    | h :: _, some f =>
      decide ((s.cem f.chan).state = .procedureByte) && firstBytes (.txbuf f.chan) (messageData s h) sp a
    | _, _ => false
  | .ubtProcess k _ _ _ => (s.cfg.ifs[k.toNat]?).any fun f => firstBytes (.txbuf f.chan) s.cfg.txqCap sp a
  | .rbReset _ => false
  | .rbRead _ => false
  | .rbPeek _ => false
  | .rbIsempty _ => false
  | .timRatio _ _ => false
  | .timApply _ _ => false
  | .cemIosig _ _ _ => false
  | .cemTxbyte _ => false
  | .cemFidi _ _ => false
  | .wtSetwt _ _ => false
  | .wtSetetu _ _ => false
  | .wtTick _ => false
  | .poolAlloc _ _ => false
  | .poolFree _ => false
  | .poolReport => false
  | .ubtEnq _ _ => false
  | .ubtRefillTohost _ _ => false
  | .ubtWcomplete _ _ _ => false
  | .ubtRefillFromhost _ _ => false
  | .ubtDrain _ => false

/-! ### The transition tables -/

/-- R142: the engine with any TPDU in progress forgotten. -/
def Cem.noExchange (x : Cem) : Cem :=
  { x with
    hdrN := 0, txLen := 0, txIdx := 0, rxN := 0, rxLeft := 0, dir := .none, cont := .tx, nullPending := false }

/-- R162: the rows of the transition table of `cem.state` that change it, by the operation of the event, the engine before (`x`) and
the engine after (`y`); `c` is the channel, `chanOf` the channel an OUT endpoint or an interface serves. -/
def cemEdge (p : Config) (c : Nat) (x y : Cem) : Instr → Prop
  | .cemIosig d sig act =>
    d.toNat = c ∧
    ((x.state = .poweredOff ∧ (sig = 0#2 ∨ sig = 1#2) ∧ act = true ∧ y.vcc = true ∧ y.clk = true ∧
        ((x.rst = false ∧ y.state = .clockActive) ∨ (x.rst = true ∧ y.state = .inReset))) ∨
      (sig = 2#2 ∧ act = true ∧ y = { x.noExchange with rst := true, atrIdx := 0, state := .inReset }) ∨
      (sig = 0#2 ∧ act = false ∧ y = { x.noExchange with vcc := false, atrIdx := 0, state := .poweredOff }) ∨
      (sig = 2#2 ∧ act = false ∧ x.state = .inReset ∧ x.vcc = true ∧ x.clk = true ∧
        y = { x with rst := false, state := .atrTx, atrIdx := 0 }) ∨
      (sig = 2#2 ∧ act = false ∧ x.state = .inReset ∧ ¬(x.vcc = true ∧ x.clk = true) ∧
        y = { x with rst := false, state := .poweredOff }))
  | .cemTxbyte d =>
    d.toNat = c ∧
    ((x.state = .atrTx ∧ x.atrIdx + 1 = p.atr.length ∧
        y = { x.noExchange with atrIdx := x.atrIdx + 1, state := .idle }) ∨
      (x.state = .dataExchange ∧ x.dir = .tx ∧ x.txIdx + 1 = x.txLen ∧ x.cont = .tx ∧
        y = { x.noExchange with state := .idle }) ∨
      (x.state = .dataExchange ∧ x.dir = .tx ∧ x.txIdx + 1 = x.txLen ∧ x.cont = .rx ∧ x.rxLeft = 0 ∧
        y.state = .procedureByte ∧ y.dir = .none))
  | .cemRxbyte d _ =>
    d.toNat = c ∧
    ((x.state = .idle ∧ x.hdrN = 4 ∧ y.state = .procedureByte ∧ y.seq = x.seq + 1#8) ∨
      (x.state = .dataExchange ∧ x.dir = .rx ∧ x.rxLeft = 1 ∧ y.state = .procedureByte ∧ y.seq = x.seq + 1#8) ∨
      (x.state = .dataExchange ∧ x.dir = .rx ∧ x.rxLeft = 1 ∧ y.state = .idle ∧ y.seq = x.seq))
  | .cemPump d =>
    d.toNat = c ∧
    ((x.state = .idle ∧ x.hdrN = 4 ∧ y.state = .procedureByte ∧ y.seq = x.seq + 1#8) ∨
      (x.state = .dataExchange ∧ x.dir = .rx ∧ x.rxLeft = 1 ∧ y.state = .procedureByte ∧ y.seq = x.seq + 1#8) ∨
      (x.state = .dataExchange ∧ x.dir = .rx ∧ x.rxLeft = 1 ∧ y.state = .idle ∧ y.seq = x.seq))
  | .ubtDispatch e =>
    x.state = .procedureByte ∧ y.state = .dataExchange ∧ y.dir = .tx ∧
      ∃ f ∈ p.ifs, f.chan = c ∧ f.out = some e.toNat
  | .ubtProcess k _ _ _ =>
    x.state = .procedureByte ∧ y.state = .dataExchange ∧ y.dir = .tx ∧
      ∃ f, p.ifs[k.toNat]? = some f ∧ f.chan = c
  | .sysReset => y.state = .poweredOff
  | _ => False

/-- R17: the transitions of a context's state (T1 to T9, the edge of T3 that `UBT.DRAIN` takes), by the operation that performs them. A
message takes T4 and T5 in one operation (R156). -/
def ctxEdge (i : Instr) (a b : CtxState) : Prop :=
  match i with
  | .sysReset => b = .free
  | .poolAlloc _ _ => a = .free ∧ (b = .usbRxBusy ∨ b = .uartTxPending)
  | .poolFree _ => (a = .usbRxBusy ∨ a = .uartTxPending) ∧ b = .free
  | .cemRxbyte _ _ => a = .free ∧ b = .usbTxPending
  | .cemPump _ => a = .free ∧ b = .usbTxPending
  | .ubtEnq _ _ => a = .uartTxPending ∧ b = .usbTxPending
  | .ubtRefillTohost _ _ => a = .usbTxPending ∧ b = .usbTxBusy
  | .ubtWcomplete _ _ _ => a = .usbTxBusy ∧ b = .free
  | .ubtRefillFromhost _ _ => a = .free ∧ b = .usbRxBusy
  | .ubtRcomplete _ status _ => a = .usbRxBusy ∧ b = (if status = 0#8 then .usbRxPending else .free)
  | .ubtDispatch _ => a = .usbRxPending ∧ b = .free
  | .ubtDrain _ => (a = .usbTxPending ∨ a = .usbRxPending) ∧ b = .free
  | .ubtProcess _ _ _ _ =>
    (a = .usbTxPending ∧ b = .usbTxBusy) ∨ (a = .free ∧ b = .usbRxBusy) ∨ (a = .usbRxPending ∧ b = .free)
  | _ => False

/-! ### The timer and a message in a context, as the statements name them -/

/-- R182: the countdown started from the full period; a period of 0 leaves it stopped. -/
def Wt.fromFull (w : Wt) : Wt :=
  if w.period = 0 then { w with armed := false, remaining := 0 } else { w with armed := true, remaining := w.period }

/-- R114: a context released, its buffer's bytes as they were. -/
def Ctx.released (x : Ctx) : Ctx := { x with state := .free, size := 0, totLen := 0, idx := 0, owner := none }

/-- The control actions of a change of ratio, in order (R135). -/
def timingEvents (p : Config) (c : Nat) (ratio : Half) : List Event :=
  [.uartCtl c .rxdis] ++ (if p.uartHasWprot = true then [.uartCtl c .wpunlock] else []) ++
    [.uartCtl c (.fidi ratio), .uartCtl c .rxen, .uartCtl c .sttto]

/-- The bytes of a device-to-host message (R90, R91, R96): type, sequence number, payload length low and high, flags, data. -/
def deviceMessage (seq flags : Byte) (data : List Byte) : List Byte :=
  0x81#8 :: seq :: BitVec.ofNat 8 (1 + data.length) :: BitVec.ofNat 8 ((1 + data.length) / 256) :: flags :: data

/-- Context `h` is the least free one (R110). -/
abbrev State.leastFree (s : State) (h : Nat) : Prop :=
  h < s.ctxs.length ∧ (s.ctx h).state = .free ∧ ∀ j, j < h → (s.ctx j).state ≠ .free

/-- No context is free. -/
abbrev State.poolFull (s : State) : Prop := ∀ h, h < s.ctxs.length → (s.ctx h).state ≠ .free

/-- Context `h` holds a message of `n` bytes after the five of header and flags (R90, R91). -/
abbrev State.holdsMessage (s : State) (h n : Nat) (type flags : Byte) : Prop :=
  (s.ctx h).size = 5 + n ∧ s.cell (.ctx h) 0 = type ∧ le16 (s.cell (.ctx h) 2) (s.cell (.ctx h) 3) = 1 + n ∧
    s.cell (.ctx h) 4 = flags

/-- The `n` data bytes of the message in context `h` (R91). -/
def State.messageBody (s : State) (h n : Nat) : List Byte := (List.range n).map fun i => s.cell (.ctx h) (5 + i)

/-- The answer `OK(b)`. -/
def okByte (b : Byte) : Response := ⟨.ok, 0#8, b.setWidth 16⟩

/-! ### The parts of `UBT.PROCESS` (R199) -/

/-- R199: the requests that the three refill parts stand for, in order; a part whose endpoint the interface does not name has none. -/
def refillParts (f : IfConst) (drawIrq drawIn drawOut : Bool) : List (List Instr) :=
  [f.irq.toList.map fun e => .ubtRefillTohost (BitVec.ofNat 8 e) drawIrq,
    f.inn.toList.map fun e => .ubtRefillTohost (BitVec.ofNat 8 e) drawIn,
    f.out.toList.map fun e => .ubtRefillFromhost (BitVec.ofNat 8 e) drawOut]

/-- R199: the requests of the parts from progress `p` to progress `q`: the refills between them, then one dispatch for each context that
`q` counts and `p` does not. -/
def partRequests (f : IfConst) (p q : Proc) : List Instr :=
  (((refillParts f p.drawIrq p.drawIn p.drawOut).take q.part).drop p.part).flatten ++
    List.replicate (q.n - p.n) (.ubtDispatch (BitVec.ofNat 8 (f.out.getD 0)))

/-- R199: the last diagnostic among the `aux` fields of the parts, 0 if there is none. -/
def lastAux (codes : List Byte) : Byte := (codes.filter fun a => decide (a ≠ 0#8)).getLastD 0#8

/-- R199: `UBT.PROCESS` has no part left at progress `q`, in state `t`: its refills are done, and its dispatches have reached their bound,
or one more part has found the OUT queue empty and is not counted. -/
abbrev Proc.finished (f : IfConst) (q : Proc) (t : State) : Prop :=
  q.part = q.n + 3 + (if f.out.isSome = true ∧ q.n < t.cfg.dispatchMax then 1 else 0) ∧ q.n ≤ t.cfg.dispatchMax ∧
    (f.out = none → q.n = 0) ∧
    ∀ e ∈ f.out.toList, q.n = t.cfg.dispatchMax ∨ (t.ep e).queue = []

/-- R199: at progress `q` a part is left, each part so far having counted. -/
abbrev Proc.unfinished (f : IfConst) (q : Proc) (t : State) : Prop :=
  q.n = q.part - 3 ∧ (q.part < 3 ∨ (f.out.isSome = true ∧ q.n < t.cfg.dispatchMax))

/-- R199, R243: from progress `p` and state `s` the outcome `o` is what the parts up to some progress `q`, presented one by one, leave
behind, each counted dispatch having taken a context, at none of the boundaries between them an interrupt-context request stepping.
Either no part is left and the operation answers
OK with the count and the last diagnostic of all its parts; or such a request steps at the boundary after the last of them, and the
operation stays in progress, having answered nothing. Every boundary passed uses up one choice of the environment. -/
abbrev RunsParts (f : IfConst) (p : Proc) (s : State) (o : Outcome) : Prop :=
  ∃ (q : Proc) (rs : List Response) (t : State),
    q.k = p.k ∧ q.drawIrq = p.drawIrq ∧ q.drawIn = p.drawIn ∧ q.drawOut = p.drawOut ∧ p.part < q.part ∧ p.n ≤ q.n ∧
    (∀ j, p.part + j + 1 < q.part → ({ s with preempt := s.preempt.drop j } : State).preempted = false) ∧
    runAll (partRequests f p q) { s with mainOp := none, preempt := s.preempt.drop (q.part - p.part - 1) } = some (rs, t) ∧
    (∀ r ∈ rs, r.rc ≠ .empty) ∧ q.aux = lastAux (p.aux :: rs.map Response.aux) ∧
    ((q.finished f t ∧ o = .next (t.answer .ok q.aux (BitVec.ofNat 16 q.n))) ∨
      (q.unfinished f t ∧ t.preempted = true ∧ o = .next { t with mainOp := some (.process q), resp := s.resp }))

/-! ### Which operations write a channel's registers -/

/-- `CEM.IOSIG` on channel `c` (R143). -/
def isSignalOn (c : Nat) : Instr → Bool
  | .cemIosig d _ _ => decide (d.toNat = c)
  | _ => false

/-- `CEM.TXBYTE` on channel `c` (R150). -/
def isTransmitOn (c : Nat) : Instr → Bool
  | .cemTxbyte d => decide (d.toNat = c)
  | _ => false

/-- A byte from the reader reaches the engine of channel `c`: `CEM.RXBYTE` and `CEM.PUMP` (R141, R154). -/
def isReceiveOn (c : Nat) : Instr → Bool
  | .cemRxbyte d _ => decide (d.toNat = c)
  | .cemPump d => decide (d.toNat = c)
  | _ => false

/-- A message of the host may reach the engine of channel `c`: `UBT.DISPATCH` and `UBT.PROCESS` of the interface that serves it (R199,
R220). -/
def isHandOverTo (p : Config) (c : Nat) : Instr → Bool
  | .ubtDispatch e => p.ifs.any fun f => decide (f.chan = c ∧ f.out = some e.toNat)
  | .ubtProcess k _ _ _ => (p.ifs[k.toNat]?).any fun f => decide (f.chan = c)
  | _ => false

/-- `WT.TICK` on channel `c` (R184). -/
def isTickOn (c : Nat) : Instr → Bool
  | .wtTick d => decide (d.toNat = c)
  | _ => false

/-- The operations that set the period of channel `c`'s timer: `WT.SETWT`, `WT.SETETU`, `CEM.FIDI` (R158, R181, R186). -/
def isPeriodSetOn (c : Nat) : Instr → Bool
  | .wtSetwt d _ => decide (d.toNat = c)
  | .wtSetetu d _ => decide (d.toNat = c)
  | .cemFidi d _ => decide (d.toNat = c)
  | _ => false

end Sys2Proof.Machine
end

