-- ==== Sys2Proof/Certificates/Slice0/Obligations.lean ====
section
/-! DEFINITION. The statements about the model, for the provers. Each docstring names the rules of spec/ that the statement
formalises, or says that it is about a choice of the model and names the log entry. Every statement quantifies over every
configuration that a state carries (assumption 1). -/

open Sys2Proof Sys2Proof.Machine

/-! ### Encoding -/

/-- Decoding the encoding of an operation gives it back, every operand at every value the fields admit (R71 to R74, R78). -/
def Obligations.DecodeOfEncode : Prop :=
  ∀ i : Instr, i.encodable = true → decode (encode i) = .ok i

/-- A list of words that decodes is the encoding of what it decodes to: no operation has two encodings, and every unused bit is zero
(R72, R73, R75). -/
def Obligations.EncodeOfDecode : Prop :=
  ∀ (ws : List PortWord) (i : Instr), decode ws = .ok i → encode i = ws

/-- R73: the port tells the end of a request from its command word alone, whatever words follow. -/
def Obligations.SplitRequestOfEncode : Prop :=
  ∀ (i : Instr) (rest : List PortWord), i.encodable = true →
    splitRequest (encode i ++ rest) = some (encode i, rest)

/-- R75, R78: a command word whose operation code is none of the 28 assigned ones is no request. -/
def Obligations.UnassignedOpcodesRejected : Prop :=
  ∀ (w : PortWord) (ds : List PortWord),
    w.extractLsb' 56 8 ∉ [0x01#8, 0x10#8, 0x11#8, 0x12#8, 0x13#8, 0x14#8, 0x20#8, 0x21#8, 0x30#8, 0x40#8, 0x41#8, 0x42#8,
      0x43#8, 0x44#8, 0x50#8, 0x51#8, 0x52#8, 0x60#8, 0x61#8, 0x62#8, 0x70#8, 0x71#8, 0x72#8, 0x73#8, 0x74#8, 0x75#8,
      0x76#8, 0x77#8] →
    decode [w] = .error .reservedOpcode ∧ ∃ r, decode (w :: ds) = .error r

/-- Words written out from R71 and R72 decode to the operations they stand for, one of each unit. R76, R77, R83, R84, R86, R87, R230: a
response word written out bit by bit, and every numeric code of the spec's tables. -/
def Obligations.PrintedWordsDecode : Prop :=
  (decode [0x0100000000000000#64] = .ok .sysReset ∧
    decode [0x1100003B00000000#64] = .ok (.rbWrite 0#8 0x3B#8) ∧
    decode [0x2000000900040000#64] = .ok (.timRatio 9#8 4#8) ∧
    decode [0x3000008000A40000#64] = .ok (.urxIrq 0#8 0x0080#16 0xA4#8) ∧
    decode [0x4000000200010000#64] = .ok (.cemIosig 0#8 2#2 true) ∧
    decode [0x5000000400000000#64] = .ok (.wtSetwt 0#8 4#16) ∧
    decode [0x6000000A00030000#64] = .ok (.poolAlloc 10#16 3#3) ∧
    decode [0x7401000000060000#64, 0x0000A40400020001#64] =
      .ok (.ubtRcomplete 1#8 0#8 [0x01#8, 0x00#8, 0x02#8, 0x00#8, 0x04#8, 0xA4#8])) ∧
  ((⟨.discarded, DiagCode.rxBadState.code, 0x003C#16⟩ : Response).word = 0x080A003C#32 ∧
    ∀ r : Response, r.word.extractLsb' 24 8 = r.rc.code ∧ r.word.extractLsb' 16 8 = r.aux ∧ r.word.extractLsb' 0 16 = r.val) ∧
  [RC.ok, .nodata, .full, .empty, .unsupported, .oom, .nop, .fail, .discarded, .unmodelled, .illegal, .halted].map RC.code =
    [0x00#8, 0x01#8, 0x02#8, 0x03#8, 0x04#8, 0x05#8, 0x06#8, 0x07#8, 0x08#8, 0x0D#8, 0x0E#8, 0x0F#8] ∧
  [CemState.poweredOff, .clockActive, .inReset, .atrTx, .idle, .procedureByte, .dataExchange].map CemState.code =
    [0, 1, 2, 3, 4, 5, 6] ∧
  [CtxState.free, .usbRxBusy, .usbRxPending, .uartTxPending, .usbTxPending, .usbTxBusy].map CtxState.code =
    [0, 1, 2, 3, 4, 5] ∧
  [TxDir.none, .tx, .rx].map TxDir.code = [0, 1, 2] ∧ [Cont.tx, .rx].map Cont.code = [0, 1] ∧
  [EpDir.fromHost, .toHost].map EpDir.code = [0, 1] ∧
  [DiagCode.rbOverrun, .uartRxError, .poolOom, .fidiUnsupported, .msgMalformed, .msgUnknownType, .usbWriteSubmitFail,
    .usbReadSubmitFail, .usbXferError, .rxBadState, .hostmsgBadState, .wtxSent, .noInEp, .noHandler].map DiagCode.code =
    [0x01#8, 0x02#8, 0x03#8, 0x04#8, 0x05#8, 0x06#8, 0x07#8, 0x08#8, 0x09#8, 0x0A#8, 0x0B#8, 0x0C#8, 0x0D#8, 0x0E#8] ∧
  [FatalCode.doubleFree, .badHandle, .queueCorrupt].map FatalCode.code = [0xF0#8, 0xF1#8, 0xF2#8]

/-! ### The step -/

/-- A step takes the first request on the port and runs the operation it decodes to, on the state from which exactly its words are
taken; so a presented encoding runs its operation. R71, R73 and R57 give the words of a request and its atomicity. That presented words
stand in the list `port` and a step takes the first request from it is the model's choice (assumption 4), and so is the record of a
main-context operation in progress, of which there is none here (assumption 7). -/
def Obligations.StepRunsDecodedRequest : Prop :=
  (∀ (s : State) (ws rest : List PortWord) (i : Instr), s.mainOp = none → splitRequest s.port = some (ws, rest) →
    decode ws = .ok i → step s = exec i { s with port := rest }) ∧
  (∀ (s : State) (rest : List PortWord) (i : Instr), s.mainOp = none → i.encodable = true →
    s.port = encode i ++ rest → step s = exec i { s with port := rest })

/-- R75: a request that does not decode is answered ILLEGAL and changes nothing but that its words are taken; that these are the words
R73 gives it is the model's reading (assumption 10). R262, R251: with no request presented the core waits (the waiting step is the
model's, assumption 4). -/
def Obligations.StepWithoutOperation : Prop :=
  (∀ (s : State) (ws rest : List PortWord) (r : Reject), s.mainOp = none → splitRequest s.port = some (ws, rest) →
    decode ws = .error r → step s = .next { s with port := rest, resp := ⟨.illegal, 0#8, 0#16⟩ }) ∧
  (∀ s : State, s.mainOp = none → s.port = [] → step s = .next s)

/-- R238, R75, R232, R198: the order of the checks. An illegal request answers ILLEGAL even while halted; a halted core answers HALTED
with its code; a completion for an endpoint without a transfer in flight answers ILLEGAL. None of them changes anything. -/
def Obligations.OrderOfChecks : Prop :=
  (∀ (i : Instr) (s : State), i.wellFormed s.cfg = false →
    exec i s = .next { s with resp := ⟨.illegal, 0#8, 0#16⟩ }) ∧
  (∀ (i : Instr) (s : State), i.wellFormed s.cfg = true → s.halted = true → i ≠ .sysReset →
    exec i s = .next { s with resp := ⟨.halted, s.haltCode, 0#16⟩ }) ∧
  (∀ (e status : Byte) (draw : Bool) (data : List Byte) (s : State), s.halted = false → (s.ep e.toNat).inProgress = false →
    exec (.ubtWcomplete e status draw) s = .next { s with resp := ⟨.illegal, 0#8, 0#16⟩ } ∧
    exec (.ubtRcomplete e status data) s = .next { s with resp := ⟨.illegal, 0#8, 0#16⟩ })

/-! ### Reset, the halt, the invariants -/

/-- R46, R260, R45: after `SYS.RESET`, halted or not, every state element has its reset value, no event is emitted and the history is
kept, a main-context operation in progress has ended, and the bytes of every store are unspecified: each is the free value of a cell
that nothing has written (assumption 11). -/
def Obligations.SysResetRestoresTheTable : Prop :=
  ∀ s : State, ∃ t, exec .sysReset s = .next t ∧
    t.halted = false ∧ t.haltCode = 0#8 ∧ t.mainOp = none ∧ t.events = s.events ∧ t.cfg = s.cfg ∧
    t.resp = ⟨.ok, 0#8, 0#16⟩ ∧ t.shape ∧
    (∀ h, t.ctx h = ⟨.free, [], 0, 0, 0, none⟩) ∧
    (∀ c, t.rb c = ⟨[], 0, 0⟩ ∧ t.uart c = ⟨BitVec.ofNat 16 s.cfg.ratioReset, true⟩ ∧ (t.chan c).stat = 0#16 ∧
      t.cem c = ⟨false, false, false, .poweredOff, [], 0, 0, [], 0, 0, [], 0, 0, .none, .tx, false, 0#8⟩ ∧
      t.wt c = ⟨s.cfg.wtReset, s.cfg.etuReset, 0, false⟩) ∧
    (∀ e, t.ep e = ⟨[], false, none, false⟩) ∧
    (∀ sp a, sp ≠ .atr → t.cell sp a = Config.unwrittenByte sp t.era a)

/-- The state after reset at the default parameters meets the invariant, and they are well-formed (R1, R46). The default ATR and the
standing at the defaults are the model's choice (assumptions 1 to 3); the next statement is about every parameter. -/
def Obligations.ResetStateMeetsInvariant : Prop :=
  Config.default.wellFormed = true ∧ CoreInv State.reset

/-- The state after reset meets the invariant whatever the well-formed parameters (R1, R46). -/
def Obligations.EveryConfigurationStartsSafe : Prop :=
  ∀ p : Config, p.wellFormed = true → CoreInv (State.resetWith p)

/-- R2: no step changes a parameter. R45: the event history only grows at its end. -/
def Obligations.ParametersFixedHistoryGrows : Prop :=
  ∀ s t : State, step s = .next t → t.cfg = s.cfg ∧ ∃ evs, t.events = s.events ++ evs

/-- R19 to R22, R24 to R30, R32, R183: every step keeps the invariants of every channel: the ring buffer's count, the timing register in
range with the receiver enabled, the signal levels and the counters that go with each engine state, the stores in canonical form, and
a countdown that runs only while a procedure byte is owed. -/
def Obligations.StepKeepsChannels : Prop :=
  ∀ s t : State, s.cfg.wellFormed = true → s.shape → (∀ x ∈ s.chans, ChanOk s.cfg x) → step s = .next t →
    ∀ x ∈ t.chans, ChanOk t.cfg x

/-- R16 to R18, R33, R34, R203: every step keeps the invariants of the pool and the endpoints: at most one transfer in flight, every
queued or busy context owned by exactly the endpoint that refers to it and in the state that goes with it. -/
def Obligations.StepKeepsTransport : Prop :=
  ∀ s t : State, s.cfg.wellFormed = true → s.shape → (∀ x ∈ s.chans, ChanOk s.cfg x) → TransportOk s → step s = .next t →
    TransportOk t

/-- Every step keeps the whole invariant of the core, the halt code included (R15, R230). -/
def Obligations.StepKeepsInvariant : Prop :=
  ∀ s t : State, CoreInv s → step s = .next t → CoreInv t

/-- R56, R61: from every state that meets the invariant the step answers a next state: no rule reaches outside a store, and no
operation is refused. -/
def Obligations.EveryStepCompletes : Prop :=
  ∀ s : State, CoreInv s → ∃ t, step s = .next t

/-- R231, R237: the halt is precise, and only `POOL.FREE` and `UBT.ENQ` at the operation port raise it: the state is that before the
operation but for the two `sys` fields, the `halt` event and the answer. The step that goes on with a suspended `UBT.PROCESS` or ends a
held `UBT.DRAIN` (the record is the model's, assumption 7) raises none. -/
def Obligations.HaltIsPreciseAndOnlyAtThePort : Prop :=
  (∀ (i : Instr) (s t : State), CoreInv s → s.halted = false → Runs i s t → t.halted = true →
    ((∃ h, i = .poolFree h) ∨ ∃ e h, i = .ubtEnq e h) ∧
    ∃ k : FatalCode, t = { s with
      halted := true, haltCode := k.code, events := s.events ++ [.halt k], resp := ⟨.halted, k.code, 0#16⟩ }) ∧
  (∀ s t : State, CoreInv s → s.halted = false → s.goesOn = true → step s = .next t → t.halted = false)

/-- R232, R15: only `SYS.RESET` leaves the halt; until then every step keeps every state element but the port's own (the words taken,
the answer, the end of a main-context operation in progress). -/
def Obligations.OnlyResetLeavesTheHalt : Prop :=
  ∀ s t : State, s.halted = true → step s = .next t →
    (t.halted = true ∧ t.haltCode = s.haltCode ∧ t.ctxs = s.ctxs ∧ t.chans = s.chans ∧ t.eps = s.eps ∧
      t.events = s.events ∧ t.era = s.era) ∨
    ∃ ws rest, splitRequest s.port = some (ws, rest) ∧ decode ws = .ok .sysReset

/-! ### Whole-machine rules -/

/-- R162: the engine's state changes only along the rows of the transition table, by the operation of the row, on its channel. A
`UBT.PROCESS` that goes on after an interruption takes only the row of an accepted host message. -/
def Obligations.EngineStateFollowsTheTable : Prop :=
  (∀ (i : Instr) (s t : State) (c : Nat), CoreInv s → c < s.cfg.nChan → exec i s = .next t →
    (t.cem c).state ≠ (s.cem c).state → cemEdge s.cfg c (s.cem c) (t.cem c) i) ∧
  (∀ (s t : State) (p : Proc) (c : Nat), CoreInv s → c < s.cfg.nChan →
    s.mainOp = some (.process p) → s.preempted = false → step s = .next t → (t.cem c).state ≠ (s.cem c).state →
    (s.cem c).state = .procedureByte ∧ (t.cem c).state = .dataExchange ∧
      ∃ f, s.cfg.ifs[p.k]? = some f ∧ f.chan = c)

/-- R17: a context's state changes only by a transition of the list, performed by the operation the list names, as a request or by the
step that goes on with the rest of it (the record is the model's, assumption 7); `POOL.ALLOC` and `POOL.FREE` at the operation port
obey R110 and R112. -/
def Obligations.ContextStatesFollowTransitions : Prop :=
  ∀ (i : Instr) (s t : State) (h : Nat), CoreInv s → h < s.cfg.poolN → Runs i s t →
    (t.ctx h).state ≠ (s.ctx h).state → ctxEdge i (s.ctx h).state (t.ctx h).state

/-- R50: every byte of every store outside the bytes that the operation's rule stores to reads as before, whether the operation runs as a
request or a step goes on with the rest of it (the record is the model's, assumption 7). That a context's bytes outlast allocation and release, a ring buffer's `RB.RESET`, and a
block's the completion of a shorter transfer, is the model's reading of R110, R114, R120 and R197, which leave the bytes as they are and
call those of a context unspecified to the next reader (assumption 13). -/
def Obligations.BytesOutsideTheStoreKept : Prop :=
  ∀ (i : Instr) (s t : State) (sp : Space) (a : Nat), s.cfg.wellFormed = true → Runs i s t →
    mayStore i s sp a = false → t.cell sp a = s.cell sp a

/-- R14, R20 to R23, R25 to R32: each register of a channel is written only by the operations its rules name, on that channel, and by
reset. The first part holds in every state: the timing register, the timer's settings, the receive status, the ring indices, the sequence
number, the signal levels. The second part rests on the invariant: the pending extension byte, the countdown, and the counters and
directions of the exchange. Both hold of requests and of the step that goes on with the rest of an operation (the
record is the model's, assumption 7). -/
def Obligations.RegistersWrittenOnlyByTheirOperations : Prop :=
  (∀ (i : Instr) (s t : State) (c : Nat), i ≠ .sysReset → Runs i s t →
    (t.uart c ≠ s.uart c → ∃ d : Byte, d.toNat = c ∧
      ((∃ r, i = .timApply d r) ∨ (∃ x, i = .cemFidi d x) ∨ (s.cfg.rstRestoresFidi = true ∧ i = .cemIosig d 2#2 true))) ∧
    ((t.wt c).wtime ≠ (s.wt c).wtime → ∃ d : Byte, d.toNat = c ∧ ∃ w, i = .wtSetwt d w) ∧
    ((t.wt c).etu ≠ (s.wt c).etu → ∃ d : Byte, d.toNat = c ∧
      ((∃ w, i = .wtSetetu d w) ∨ (∃ x, i = .cemFidi d x) ∨
        (s.cfg.rstRestoresFidi = true ∧ i = .cemIosig d 2#2 true))) ∧
    ((t.chan c).stat ≠ (s.chan c).stat → ∃ d : Byte, d.toNat = c ∧ ∃ st x, i = .urxIrq d st x) ∧
    ((t.rb c).wr ≠ (s.rb c).wr → ∃ d : Byte, d.toNat = c ∧
      ((∃ x, i = .rbWrite d x) ∨ (∃ st x, i = .urxIrq d st x) ∨ i = .rbReset d)) ∧
    ((t.rb c).rd ≠ (s.rb c).rd → ∃ d : Byte, d.toNat = c ∧ (i = .rbRead d ∨ i = .cemPump d ∨ i = .rbReset d)) ∧
    ((t.cem c).seq ≠ (s.cem c).seq → ∃ d : Byte, d.toNat = c ∧ ((∃ x, i = .cemRxbyte d x) ∨ i = .cemPump d)) ∧
    (((t.cem c).vcc, (t.cem c).clk, (t.cem c).rst) ≠ ((s.cem c).vcc, (s.cem c).clk, (s.cem c).rst) →
      ∃ d : Byte, d.toNat = c ∧ ∃ sig act, i = .cemIosig d sig act)) ∧
  (∀ (i : Instr) (s t : State) (c : Nat), CoreInv s → i ≠ .sysReset → Runs i s t →
    ((t.cem c).nullPending ≠ (s.cem c).nullPending → isTickOn c i = true ∨ isTransmitOn c i = true ∨ isSignalOn c i = true) ∧
    (((t.wt c).armed, (t.wt c).remaining) ≠ ((s.wt c).armed, (s.wt c).remaining) →
      isTickOn c i = true ∨ isPeriodSetOn c i = true ∨ isTransmitOn c i = true ∨ isReceiveOn c i = true ∨ isSignalOn c i = true ∨
        isHandOverTo s.cfg c i = true) ∧
    ((t.cem c).hdrN ≠ (s.cem c).hdrN → isReceiveOn c i = true ∨ isTransmitOn c i = true ∨ isSignalOn c i = true) ∧
    ((t.cem c).atrIdx ≠ (s.cem c).atrIdx → isTransmitOn c i = true ∨ isSignalOn c i = true) ∧
    (((t.cem c).txLen, (t.cem c).txIdx) ≠ ((s.cem c).txLen, (s.cem c).txIdx) →
      isHandOverTo s.cfg c i = true ∨ isTransmitOn c i = true ∨ isSignalOn c i = true) ∧
    (((t.cem c).rxN, (t.cem c).rxLeft) ≠ ((s.cem c).rxN, (s.cem c).rxLeft) →
      isReceiveOn c i = true ∨ isTransmitOn c i = true ∨ isSignalOn c i = true) ∧
    (((t.cem c).dir, (t.cem c).cont) ≠ ((s.cem c).dir, (s.cem c).cont) →
      isHandOverTo s.cfg c i = true ∨ isTransmitOn c i = true ∨ isReceiveOn c i = true ∨ isSignalOn c i = true))

/-- R50, R51, R53: bytes written to a store read back in order, and every other byte of every store reads as before. -/
def Obligations.BytesReadBackAsWritten : Prop :=
  ∀ (s t : State) (sp : Space) (a : Nat) (bs : List Byte), sp ≠ .atr → memWrite s sp a bs = .ok t →
    (∀ i, i < bs.length → t.cell sp (a + i) = bs.getD i 0#8) ∧
    (∀ sp' a', ¬(sp' = sp ∧ a ≤ a' ∧ a' < a + bs.length) → t.cell sp' a' = s.cell sp' a')

/-! ### The ring buffer -/

/-- R120: `RB.RESET` clears both indices and nothing else: the cells keep their bytes. -/
def Obligations.RbResetClearsTheIndices : Prop :=
  (∀ c : Byte, encode (.rbReset c) = [0x10#8 ++ (c ++ 0#48)]) ∧
  (∀ (c : Byte) (s : State), (Instr.rbReset c).wellFormed s.cfg = true → s.halted = true →
    exec (.rbReset c) s = .next { s with resp := ⟨.halted, s.haltCode, 0#16⟩ }) ∧
  (∀ (c : Byte) (s : State), Ready (.rbReset c) s → ∃ t, exec (.rbReset c) s = .next t ∧
    t = (s.updRb c.toNat fun r => { r with wr := 0, rd := 0 }).answer .ok 0#8 0#16 ∧
    (t.rb c.toNat).empty t.cfg = true ∧ (t.rb c.toNat).full t.cfg = false)

/-- R121, R126: a byte written to a ring buffer that is not full is stored at the write index modulo the capacity, which then advances
modulo twice the capacity; to a full one it is dropped with a diagnostic. -/
def Obligations.RbWriteResult : Prop :=
  ∀ (c b : Byte) (s : State), Ready (.rbWrite c b) s →
    ((s.rb c.toNat).count s.cfg < s.cfg.rbUsable →
      exec (.rbWrite c b) s = .next ((s.updRb c.toNat fun r =>
        { r with buf := r.buf.store (r.wr % s.cfg.rbCap) b, wr := (r.wr + 1) % (2 * s.cfg.rbCap) }).answer .ok 0#8 0#16)) ∧
    (s.cfg.rbUsable ≤ (s.rb c.toNat).count s.cfg →
      exec (.rbWrite c b) s = .next ((s.diag .rbOverrun b.toNat).answer .full 0x01#8 0#16))

/-- R122 to R124: a read takes the oldest byte and advances the read index; a peek answers it and changes nothing; on an empty buffer both
fail explicitly and change nothing; `RB.ISEMPTY` answers whether it is empty. -/
def Obligations.RbReadPeekIsemptyResult : Prop :=
  (∀ (c : Byte) (s : State), Ready (.rbRead c) s →
    ((s.rb c.toNat).count s.cfg = 0 → exec (.rbRead c) s = .next (s.answer .empty 0#8 0#16)) ∧
    ((s.rb c.toNat).count s.cfg ≠ 0 →
      exec (.rbRead c) s = .next ((s.updRb c.toNat fun r => { r with rd := (r.rd + 1) % (2 * s.cfg.rbCap) }).answer .ok 0#8
        ((s.cell (.rb c.toNat) ((s.rb c.toNat).rd % s.cfg.rbCap)).setWidth 16)))) ∧
  (∀ (c : Byte) (s : State), Ready (.rbPeek c) s →
    ((s.rb c.toNat).count s.cfg = 0 → exec (.rbPeek c) s = .next (s.answer .empty 0#8 0#16)) ∧
    ((s.rb c.toNat).count s.cfg ≠ 0 → exec (.rbPeek c) s =
      .next (s.answer .ok 0#8 ((s.cell (.rb c.toNat) ((s.rb c.toNat).rd % s.cfg.rbCap)).setWidth 16)))) ∧
  (∀ (c : Byte) (s : State), Ready (.rbIsempty c) s → exec (.rbIsempty c) s =
    .next (s.answer .ok 0#8 (if (s.rb c.toNat).count s.cfg = 0 then 1#16 else 0#16)))

/-- R125, the FIFO law: any sequence of writes, reads, peeks and emptiness tests on one channel runs, and the bytes that were in the
buffer followed by those written with answer OK are those read followed by those left; so from an empty buffer the bytes read are a
prefix of the bytes written, and all of them once it is empty. -/
def Obligations.RingBufferIsFifo : Prop :=
  ∀ (c : Byte) (ops : List Instr) (s : State), Ready (.rbRead c) s → RingOk s.cfg (s.rb c.toNat) →
    (∀ i ∈ ops, isFifoOp c i = true) →
    ∃ rs t, runAll ops s = some (rs, t) ∧
      s.ringBytes c.toNat ++ bytesWritten ops rs = bytesRead ops rs ++ t.ringBytes c.toNat ∧
      ((s.rb c.toNat).empty s.cfg = true → bytesRead ops rs <+: bytesWritten ops rs ∧
        ((t.rb c.toNat).empty t.cfg = true → bytesRead ops rs = bytesWritten ops rs))

/-! ### Timing -/

/-- R133, R136: the ratio is the exact product floored by the division, and unsupported outside the tables, at a reserved entry or
out of range; nothing changes. -/
def Obligations.TimRatioResult : Prop :=
  ∀ (ci ri : Byte) (s : State), Ready (.timRatio ci ri) s →
    (16 ≤ ci.toNat ∨ 16 ≤ ri.toNat ∨ s.cfg.fiTable.getD ci.toNat 0 = 0 ∨ s.cfg.diTable.getD ri.toNat 0 = 0 ∨
        s.cfg.fiTable.getD ci.toNat 0 * s.cfg.ratioBase / s.cfg.diTable.getD ri.toNat 0 < s.cfg.ratioMin ∨
        s.cfg.ratioMax < s.cfg.fiTable.getD ci.toNat 0 * s.cfg.ratioBase / s.cfg.diTable.getD ri.toNat 0 →
      exec (.timRatio ci ri) s = .next (s.answer .unsupported 0#8 0#16)) ∧
    (ci.toNat < 16 → ri.toNat < 16 → s.cfg.fiTable.getD ci.toNat 0 ≠ 0 → s.cfg.diTable.getD ri.toNat 0 ≠ 0 →
      s.cfg.ratioMin ≤ s.cfg.fiTable.getD ci.toNat 0 * s.cfg.ratioBase / s.cfg.diTable.getD ri.toNat 0 →
      s.cfg.fiTable.getD ci.toNat 0 * s.cfg.ratioBase / s.cfg.diTable.getD ri.toNat 0 ≤ s.cfg.ratioMax →
      exec (.timRatio ci ri) s = .next (s.answer .ok 0#8
        (BitVec.ofNat 16 (s.cfg.fiTable.getD ci.toNat 0 * s.cfg.ratioBase / s.cfg.diTable.getD ri.toNat 0))))

/-- R134: the response of `TIM.RATIO` is a function of its operands and the parameters, while not halted; halted it is HALTED. -/
def Obligations.TimRatioIsPure : Prop :=
  ∃ f : Byte → Byte → Config → Response, ∀ (ci ri : Byte) (s : State),
    (s.halted = false → exec (.timRatio ci ri) s = .next { s with resp := f ci ri s.cfg }) ∧
    (s.halted = true → exec (.timRatio ci ri) s = .next { s with resp := ⟨.halted, s.haltCode, 0#16⟩ })

/-- R135, R45: a ratio in range is applied whole, with its control actions in order and the receiver enabled at the end; one out of
range leaves everything as it was but for the diagnostic. -/
def Obligations.TimApplyResult : Prop :=
  ∀ (c : Byte) (ratio : Half) (s : State), Ready (.timApply c ratio) s →
    (s.cfg.ratioMin ≤ ratio.toNat → ratio.toNat ≤ s.cfg.ratioMax →
      exec (.timApply c ratio) s = .next ({ s.updUart c.toNat fun _ => ⟨ratio, true⟩ with
        events := s.events ++ timingEvents s.cfg c.toNat ratio, resp := ⟨.ok, 0#8, 0#16⟩ })) ∧
    (ratio.toNat < s.cfg.ratioMin ∨ s.cfg.ratioMax < ratio.toNat →
      exec (.timApply c ratio) s = .next ((s.diag .fidiUnsupported ratio.toNat).answer .unsupported 0x04#8 0#16))

/-- R158, R93: `CEM.FIDI` splits its byte, applies the ratio of the two indices and sets the ETU length to it, restarting a running
countdown; an unsupported pair leaves everything as it was but for the diagnostic. The engine's state plays no part. -/
def Obligations.CemFidiResult : Prop :=
  ∀ (c x : Byte) (s : State), Ready (.cemFidi c x) s →
    let F := s.cfg.fiTable.getD (x.toNat / 16) 0
    let D := s.cfg.diTable.getD (x.toNat % 16) 0
    let r := F * s.cfg.ratioBase / D
    (F = 0 ∨ D = 0 ∨ r < s.cfg.ratioMin ∨ s.cfg.ratioMax < r →
      exec (.cemFidi c x) s = .next ((s.diag .fidiUnsupported x.toNat).answer .unsupported 0x04#8 0#16)) ∧
    (F ≠ 0 → D ≠ 0 → s.cfg.ratioMin ≤ r → r ≤ s.cfg.ratioMax →
      exec (.cemFidi c x) s = .next ({ (s.updUart c.toNat fun _ => ⟨BitVec.ofNat 16 r, true⟩).updWt c.toNat fun w =>
          if w.armed = true then Wt.fromFull { w with etu := BitVec.ofNat 16 r } else { w with etu := BitVec.ofNat 16 r } with
        events := s.events ++ timingEvents s.cfg c.toNat (BitVec.ofNat 16 r), resp := ⟨.ok, 0#8, BitVec.ofNat 16 r⟩ }))

/-! ### The waiting-time timer -/

/-- R186, R181: the new waiting time or ETU length is recorded; a running countdown starts again from the new full period, or stops
where that is 0; a stopped one stays stopped. -/
def Obligations.WtSettingsResult : Prop :=
  (∀ (c : Byte) (v : Half) (s : State), Ready (.wtSetwt c v) s →
    exec (.wtSetwt c v) s = .next ((s.updWt c.toNat fun w =>
      if w.armed = true then Wt.fromFull { w with wtime := v } else { w with wtime := v }).answer .ok 0#8 0#16)) ∧
  (∀ (c : Byte) (v : Half) (s : State), Ready (.wtSetetu c v) s →
    exec (.wtSetetu c v) s = .next ((s.updWt c.toNat fun w =>
      if w.armed = true then Wt.fromFull { w with etu := v } else { w with etu := v }).answer .ok 0#8 0#16))

/-- R184: a tick does nothing while the countdown is stopped, counts it down while it runs, and at its end makes a waiting-time-extension
byte pending, says so, and starts it again from the full period. -/
def Obligations.WtTickResult : Prop :=
  ∀ (c : Byte) (s : State), Ready (.wtTick c) s →
    ((s.wt c.toNat).armed = false → exec (.wtTick c) s = .next (s.answer .nop 0#8 0#16)) ∧
    ((s.wt c.toNat).armed = true → 2 ≤ (s.wt c.toNat).remaining →
      exec (.wtTick c) s = .next ((s.updWt c.toNat fun w => { w with remaining := w.remaining - 1 }).answer .ok 0#8 0#16)) ∧
    ((s.wt c.toNat).armed = true → (s.wt c.toNat).remaining = 1 →
      exec (.wtTick c) s = .next ({ (s.updCem c.toNat fun x => { x with nullPending := true }).updWt c.toNat fun w =>
          { w with remaining := w.wtime.toNat * w.etu.toNat } with
        events := s.events ++ [.diag .wtxSent c.toNat], resp := ⟨.ok, 0x0C#8, 1#16⟩ }))

/-- R187: from a running countdown, exactly as many ticks as it has left bring the expiry: every one before answers OK(0), the last
OK(1), and then the full period is left again. -/
def Obligations.ExpiryAfterExactlyThePeriod : Prop :=
  ∀ (c : Byte) (n : Nat) (s : State), Ready (.wtTick c) s → (s.wt c.toNat).armed = true →
    (s.wt c.toNat).remaining = n + 1 →
    ∃ t, runAll (List.replicate (n + 1) (.wtTick c)) s =
        some (List.replicate n ⟨.ok, 0#8, 0#16⟩ ++ [⟨.ok, 0x0C#8, 1#16⟩], t) ∧
      t = { (s.updCem c.toNat fun x => { x with nullPending := true }).updWt c.toNat fun w =>
          { w with remaining := w.wtime.toNat * w.etu.toNat } with
        events := s.events ++ [.diag .wtxSent c.toNat], resp := ⟨.ok, 0x0C#8, 1#16⟩ }

/-! ### The receive front end and the engine -/

/-- R140, R92: the status word holds exactly the error bits of this interrupt; a byte without an error goes into the ring buffer, or is
dropped with a diagnostic where that is full; one with an error is dropped with a diagnostic. -/
def Obligations.UrxIrqResult : Prop :=
  ∀ (c : Byte) (status : Half) (data : Byte) (s : State), Ready (.urxIrq c status data) s →
    let e := status &&& 0x05E0#16
    let s1 := s.updChan c.toNat fun x => { x with stat := e }
    (e ≠ 0#16 →
      exec (.urxIrq c status data) s = .next ((s1.diag .uartRxError e.toNat).answer .discarded 0x02#8 0#16)) ∧
    (e = 0#16 → s.cfg.rbUsable ≤ (s.rb c.toNat).count s.cfg →
      exec (.urxIrq c status data) s = .next ((s1.diag .rbOverrun data.toNat).answer .full 0x01#8 0#16)) ∧
    (e = 0#16 → (s.rb c.toNat).count s.cfg < s.cfg.rbUsable →
      exec (.urxIrq c status data) s = .next ((s1.updRb c.toNat fun r =>
        { r with buf := r.buf.store (r.wr % s.cfg.rbCap) data, wr := (r.wr + 1) % (2 * s.cfg.rbCap) }).answer .ok 0#8 0#16))

/-- R141: `CEM.PUMP` gives the oldest byte of the ring buffer to the engine as `CEM.RXBYTE` would and consumes it, whatever the engine
makes of it but for a byte the spec gives no meaning, which stays; it answers as `CEM.RXBYTE` does, with the byte. -/
def Obligations.CemPumpMovesOneByte : Prop :=
  ∀ (c : Byte) (s : State), CoreInv s → Ready (.cemPump c) s →
    let b := s.cell (.rb c.toNat) ((s.rb c.toNat).rd % s.cfg.rbCap)
    ((s.rb c.toNat).count s.cfg = 0 → exec (.cemPump c) s = .next (s.answer .empty 0#8 0#16)) ∧
    ((s.rb c.toNat).count s.cfg ≠ 0 →
      ∃ t, exec (.cemRxbyte c b) s = .next t ∧
        (t.resp.rc = .unmodelled → exec (.cemPump c) s = .next (s.answer .unmodelled 0#8 0#16)) ∧
        (t.resp.rc ≠ .unmodelled → exec (.cemPump c) s =
          .next ((t.updRb c.toNat fun r => { r with rd := (r.rd + 1) % (2 * s.cfg.rbCap) }).answer t.resp.rc t.resp.aux
            (b.setWidth 16))))

/-- R143 to R145: an event that repeats the level is ignored; VCC or CLK becoming active records the level and powers the engine up when
both are active; CLK becoming inactive only records it. -/
def Obligations.PowerAndClockSignals : Prop :=
  ∀ (c : Byte) (sig : BitVec 2) (act : Bool) (s : State), Ready (.cemIosig c sig act) s →
    let x := s.cem c.toNat
    ((sig = 0#2 ∧ act = x.vcc) ∨ (sig = 1#2 ∧ act = x.clk) ∨ (sig = 2#2 ∧ act = x.rst) →
      exec (.cemIosig c sig act) s = .next (s.answer .ok 0#8 0#16)) ∧
    (sig = 0#2 → act = true → x.vcc = false →
      exec (.cemIosig c sig act) s = .next ((s.updCem c.toNat fun x => { x with
        vcc := true, state := if x.state = .poweredOff ∧ x.clk = true then
          (if x.rst = true then .inReset else .clockActive) else x.state }).answer .ok 0#8 0#16)) ∧
    (sig = 1#2 → act = true → x.clk = false →
      exec (.cemIosig c sig act) s = .next ((s.updCem c.toNat fun x => { x with
        clk := true, state := if x.state = .poweredOff ∧ x.vcc = true then
          (if x.rst = true then .inReset else .clockActive) else x.state }).answer .ok 0#8 0#16)) ∧
    (sig = 1#2 → act = false → x.clk = true →
      exec (.cemIosig c sig act) s = .next ((s.updCem c.toNat fun x => { x with clk := false }).answer .ok 0#8 0#16))

/-- R147 to R149: RST becoming active returns the engine to `IN_RESET` from any state and forgets the exchange, restoring the timing
registers where the parameter says so; VCC becoming inactive returns it to `POWERED_OFF` from any state; RST becoming inactive starts
the ATR where the card is powered and clocked. -/
def Obligations.ResetAndPowerOffSignals : Prop :=
  ∀ (c : Byte) (sig : BitVec 2) (act : Bool) (s : State), Ready (.cemIosig c sig act) s →
    let x := s.cem c.toNat
    let inReset := (s.updCem c.toNat fun x => { x.noExchange with rst := true, atrIdx := 0, state := .inReset })
    let r := BitVec.ofNat 16 s.cfg.ratioReset
    (sig = 2#2 → act = true → x.rst = false → s.cfg.rstRestoresFidi = false →
      exec (.cemIosig c sig act) s =
        .next ((inReset.updWt c.toNat fun w => { w with armed := false, remaining := 0 }).answer .ok 0#8 0#16)) ∧
    (sig = 2#2 → act = true → x.rst = false → s.cfg.rstRestoresFidi = true →
      exec (.cemIosig c sig act) s = .next ({ (inReset.updWt c.toNat fun w =>
          { w with etu := r, armed := false, remaining := 0 }).updUart c.toNat fun _ => ⟨r, true⟩ with
        events := s.events ++ timingEvents s.cfg c.toNat r, resp := ⟨.ok, 0#8, 0#16⟩ })) ∧
    (sig = 0#2 → act = false → x.vcc = true →
      exec (.cemIosig c sig act) s = .next (((s.updCem c.toNat fun x =>
        { x.noExchange with vcc := false, atrIdx := 0, state := .poweredOff }).updWt c.toNat fun w =>
          { w with armed := false, remaining := 0 }).answer .ok 0#8 0#16)) ∧
    (sig = 2#2 → act = false → x.rst = true →
      exec (.cemIosig c sig act) s = .next ((s.updCem c.toNat fun x =>
        if x.state = .inReset then
          (if x.vcc = true ∧ x.clk = true then { x with rst := false, state := .atrTx, atrIdx := 0 }
            else { x with rst := false, state := .poweredOff })
        else { x with rst := false }).answer .ok 0#8 0#16))

/-- R150, R151: `CEM.TXBYTE` hands out a pending waiting-time-extension byte while a procedure byte is owed or before the host's bytes,
restarting a running countdown, and answers NODATA, changing nothing, whenever there is nothing to send. -/
def Obligations.TxbyteWithoutQueuedBytes : Prop :=
  ∀ (c : Byte) (s : State), Ready (.cemTxbyte c) s →
    let x := s.cem c.toNat
    (x.state = .procedureByte ∨ (x.state = .dataExchange ∧ x.dir = .tx) → x.nullPending = true →
      exec (.cemTxbyte c) s = .next (((s.updCem c.toNat fun x => { x with nullPending := false }).updWt c.toNat fun w =>
        if w.armed = true then { w with remaining := w.wtime.toNat * w.etu.toNat } else w).answer .ok 0#8
          (s.cfg.pbNull.setWidth 16))) ∧
    ((x.state = .procedureByte ∧ x.nullPending = false) ∨ (x.state = .dataExchange ∧ x.dir ≠ .tx) ∨ x.state = .idle ∨
        x.state = .inReset ∨ x.state = .clockActive ∨ x.state = .poweredOff →
      exec (.cemTxbyte c) s = .next (s.answer .nodata 0#8 0#16))

/-- R152: in `ATR_TX` each `CEM.TXBYTE` hands out the next byte of the ATR; with the last one the engine enters `IDLE`. -/
def Obligations.TxbyteHandsOutTheAtr : Prop :=
  ∀ (c : Byte) (s : State), Ready (.cemTxbyte c) s →
    let x := s.cem c.toNat
    let b := (s.cfg.atr.getD x.atrIdx 0#8).setWidth 16
    x.state = .atrTx →
    (x.atrIdx + 1 < s.cfg.atr.length →
      exec (.cemTxbyte c) s =
        .next ((s.updCem c.toNat fun x => { x with atrIdx := x.atrIdx + 1 }).answer .ok 0#8 b)) ∧
    (x.atrIdx + 1 = s.cfg.atr.length →
      exec (.cemTxbyte c) s = .next (((s.updCem c.toNat fun x =>
        { x.noExchange with atrIdx := x.atrIdx + 1, state := .idle }).updWt c.toNat fun w =>
          { w with armed := false, remaining := 0 }).answer .ok 0#8 b))

/-- R153: with host bytes queued and no waiting-time-extension byte pending, `CEM.TXBYTE` hands out the next one; after the last one the
exchange is over, or the engine receives what is left of the data field, or it owes a procedure byte again. -/
def Obligations.TxbyteHandsOutHostBytes : Prop :=
  ∀ (c : Byte) (s : State), Ready (.cemTxbyte c) s →
    let x := s.cem c.toNat
    let b := (s.cell (.txbuf c.toNat) x.txIdx).setWidth 16
    x.state = .dataExchange → x.dir = .tx → x.nullPending = false → x.txLen ≤ s.cfg.txqCap →
    (x.txIdx + 1 < x.txLen →
      exec (.cemTxbyte c) s = .next ((s.updCem c.toNat fun x => { x with txIdx := x.txIdx + 1 }).answer .ok 0#8 b)) ∧
    (x.txIdx + 1 = x.txLen → x.cont = .tx →
      exec (.cemTxbyte c) s = .next (((s.updCem c.toNat fun x => { x.noExchange with state := .idle }).updWt c.toNat fun w =>
        { w with armed := false, remaining := 0 }).answer .ok 0#8 b)) ∧
    (x.txIdx + 1 = x.txLen → x.cont = .rx → 0 < x.rxLeft →
      exec (.cemTxbyte c) s = .next ((s.updCem c.toNat fun x =>
        { x with txLen := 0, txIdx := 0, dir := .rx, rxN := 0 }).answer .ok 0#8 b)) ∧
    (x.txIdx + 1 = x.txLen → x.cont = .rx → x.rxLeft = 0 →
      exec (.cemTxbyte c) s = .next (((s.updCem c.toNat fun x =>
        { x with txLen := 0, txIdx := 0, dir := .none, state := .procedureByte }).updWt c.toNat Wt.fromFull).answer .ok 0#8 b))

/-- R154, R155: each of the first four header bytes is stored and counted, and nothing else happens; a byte while the engine is not
receiving is dropped with a diagnostic; a first header byte 0xFF has no meaning in the spec: it is answered UNMODELLED and changes
nothing (assumption 15). -/
def Obligations.RxbyteWithoutAMessage : Prop :=
  ∀ (c b : Byte) (s : State), Ready (.cemRxbyte c b) s →
    let x := s.cem c.toNat
    (x.state = .idle → x.hdrN < 4 → ¬(x.hdrN = 0 ∧ b = 0xFF#8) →
      exec (.cemRxbyte c b) s = .next ((s.updCem c.toNat fun x =>
        { x with hdr := x.hdr.store x.hdrN b, hdrN := x.hdrN + 1 }).answer .ok 0#8 0#16)) ∧
    (x.state = .idle → x.hdrN = 0 → b = 0xFF#8 →
      exec (.cemRxbyte c b) s = .next (s.answer .unmodelled 0#8 0#16)) ∧
    (x.state ≠ .idle → ¬(x.state = .dataExchange ∧ x.dir = .rx) →
      exec (.cemRxbyte c b) s = .next ((s.diag .rxBadState b.toNat).answer .discarded 0x0A#8 0#16))

/-- R155, R156, R91, R96: the fifth header byte, with a free context and an IN endpoint, composes the header message in the least free
context, queues it, counts the sequence number, loads the expected data length from P3, and leaves the engine owing a procedure byte
with the countdown started. -/
def Obligations.FifthHeaderByteSendsTheHeader : Prop :=
  ∀ (c b : Byte) (s : State) (e h : Nat), Ready (.cemRxbyte c b) s → (s.cem c.toNat).state = .idle →
    (s.cem c.toNat).hdrN = 4 → s.inEp c.toNat = some e → s.leastFree h →
    exec (.cemRxbyte c b) s = .next (((((s.updCem c.toNat fun x => { x with
        hdr := x.hdr.store 4 b, hdrN := 5, rxLeft := b.toNat, rxN := 0, seq := x.seq + 1#8, dir := .none,
        state := .procedureByte }).updWt c.toNat Wt.fromFull).updCtx h fun y => { y with
          state := .usbTxPending, size := 10, totLen := 10, idx := 0, owner := some e
          buf := y.buf.storeList 0 (deviceMessage (s.cem c.toNat).seq 0x01#8
            [s.cell (.hdr c.toNat) 0, s.cell (.hdr c.toNat) 1, s.cell (.hdr c.toNat) 2, s.cell (.hdr c.toNat) 3, b]) }).updEp e
        fun y => { y with queue := y.queue ++ [h] }).answer .ok 0#8 0#16)

/-- R157, R156: a data byte is stored and counted; the last one, with a free context and an IN endpoint, sends the whole data field in
one message and leaves the engine owing a procedure byte with the countdown started. -/
def Obligations.DataBytesFillAndSendTheField : Prop :=
  ∀ (c b : Byte) (s : State), Ready (.cemRxbyte c b) s →
    let x := s.cem c.toNat
    x.state = .dataExchange → x.dir = .rx → x.rxN + x.rxLeft ≤ 255 →
    (2 ≤ x.rxLeft →
      exec (.cemRxbyte c b) s = .next ((s.updCem c.toNat fun x =>
        { x with rxbuf := x.rxbuf.store x.rxN b, rxN := x.rxN + 1, rxLeft := x.rxLeft - 1 }).answer .ok 0#8 0#16)) ∧
    (∀ e h, x.rxLeft = 1 → s.inEp c.toNat = some e → s.leastFree h →
      exec (.cemRxbyte c b) s = .next (((((s.updCem c.toNat fun x => { x with
          rxbuf := x.rxbuf.store x.rxN b, rxN := x.rxN + 1, rxLeft := 0, seq := x.seq + 1#8, dir := .none,
          state := .procedureByte }).updWt c.toNat Wt.fromFull).updCtx h fun y => { y with
            state := .usbTxPending, size := 6 + x.rxN, totLen := 6 + x.rxN, idx := 0, owner := some e
            buf := y.buf.storeList 0 (deviceMessage x.seq 0x00#8
              (((List.range x.rxN).map fun i => s.cell (.rxbuf c.toNat) i) ++ [b])) }).updEp e
          fun y => { y with queue := y.queue ++ [h] }).answer .ok 0#8 0#16))

/-- R155 (c), R157, R156, R234, R235: a complete header or data field that cannot be sent, for want of an IN endpoint or of a free context, is
dropped with a diagnostic; the engine is idle, the sequence number unchanged. -/
def Obligations.UnsendableUnitIsDropped : Prop :=
  ∀ (c b : Byte) (s : State), Ready (.cemRxbyte c b) s →
    let x := s.cem c.toNat
    (x.state = .idle → x.hdrN = 4 →
      let dropped := (s.updCem c.toNat fun x => { x.noExchange with hdr := x.hdr.store 4 b, state := .idle }).updWt c.toNat
        fun w => { w with armed := false, remaining := 0 }
      (s.inEp c.toNat = none →
        exec (.cemRxbyte c b) s = .next ((dropped.diag .noInEp c.toNat).answer .discarded 0x0D#8 0#16)) ∧
      (s.inEp c.toNat ≠ none → s.poolFull →
        exec (.cemRxbyte c b) s = .next ((dropped.diag .poolOom 10).answer .oom 0x03#8 0#16))) ∧
    (x.state = .dataExchange → x.dir = .rx → x.rxN ≤ 254 → x.rxLeft = 1 →
      let dropped := (s.updCem c.toNat fun x => { x.noExchange with rxbuf := x.rxbuf.store x.rxN b, state := .idle }).updWt
        c.toNat fun w => { w with armed := false, remaining := 0 }
      (s.inEp c.toNat = none →
        exec (.cemRxbyte c b) s = .next ((dropped.diag .noInEp c.toNat).answer .discarded 0x0D#8 0#16)) ∧
      (s.inEp c.toNat ≠ none → s.poolFull →
        exec (.cemRxbyte c b) s = .next ((dropped.diag .poolOom (6 + x.rxN)).answer .oom 0x03#8 0#16)))

/-- R161 (A): from reset, whatever the parameters, power, clock, a pulse of RST and then one request more than the ATR has bytes answer
exactly the bytes of the ATR in order and then NODATA. -/
def Obligations.AtrAfterResetInOrder : Prop :=
  ∀ (p : Config) (c : Byte), p.wellFormed = true → c.toNat < p.nChan →
    ∃ t, runAll ([.cemIosig c 0#2 true, .cemIosig c 1#2 true, .cemIosig c 2#2 true, .cemIosig c 2#2 false] ++
        List.replicate (p.atr.length + 1) (.cemTxbyte c)) (State.resetWith p) =
      some (List.replicate 4 ⟨.ok, 0#8, 0#16⟩ ++ p.atr.map okByte ++ [⟨.nodata, 0#8, 0#16⟩], t)

/-- R226, R161 (C): a host message with the continue-transmit flag, dispatched while a procedure byte is owed and no waiting-time-extension
byte is pending, is followed by exactly its data bytes in order, one for each request, then NODATA. -/
def Obligations.HostBytesLeaveInOrder : Prop :=
  ∀ (e : Byte) (c : Byte) (h n : Nat) (rest : List Nat) (f : IfConst) (s : State), CoreInv s → Ready (.ubtDispatch e) s →
    (s.ep e.toNat).queue = h :: rest → f ∈ s.cfg.ifs → f.out = some e.toNat → f.chan = c.toNat →
    (s.cem c.toNat).state = .procedureByte → (s.cem c.toNat).nullPending = false →
    1 ≤ n → n ≤ s.cfg.txqCap → s.holdsMessage h n 0x01#8 0x02#8 →
    ∃ t, runAll (.ubtDispatch e :: List.replicate (n + 1) (.cemTxbyte c)) s =
      some (⟨.ok, 0#8, BitVec.ofNat 16 h⟩ :: (s.messageBody h n).map okByte ++ [⟨.nodata, 0#8, 0#16⟩], t)

/-! ### The pool -/

/-- R110, R111: `POOL.ALLOC` gives the least free context the state asked for and clears its bookkeeping; with none free, or a size above
the block size, it fails with a diagnostic. -/
def Obligations.PoolAllocResult : Prop :=
  ∀ (size : Half) (st : BitVec 3) (s : State), Ready (.poolAlloc size st) s →
    (s.cfg.ctxSize < size.toNat ∨ s.poolFull →
      exec (.poolAlloc size st) s = .next ((s.diag .poolOom size.toNat).answer .oom 0x03#8 0#16)) ∧
    (∀ h, size.toNat ≤ s.cfg.ctxSize → s.leastFree h →
      exec (.poolAlloc size st) s = .next ((s.updCtx h fun y => { y with
        state := if st = 1#3 then .usbRxBusy else .uartTxPending, size := 0, totLen := 0, idx := 0, owner := none }).answer
          .ok 0#8 (BitVec.ofNat 16 h)))

/-- R112, R114, R231, R238: `POOL.FREE` of an occupied context that no endpoint refers to releases it; a handle outside the pool, a free
context and a context that a queue or a transfer refers to halt the core, tested in this order. -/
def Obligations.PoolFreeResult : Prop :=
  ∀ (h : Byte) (s : State), Ready (.poolFree h) s →
    let halts := fun k : FatalCode => Host.Outcome.next (φ := Fault) (ρ := Refusal) { s with
      halted := true, haltCode := k.code, events := s.events ++ [.halt k], resp := ⟨.halted, k.code, 0#16⟩ }
    let held := ∃ x ∈ s.eps, x.cur = some h.toNat ∨ h.toNat ∈ x.queue
    (s.cfg.poolN ≤ h.toNat → exec (.poolFree h) s = halts .badHandle) ∧
    (h.toNat < s.cfg.poolN → (s.ctx h.toNat).state = .free → exec (.poolFree h) s = halts .doubleFree) ∧
    (h.toNat < s.cfg.poolN → (s.ctx h.toNat).state ≠ .free → held → exec (.poolFree h) s = halts .queueCorrupt) ∧
    (h.toNat < s.cfg.poolN → (s.ctx h.toNat).state ≠ .free → ¬held →
      exec (.poolFree h) s = .next ((s.updCtx h.toNat Ctx.released).answer .ok 0#8 0#16))

/-- R113: bit `h` of the report is set exactly when context `h` is not free; nothing changes. -/
def Obligations.PoolReportIsTheOccupancy : Prop :=
  ∀ s : State, Ready .poolReport s → ∃ m : Half, exec .poolReport s = .next (s.answer .ok 0#8 m) ∧
    ∀ h, m.getLsbD h = decide (h < s.cfg.poolN ∧ (s.ctx h).state ≠ .free)

/-! ### The transport -/

/-- R191, R231: `UBT.ENQ` appends a composed context to the endpoint's queue and makes the endpoint its owner; a handle outside the pool
or a context in any other state halts the core. -/
def Obligations.UbtEnqResult : Prop :=
  ∀ (e h : Byte) (s : State), Ready (.ubtEnq e h) s →
    let halts := fun k : FatalCode => Host.Outcome.next (φ := Fault) (ρ := Refusal) { s with
      halted := true, haltCode := k.code, events := s.events ++ [.halt k], resp := ⟨.halted, k.code, 0#16⟩ }
    (s.cfg.poolN ≤ h.toNat → exec (.ubtEnq e h) s = halts .badHandle) ∧
    (h.toNat < s.cfg.poolN → (s.ctx h.toNat).state ≠ .uartTxPending → exec (.ubtEnq e h) s = halts .queueCorrupt) ∧
    (h.toNat < s.cfg.poolN → (s.ctx h.toNat).state = .uartTxPending →
      exec (.ubtEnq e h) s = .next (((s.updCtx h.toNat fun y =>
        { y with state := .usbTxPending, owner := some e.toNat }).updEp e.toNat fun y =>
          { y with queue := y.queue ++ [h.toNat] }).answer .ok 0#8 0#16))

/-- R192, R201, R202, R236: a refill does nothing while a transfer is in flight or with nothing queued; else it submits the head of the
queue. Refused, the state is as before but for the two events. -/
def Obligations.UbtRefillTohostResult : Prop :=
  ∀ (e : Byte) (draw : Bool) (s : State), CoreInv s → Ready (.ubtRefillTohost e draw) s →
    ((s.ep e.toNat).inProgress = true ∨ (s.ep e.toNat).queue = [] →
      exec (.ubtRefillTohost e draw) s = .next (s.answer .nop 0#8 0#16)) ∧
    (∀ h rest, (s.ep e.toNat).inProgress = false → (s.ep e.toNat).queue = h :: rest →
      let ev := Event.usbWrite (s.epConst e.toNat).addr h (s.ctx h).size
      (draw = true → exec (.ubtRefillTohost e draw) s = .next ({ (s.updEp e.toNat fun _ =>
          ⟨rest, true, some h, false⟩).updCtx h fun y => { y with state := .usbTxBusy } with
        events := s.events ++ [ev], resp := ⟨.ok, 0#8, BitVec.ofNat 16 h⟩ })) ∧
      (draw = false → exec (.ubtRefillTohost e draw) s = .next ({ s with
        events := s.events ++ [ev, .diag .usbWriteSubmitFail h], resp := ⟨.fail, 0x07#8, BitVec.ofNat 16 h⟩ })))

/-- R194, R195, R236: a successful completion of a write whose length is a multiple of the endpoint's maximum packet size submits the
zero-length follow-up and keeps the transfer in flight; every other completion, and a refused follow-up, releases the context and ends
the transfer, with a diagnostic where something failed. -/
def Obligations.UbtWcompleteResult : Prop :=
  ∀ (e status : Byte) (draw : Bool) (h : Nat) (s : State), Ready (.ubtWcomplete e status draw) s →
    (s.ep e.toNat).inProgress = true → (s.ep e.toNat).cur = some h → h < s.cfg.poolN →
    let zlpDue := (s.ep e.toNat).zlp = false ∧ status = 0#8 ∧ (s.ctx h).size % (s.epConst e.toNat).mps = 0
    let ev := Event.usbWrite (s.epConst e.toNat).addr h 0
    let done := (s.updCtx h Ctx.released).updEp e.toNat fun y => { y with inProgress := false, cur := none, zlp := false }
    (zlpDue → draw = true → exec (.ubtWcomplete e status draw) s = .next ({ s.updEp e.toNat fun y =>
        { y with zlp := true } with events := s.events ++ [ev], resp := ⟨.ok, 0#8, 0#16⟩ })) ∧
    (zlpDue → draw = false → exec (.ubtWcomplete e status draw) s = .next ({ done with
        events := s.events ++ [ev, .diag .usbWriteSubmitFail h], resp := ⟨.ok, 0x07#8, 0#16⟩ })) ∧
    (¬zlpDue → status = 0#8 → exec (.ubtWcomplete e status draw) s = .next (done.answer .ok 0#8 0#16)) ∧
    (status ≠ 0#8 → exec (.ubtWcomplete e status draw) s = .next ({ done with
        events := s.events ++ [.diag .usbXferError status.toNat], resp := ⟨.ok, 0x09#8, 0#16⟩ }))

/-- R196, R201, R236: a read refill does nothing while a transfer is in flight; else it takes the least free context and submits a read of
the whole block. With no free context, or refused, the state is as before but for the events. -/
def Obligations.UbtRefillFromhostResult : Prop :=
  ∀ (e : Byte) (draw : Bool) (s : State), CoreInv s → Ready (.ubtRefillFromhost e draw) s →
    ((s.ep e.toNat).inProgress = true →
      exec (.ubtRefillFromhost e draw) s = .next (s.answer .nop 0#8 0#16)) ∧
    ((s.ep e.toNat).inProgress = false → s.poolFull →
      exec (.ubtRefillFromhost e draw) s = .next ((s.diag .poolOom s.cfg.ctxSize).answer .oom 0x03#8 0#16)) ∧
    (∀ h, (s.ep e.toNat).inProgress = false → s.leastFree h →
      let ev := Event.usbRead (s.epConst e.toNat).addr h s.cfg.ctxSize
      (draw = true → exec (.ubtRefillFromhost e draw) s = .next ({ (s.updCtx h fun y =>
          { y with state := .usbRxBusy, owner := some e.toNat }).updEp e.toNat fun y =>
            { y with inProgress := true, cur := some h } with
        events := s.events ++ [ev], resp := ⟨.ok, 0#8, BitVec.ofNat 16 h⟩ })) ∧
      (draw = false → exec (.ubtRefillFromhost e draw) s = .next ({ s with
        events := s.events ++ [ev, .diag .usbReadSubmitFail e.toNat], resp := ⟨.fail, 0x08#8, 0#16⟩ })))

/-- R197, R236: a successful read completion stores its bytes from offset 0 of the context, records their number and queues the context
for dispatch; one with an error releases the context with a diagnostic. Either way the transfer has ended. -/
def Obligations.UbtRcompleteResult : Prop :=
  ∀ (e status : Byte) (data : List Byte) (h : Nat) (s : State), Ready (.ubtRcomplete e status data) s →
    (s.ep e.toNat).inProgress = true → (s.ep e.toNat).cur = some h → h < s.cfg.poolN →
    (status = 0#8 → exec (.ubtRcomplete e status data) s = .next (((s.updCtx h fun y => { y with
        buf := y.buf.storeList 0 data, size := data.length, totLen := data.length, idx := 0, state := .usbRxPending }).updEp
          e.toNat fun y => { y with queue := y.queue ++ [h], inProgress := false, cur := none }).answer .ok 0#8 0#16)) ∧
    (status ≠ 0#8 → exec (.ubtRcomplete e status data) s = .next ({ (s.updCtx h Ctx.released).updEp e.toNat fun y =>
        { y with inProgress := false, cur := none } with
      events := s.events ++ [.diag .usbXferError status.toNat], resp := ⟨.ok, 0x09#8, 0#16⟩ }))

/-- R199, R76: with no interruption, `UBT.PROCESS` completes and does what its refills and then dispatches, presented one after another,
do: as many dispatches as there are contexts in the OUT queue, at most `DISPATCH_MAX`, each of which takes one; it answers OK with their
number and the last diagnostic. That the environment's choices are the list `preempt`, here empty, and that no main-context operation is
recorded in progress, is in the model's terms (assumptions 6 and 7). -/
def Obligations.UbtProcessRunsItsParts : Prop :=
  ∀ (k : Byte) (d0 d1 d2 : Bool) (f : IfConst) (s : State), CoreInv s → Ready (.ubtProcess k d0 d1 d2) s →
    s.cfg.ifs[k.toNat]? = some f → s.mainOp = none → s.preempt = [] →
    ∃ rs t n, runAll ((refillParts f d0 d1 d2).flatten ++
        List.replicate n (.ubtDispatch (BitVec.ofNat 8 (f.out.getD 0)))) s = some (rs, t) ∧
      (∀ r ∈ rs, r.rc ≠ .empty) ∧ n ≤ s.cfg.dispatchMax ∧ (f.out = none → n = 0) ∧
      (∀ e, f.out = some e → n = min s.cfg.dispatchMax (s.ep e).queue.length ∧
        (n = s.cfg.dispatchMax ∨ (t.ep e).queue = [])) ∧
      exec (.ubtProcess k d0 d1 d2) s = .next (t.answer .ok (lastAux (rs.map Response.aux)) (BitVec.ofNat 16 n))

/-- R199, R76, R243: `UBT.PROCESS` does what its parts presented one by one do, up to the first boundary at which an interrupt-context request
steps; there it stays in progress and has not answered. The next step runs that request. With none stepping first, a step goes on with the
remaining parts, to their end or to the next such boundary: at the end the answer is OK with the number of contexts dispatched over all
parts, a part that finds the queue empty not counted, and the last diagnostic of all parts. R232: on a core halted meanwhile it answers HALTED. The list of choices is the model's (assumption 6), so are the
record of the suspended operation (assumption 7), which requests may step, told by operation code, `SYS.RESET` included (assumption 8),
and the answer on a halted core (assumption 22). -/
def Obligations.InterruptStepsBetweenParts : Prop :=
  (∀ (k : Byte) (d0 d1 d2 : Bool) (i : Instr) (rest : List PortWord) (ps : List Bool) (s : State), CoreInv s →
    Ready (.ubtProcess k d0 d1 d2) s → s.preempt = true :: ps → i.encodable = true → s.port = encode i ++ rest →
    s.irqPresented = true →
    ∃ t p, exec (.ubtProcess k d0 d1 d2) s = .next t ∧ t.mainOp = some (.process p) ∧ p.part = 1 ∧ t.resp = s.resp ∧
      t.port = s.port ∧ step t = exec i { t with preempt := ps, port := rest }) ∧
  (∀ (k : Byte) (d0 d1 d2 : Bool) (f : IfConst) (s : State), CoreInv s → Ready (.ubtProcess k d0 d1 d2) s →
    s.cfg.ifs[k.toNat]? = some f →
    RunsParts f ⟨k.toNat, d0, d1, d2, 0, 0, 0#8⟩ s (exec (.ubtProcess k d0 d1 d2) s)) ∧
  (∀ (p : Proc) (i : Instr) (rest : List PortWord) (s : State), s.mainOp = some (.process p) → s.preempted = true →
    i.encodable = true → s.port = encode i ++ rest →
    step s = exec i { s with preempt := s.preempt.tail, port := rest }) ∧
  (∀ (p : Proc) (f : IfConst) (s : State), CoreInv s → s.halted = false → s.mainOp = some (.process p) →
    s.preempted = false → s.cfg.ifs[p.k]? = some f →
    RunsParts f p { s with preempt := s.preempt.tail } (step s)) ∧
  (∀ (p : Proc) (s : State), s.halted = true → s.mainOp = some (.process p) → s.preempted = false →
    step s = .next { s with mainOp := none, preempt := s.preempt.tail, resp := ⟨.halted, s.haltCode, 0#16⟩ })

/-- R200: with no transfer in flight `UBT.DRAIN` releases every queued context, empties the queue and answers their number. -/
def Obligations.UbtDrainFreesTheQueue : Prop :=
  ∀ (e : Byte) (s : State), CoreInv s → Ready (.ubtDrain e) s → s.mainOp = none → (s.ep e.toNat).inProgress = false →
    ∃ t, exec (.ubtDrain e) s = .next t ∧
      t = { s with
        ctxs := s.ctxs.mapIdx fun h x => if h ∈ (s.ep e.toNat).queue then x.released else x
        eps := s.eps.modify e.toNat fun y => { y with queue := [] }
        resp := ⟨.ok, 0#8, BitVec.ofNat 16 (s.ep e.toNat).queue.length⟩ }

/-- R200, R232, R273: with a transfer in flight `UBT.DRAIN` is held and changes nothing; while held only interrupt-context requests
step (R240, R243); at the first boundary without a transfer in flight it ends as if presented there, and on a core halted meanwhile it
ends with HALTED. How the hold is recorded is the model's (assumption 7), and so is that a request is told from its operation code: any
word without an interrupt-context code waits, an undecodable one too, and `SYS.RESET` may step (assumption 8). -/
def Obligations.UbtDrainHolds : Prop :=
  (∀ (e : Byte) (s : State), Ready (.ubtDrain e) s → (s.ep e.toNat).inProgress = true →
    exec (.ubtDrain e) s = .next { s with mainOp := some (.drain e.toNat) }) ∧
  (∀ (e : Byte) (s : State), s.mainOp = some (.drain e.toNat) → s.halted = false → (s.ep e.toNat).inProgress = true →
    (s.irqPresented = false → step s = .next s) ∧
    (∀ i rest, s.irqPresented = true → i.encodable = true → s.port = encode i ++ rest →
      step s = exec i { s with port := rest })) ∧
  (∀ (e : Byte) (s : State), Ready (.ubtDrain e) s → s.mainOp = some (.drain e.toNat) →
    (s.ep e.toNat).inProgress = false → step s = exec (.ubtDrain e) { s with mainOp := none }) ∧
  (∀ (e : Byte) (s : State), s.mainOp = some (.drain e.toNat) → s.halted = true →
    step s = .next { s with mainOp := none, resp := ⟨.halted, s.haltCode, 0#16⟩ })

/-- R220 to R224, R238: `UBT.DISPATCH` takes the head of the queue, makes the tests of size, length field, type, body length, flags and
engine state in this order, hands an accepted message's data to the engine, and releases the context on every path. -/
def Obligations.UbtDispatchResult : Prop :=
  ∀ (e : Byte) (s : State), CoreInv s → Ready (.ubtDispatch e) s →
    ((s.ep e.toNat).queue = [] → exec (.ubtDispatch e) s = .next (s.answer .empty 0#8 0#16)) ∧
    (∀ h rest, (s.ep e.toNat).queue = h :: rest →
      let done := (s.updEp e.toNat fun y => { y with queue := rest }).updCtx h Ctx.released
      let v := BitVec.ofNat 16 h
      let n := (s.ctx h).size
      let plen := le16 (s.cell (.ctx h) 2) (s.cell (.ctx h) 3)
      let flags := s.cell (.ctx h) 4
      ((∀ f ∈ s.cfg.ifs, f.out ≠ some e.toNat) →
        exec (.ubtDispatch e) s = .next ((done.diag .noHandler e.toNat).answer .discarded 0x0E#8 v)) ∧
      (∀ f ∈ s.cfg.ifs, f.out = some e.toNat →
        (n < 4 ∨ plen ≠ n - 4 →
          exec (.ubtDispatch e) s = .next ((done.diag .msgMalformed n).answer .discarded 0x05#8 v)) ∧
        (4 ≤ n → plen = n - 4 → s.cell (.ctx h) 0 ≠ 0x01#8 →
          exec (.ubtDispatch e) s =
            .next ((done.diag .msgUnknownType (s.cell (.ctx h) 0).toNat).answer .discarded 0x06#8 v)) ∧
        (4 ≤ n → plen = n - 4 → s.cell (.ctx h) 0 = 0x01#8 →
          (plen < 2 ∨ 1 + s.cfg.txqCap < plen →
            exec (.ubtDispatch e) s = .next ((done.diag .msgMalformed n).answer .discarded 0x05#8 v)) ∧
          (2 ≤ plen → plen ≤ 1 + s.cfg.txqCap →
            (flags.extractLsb' 3 5 ≠ 0#5 ∨ flags.getLsbD 0 = true ∨ flags.getLsbD 1 = flags.getLsbD 2 →
              exec (.ubtDispatch e) s = .next ((done.diag .msgMalformed flags.toNat).answer .discarded 0x05#8 v)) ∧
            (flags = 0x02#8 ∨ flags = 0x04#8 →
              ((s.cem f.chan).state ≠ .procedureByte →
                exec (.ubtDispatch e) s =
                  .next ((done.diag .hostmsgBadState (s.cem f.chan).state.code).answer .discarded 0x0B#8 v)) ∧
              ((s.cem f.chan).state = .procedureByte →
                exec (.ubtDispatch e) s = .next (((done.updCem f.chan fun x => { x with
                    txbuf := x.txbuf.storeList 0 (s.messageBody h (plen - 1)), txLen := plen - 1, txIdx := 0,
                    cont := if flags = 0x04#8 then .rx else .tx, dir := .tx, state := .dataExchange }).updWt f.chan fun w =>
                  { w with armed := false, remaining := 0 }).answer .ok 0#8 v)))))))
end

