-- ==== Sys2Proof/Laws/State.lean ====
section
/-! SUPPORT. One lemma per field per update of the state, each true by unfolding, and the reading lemmas of channels, endpoints and
contexts after an update. -/

namespace Sys2Proof.Machine

variable (s : State)

/-! ### `updChan` -/

@[simp] theorem State.updChan_cfg (c : Nat) (f : Chan → Chan) : (s.updChan c f).cfg = s.cfg := rfl
@[simp] theorem State.updChan_halted (c : Nat) (f : Chan → Chan) : (s.updChan c f).halted = s.halted := rfl
@[simp] theorem State.updChan_haltCode (c : Nat) (f : Chan → Chan) : (s.updChan c f).haltCode = s.haltCode := rfl
@[simp] theorem State.updChan_ctxs (c : Nat) (f : Chan → Chan) : (s.updChan c f).ctxs = s.ctxs := rfl
@[simp] theorem State.updChan_chans (c : Nat) (f : Chan → Chan) : (s.updChan c f).chans = s.chans.modify c f := rfl
@[simp] theorem State.updChan_eps (c : Nat) (f : Chan → Chan) : (s.updChan c f).eps = s.eps := rfl
@[simp] theorem State.updChan_events (c : Nat) (f : Chan → Chan) : (s.updChan c f).events = s.events := rfl
@[simp] theorem State.updChan_resp (c : Nat) (f : Chan → Chan) : (s.updChan c f).resp = s.resp := rfl
@[simp] theorem State.updChan_port (c : Nat) (f : Chan → Chan) : (s.updChan c f).port = s.port := rfl
@[simp] theorem State.updChan_preempt (c : Nat) (f : Chan → Chan) : (s.updChan c f).preempt = s.preempt := rfl
@[simp] theorem State.updChan_mainOp (c : Nat) (f : Chan → Chan) : (s.updChan c f).mainOp = s.mainOp := rfl
@[simp] theorem State.updChan_era (c : Nat) (f : Chan → Chan) : (s.updChan c f).era = s.era := rfl

/-! ### `updCem` -/

@[simp] theorem State.updCem_cfg (c : Nat) (f : Cem → Cem) : (s.updCem c f).cfg = s.cfg := rfl
@[simp] theorem State.updCem_halted (c : Nat) (f : Cem → Cem) : (s.updCem c f).halted = s.halted := rfl
@[simp] theorem State.updCem_haltCode (c : Nat) (f : Cem → Cem) : (s.updCem c f).haltCode = s.haltCode := rfl
@[simp] theorem State.updCem_ctxs (c : Nat) (f : Cem → Cem) : (s.updCem c f).ctxs = s.ctxs := rfl
@[simp] theorem State.updCem_chans (c : Nat) (f : Cem → Cem) : (s.updCem c f).chans = s.chans.modify c fun x => { x with cem := f x.cem } := rfl
@[simp] theorem State.updCem_eps (c : Nat) (f : Cem → Cem) : (s.updCem c f).eps = s.eps := rfl
@[simp] theorem State.updCem_events (c : Nat) (f : Cem → Cem) : (s.updCem c f).events = s.events := rfl
@[simp] theorem State.updCem_resp (c : Nat) (f : Cem → Cem) : (s.updCem c f).resp = s.resp := rfl
@[simp] theorem State.updCem_port (c : Nat) (f : Cem → Cem) : (s.updCem c f).port = s.port := rfl
@[simp] theorem State.updCem_preempt (c : Nat) (f : Cem → Cem) : (s.updCem c f).preempt = s.preempt := rfl
@[simp] theorem State.updCem_mainOp (c : Nat) (f : Cem → Cem) : (s.updCem c f).mainOp = s.mainOp := rfl
@[simp] theorem State.updCem_era (c : Nat) (f : Cem → Cem) : (s.updCem c f).era = s.era := rfl

/-! ### `updRb` -/

@[simp] theorem State.updRb_cfg (c : Nat) (f : Ring → Ring) : (s.updRb c f).cfg = s.cfg := rfl
@[simp] theorem State.updRb_halted (c : Nat) (f : Ring → Ring) : (s.updRb c f).halted = s.halted := rfl
@[simp] theorem State.updRb_haltCode (c : Nat) (f : Ring → Ring) : (s.updRb c f).haltCode = s.haltCode := rfl
@[simp] theorem State.updRb_ctxs (c : Nat) (f : Ring → Ring) : (s.updRb c f).ctxs = s.ctxs := rfl
@[simp] theorem State.updRb_chans (c : Nat) (f : Ring → Ring) : (s.updRb c f).chans = s.chans.modify c fun x => { x with rb := f x.rb } := rfl
@[simp] theorem State.updRb_eps (c : Nat) (f : Ring → Ring) : (s.updRb c f).eps = s.eps := rfl
@[simp] theorem State.updRb_events (c : Nat) (f : Ring → Ring) : (s.updRb c f).events = s.events := rfl
@[simp] theorem State.updRb_resp (c : Nat) (f : Ring → Ring) : (s.updRb c f).resp = s.resp := rfl
@[simp] theorem State.updRb_port (c : Nat) (f : Ring → Ring) : (s.updRb c f).port = s.port := rfl
@[simp] theorem State.updRb_preempt (c : Nat) (f : Ring → Ring) : (s.updRb c f).preempt = s.preempt := rfl
@[simp] theorem State.updRb_mainOp (c : Nat) (f : Ring → Ring) : (s.updRb c f).mainOp = s.mainOp := rfl
@[simp] theorem State.updRb_era (c : Nat) (f : Ring → Ring) : (s.updRb c f).era = s.era := rfl

/-! ### `updUart` -/

@[simp] theorem State.updUart_cfg (c : Nat) (f : Uart → Uart) : (s.updUart c f).cfg = s.cfg := rfl
@[simp] theorem State.updUart_halted (c : Nat) (f : Uart → Uart) : (s.updUart c f).halted = s.halted := rfl
@[simp] theorem State.updUart_haltCode (c : Nat) (f : Uart → Uart) : (s.updUart c f).haltCode = s.haltCode := rfl
@[simp] theorem State.updUart_ctxs (c : Nat) (f : Uart → Uart) : (s.updUart c f).ctxs = s.ctxs := rfl
@[simp] theorem State.updUart_chans (c : Nat) (f : Uart → Uart) : (s.updUart c f).chans = s.chans.modify c fun x => { x with uart := f x.uart } := rfl
@[simp] theorem State.updUart_eps (c : Nat) (f : Uart → Uart) : (s.updUart c f).eps = s.eps := rfl
@[simp] theorem State.updUart_events (c : Nat) (f : Uart → Uart) : (s.updUart c f).events = s.events := rfl
@[simp] theorem State.updUart_resp (c : Nat) (f : Uart → Uart) : (s.updUart c f).resp = s.resp := rfl
@[simp] theorem State.updUart_port (c : Nat) (f : Uart → Uart) : (s.updUart c f).port = s.port := rfl
@[simp] theorem State.updUart_preempt (c : Nat) (f : Uart → Uart) : (s.updUart c f).preempt = s.preempt := rfl
@[simp] theorem State.updUart_mainOp (c : Nat) (f : Uart → Uart) : (s.updUart c f).mainOp = s.mainOp := rfl
@[simp] theorem State.updUart_era (c : Nat) (f : Uart → Uart) : (s.updUart c f).era = s.era := rfl

/-! ### `updWt` -/

@[simp] theorem State.updWt_cfg (c : Nat) (f : Wt → Wt) : (s.updWt c f).cfg = s.cfg := rfl
@[simp] theorem State.updWt_halted (c : Nat) (f : Wt → Wt) : (s.updWt c f).halted = s.halted := rfl
@[simp] theorem State.updWt_haltCode (c : Nat) (f : Wt → Wt) : (s.updWt c f).haltCode = s.haltCode := rfl
@[simp] theorem State.updWt_ctxs (c : Nat) (f : Wt → Wt) : (s.updWt c f).ctxs = s.ctxs := rfl
@[simp] theorem State.updWt_chans (c : Nat) (f : Wt → Wt) : (s.updWt c f).chans = s.chans.modify c fun x => { x with wt := f x.wt } := rfl
@[simp] theorem State.updWt_eps (c : Nat) (f : Wt → Wt) : (s.updWt c f).eps = s.eps := rfl
@[simp] theorem State.updWt_events (c : Nat) (f : Wt → Wt) : (s.updWt c f).events = s.events := rfl
@[simp] theorem State.updWt_resp (c : Nat) (f : Wt → Wt) : (s.updWt c f).resp = s.resp := rfl
@[simp] theorem State.updWt_port (c : Nat) (f : Wt → Wt) : (s.updWt c f).port = s.port := rfl
@[simp] theorem State.updWt_preempt (c : Nat) (f : Wt → Wt) : (s.updWt c f).preempt = s.preempt := rfl
@[simp] theorem State.updWt_mainOp (c : Nat) (f : Wt → Wt) : (s.updWt c f).mainOp = s.mainOp := rfl
@[simp] theorem State.updWt_era (c : Nat) (f : Wt → Wt) : (s.updWt c f).era = s.era := rfl

/-! ### `updEp` -/

@[simp] theorem State.updEp_cfg (e : Nat) (f : Ep → Ep) : (s.updEp e f).cfg = s.cfg := rfl
@[simp] theorem State.updEp_halted (e : Nat) (f : Ep → Ep) : (s.updEp e f).halted = s.halted := rfl
@[simp] theorem State.updEp_haltCode (e : Nat) (f : Ep → Ep) : (s.updEp e f).haltCode = s.haltCode := rfl
@[simp] theorem State.updEp_ctxs (e : Nat) (f : Ep → Ep) : (s.updEp e f).ctxs = s.ctxs := rfl
@[simp] theorem State.updEp_chans (e : Nat) (f : Ep → Ep) : (s.updEp e f).chans = s.chans := rfl
@[simp] theorem State.updEp_eps (e : Nat) (f : Ep → Ep) : (s.updEp e f).eps = s.eps.modify e f := rfl
@[simp] theorem State.updEp_events (e : Nat) (f : Ep → Ep) : (s.updEp e f).events = s.events := rfl
@[simp] theorem State.updEp_resp (e : Nat) (f : Ep → Ep) : (s.updEp e f).resp = s.resp := rfl
@[simp] theorem State.updEp_port (e : Nat) (f : Ep → Ep) : (s.updEp e f).port = s.port := rfl
@[simp] theorem State.updEp_preempt (e : Nat) (f : Ep → Ep) : (s.updEp e f).preempt = s.preempt := rfl
@[simp] theorem State.updEp_mainOp (e : Nat) (f : Ep → Ep) : (s.updEp e f).mainOp = s.mainOp := rfl
@[simp] theorem State.updEp_era (e : Nat) (f : Ep → Ep) : (s.updEp e f).era = s.era := rfl

/-! ### `updCtx` -/

@[simp] theorem State.updCtx_cfg (h : Nat) (f : Ctx → Ctx) : (s.updCtx h f).cfg = s.cfg := rfl
@[simp] theorem State.updCtx_halted (h : Nat) (f : Ctx → Ctx) : (s.updCtx h f).halted = s.halted := rfl
@[simp] theorem State.updCtx_haltCode (h : Nat) (f : Ctx → Ctx) : (s.updCtx h f).haltCode = s.haltCode := rfl
@[simp] theorem State.updCtx_ctxs (h : Nat) (f : Ctx → Ctx) : (s.updCtx h f).ctxs = s.ctxs.modify h f := rfl
@[simp] theorem State.updCtx_chans (h : Nat) (f : Ctx → Ctx) : (s.updCtx h f).chans = s.chans := rfl
@[simp] theorem State.updCtx_eps (h : Nat) (f : Ctx → Ctx) : (s.updCtx h f).eps = s.eps := rfl
@[simp] theorem State.updCtx_events (h : Nat) (f : Ctx → Ctx) : (s.updCtx h f).events = s.events := rfl
@[simp] theorem State.updCtx_resp (h : Nat) (f : Ctx → Ctx) : (s.updCtx h f).resp = s.resp := rfl
@[simp] theorem State.updCtx_port (h : Nat) (f : Ctx → Ctx) : (s.updCtx h f).port = s.port := rfl
@[simp] theorem State.updCtx_preempt (h : Nat) (f : Ctx → Ctx) : (s.updCtx h f).preempt = s.preempt := rfl
@[simp] theorem State.updCtx_mainOp (h : Nat) (f : Ctx → Ctx) : (s.updCtx h f).mainOp = s.mainOp := rfl
@[simp] theorem State.updCtx_era (h : Nat) (f : Ctx → Ctx) : (s.updCtx h f).era = s.era := rfl

/-! ### `release` -/

@[simp] theorem State.release_cfg (h : Nat) : (s.release h).cfg = s.cfg := rfl
@[simp] theorem State.release_halted (h : Nat) : (s.release h).halted = s.halted := rfl
@[simp] theorem State.release_haltCode (h : Nat) : (s.release h).haltCode = s.haltCode := rfl
@[simp] theorem State.release_ctxs (h : Nat) : (s.release h).ctxs = s.ctxs.modify h fun x => { x with state := .free, size := 0, totLen := 0, idx := 0, owner := none } := rfl
@[simp] theorem State.release_chans (h : Nat) : (s.release h).chans = s.chans := rfl
@[simp] theorem State.release_eps (h : Nat) : (s.release h).eps = s.eps := rfl
@[simp] theorem State.release_events (h : Nat) : (s.release h).events = s.events := rfl
@[simp] theorem State.release_resp (h : Nat) : (s.release h).resp = s.resp := rfl
@[simp] theorem State.release_port (h : Nat) : (s.release h).port = s.port := rfl
@[simp] theorem State.release_preempt (h : Nat) : (s.release h).preempt = s.preempt := rfl
@[simp] theorem State.release_mainOp (h : Nat) : (s.release h).mainOp = s.mainOp := rfl
@[simp] theorem State.release_era (h : Nat) : (s.release h).era = s.era := rfl

/-! ### `emit` -/

@[simp] theorem State.emit_cfg (ev : Event) : (s.emit ev).cfg = s.cfg := rfl
@[simp] theorem State.emit_halted (ev : Event) : (s.emit ev).halted = s.halted := rfl
@[simp] theorem State.emit_haltCode (ev : Event) : (s.emit ev).haltCode = s.haltCode := rfl
@[simp] theorem State.emit_ctxs (ev : Event) : (s.emit ev).ctxs = s.ctxs := rfl
@[simp] theorem State.emit_chans (ev : Event) : (s.emit ev).chans = s.chans := rfl
@[simp] theorem State.emit_eps (ev : Event) : (s.emit ev).eps = s.eps := rfl
@[simp] theorem State.emit_events (ev : Event) : (s.emit ev).events = s.events ++ [ev] := rfl
@[simp] theorem State.emit_resp (ev : Event) : (s.emit ev).resp = s.resp := rfl
@[simp] theorem State.emit_port (ev : Event) : (s.emit ev).port = s.port := rfl
@[simp] theorem State.emit_preempt (ev : Event) : (s.emit ev).preempt = s.preempt := rfl
@[simp] theorem State.emit_mainOp (ev : Event) : (s.emit ev).mainOp = s.mainOp := rfl
@[simp] theorem State.emit_era (ev : Event) : (s.emit ev).era = s.era := rfl

/-! ### `diag` -/

@[simp] theorem State.diag_cfg (k : DiagCode) (n : Nat) : (s.diag k n).cfg = s.cfg := rfl
@[simp] theorem State.diag_halted (k : DiagCode) (n : Nat) : (s.diag k n).halted = s.halted := rfl
@[simp] theorem State.diag_haltCode (k : DiagCode) (n : Nat) : (s.diag k n).haltCode = s.haltCode := rfl
@[simp] theorem State.diag_ctxs (k : DiagCode) (n : Nat) : (s.diag k n).ctxs = s.ctxs := rfl
@[simp] theorem State.diag_chans (k : DiagCode) (n : Nat) : (s.diag k n).chans = s.chans := rfl
@[simp] theorem State.diag_eps (k : DiagCode) (n : Nat) : (s.diag k n).eps = s.eps := rfl
@[simp] theorem State.diag_events (k : DiagCode) (n : Nat) : (s.diag k n).events = s.events ++ [.diag k n] := rfl
@[simp] theorem State.diag_resp (k : DiagCode) (n : Nat) : (s.diag k n).resp = s.resp := rfl
@[simp] theorem State.diag_port (k : DiagCode) (n : Nat) : (s.diag k n).port = s.port := rfl
@[simp] theorem State.diag_preempt (k : DiagCode) (n : Nat) : (s.diag k n).preempt = s.preempt := rfl
@[simp] theorem State.diag_mainOp (k : DiagCode) (n : Nat) : (s.diag k n).mainOp = s.mainOp := rfl
@[simp] theorem State.diag_era (k : DiagCode) (n : Nat) : (s.diag k n).era = s.era := rfl

/-! ### `answer` -/

@[simp] theorem State.answer_cfg (rc : RC) (a : Byte) (v : Half) : (s.answer rc a v).cfg = s.cfg := rfl
@[simp] theorem State.answer_halted (rc : RC) (a : Byte) (v : Half) : (s.answer rc a v).halted = s.halted := rfl
@[simp] theorem State.answer_haltCode (rc : RC) (a : Byte) (v : Half) : (s.answer rc a v).haltCode = s.haltCode := rfl
@[simp] theorem State.answer_ctxs (rc : RC) (a : Byte) (v : Half) : (s.answer rc a v).ctxs = s.ctxs := rfl
@[simp] theorem State.answer_chans (rc : RC) (a : Byte) (v : Half) : (s.answer rc a v).chans = s.chans := rfl
@[simp] theorem State.answer_eps (rc : RC) (a : Byte) (v : Half) : (s.answer rc a v).eps = s.eps := rfl
@[simp] theorem State.answer_events (rc : RC) (a : Byte) (v : Half) : (s.answer rc a v).events = s.events := rfl
@[simp] theorem State.answer_resp (rc : RC) (a : Byte) (v : Half) : (s.answer rc a v).resp = ⟨rc, a, v⟩ := rfl
@[simp] theorem State.answer_port (rc : RC) (a : Byte) (v : Half) : (s.answer rc a v).port = s.port := rfl
@[simp] theorem State.answer_preempt (rc : RC) (a : Byte) (v : Half) : (s.answer rc a v).preempt = s.preempt := rfl
@[simp] theorem State.answer_mainOp (rc : RC) (a : Byte) (v : Half) : (s.answer rc a v).mainOp = s.mainOp := rfl
@[simp] theorem State.answer_era (rc : RC) (a : Byte) (v : Half) : (s.answer rc a v).era = s.era := rfl

/-! ### `answerIllegal` -/

@[simp] theorem State.answerIllegal_cfg  : (s.answerIllegal).cfg = s.cfg := rfl
@[simp] theorem State.answerIllegal_halted  : (s.answerIllegal).halted = s.halted := rfl
@[simp] theorem State.answerIllegal_haltCode  : (s.answerIllegal).haltCode = s.haltCode := rfl
@[simp] theorem State.answerIllegal_ctxs  : (s.answerIllegal).ctxs = s.ctxs := rfl
@[simp] theorem State.answerIllegal_chans  : (s.answerIllegal).chans = s.chans := rfl
@[simp] theorem State.answerIllegal_eps  : (s.answerIllegal).eps = s.eps := rfl
@[simp] theorem State.answerIllegal_events  : (s.answerIllegal).events = s.events := rfl
@[simp] theorem State.answerIllegal_resp  : (s.answerIllegal).resp = ⟨.illegal, 0#8, 0#16⟩ := rfl
@[simp] theorem State.answerIllegal_port  : (s.answerIllegal).port = s.port := rfl
@[simp] theorem State.answerIllegal_preempt  : (s.answerIllegal).preempt = s.preempt := rfl
@[simp] theorem State.answerIllegal_mainOp  : (s.answerIllegal).mainOp = s.mainOp := rfl
@[simp] theorem State.answerIllegal_era  : (s.answerIllegal).era = s.era := rfl

/-! ### `answerHalted` -/

@[simp] theorem State.answerHalted_cfg  : (s.answerHalted).cfg = s.cfg := rfl
@[simp] theorem State.answerHalted_halted  : (s.answerHalted).halted = s.halted := rfl
@[simp] theorem State.answerHalted_haltCode  : (s.answerHalted).haltCode = s.haltCode := rfl
@[simp] theorem State.answerHalted_ctxs  : (s.answerHalted).ctxs = s.ctxs := rfl
@[simp] theorem State.answerHalted_chans  : (s.answerHalted).chans = s.chans := rfl
@[simp] theorem State.answerHalted_eps  : (s.answerHalted).eps = s.eps := rfl
@[simp] theorem State.answerHalted_events  : (s.answerHalted).events = s.events := rfl
@[simp] theorem State.answerHalted_resp  : (s.answerHalted).resp = ⟨.halted, s.haltCode, 0#16⟩ := rfl
@[simp] theorem State.answerHalted_port  : (s.answerHalted).port = s.port := rfl
@[simp] theorem State.answerHalted_preempt  : (s.answerHalted).preempt = s.preempt := rfl
@[simp] theorem State.answerHalted_mainOp  : (s.answerHalted).mainOp = s.mainOp := rfl
@[simp] theorem State.answerHalted_era  : (s.answerHalted).era = s.era := rfl

/-! ### `raiseFatal` -/

@[simp] theorem State.raiseFatal_cfg (k : FatalCode) : (s.raiseFatal k).cfg = s.cfg := rfl
@[simp] theorem State.raiseFatal_halted (k : FatalCode) : (s.raiseFatal k).halted = true := rfl
@[simp] theorem State.raiseFatal_haltCode (k : FatalCode) : (s.raiseFatal k).haltCode = k.code := rfl
@[simp] theorem State.raiseFatal_ctxs (k : FatalCode) : (s.raiseFatal k).ctxs = s.ctxs := rfl
@[simp] theorem State.raiseFatal_chans (k : FatalCode) : (s.raiseFatal k).chans = s.chans := rfl
@[simp] theorem State.raiseFatal_eps (k : FatalCode) : (s.raiseFatal k).eps = s.eps := rfl
@[simp] theorem State.raiseFatal_events (k : FatalCode) : (s.raiseFatal k).events = s.events ++ [.halt k] := rfl
@[simp] theorem State.raiseFatal_resp (k : FatalCode) : (s.raiseFatal k).resp = ⟨.halted, k.code, 0#16⟩ := rfl
@[simp] theorem State.raiseFatal_port (k : FatalCode) : (s.raiseFatal k).port = s.port := rfl
@[simp] theorem State.raiseFatal_preempt (k : FatalCode) : (s.raiseFatal k).preempt = s.preempt := rfl
@[simp] theorem State.raiseFatal_mainOp (k : FatalCode) : (s.raiseFatal k).mainOp = s.mainOp := rfl
@[simp] theorem State.raiseFatal_era (k : FatalCode) : (s.raiseFatal k).era = s.era := rfl

/-! ### Reading a channel -/

theorem State.chan_updChan (c d : Nat) (f : Chan → Chan) :
    (s.updChan c f).chan d = if c = d ∧ d < s.chans.length then f (s.chan d) else s.chan d := by
  unfold State.chan
  by_cases hd : d < s.chans.length <;> by_cases hc : c = d <;>
    simp [State.updChan, hd, hc]

@[simp] theorem State.chan_updChan_same {c : Nat} (h : c < s.chans.length) (f : Chan → Chan) :
    (s.updChan c f).chan c = f (s.chan c) := by simp [State.chan_updChan, h]

@[simp] theorem State.chan_updChan_ne {c d : Nat} (h : c ≠ d) (f : Chan → Chan) :
    (s.updChan c f).chan d = s.chan d := by simp [State.chan_updChan, h]

@[simp] theorem State.chan_updEp (e : Nat) (f : Ep → Ep) (d : Nat) : (s.updEp e f).chan d = s.chan d := rfl
@[simp] theorem State.chan_updCtx (h : Nat) (f : Ctx → Ctx) (d : Nat) : (s.updCtx h f).chan d = s.chan d := rfl
@[simp] theorem State.chan_release (h : Nat) (d : Nat) : (s.release h).chan d = s.chan d := rfl
@[simp] theorem State.chan_emit (ev : Event) (d : Nat) : (s.emit ev).chan d = s.chan d := rfl
@[simp] theorem State.chan_diag (k : DiagCode) (n : Nat) (d : Nat) : (s.diag k n).chan d = s.chan d := rfl
@[simp] theorem State.chan_answer (rc : RC) (a : Byte) (v : Half) (d : Nat) : (s.answer rc a v).chan d = s.chan d := rfl
@[simp] theorem State.chan_answerIllegal  (d : Nat) : (s.answerIllegal).chan d = s.chan d := rfl
@[simp] theorem State.chan_answerHalted  (d : Nat) : (s.answerHalted).chan d = s.chan d := rfl
@[simp] theorem State.chan_raiseFatal (k : FatalCode) (d : Nat) : (s.raiseFatal k).chan d = s.chan d := rfl

theorem State.chan_updCem (c d : Nat) (f : Cem → Cem) :
    (s.updCem c f).chan d = if c = d ∧ d < s.chans.length then { s.chan d with cem := f (s.chan d).cem } else s.chan d :=
  State.chan_updChan s c d _

@[simp] theorem State.cem_updCem_same {c : Nat} (h : c < s.chans.length) (f : Cem → Cem) :
    (s.updCem c f).cem c = f (s.cem c) := by simp [State.cem, State.updCem, h]

@[simp] theorem State.cem_updCem_ne {c d : Nat} (h : c ≠ d) (f : Cem → Cem) :
    (s.updCem c f).cem d = s.cem d := by simp [State.cem, State.updCem, h]

@[simp] theorem State.rb_updCem (c d : Nat) (f : Cem → Cem) : (s.updCem c f).rb d = s.rb d := by
  simp only [State.rb, State.chan_updCem]; split <;> rfl

@[simp] theorem State.uart_updCem (c d : Nat) (f : Cem → Cem) : (s.updCem c f).uart d = s.uart d := by
  simp only [State.uart, State.chan_updCem]; split <;> rfl

@[simp] theorem State.wt_updCem (c d : Nat) (f : Cem → Cem) : (s.updCem c f).wt d = s.wt d := by
  simp only [State.wt, State.chan_updCem]; split <;> rfl

theorem State.chan_updRb (c d : Nat) (f : Ring → Ring) :
    (s.updRb c f).chan d = if c = d ∧ d < s.chans.length then { s.chan d with rb := f (s.chan d).rb } else s.chan d :=
  State.chan_updChan s c d _

@[simp] theorem State.rb_updRb_same {c : Nat} (h : c < s.chans.length) (f : Ring → Ring) :
    (s.updRb c f).rb c = f (s.rb c) := by simp [State.rb, State.updRb, h]

@[simp] theorem State.rb_updRb_ne {c d : Nat} (h : c ≠ d) (f : Ring → Ring) :
    (s.updRb c f).rb d = s.rb d := by simp [State.rb, State.updRb, h]

@[simp] theorem State.cem_updRb (c d : Nat) (f : Ring → Ring) : (s.updRb c f).cem d = s.cem d := by
  simp only [State.cem, State.chan_updRb]; split <;> rfl

@[simp] theorem State.uart_updRb (c d : Nat) (f : Ring → Ring) : (s.updRb c f).uart d = s.uart d := by
  simp only [State.uart, State.chan_updRb]; split <;> rfl

@[simp] theorem State.wt_updRb (c d : Nat) (f : Ring → Ring) : (s.updRb c f).wt d = s.wt d := by
  simp only [State.wt, State.chan_updRb]; split <;> rfl

theorem State.chan_updUart (c d : Nat) (f : Uart → Uart) :
    (s.updUart c f).chan d = if c = d ∧ d < s.chans.length then { s.chan d with uart := f (s.chan d).uart } else s.chan d :=
  State.chan_updChan s c d _

@[simp] theorem State.uart_updUart_same {c : Nat} (h : c < s.chans.length) (f : Uart → Uart) :
    (s.updUart c f).uart c = f (s.uart c) := by simp [State.uart, State.updUart, h]

@[simp] theorem State.uart_updUart_ne {c d : Nat} (h : c ≠ d) (f : Uart → Uart) :
    (s.updUart c f).uart d = s.uart d := by simp [State.uart, State.updUart, h]

@[simp] theorem State.cem_updUart (c d : Nat) (f : Uart → Uart) : (s.updUart c f).cem d = s.cem d := by
  simp only [State.cem, State.chan_updUart]; split <;> rfl

@[simp] theorem State.rb_updUart (c d : Nat) (f : Uart → Uart) : (s.updUart c f).rb d = s.rb d := by
  simp only [State.rb, State.chan_updUart]; split <;> rfl

@[simp] theorem State.wt_updUart (c d : Nat) (f : Uart → Uart) : (s.updUart c f).wt d = s.wt d := by
  simp only [State.wt, State.chan_updUart]; split <;> rfl

theorem State.chan_updWt (c d : Nat) (f : Wt → Wt) :
    (s.updWt c f).chan d = if c = d ∧ d < s.chans.length then { s.chan d with wt := f (s.chan d).wt } else s.chan d :=
  State.chan_updChan s c d _

@[simp] theorem State.wt_updWt_same {c : Nat} (h : c < s.chans.length) (f : Wt → Wt) :
    (s.updWt c f).wt c = f (s.wt c) := by simp [State.wt, State.updWt, h]

@[simp] theorem State.wt_updWt_ne {c d : Nat} (h : c ≠ d) (f : Wt → Wt) :
    (s.updWt c f).wt d = s.wt d := by simp [State.wt, State.updWt, h]

@[simp] theorem State.cem_updWt (c d : Nat) (f : Wt → Wt) : (s.updWt c f).cem d = s.cem d := by
  simp only [State.cem, State.chan_updWt]; split <;> rfl

@[simp] theorem State.rb_updWt (c d : Nat) (f : Wt → Wt) : (s.updWt c f).rb d = s.rb d := by
  simp only [State.rb, State.chan_updWt]; split <;> rfl

@[simp] theorem State.uart_updWt (c d : Nat) (f : Wt → Wt) : (s.updWt c f).uart d = s.uart d := by
  simp only [State.uart, State.chan_updWt]; split <;> rfl

@[simp] theorem State.cem_updEp (e : Nat) (f : Ep → Ep) (d : Nat) : (s.updEp e f).cem d = s.cem d := rfl
@[simp] theorem State.cem_updCtx (h : Nat) (f : Ctx → Ctx) (d : Nat) : (s.updCtx h f).cem d = s.cem d := rfl
@[simp] theorem State.cem_release (h : Nat) (d : Nat) : (s.release h).cem d = s.cem d := rfl
@[simp] theorem State.cem_emit (ev : Event) (d : Nat) : (s.emit ev).cem d = s.cem d := rfl
@[simp] theorem State.cem_diag (k : DiagCode) (n : Nat) (d : Nat) : (s.diag k n).cem d = s.cem d := rfl
@[simp] theorem State.cem_answer (rc : RC) (a : Byte) (v : Half) (d : Nat) : (s.answer rc a v).cem d = s.cem d := rfl
@[simp] theorem State.cem_answerIllegal  (d : Nat) : (s.answerIllegal).cem d = s.cem d := rfl
@[simp] theorem State.cem_answerHalted  (d : Nat) : (s.answerHalted).cem d = s.cem d := rfl
@[simp] theorem State.cem_raiseFatal (k : FatalCode) (d : Nat) : (s.raiseFatal k).cem d = s.cem d := rfl
@[simp] theorem State.rb_updEp (e : Nat) (f : Ep → Ep) (d : Nat) : (s.updEp e f).rb d = s.rb d := rfl
@[simp] theorem State.rb_updCtx (h : Nat) (f : Ctx → Ctx) (d : Nat) : (s.updCtx h f).rb d = s.rb d := rfl
@[simp] theorem State.rb_release (h : Nat) (d : Nat) : (s.release h).rb d = s.rb d := rfl
@[simp] theorem State.rb_emit (ev : Event) (d : Nat) : (s.emit ev).rb d = s.rb d := rfl
@[simp] theorem State.rb_diag (k : DiagCode) (n : Nat) (d : Nat) : (s.diag k n).rb d = s.rb d := rfl
@[simp] theorem State.rb_answer (rc : RC) (a : Byte) (v : Half) (d : Nat) : (s.answer rc a v).rb d = s.rb d := rfl
@[simp] theorem State.rb_answerIllegal  (d : Nat) : (s.answerIllegal).rb d = s.rb d := rfl
@[simp] theorem State.rb_answerHalted  (d : Nat) : (s.answerHalted).rb d = s.rb d := rfl
@[simp] theorem State.rb_raiseFatal (k : FatalCode) (d : Nat) : (s.raiseFatal k).rb d = s.rb d := rfl
@[simp] theorem State.uart_updEp (e : Nat) (f : Ep → Ep) (d : Nat) : (s.updEp e f).uart d = s.uart d := rfl
@[simp] theorem State.uart_updCtx (h : Nat) (f : Ctx → Ctx) (d : Nat) : (s.updCtx h f).uart d = s.uart d := rfl
@[simp] theorem State.uart_release (h : Nat) (d : Nat) : (s.release h).uart d = s.uart d := rfl
@[simp] theorem State.uart_emit (ev : Event) (d : Nat) : (s.emit ev).uart d = s.uart d := rfl
@[simp] theorem State.uart_diag (k : DiagCode) (n : Nat) (d : Nat) : (s.diag k n).uart d = s.uart d := rfl
@[simp] theorem State.uart_answer (rc : RC) (a : Byte) (v : Half) (d : Nat) : (s.answer rc a v).uart d = s.uart d := rfl
@[simp] theorem State.uart_answerIllegal  (d : Nat) : (s.answerIllegal).uart d = s.uart d := rfl
@[simp] theorem State.uart_answerHalted  (d : Nat) : (s.answerHalted).uart d = s.uart d := rfl
@[simp] theorem State.uart_raiseFatal (k : FatalCode) (d : Nat) : (s.raiseFatal k).uart d = s.uart d := rfl
@[simp] theorem State.wt_updEp (e : Nat) (f : Ep → Ep) (d : Nat) : (s.updEp e f).wt d = s.wt d := rfl
@[simp] theorem State.wt_updCtx (h : Nat) (f : Ctx → Ctx) (d : Nat) : (s.updCtx h f).wt d = s.wt d := rfl
@[simp] theorem State.wt_release (h : Nat) (d : Nat) : (s.release h).wt d = s.wt d := rfl
@[simp] theorem State.wt_emit (ev : Event) (d : Nat) : (s.emit ev).wt d = s.wt d := rfl
@[simp] theorem State.wt_diag (k : DiagCode) (n : Nat) (d : Nat) : (s.diag k n).wt d = s.wt d := rfl
@[simp] theorem State.wt_answer (rc : RC) (a : Byte) (v : Half) (d : Nat) : (s.answer rc a v).wt d = s.wt d := rfl
@[simp] theorem State.wt_answerIllegal  (d : Nat) : (s.answerIllegal).wt d = s.wt d := rfl
@[simp] theorem State.wt_answerHalted  (d : Nat) : (s.answerHalted).wt d = s.wt d := rfl
@[simp] theorem State.wt_raiseFatal (k : FatalCode) (d : Nat) : (s.raiseFatal k).wt d = s.wt d := rfl

/-! ### Reading an endpoint or a context -/

theorem State.ep_updEp (c d : Nat) (f : Ep → Ep) :
    (s.updEp c f).ep d = if c = d ∧ d < s.eps.length then f (s.ep d) else s.ep d := by
  unfold State.ep
  by_cases hd : d < s.eps.length <;> by_cases hc : c = d <;>
    simp [State.updEp, hd, hc]

@[simp] theorem State.ep_updEp_same {c : Nat} (h : c < s.eps.length) (f : Ep → Ep) :
    (s.updEp c f).ep c = f (s.ep c) := by simp [State.ep_updEp, h]

@[simp] theorem State.ep_updEp_ne {c d : Nat} (h : c ≠ d) (f : Ep → Ep) :
    (s.updEp c f).ep d = s.ep d := by simp [State.ep_updEp, h]

theorem State.ctx_updCtx (c d : Nat) (f : Ctx → Ctx) :
    (s.updCtx c f).ctx d = if c = d ∧ d < s.ctxs.length then f (s.ctx d) else s.ctx d := by
  unfold State.ctx
  by_cases hd : d < s.ctxs.length <;> by_cases hc : c = d <;>
    simp [State.updCtx, hd, hc]

@[simp] theorem State.ctx_updCtx_same {c : Nat} (h : c < s.ctxs.length) (f : Ctx → Ctx) :
    (s.updCtx c f).ctx c = f (s.ctx c) := by simp [State.ctx_updCtx, h]

@[simp] theorem State.ctx_updCtx_ne {c d : Nat} (h : c ≠ d) (f : Ctx → Ctx) :
    (s.updCtx c f).ctx d = s.ctx d := by simp [State.ctx_updCtx, h]

@[simp] theorem State.ep_updChan (c : Nat) (f : Chan → Chan) (d : Nat) : (s.updChan c f).ep d = s.ep d := rfl
@[simp] theorem State.ep_updCem (c : Nat) (f : Cem → Cem) (d : Nat) : (s.updCem c f).ep d = s.ep d := rfl
@[simp] theorem State.ep_updRb (c : Nat) (f : Ring → Ring) (d : Nat) : (s.updRb c f).ep d = s.ep d := rfl
@[simp] theorem State.ep_updUart (c : Nat) (f : Uart → Uart) (d : Nat) : (s.updUart c f).ep d = s.ep d := rfl
@[simp] theorem State.ep_updWt (c : Nat) (f : Wt → Wt) (d : Nat) : (s.updWt c f).ep d = s.ep d := rfl
@[simp] theorem State.ep_updCtx (h : Nat) (f : Ctx → Ctx) (d : Nat) : (s.updCtx h f).ep d = s.ep d := rfl
@[simp] theorem State.ep_release (h : Nat) (d : Nat) : (s.release h).ep d = s.ep d := rfl
@[simp] theorem State.ep_emit (ev : Event) (d : Nat) : (s.emit ev).ep d = s.ep d := rfl
@[simp] theorem State.ep_diag (k : DiagCode) (n : Nat) (d : Nat) : (s.diag k n).ep d = s.ep d := rfl
@[simp] theorem State.ep_answer (rc : RC) (a : Byte) (v : Half) (d : Nat) : (s.answer rc a v).ep d = s.ep d := rfl
@[simp] theorem State.ep_answerIllegal  (d : Nat) : (s.answerIllegal).ep d = s.ep d := rfl
@[simp] theorem State.ep_answerHalted  (d : Nat) : (s.answerHalted).ep d = s.ep d := rfl
@[simp] theorem State.ep_raiseFatal (k : FatalCode) (d : Nat) : (s.raiseFatal k).ep d = s.ep d := rfl
@[simp] theorem State.ctx_updChan (c : Nat) (f : Chan → Chan) (d : Nat) : (s.updChan c f).ctx d = s.ctx d := rfl
@[simp] theorem State.ctx_updCem (c : Nat) (f : Cem → Cem) (d : Nat) : (s.updCem c f).ctx d = s.ctx d := rfl
@[simp] theorem State.ctx_updRb (c : Nat) (f : Ring → Ring) (d : Nat) : (s.updRb c f).ctx d = s.ctx d := rfl
@[simp] theorem State.ctx_updUart (c : Nat) (f : Uart → Uart) (d : Nat) : (s.updUart c f).ctx d = s.ctx d := rfl
@[simp] theorem State.ctx_updWt (c : Nat) (f : Wt → Wt) (d : Nat) : (s.updWt c f).ctx d = s.ctx d := rfl
@[simp] theorem State.ctx_updEp (e : Nat) (f : Ep → Ep) (d : Nat) : (s.updEp e f).ctx d = s.ctx d := rfl
@[simp] theorem State.ctx_emit (ev : Event) (d : Nat) : (s.emit ev).ctx d = s.ctx d := rfl
@[simp] theorem State.ctx_diag (k : DiagCode) (n : Nat) (d : Nat) : (s.diag k n).ctx d = s.ctx d := rfl
@[simp] theorem State.ctx_answer (rc : RC) (a : Byte) (v : Half) (d : Nat) : (s.answer rc a v).ctx d = s.ctx d := rfl
@[simp] theorem State.ctx_answerIllegal  (d : Nat) : (s.answerIllegal).ctx d = s.ctx d := rfl
@[simp] theorem State.ctx_answerHalted  (d : Nat) : (s.answerHalted).ctx d = s.ctx d := rfl
@[simp] theorem State.ctx_raiseFatal (k : FatalCode) (d : Nat) : (s.raiseFatal k).ctx d = s.ctx d := rfl

/-! ### Lengths -/

@[simp] theorem State.updChan_chans_length (c : Nat) (f : Chan → Chan) :
    (s.updChan c f).chans.length = s.chans.length := List.length_modify ..

@[simp] theorem State.updCem_chans_length (c : Nat) (f : Cem → Cem) :
    (s.updCem c f).chans.length = s.chans.length := List.length_modify ..

@[simp] theorem State.updRb_chans_length (c : Nat) (f : Ring → Ring) :
    (s.updRb c f).chans.length = s.chans.length := List.length_modify ..

@[simp] theorem State.updUart_chans_length (c : Nat) (f : Uart → Uart) :
    (s.updUart c f).chans.length = s.chans.length := List.length_modify ..

@[simp] theorem State.updWt_chans_length (c : Nat) (f : Wt → Wt) :
    (s.updWt c f).chans.length = s.chans.length := List.length_modify ..

@[simp] theorem State.updEp_eps_length (e : Nat) (f : Ep → Ep) :
    (s.updEp e f).eps.length = s.eps.length := List.length_modify ..

@[simp] theorem State.updCtx_ctxs_length (h : Nat) (f : Ctx → Ctx) :
    (s.updCtx h f).ctxs.length = s.ctxs.length := List.length_modify ..

@[simp] theorem State.release_ctxs_length (h : Nat) : (s.release h).ctxs.length = s.ctxs.length :=
  List.length_modify ..

end Sys2Proof.Machine
end

