-- ==== Sys2Proof/Laws/Memory.lean ====
section
/-! SUPPORT. The byte stores: what a read sees after a write, that every write keeps the canonical form and the bound, and what the
store accesses of the state (`memRead`, `memRead1`, `memWrite`) can do. -/

namespace Sys2Proof.Machine

/-! ### Cells of one store -/

@[simp] theorem Memory.lookup_store_same (m : Memory) (a : Nat) (b : Byte) : (m.store a b).lookup a = some b := by
  induction m with
  | nil => simp [Memory.store, Memory.lookup]
  | cons x m ih =>
    obtain ⟨k, y⟩ := x
    simp only [Memory.store]
    split
    · simp [Memory.lookup]
    · split
      · simp [Memory.lookup]
      · rename_i h
        simp [Memory.lookup, h, ih]

theorem Memory.lookup_store_ne (m : Memory) {a a' : Nat} (b : Byte) (h : a' ≠ a) :
    (m.store a b).lookup a' = m.lookup a' := by
  induction m with
  | nil => simp [Memory.store, Memory.lookup, h]
  | cons x m ih =>
    obtain ⟨k, y⟩ := x
    simp only [Memory.store]
    split
    · simp [Memory.lookup, h]
    · split
      · rename_i hk; subst hk; simp [Memory.lookup, h]
      · simp [Memory.lookup, ih]

theorem Memory.lookup_store (m : Memory) (a a' : Nat) (b : Byte) :
    (m.store a b).lookup a' = if a' = a then some b else m.lookup a' := by
  split
  · rename_i h; subst h; simp
  · rename_i h; exact m.lookup_store_ne b h

/-- A list of bytes written from offset `a` on reads back, and no other offset changes. -/
theorem Memory.lookup_storeList (bs : List Byte) : ∀ (m : Memory) (a a' : Nat),
    (m.storeList a bs).lookup a' = if a ≤ a' ∧ a' < a + bs.length then bs[a' - a]? else m.lookup a' := by
  induction bs with
  | nil => intro m a a'; simp [Memory.storeList]
  | cons b bs ih =>
    intro m a a'
    simp only [Memory.storeList, ih, List.length_cons, Memory.lookup_store]
    by_cases h : a' = a
    · subst h; simp
    · by_cases h2 : a + 1 ≤ a' ∧ a' < a + 1 + bs.length
      · have h3 : a ≤ a' ∧ a' < a + (bs.length + 1) := by omega
        obtain ⟨j, rfl⟩ : ∃ j, a' = a + 1 + j := ⟨a' - (a + 1), by omega⟩
        have h4 : a + 1 + j - (a + 1) = j := by omega
        have h5 : a + 1 + j - a = j + 1 := by omega
        simp [h2, h3, h4, h5]
      · have h3 : ¬(a ≤ a' ∧ a' < a + (bs.length + 1)) := by omega
        rw [if_neg h2, if_neg h, if_neg h3]

/-! ### The canonical form -/

theorem Memory.risesFrom_store (a : Nat) (b : Byte) : ∀ (m : Memory) (lo : Nat), lo ≤ a → m.risesFrom lo = true →
    (m.store a b).risesFrom lo = true := by
  intro m
  induction m with
  | nil => intro lo h _; simp [Memory.store, Memory.risesFrom, h]
  | cons x m ih =>
    obtain ⟨k, y⟩ := x
    intro lo h hm
    simp only [Memory.risesFrom, Bool.and_eq_true, decide_eq_true_eq] at hm
    simp only [Memory.store]
    split
    · rename_i hk
      simp only [Memory.risesFrom, Bool.and_eq_true, decide_eq_true_eq]
      exact ⟨h, by omega, hm.2⟩
    · split
      · rename_i hk; subst hk
        simp only [Memory.risesFrom, Bool.and_eq_true, decide_eq_true_eq]
        exact hm
      · simp only [Memory.risesFrom, Bool.and_eq_true, decide_eq_true_eq]
        exact ⟨hm.1, ih (k + 1) (by omega) hm.2⟩

/-- Writing a byte keeps the canonical form. -/
theorem Memory.wf_store {m : Memory} (h : m.wf = true) (a : Nat) (b : Byte) : (m.store a b).wf = true :=
  Memory.risesFrom_store a b m 0 (Nat.zero_le a) h

theorem Memory.mem_store {m : Memory} {a : Nat} {b : Byte} {x : Host.Cell} (h : x ∈ m.store a b) :
    x = (a, b) ∨ x ∈ m := by
  induction m with
  | nil => simpa [Memory.store] using h
  | cons y m ih =>
    obtain ⟨k, z⟩ := y
    simp only [Memory.store] at h
    split at h
    · simp only [List.mem_cons] at h ⊢; tauto
    · split at h
      · simp only [List.mem_cons] at h ⊢; tauto
      · simp only [List.mem_cons] at h ⊢
        rcases h with h | h
        · exact .inr (.inl h)
        · rcases ih h with h | h
          · exact .inl h
          · exact .inr (.inr h)

/-- Writing bytes keeps the canonical form. -/
theorem Memory.wf_storeList (bs : List Byte) : ∀ {m : Memory} (_ : m.wf = true) (a : Nat), (m.storeList a bs).wf = true := by
  induction bs with
  | nil => intro m h a; exact h
  | cons b bs ih => intro m h a; exact ih (Memory.wf_store h a b) (a + 1)

/-- Writing bytes below `n` keeps every written offset below `n`. -/
theorem Memory.bound_storeList (n : Nat) (bs : List Byte) : ∀ {m : Memory} (_ : ∀ x ∈ m, x.1 < n) {a : Nat}
    (_ : a + bs.length ≤ n), ∀ x ∈ m.storeList a bs, x.1 < n := by
  induction bs with
  | nil => intro m h a _; exact h
  | cons b bs ih =>
    intro m h a ha
    simp only [List.length_cons] at ha
    refine ih (m := m.store a b) (fun x hx => ?_) (by omega)
    rcases Memory.mem_store hx with rfl | hx
    · show a < n; omega
    · exact h x hx

/-! ### Stores of the state -/

@[simp] theorem Memory.storeList_singleton (m : Memory) (a : Nat) (b : Byte) : m.storeList a [b] = m.store a b := rfl

variable (s : State)

@[simp] theorem State.setMem_cfg (sp : Space) (m : Memory) : (s.setMem sp m).cfg = s.cfg := by cases sp <;> rfl
@[simp] theorem State.setMem_halted (sp : Space) (m : Memory) : (s.setMem sp m).halted = s.halted := by cases sp <;> rfl
@[simp] theorem State.setMem_haltCode (sp : Space) (m : Memory) : (s.setMem sp m).haltCode = s.haltCode := by
  cases sp <;> rfl
@[simp] theorem State.setMem_eps (sp : Space) (m : Memory) : (s.setMem sp m).eps = s.eps := by cases sp <;> rfl
@[simp] theorem State.setMem_events (sp : Space) (m : Memory) : (s.setMem sp m).events = s.events := by cases sp <;> rfl
@[simp] theorem State.setMem_resp (sp : Space) (m : Memory) : (s.setMem sp m).resp = s.resp := by cases sp <;> rfl
@[simp] theorem State.setMem_port (sp : Space) (m : Memory) : (s.setMem sp m).port = s.port := by cases sp <;> rfl
@[simp] theorem State.setMem_preempt (sp : Space) (m : Memory) : (s.setMem sp m).preempt = s.preempt := by
  cases sp <;> rfl
@[simp] theorem State.setMem_mainOp (sp : Space) (m : Memory) : (s.setMem sp m).mainOp = s.mainOp := by cases sp <;> rfl
@[simp] theorem State.setMem_era (sp : Space) (m : Memory) : (s.setMem sp m).era = s.era := by cases sp <;> rfl

@[simp] theorem State.setMem_chans_length (sp : Space) (m : Memory) : (s.setMem sp m).chans.length = s.chans.length := by
  cases sp <;> simp [State.setMem, State.updRb, State.updCem]

@[simp] theorem State.setMem_ctxs_length (sp : Space) (m : Memory) : (s.setMem sp m).ctxs.length = s.ctxs.length := by
  cases sp <;> simp [State.setMem]

/-- The written cells of a store after a write to it, where the store exists. -/
theorem State.mem_setMem_same {sp : Space} (h : 0 < s.spaceSize sp) (hsp : sp ≠ .atr) (m : Memory) :
    (s.setMem sp m).mem sp = m := by
  cases sp <;> simp only [State.spaceSize] at h <;> first | contradiction | skip
  all_goals
    split at h
    · rename_i hc; simp [State.mem, State.setMem, hc]
    · omega

/-- A write to a store leaves every other store alone. -/
theorem State.mem_setMem_ne {sp sp' : Space} (h : sp' ≠ sp) (m : Memory) : (s.setMem sp m).mem sp' = s.mem sp' := by
  cases sp <;> cases sp' <;> simp only [State.setMem, State.mem] <;>
    first
      | rfl
      | (simp only [State.rb, State.cem, State.updRb, State.updCem, State.chan_updChan]; split <;>
          first | rfl | (rename_i hc; obtain ⟨rfl, -⟩ := hc; exact absurd rfl h))
      | (simp only [State.ctx_updCtx]; split <;>
          first | rfl | (rename_i hc; obtain ⟨rfl, -⟩ := hc; exact absurd rfl h))

/-- What a write in bounds does. -/
theorem memWrite_ok {sp : Space} {a : Nat} {bs : List Byte} (h : a + bs.length ≤ s.spaceSize sp) :
    memWrite s sp a bs = .ok (s.setMem sp ((s.mem sp).storeList a bs)) := if_pos h

/-- All a write can do. -/
theorem memWrite_cases {s t : State} {sp : Space} {a : Nat} {bs : List Byte} (h : memWrite s sp a bs = .ok t) :
    a + bs.length ≤ s.spaceSize sp ∧ t = s.setMem sp ((s.mem sp).storeList a bs) := by
  unfold memWrite at h
  split at h
  · exact ⟨‹_›, by simpa using h.symm⟩
  · simp at h

theorem memRead1_ok {sp : Space} {a : Nat} (h : a + 1 ≤ s.spaceSize sp) : memRead1 s sp a = .ok (s.cell sp a) := if_pos h

theorem memRead_ok {sp : Space} {a n : Nat} (h : a + n ≤ s.spaceSize sp) :
    memRead s sp a n = .ok ((List.range n).map fun i => s.cell sp (a + i)) := if_pos h

/-- All a read of one byte can do. -/
theorem memRead1_cases {s : State} {sp : Space} {a : Nat} {b : Byte} (h : memRead1 s sp a = .ok b) :
    a + 1 ≤ s.spaceSize sp ∧ b = s.cell sp a := by
  unfold memRead1 at h
  split at h
  · exact ⟨‹_›, by simpa using h.symm⟩
  · simp at h

/-- All a read of several bytes can do. -/
theorem memRead_cases {s : State} {sp : Space} {a n : Nat} {bs : List Byte} (h : memRead s sp a n = .ok bs) :
    a + n ≤ s.spaceSize sp ∧ bs = (List.range n).map fun i => s.cell sp (a + i) := by
  unfold memRead at h
  split at h
  · exact ⟨‹_›, by simpa using h.symm⟩
  · simp at h

/-- The cell of a store that can be written, told from its written cells. -/
theorem State.cell_eq {sp : Space} (h : sp ≠ .atr) (a : Nat) :
    s.cell sp a = ((s.mem sp).lookup a).getD (Config.unwrittenByte sp s.era a) := by
  cases sp <;> first | rfl | contradiction

end Sys2Proof.Machine
end

