-- ==== Sys2Proof/Laws/Ops.lean ====
section
/-! SUPPORT. What the shared operations can do: sequencing of rule bodies, the end of a body (`finish`), the checks before it (`gate`),
the diagnostics of an operation, the least free context, allocation and release, and updates of one element done twice. -/

namespace Sys2Proof.Machine

/-! ### Sequencing -/

section
variable {ε α β : Type}

@[simp] theorem bind_ok (a : α) (f : α → Except ε β) : (Except.ok a >>= f) = f a := rfl

@[simp] theorem bind_error (e : ε) (f : α → Except ε β) : ((Except.error e : Except ε α) >>= f) = .error e := rfl

/-- All that a sequence that answers can do. -/
theorem bind_eq_ok {x : Except ε α} {f : α → Except ε β} {b : β} :
    (x >>= f) = .ok b ↔ ∃ a, x = .ok a ∧ f a = .ok b := by
  cases x <;> simp

/-- All that a sequence that stops can do. -/
theorem bind_eq_error {x : Except ε α} {f : α → Except ε β} {e : ε} :
    (x >>= f) = .error e ↔ x = .error e ∨ ∃ a, x = .ok a ∧ f a = .error e := by
  cases x <;> simp

end

@[simp] theorem ret_eq_ok {s t : State} {rc : RC} {v : Half} {r : Reply} :
    ret s rc v = .ok (t, r) ↔ s = t ∧ ⟨rc, v⟩ = r := by simp [ret]

@[simp] theorem ret_ne_error {s : State} {rc : RC} {v : Half} {e : Stop} : ret s rc v ≠ .error e := by simp [ret]

/-! ### The end of a rule body -/

@[simp] theorem finish_ok (s t : State) (r : Reply) :
    finish s (.ok (t, r)) = .next (t.answer r.rc (lastDiag (newEvents s t)) r.val) := rfl

@[simp] theorem finish_ret (s t : State) (rc : RC) (v : Half) :
    finish s (ret t rc v) = .next (t.answer rc (lastDiag (newEvents s t)) v) := rfl

@[simp] theorem finish_fatal (s : State) (k : FatalCode) : finish s (.error (.fatal k)) = .next (s.raiseFatal k) := rfl

@[simp] theorem finish_fault (s : State) (f : Fault) : finish s (.error (.fault f)) = .fault f := rfl

/-- All that a finished rule body that answers can do. -/
theorem finish_next {s u : State} {r : Body} (h : finish s r = .next u) :
    (∃ t reply, r = .ok (t, reply) ∧ u = t.answer reply.rc (lastDiag (newEvents s t)) reply.val) ∨
      ∃ k, r = .error (.fatal k) ∧ u = s.raiseFatal k := by
  unfold finish at h
  split at h
  · exact .inl ⟨_, _, rfl, by simpa using h.symm⟩
  · exact .inr ⟨_, rfl, by simpa using h.symm⟩
  · simp at h

/-- A rule body that faults is the only way to a fault. -/
theorem finish_eq_fault {s : State} {r : Body} {f : Fault} (h : finish s r = .fault f) : r = .error (.fault f) := by
  unfold finish at h
  split at h <;> simp_all

theorem finish_ne_refused {s : State} {r : Body} {x : Refusal} : finish s r ≠ .refused x := by
  unfold finish; split <;> simp

/-! ### The checks before a rule body -/

/-- A legal request to a core that is not halted reaches its body. -/
theorem gate_pass {i : Instr} {s : State} (hw : i.wellFormed s.cfg = true) (hh : s.halted = false)
    (run : State → Outcome) : gate i s run = run s := by
  simp [gate, legal, hw, hh]

/-- An illegal request answers ILLEGAL and changes nothing else, halted or not. -/
theorem gate_illegal {i : Instr} {s : State} (hw : i.wellFormed s.cfg = false) (run : State → Outcome) :
    gate i s run = .next s.answerIllegal := by
  simp [gate, legal, hw]

/-- A legal request to a halted core answers HALTED and changes nothing else. -/
theorem gate_halted {i : Instr} {s : State} (hw : i.wellFormed s.cfg = true) (hh : s.halted = true)
    (run : State → Outcome) : gate i s run = .next s.answerHalted := by
  simp [gate, legal, hw, hh]

/-- All that a gated request can do when it answers. -/
theorem gate_next {i : Instr} {s u : State} {run : State → Outcome} (h : gate i s run = .next u) :
    (i.wellFormed s.cfg = false ∧ u = s.answerIllegal) ∨ (s.halted = true ∧ u = s.answerHalted) ∨
      (i.wellFormed s.cfg = true ∧ s.halted = false ∧ run s = .next u) := by
  unfold gate legal at h
  split at h
  · split at h
    · exact .inr (.inl ⟨‹_›, by simpa using h.symm⟩)
    · exact .inr (.inr ⟨‹_›, by simp_all, h⟩)
  · exact .inl ⟨by simp_all, by simpa using h.symm⟩

/-! ### Diagnostics -/

/-- The events of a body that appended `l`. -/
theorem newEvents_of_append {s t : State} {l : List Event} (h : t.events = s.events ++ l) : newEvents s t = l := by
  simp [newEvents, h]

@[simp] theorem newEvents_self (s : State) : newEvents s s = [] := by simp [newEvents]

@[simp] theorem lastDiag_nil : lastDiag [] = 0#8 := rfl

/-- The last event decides where it is a diagnostic. -/
@[simp] theorem lastDiag_diag (l : List Event) (k : DiagCode) (n : Nat) : lastDiag (l ++ [.diag k n]) = k.code := by
  simp [lastDiag, Event.diagCode, List.filterMap_append]

@[simp] theorem lastDiag_single (k : DiagCode) (n : Nat) : lastDiag [.diag k n] = k.code := rfl

/-! ### Contexts -/

/-- The least free context. -/
theorem State.firstFree_eq_some {s : State} {h : Nat} :
    s.firstFree = some h ↔ h < s.ctxs.length ∧ (s.ctx h).state = .free ∧ ∀ j, j < h → (s.ctx j).state ≠ .free := by
  unfold State.firstFree
  rw [List.findIdx?_eq_some_iff_getElem]
  constructor
  · rintro ⟨hl, h1, h2⟩
    refine ⟨hl, ?_, fun j hj => ?_⟩
    · simpa [State.ctx, hl] using h1
    · have hj' : j < s.ctxs.length := by omega
      have := h2 j hj
      simpa [State.ctx, hj'] using this
  · rintro ⟨hl, h1, h2⟩
    refine ⟨hl, ?_, fun j hj => ?_⟩
    · simpa [State.ctx, hl] using h1
    · have hj' : j < s.ctxs.length := by omega
      have := h2 j hj
      simpa [State.ctx, hj'] using this

theorem State.firstFree_eq_none {s : State} : s.firstFree = none ↔ ∀ h, h < s.ctxs.length → (s.ctx h).state ≠ .free := by
  unfold State.firstFree
  rw [List.findIdx?_eq_none_iff]
  constructor
  · intro h j hj
    have := h s.ctxs[j] (List.getElem_mem hj)
    simpa [State.ctx, hj] using this
  · intro h x hx
    obtain ⟨j, hj, rfl⟩ := List.getElem_of_mem hx
    have := h j hj
    simpa [State.ctx, hj] using this

/-- An allocated context: its bookkeeping cleared, its buffer as it was. -/
def Ctx.allocated (x : Ctx) (st : CtxState) : Ctx :=
  { x with state := st, size := 0, totLen := 0, idx := 0, owner := none }

/-- All that an allocation can do (R110). -/
theorem State.alloc_cases (s : State) (size : Nat) (st : CtxState) :
    ((s.cfg.ctxSize < size ∨ s.firstFree = none) ∧ s.alloc size st = (s.diag .poolOom size, none)) ∨
      (size ≤ s.cfg.ctxSize ∧ ∃ h, s.firstFree = some h ∧ s.alloc size st = (s.updCtx h (·.allocated st), some h)) := by
  unfold State.alloc
  split
  · exact .inl ⟨.inl ‹_›, rfl⟩
  · cases hf : s.firstFree with
    | none => exact .inl ⟨.inr rfl, rfl⟩
    | some h => exact .inr ⟨by omega, h, rfl, rfl⟩

theorem State.alloc_some {s : State} {size h : Nat} (hs : size ≤ s.cfg.ctxSize) (hf : s.firstFree = some h)
    (st : CtxState) : s.alloc size st = (s.updCtx h (·.allocated st), some h) := by
  unfold State.alloc
  rw [if_neg (by omega), hf]
  rfl

theorem State.alloc_none {s : State} {size : Nat} (h : s.cfg.ctxSize < size ∨ s.firstFree = none) (st : CtxState) :
    s.alloc size st = (s.diag .poolOom size, none) := by
  unfold State.alloc
  split
  · rfl
  · rw [h.resolve_left ‹_›]

/-- A release is an update of one context (R114). -/
theorem State.release_eq (s : State) (h : Nat) : s.release h = s.updCtx h (·.allocated .free) := rfl

theorem State.heldCtx_ok {s : State} {h : Nat} (hh : h < s.ctxs.length) : s.heldCtx h = .ok (s.ctx h) := if_pos hh

/-- All that taking a context from a queue can do. -/
theorem State.heldCtx_cases {s : State} {h : Nat} {x : Ctx} (e : s.heldCtx h = .ok x) :
    h < s.ctxs.length ∧ x = s.ctx h := by
  unfold State.heldCtx at e
  split at e
  · exact ⟨‹_›, by simpa using e.symm⟩
  · simp at e

/-! ### Two updates of one element -/

theorem State.updChan_updChan (s : State) (c : Nat) (f g : Chan → Chan) :
    (s.updChan c f).updChan c g = s.updChan c (g ∘ f) := by
  simp [State.updChan, List.modify_modify_eq]

theorem State.updCtx_updCtx (s : State) (h : Nat) (f g : Ctx → Ctx) :
    (s.updCtx h f).updCtx h g = s.updCtx h (g ∘ f) := by
  simp [State.updCtx, List.modify_modify_eq]

theorem State.updEp_updEp (s : State) (e : Nat) (f g : Ep → Ep) :
    (s.updEp e f).updEp e g = s.updEp e (g ∘ f) := by
  simp [State.updEp, List.modify_modify_eq]

/-- Two updates that agree on the element they reach are the same update. -/
theorem State.updChan_congr {s : State} {c : Nat} {f g : Chan → Chan} (h : f (s.chan c) = g (s.chan c)) :
    s.updChan c f = s.updChan c g := by
  unfold State.updChan
  congr 1
  apply List.ext_getElem?
  intro i
  simp only [List.getElem?_modify]
  by_cases hi : c = i
  · subst hi
    by_cases hc : c < s.chans.length
    · simpa [State.chan, hc] using h
    · simp [hc]
  · simp [hi]

theorem State.updCtx_congr {s : State} {c : Nat} {f g : Ctx → Ctx} (h : f (s.ctx c) = g (s.ctx c)) :
    s.updCtx c f = s.updCtx c g := by
  unfold State.updCtx
  congr 1
  apply List.ext_getElem?
  intro i
  simp only [List.getElem?_modify]
  by_cases hi : c = i
  · subst hi
    by_cases hc : c < s.ctxs.length
    · simpa [State.ctx, hc] using h
    · simp [hc]
  · simp [hi]

theorem State.updEp_congr {s : State} {c : Nat} {f g : Ep → Ep} (h : f (s.ep c) = g (s.ep c)) :
    s.updEp c f = s.updEp c g := by
  unfold State.updEp
  congr 1
  apply List.ext_getElem?
  intro i
  simp only [List.getElem?_modify]
  by_cases hi : c = i
  · subst hi
    by_cases hc : c < s.eps.length
    · simpa [State.ep, hc] using h
    · simp [hc]
  · simp [hi]

end Sys2Proof.Machine
end

