-- ==== Sys2Proof/Laws/Bodies.lean ====
section
/-! SUPPORT. For the rule bodies and the internal procedures: what each does on the inputs its rule distinguishes, and for the
transport's bodies, by cases, everything each can do. Nothing here is one of the statements for the provers. -/

namespace Sys2Proof.Machine

/-- What `Config.wellFormed` says, by name (R1). -/
structure ConfigFacts (p : Config) : Prop where
  nChan : 1 ≤ p.nChan
  rbCap : 2 ≤ p.rbCap
  usable : p.rbUsable = p.rbCap ∨ p.rbUsable + 1 = p.rbCap
  poolN : 1 ≤ p.poolN ∧ p.poolN ≤ 16
  ctxSize : 264 ≤ p.ctxSize ∧ p.ctxSize ≤ 65535
  fi : p.fiTable.length = 16
  di : p.diTable.length = 16
  atr : 1 ≤ p.atr.length ∧ p.atr.length ≤ 33
  ratio : 1 ≤ p.ratioMin ∧ p.ratioMin ≤ p.ratioReset ∧ p.ratioReset ≤ p.ratioMax ∧ p.ratioMax ≤ 65535
  eps : 1 ≤ p.eps.length ∧ p.eps.length ≤ 16
  mps : ∀ x ∈ p.eps, 1 ≤ x.mps
  ifs : ∀ f ∈ p.ifs, p.namesEp .toHost f.irq = true ∧ p.namesEp .toHost f.inn = true ∧ p.namesEp .fromHost f.out = true ∧ f.chan < p.nChan
  nodup : (p.ifs.flatMap IfConst.endpoints).Nodup
  rxcap : 255 ≤ p.rxbufCap

theorem configFacts_of {p : Config} (h : p.wellFormed = true) : ConfigFacts p := by
  simp only [Config.wellFormed, Bool.and_eq_true, decide_eq_true_eq, Bool.or_eq_true, List.all_eq_true] at h
  obtain ⟨⟨⟨⟨⟨⟨⟨⟨⟨⟨⟨⟨⟨⟨⟨⟨⟨⟨⟨⟨⟨⟨⟨⟨⟨h1, h2⟩, h3⟩, h4⟩, h5⟩, h6⟩, h7⟩, h8⟩, h9⟩, h10⟩, h11⟩, h12⟩, h13⟩, h14⟩, h15⟩, h16⟩, h17⟩, h18⟩, h19⟩, h20⟩, h21⟩, h22⟩, h23⟩, h24⟩, h25⟩, h26⟩ := h
  exact ⟨h1, h2, h4, ⟨h5, h6⟩, ⟨h7, h8⟩, h9, h10, ⟨h11, h12⟩, ⟨h14, h17, h18, h16⟩, ⟨h19, h20⟩, h21, fun f hf => by have := h23 f hf; tauto, h24, h26⟩

/-! ### Small facts -/

theorem next_inj {a b : State} (h : (Host.Outcome.next a : Outcome) = .next b) : a = b := by injection h

theorem chan_lt {s : State} {c : Byte} (hs : s.shape) (h : decide (c.toNat < s.cfg.nChan) = true) : c.toNat < s.chans.length := by
  have := hs.1; simp at h; omega

theorem epIs_lt {s : State} {e : Byte} {d : EpDir} (hs : s.shape) (h : s.cfg.epIs e d = true) : e.toNat < s.eps.length := by
  rw [hs.2.2]
  unfold Config.epIs at h
  by_contra hc
  simp [List.getElem?_eq_none (Nat.le_of_not_lt hc)] at h

theorem ofNat_toNat_setWidth (b : Byte) : BitVec.ofNat 16 b.toNat = b.setWidth 16 := by
  apply BitVec.eq_of_toNat_eq; simp

theorem lastDiag_app {s t : State} {l : List Event} (h : t.events = s.events ++ l) : lastDiag (newEvents s t) = lastDiag l := by
  rw [newEvents_of_append h]

theorem runAll_cons_next {i : Instr} {is : List Instr} {s t : State} (h : exec i s = .next t) :
   runAll (i :: is) s = (runAll is t).map fun r => (t.resp :: r.1, r.2) := by
  simp [runAll, h]

theorem mod_sub_eq {a b N : Nat} (ha : a < N) (hb : b < N) : (a + N - b) % N = if b ≤ a then a - b else a + N - b := by
  split
  · rw [show a + N - b = (a - b) + N by omega, Nat.add_mod_right, Nat.mod_eq_of_lt (by omega)]
  · exact Nat.mod_eq_of_lt (by omega)

theorem mod_succ_eq {a N : Nat} (ha : a < N) : (a + 1) % N = if a + 1 = N then 0 else a + 1 := by
  split
  · rename_i h; rw [h, Nat.mod_self]
  · exact Nat.mod_eq_of_lt (by omega)

theorem hostFlags_iff (x : Byte) : hostFlagsOk x = true ↔ ¬(x.extractLsb' 3 5 ≠ 0#5 ∨ x.getLsbD 0 = true ∨ x.getLsbD 1 = x.getLsbD 2) := by
  unfold hostFlagsOk
  cases x.getLsbD 0 <;> cases x.getLsbD 1 <;> cases x.getLsbD 2 <;> simp

theorem contOf_flags (x : Byte) (h : x = 2#8 ∨ x = 4#8) : contOf x = if x = 4#8 then .rx else .tx := by
  rcases h with rfl | rfl <;> decide

theorem referenced_iff {s : State} {h : Nat} : s.referenced h = true ↔ ∃ x ∈ s.eps, x.cur = some h ∨ h ∈ x.queue := by
  simp [State.referenced, List.any_eq_true]

theorem occupancy_testBit (l : List Ctx) : ∀ h, (occupancy l).testBit h = decide (h < l.length ∧ (l.getD h Ctx.reset).state ≠ .free) := by
  induction l with
  | nil => intro h; simp [occupancy]
  | cons x l ih =>
    intro h
    cases h with
    | zero =>
      simp only [occupancy]
      by_cases hx : x.state = .free <;> simp [hx, Nat.testBit_zero, Nat.add_mod]
    | succ h =>
      simp only [occupancy, Nat.testBit_succ]
      have : ((if x.state = .free then 0 else 1) + 2 * occupancy l) / 2 = occupancy l := by
        split <;> omega
      rw [this, ih]
      simp

/-! ### The ring buffer -/

theorem rbWriteBody_eq {s : State} {c : Nat} {b : Byte} (hc : c < s.chans.length) (hcap : 0 < s.cfg.rbCap) (h : (s.rb c).count s.cfg < s.cfg.rbUsable) :
   rbWriteBody c b s = ret (s.updRb c fun r =>
        { r with buf := r.buf.store (r.wr % s.cfg.rbCap) b, wr := (r.wr + 1) % (2 * s.cfg.rbCap) }) .ok := by
  have hfull : (s.rb c).full s.cfg = false := by simp [Ring.full]; omega
  simp only [rbWriteBody, hfull, Bool.false_eq_true, if_false]
  rw [memWrite_ok _ (by simp [State.spaceSize, hc]; exact Nat.mod_lt _ hcap)]
  simp only [bind_ok, State.setMem, State.updRb, State.updChan_updChan]
  congr 1
  apply State.updChan_congr
  rfl

theorem rbWriteBody_full {s : State} {c : Nat} {b : Byte} (h : s.cfg.rbUsable ≤ (s.rb c).count s.cfg) :
   rbWriteBody c b s = ret (s.diag .rbOverrun b.toNat) .full := by
  have hfull : (s.rb c).full s.cfg = true := by simp [Ring.full]; omega
  simp only [rbWriteBody, hfull, if_true]

theorem rbHead_eq {s : State} {c : Nat} (hc : c < s.chans.length) (hcap : 0 < s.cfg.rbCap) :
   rbHead c s = .ok (s.cell (.rb c) ((s.rb c).rd % s.cfg.rbCap)) := by
  unfold rbHead
  rw [memRead1_ok]
  simp [State.spaceSize, hc]; exact Nat.mod_lt _ hcap

theorem ring_write {p : Config} {r : Ring} {b : Byte} (hw : ConfigFacts p) (h : RingOk p r) (hc : r.count p < p.rbUsable) :
   RingOk p { r with buf := r.buf.store (r.wr % p.rbCap) b, wr := (r.wr + 1) % (2 * p.rbCap) } := by
  obtain ⟨h1, h2, h3, h4, h5⟩ := h
  have hcap := hw.rbCap
  have hus := hw.usable
  refine ⟨Nat.mod_lt _ (by omega), h2, ?_, Memory.wf_store h4 _ _, ?_⟩
  · have hlt : (r.wr + 1) % (2 * p.rbCap) < 2 * p.rbCap := Nat.mod_lt _ (by omega)
    simp only [Ring.count] at hc h3 ⊢
    rw [mod_sub_eq h1 h2] at hc h3
    rw [mod_sub_eq hlt h2, mod_succ_eq h1]
    split at hc <;> split <;> split <;> omega
  · exact Memory.bound_storeList p.rbCap [b] h5 (by have := Nat.mod_lt r.wr (show p.rbCap > 0 by omega); simp; omega)

theorem ring_write_count {p : Config} {r : Ring} {m : Memory} (hw : ConfigFacts p) (h : RingOk p r) (hc : r.count p < p.rbUsable) :
   Ring.count p { r with buf := m, wr := (r.wr + 1) % (2 * p.rbCap) } = r.count p + 1 := by
  obtain ⟨h1, h2, h3, h4, h5⟩ := h
  have hcap := hw.rbCap
  have hus := hw.usable
  have hlt : (r.wr + 1) % (2 * p.rbCap) < 2 * p.rbCap := Nat.mod_lt _ (by omega)
  simp only [Ring.count] at hc h3 ⊢
  rw [mod_sub_eq h1 h2] at hc h3 ⊢
  rw [mod_sub_eq hlt h2, mod_succ_eq h1]
  split at hc <;> split <;> split <;> omega

theorem ring_read_count {p : Config} {r : Ring} (hw : ConfigFacts p) (h : RingOk p r) (hc : r.count p ≠ 0) :
   Ring.count p { r with rd := (r.rd + 1) % (2 * p.rbCap) } + 1 = r.count p := by
  obtain ⟨h1, h2, h3, h4, h5⟩ := h
  have hcap := hw.rbCap
  have hus := hw.usable
  have hlt : (r.rd + 1) % (2 * p.rbCap) < 2 * p.rbCap := Nat.mod_lt _ (by omega)
  simp only [Ring.count] at hc h3 ⊢
  rw [mod_sub_eq h1 h2] at hc h3 ⊢
  rw [mod_sub_eq h1 hlt, mod_succ_eq h2]
  split at hc <;> split <;> split <;> omega

theorem ring_read {p : Config} {r : Ring} (hw : ConfigFacts p) (h : RingOk p r) (hc : r.count p ≠ 0) :
   RingOk p { r with rd := (r.rd + 1) % (2 * p.rbCap) } := by
  have := ring_read_count hw h hc
  obtain ⟨h1, h2, h3, h4⟩ := h
  have hcap := hw.rbCap
  exact ⟨h1, Nat.mod_lt _ (by omega), by omega, h4⟩

theorem ring_reset {p : Config} {r : Ring} (hw : ConfigFacts p) (h : RingOk p r) : RingOk p { r with wr := 0, rd := 0 } := by
  have hcap := hw.rbCap
  refine ⟨by simp; omega, by simp; omega, by simp [Ring.count], h.2.2.2⟩

/-! ### Timing -/

theorem applyRatio_eq (c : Nat) (ratio : Half) (s : State) :
   applyRatio c ratio s = { s.updUart c fun _ => ⟨ratio, true⟩ with events := s.events ++ timingEvents s.cfg c ratio } := by
  unfold applyRatio unlockStep timingEvents
  have hu : ∀ (b : Bool), (State.updUart (State.updUart (State.updUart s c fun u => { u with rxEn := false}) c fun u => {u with fidi := ratio}) c fun u => {u with rxEn := true}) = s.updUart c fun _ => ⟨ratio, true⟩ := by
    intro b
    simp only [State.updUart, State.updChan_updChan]
    apply State.updChan_congr
    rfl
  have := hu true
  by_cases h : s.cfg.uartHasWprot = true
  · simp only [State.emit, State.updUart, State.updChan, h, if_true] at this ⊢
    simp only [State.mk.injEq] at this ⊢
    simp [this]
  · simp only [State.emit, State.updUart, State.updChan, h] at this ⊢
    simp only [State.mk.injEq] at this ⊢
    simp [this]

theorem lastDiag_timing (p : Config) (c : Nat) (r : Half) : lastDiag (timingEvents p c r) = 0#8 := by
  unfold timingEvents; split <;> rfl

theorem timApplyBody_ok {c : Nat} {r : Half} {s : State} (h : ¬(r.toNat < s.cfg.ratioMin ∨ s.cfg.ratioMax < r.toNat)) :
   timApplyBody c r s = .ok ({ s.updUart c fun _ => ⟨r, true⟩ with events := s.events ++ timingEvents s.cfg c r }, ⟨.ok, 0#16⟩) := by
  unfold timApplyBody
  rw [if_neg h, applyRatio_eq]; rfl

theorem started_eq (w : Wt) : w.started = w.fromFull := by
  unfold Wt.started Wt.fromFull Wt.stopped
  by_cases h : w.period = 0 <;> simp [h]

theorem reloaded_eq (w : Wt) : w.reloaded = if w.armed = true then w.fromFull else w := by
  unfold Wt.reloaded; simp [started_eq]

theorem armed_eq (c : Nat) (s : State) : wtArm c s = s.updWt c Wt.fromFull := by
  unfold wtArm; congr 1; funext w; exact started_eq w

/-! ### The engine -/

theorem leastFree_first {s : State} {h : Nat} (hf : s.leastFree h) : s.firstFree = some h := State.firstFree_eq_some.mpr hf

theorem poolFull_first {s : State} (hf : s.poolFull) : s.firstFree = none := State.firstFree_eq_none.mpr hf

theorem cemSend_ok {c e h : Nat} {flags : Byte} {bytes : List Byte} {s : State} (hs : s.shape) (hi : s.inEp c = some e) (hf : s.firstFree = some h)
    (hn : 5 + bytes.length ≤ s.cfg.ctxSize) :
    cemSend c flags bytes s = .ok (((s.updCem c fun x => { x with seq := x.seq + 1#8 }).updCtx h fun y => { y with
          state := .usbTxPending, size := 5 + bytes.length, totLen := 5 + bytes.length, idx := 0, owner := some e
          buf := y.buf.storeList 0 (deviceMessage (s.cem c).seq flags bytes) }).updEp e
        (fun y => { y with queue := y.queue ++ [h] }), ⟨.ok, 0#16⟩) := by
  have hh := State.firstFree_eq_some.mp hf
  have hp : h < s.cfg.poolN := by have := hs.2.1; omega
  simp only [cemSend, hi, State.alloc_some hn hf]
  rw [memWrite_ok _ (by simp [State.spaceSize, hh.1, messageBytes]; omega)]
  simp only [bind_ok, State.setMem, ubtEnqBody]
  rw [if_neg (by simpa using hp)]
  rw [if_neg (by simp [hh.1, Ctx.allocated])]
  simp only [ret, bind_ok]
  congr 2
  simp only [State.mem, State.ctx_updCtx_same s hh.1, State.cem_updCtx]
  simp only [State.updEp, State.updCtx, State.updCem, State.updChan, State.mk.injEq, true_and, and_true, List.modify_modify_eq]
  have h1 := State.updCtx_congr (s := s) (c := h) (f := ((fun y : Ctx => { y with state := .usbTxPending, owner := some e }) ∘ (fun y : Ctx => { y with size := 5 + bytes.length, totLen := 5 + bytes.length, idx := 0 }) ∘ (fun y : Ctx => { y with buf := (s.ctx h).buf.storeList 0 (messageBytes (s.cem c).seq flags bytes) }) ∘ (·.allocated .uartTxPending))) (g := fun y => { y with
          state := .usbTxPending, size := 5 + bytes.length, totLen := 5 + bytes.length, idx := 0, owner := some e
          buf := y.buf.storeList 0 (deviceMessage (s.cem c).seq flags bytes) }) rfl
  simp only [State.updCtx, State.mk.injEq, true_and, and_true] at h1
  exact h1

theorem cemSend_noEp {c : Nat} {flags : Byte} {bytes : List Byte} {s : State} (hi : s.inEp c = none) :
    cemSend c flags bytes s = .ok (s.diag .noInEp c, ⟨.discarded, 0#16⟩) := by
  simp only [cemSend, hi]; rfl

theorem cemSend_full {c : Nat} {flags : Byte} {bytes : List Byte} {s : State} (hi : s.inEp c ≠ none) (hf : s.firstFree = none) :
    cemSend c flags bytes s = .ok (s.diag .poolOom (5 + bytes.length), ⟨.oom, 0#16⟩) := by
  obtain ⟨e, he⟩ := Option.ne_none_iff_exists'.mp hi
  simp only [cemSend, he, State.alloc_none (.inr hf)]; rfl

theorem inEp_updCem (s : State) (c d : Nat) (f : Cem → Cem) : (s.updCem c f).inEp d = s.inEp d := rfl

theorem firstFree_updCem (s : State) (c : Nat) (f : Cem → Cem) : (s.updCem c f).firstFree = s.firstFree := rfl

theorem State.cell_hdr (s : State) (c a : Nat) : s.cell (.hdr c) a = ((s.cem c).hdr.lookup a).getD (Config.unwrittenByte (.hdr c) s.era a) := rfl

theorem State.cell_rxbuf (s : State) (c a : Nat) : s.cell (.rxbuf c) a = ((s.cem c).rxbuf.lookup a).getD (Config.unwrittenByte (.rxbuf c) s.era a) := rfl

theorem rxHeader_partial {c : Nat} {b : Byte} {s : State} (hc : c < s.chans.length) (h : (s.cem c).hdrN < 4) (hb : ¬((s.cem c).hdrN = 0 ∧ b = 0xFF#8)) :
   rxHeader c b s = ret (s.updCem c fun x => { x with hdr := x.hdr.store x.hdrN b, hdrN := x.hdrN + 1 }) .ok := by
  simp only [rxHeader]
  rw [if_neg hb, memWrite_ok _ (by simp [State.spaceSize, hc, hdrLen]; omega)]
  simp only [bind_ok, State.setMem]
  rw [State.cem_updCem_same _ (by simpa using hc), State.cem_updCem_same _ hc, if_pos (by simp [hdrLen]; omega)]
  congr 1
  simp only [State.updCem, State.updChan_updChan]
  apply State.updChan_congr
  rfl

theorem rxHeader_full {c : Nat} {b : Byte} {s : State} (hc : c < s.chans.length) (h : (s.cem c).hdrN = 4) :
   rxHeader c b s = afterSend c (cemSend c 0x01#8 [s.cell (.hdr c) 0, s.cell (.hdr c) 1, s.cell (.hdr c) 2, s.cell (.hdr c) 3, b]
      (s.updCem c fun x => { x with hdr := x.hdr.store 4 b, hdrN := 5, rxLeft := b.toNat, rxN := 0 })) := by
  simp only [rxHeader]
  rw [if_neg (by simp [h]), memWrite_ok _ (by simp [State.spaceSize, hc, hdrLen]; omega)]
  simp only [bind_ok, State.setMem]
  rw [State.cem_updCem_same _ (by simpa using hc), State.cem_updCem_same _ hc, if_neg (by simp [hdrLen]; omega)]
  rw [memRead_ok _ (by simp [State.spaceSize, hc, hdrLen])]
  rw [memRead1_ok _ (by simp [State.spaceSize, hc, hdrLen])]
  simp only [bind_ok]
  have h4 : ∀ a, a ≤ 4 → State.cell ((s.updCem c fun x => { x with hdr := ((s.mem (.hdr c)).storeList (s.cem c).hdrN [b]) }).updCem c fun x => { x with hdrN := x.hdrN + 1}) (.hdr c) a = if a = 4 then b else s.cell (.hdr c) a := by
    intro a ha
    rw [State.cell_hdr, State.cem_updCem_same _ (by simpa using hc), State.cem_updCem_same _ hc]
    simp only [h, Memory.storeList_singleton, Memory.lookup_store, State.updCem_era]
    split
    · rfl
    · rfl
  have hl : (List.range hdrLen).map (fun i => State.cell ((s.updCem c fun x => { x with hdr := ((s.mem (.hdr c)).storeList (s.cem c).hdrN [b]) }).updCem c fun x => { x with hdrN := x.hdrN + 1}) (.hdr c) (0 + i)) = [s.cell (.hdr c) 0, s.cell (.hdr c) 1, s.cell (.hdr c) 2, s.cell (.hdr c) 3, b] := by
    simp only [hdrLen, show List.range 5 = [0,1,2,3,4] from rfl, List.map_cons, List.map_nil]
    rw [h4 _ (by omega), h4 _ (by omega), h4 _ (by omega), h4 _ (by omega), h4 _ (by omega)]
    simp
  have hp : State.cell ((s.updCem c fun x => { x with hdr := ((s.mem (.hdr c)).storeList (s.cem c).hdrN [b]) }).updCem c fun x => { x with hdrN := x.hdrN + 1}) (.hdr c) 4 = b := by
    rw [h4 _ (by omega)]; simp
  rw [hl, hp]
  congr 2
  simp only [State.updCem, State.updChan_updChan]
  apply State.updChan_congr
  have h' : (s.chan c).cem.hdrN = 4 := h
  simp only [Function.comp, h', State.mem, State.cem]
  rfl

theorem afterSend_ok {c : Nat} {s : State} {v : Half} : afterSend c (.ok (s, ⟨.ok, v⟩)) = ret (enterPb c s) .ok := rfl

theorem afterSend_fail {c : Nat} {s : State} {r : Reply} (h : r.rc ≠ .ok) : afterSend c (.ok (s, r)) = ret (enterIdle c s) r.rc := by
  simp only [afterSend, bind_ok]; rw [if_neg h]

theorem rxData_partial {c : Nat} {b : Byte} {s : State} (hc : c < s.chans.length) (hcap : (s.cem c).rxN < s.cfg.rxbufCap) (h : 2 ≤ (s.cem c).rxLeft) :
   rxData c b s = ret (s.updCem c fun x => { x with rxbuf := x.rxbuf.store x.rxN b, rxN := x.rxN + 1, rxLeft := x.rxLeft - 1 }) .ok := by
  simp only [rxData]
  rw [if_neg (by omega), memWrite_ok _ (by simp [State.spaceSize, hc]; omega)]
  simp only [bind_ok, State.setMem]
  rw [State.cem_updCem_same _ (by simpa using hc), State.cem_updCem_same _ hc, if_pos (by simp; omega)]
  congr 1
  simp only [State.updCem, State.updChan_updChan]
  apply State.updChan_congr
  rfl

theorem rxData_full {c : Nat} {b : Byte} {s : State} (hc : c < s.chans.length) (hcap : (s.cem c).rxN < s.cfg.rxbufCap) (h : (s.cem c).rxLeft = 1) :
   rxData c b s = afterSend c (cemSend c 0x00#8 (((List.range (s.cem c).rxN).map fun i => s.cell (.rxbuf c) i) ++ [b])
      (s.updCem c fun x => { x with rxbuf := x.rxbuf.store x.rxN b, rxN := x.rxN + 1, rxLeft := 0 })) := by
  simp only [rxData]
  rw [if_neg (by omega), memWrite_ok _ (by simp [State.spaceSize, hc]; omega)]
  simp only [bind_ok, State.setMem]
  rw [State.cem_updCem_same _ (by simpa using hc), State.cem_updCem_same _ hc, if_neg (by simp; omega)]
  simp only
  rw [memRead_ok _ (by simp [State.spaceSize, hc]; omega)]
  simp only [bind_ok]
  have h4 : ∀ a, State.cell ((s.updCem c fun x => { x with rxbuf := ((s.mem (.rxbuf c)).storeList (s.cem c).rxN [b]) }).updCem c fun x => { x with rxN := x.rxN + 1, rxLeft := x.rxLeft - 1}) (.rxbuf c) a = if a = (s.cem c).rxN then b else s.cell (.rxbuf c) a := by
    intro a
    rw [State.cell_rxbuf, State.cem_updCem_same _ (by simpa using hc), State.cem_updCem_same _ hc]
    simp only [Memory.storeList_singleton, Memory.lookup_store, State.updCem_era]
    split
    · rfl
    · rfl
  have hl : (List.range ((s.cem c).rxN + 1)).map (fun i => State.cell ((s.updCem c fun x => { x with rxbuf := ((s.mem (.rxbuf c)).storeList (s.cem c).rxN [b]) }).updCem c fun x => { x with rxN := x.rxN + 1, rxLeft := x.rxLeft - 1}) (.rxbuf c) (0 + i)) = (((List.range (s.cem c).rxN).map fun i => s.cell (.rxbuf c) i) ++ [b]) := by
    rw [List.range_succ, List.map_append]
    congr 1
    · apply List.map_congr_left
      intro i hi
      rw [h4, if_neg (by simp at hi; omega)]; simp
    · simp only [List.map_cons, List.map_nil, Nat.zero_add]; rw [h4]; simp
  rw [hl]
  congr 2
  simp only [State.updCem, State.updChan_updChan]
  apply State.updChan_congr
  have h' : (s.chan c).cem.rxLeft = 1 := h
  simp only [Function.comp, h', State.mem, State.cem]
  rfl

/-! ### The dispatcher -/

theorem State.outIf_eq {s : State} {e : Nat} {f : IfConst} (hw : ConfigFacts s.cfg) (hf : f ∈ s.cfg.ifs) (ho : f.out = some e) : s.outIf e = some f := by
  have hnd := (List.nodup_flatMap.mp hw.nodup).2
  unfold State.outIf
  cases hfi : s.cfg.ifs.find? fun f => decide (f.out = some e) with
  | none =>
    have := List.find?_eq_none.mp hfi f hf
    simp [ho] at this
  | some g =>
    have hg := List.mem_of_find?_eq_some hfi
    have hgo : g.out = some e := by simpa using List.find?_some hfi
    by_contra hne
    have hne' : f ≠ g := by intro h; exact hne (by rw [h])
    have hsym : Std.Symm (Function.onFun List.Disjoint IfConst.endpoints) := ⟨fun a b h => List.Disjoint.symm h⟩
    have := List.Pairwise.forall hnd hf hg hne'
    exact this (a := e) (by simp [IfConst.endpoints, ho]) (by simp [IfConst.endpoints, hgo])

theorem State.outIf_none {s : State} {e : Nat} (h : ∀ f ∈ s.cfg.ifs, f.out ≠ some e) : s.outIf e = none := by
  unfold State.outIf
  rw [List.find?_eq_none]
  intro f hf
  simpa using h f hf

theorem msgCheck_small {c h : Nat} {s : State} (hh : h < s.ctxs.length) (hn : (s.ctx h).size < 4) :
   msgCheck c h s = .ok (s.diag .msgMalformed (s.ctx h).size, ⟨.discarded, 0#16⟩) := by
  simp only [msgCheck, State.heldCtx_ok hh, bind_ok]
  rw [if_pos (show (s.ctx h).size < msgHdrLen from hn)]; rfl

theorem msgCheck_eq {c h : Nat} {s : State} (hh : h < s.ctxs.length) (hsz : 264 ≤ s.cfg.ctxSize) (hn : 4 ≤ (s.ctx h).size) :
   msgCheck c h s =
    let plen := le16 (s.cell (.ctx h) 2) (s.cell (.ctx h) 3)
    if plen ≠ (s.ctx h).size - 4 then .ok (s.diag .msgMalformed (s.ctx h).size, ⟨.discarded, 0#16⟩)
    else if s.cell (.ctx h) 0 ≠ 1#8 then .ok (s.diag .msgUnknownType (s.cell (.ctx h) 0).toNat, ⟨.discarded, 0#16⟩)
    else msgBody c h (s.ctx h).size plen s := by
  simp only [msgCheck, State.heldCtx_ok hh, bind_ok]
  rw [if_neg (show ¬(s.ctx h).size < msgHdrLen by simp only [msgHdrLen]; omega), memRead1_ok _ (by simp [State.spaceSize, hh]; omega), memRead1_ok _ (by simp [State.spaceSize, hh]; omega), memRead1_ok _ (by simp [State.spaceSize, hh]; omega)]
  rfl

theorem msgBody_eq {c h n plen : Nat} {s : State} (hh : h < s.ctxs.length) (hsz : 264 ≤ s.cfg.ctxSize) (h1 : 2 ≤ plen) (h2 : plen ≤ 1 + s.cfg.txqCap) :
   msgBody c h n plen s =
    let flags := s.cell (.ctx h) 4
    if hostFlagsOk flags then cemHostmsg c flags (s.messageBody h (plen - 1)) s
    else .ok (s.diag .msgMalformed flags.toNat, ⟨.discarded, 0#16⟩) := by
  unfold Config.txqCap at h2
  simp only [msgBody]
  rw [if_neg (by simp only [Config.txqCap]; omega), memRead1_ok _ (by simp [State.spaceSize, hh]; omega)]
  simp only [bind_ok]
  split
  · rw [memRead_ok _ (by simp [State.spaceSize, hh]; omega)]; rfl
  · rfl

theorem cemHostmsg_ok {c : Nat} {flags : Byte} {data : List Byte} {s : State} (hc : c < s.chans.length) (hst : (s.cem c).state = .procedureByte)
   (hd : data.length ≤ s.cfg.txqCap) :
   cemHostmsg c flags data s = .ok ((s.updCem c fun x => { x with txbuf := x.txbuf.storeList 0 data, txLen := data.length, txIdx := 0, cont := contOf flags, dir := .tx, state := .dataExchange }).updWt c Wt.stopped, ⟨.ok, 0#16⟩) := by
  simp only [cemHostmsg, hst]
  rw [if_neg (by simp), memWrite_ok _ (by simp [State.spaceSize, hc]; omega)]
  simp only [bind_ok, State.setMem, wtDisarm, ret]
  congr 3
  simp only [State.updCem, State.updChan_updChan]
  apply State.updChan_congr
  rfl

theorem cemHostmsg_bad {c : Nat} {flags : Byte} {data : List Byte} {s : State} (hst : (s.cem c).state ≠ .procedureByte) :
   cemHostmsg c flags data s = .ok (s.diag .hostmsgBadState (s.cem c).state.code, ⟨.discarded, 0#16⟩) := by
  simp only [cemHostmsg]; rw [if_pos hst]; rfl

/-! ### The transport, by cases -/

/-- Everything a write refill can leave (R192). -/
inductive RefillTohostCase (e : Nat) (d : Bool) (s : State) : State → Prop
  | nop : ((s.ep e).inProgress = true ∨ (s.ep e).queue = []) → RefillTohostCase e d s s
  | sub (h : Nat) (rest : List Nat) (ev : Event) : (s.ep e).inProgress = false → (s.ep e).queue = h :: rest → h < s.ctxs.length → d = true →
      RefillTohostCase e d s { s with ctxs := s.ctxs.modify h fun y => { y with state := .usbTxBusy }, eps := s.eps.modify e fun _ => ⟨rest, true, some h, false⟩, events := s.events ++ [ev] }
  | fail (h : Nat) (rest : List Nat) (ev : List Event) : (s.ep e).inProgress = false → (s.ep e).queue = h :: rest → h < s.ctxs.length → d = false →
      RefillTohostCase e d s { s with eps := s.eps.modify e fun _ => ⟨h :: rest, false, none, false⟩, events := s.events ++ ev }

theorem RefillTohostCase.eq {e d} {s t u : State} (h : RefillTohostCase e d s t) (e' : t = u) : RefillTohostCase e d s u := e' ▸ h

theorem refillTohostBody_cases {e : Nat} {d : Bool} {s t : State} {r : Reply} (he : refillTohostBody e d s = .ok (t, r)) : RefillTohostCase e d s t := by
  unfold refillTohostBody at he
  split at he
  · rename_i h; simp at he; obtain ⟨rfl, _⟩ := he; exact .nop (.inl h)
  · rename_i h
    split at he
    · rename_i h2; simp at he; obtain ⟨rfl, _⟩ := he; exact .nop (.inr h2)
    · rename_i k rest hq
      rw [bind_eq_ok] at he
      obtain ⟨x, hx, he⟩ := he
      obtain ⟨hk, rfl⟩ := State.heldCtx_cases hx
      simp only at he
      have hip : (s.ep e).inProgress = false := by simpa using h
      have hupd : s.updEp e (fun y => { y with queue := rest, inProgress := true, cur := some k, zlp := false }) = s.updEp e fun _ => ⟨rest, true, some k, false⟩ := rfl
      split at he
      · rename_i hd
        simp at he; obtain ⟨rfl, _⟩ := he
        exact .sub k rest _ hip hq hk hd
      · rename_i hd
        simp at he; obtain ⟨rfl, _⟩ := he
        refine (RefillTohostCase.fail k rest [.usbWrite (s.epConst e).addr k (s.ctx k).size, .diag .usbWriteSubmitFail k] hip hq hk (by simpa using hd)).eq ?_
        simp [State.updEp, State.emit, State.diag, List.modify_modify_eq]
        rfl

/-- Everything a read refill can leave (R196). -/
inductive RefillFromhostCase (e : Nat) (d : Bool) (s : State) : State → Prop
  | nop : (s.ep e).inProgress = true → RefillFromhostCase e d s s
  | oom (n : Nat) : (s.ep e).inProgress = false → RefillFromhostCase e d s (s.diag .poolOom n)
  | sub (h : Nat) (ev : Event) : (s.ep e).inProgress = false → s.leastFree h → d = true →
      RefillFromhostCase e d s { s with ctxs := s.ctxs.modify h fun y => { y with state := .usbRxBusy, size := 0, totLen := 0, idx := 0, owner := some e }, eps := s.eps.modify e fun y => { y with inProgress := true, cur := some h }, events := s.events ++ [ev] }
  | fail (h : Nat) (ev : List Event) : (s.ep e).inProgress = false → s.leastFree h → d = false →
      RefillFromhostCase e d s { s with ctxs := s.ctxs.modify h Ctx.released, eps := s.eps.modify e fun y => { y with inProgress := false, cur := none }, events := s.events ++ ev }

theorem RefillFromhostCase.eq {e d} {s t u : State} (h : RefillFromhostCase e d s t) (e' : t = u) : RefillFromhostCase e d s u := e' ▸ h

theorem refillFromhostBody_cases {e : Nat} {d : Bool} {s t : State} {r : Reply} (he : refillFromhostBody e d s = .ok (t, r)) : RefillFromhostCase e d s t := by
  unfold refillFromhostBody at he
  split at he
  · rename_i h; simp at he; obtain ⟨rfl, _⟩ := he; exact .nop h
  · rename_i h
    have hip : (s.ep e).inProgress = false := by simpa using h
    rcases State.alloc_cases s s.cfg.ctxSize .usbRxBusy with ⟨_, ha⟩ | ⟨_, k, hk, ha⟩
    · rw [ha] at he; simp at he; obtain ⟨rfl, _⟩ := he; exact .oom _ hip
    · rw [ha] at he
      simp only at he
      have hk := State.firstFree_eq_some.mp hk
      split at he
      · rename_i hd
        simp at he; obtain ⟨rfl, _⟩ := he
        refine (RefillFromhostCase.sub k (.usbRead (s.epConst e).addr k s.cfg.ctxSize) hip hk hd).eq ?_
        simp [State.updEp, State.updCtx, State.emit, List.modify_modify_eq]
        rfl
      · rename_i hd
        simp at he; obtain ⟨rfl, _⟩ := he
        refine (RefillFromhostCase.fail k [.usbRead (s.epConst e).addr k s.cfg.ctxSize, .diag .usbReadSubmitFail e] hip hk (by simpa using hd)).eq ?_
        simp [State.updEp, State.updCtx, State.emit, State.diag, State.release, List.modify_modify_eq]
        exact ⟨rfl, rfl⟩

/-- Everything the judging of a message can leave (R221 to R224). -/
inductive MsgCheckCase (c h : Nat) (s : State) : State → Reply → Prop
  | drop (k : DiagCode) (n : Nat) : MsgCheckCase c h s (s.diag k n) ⟨.discarded, 0#16⟩
  | acc (flags : Byte) (data : List Byte) : (s.cem c).state = .procedureByte → c < s.chans.length → data.length = messageData s h → 1 ≤ data.length → data.length ≤ s.cfg.txqCap →
      MsgCheckCase c h s { s with chans := s.chans.modify c fun y => { y with cem := { y.cem with txbuf := y.cem.txbuf.storeList 0 data, txLen := data.length, txIdx := 0, cont := contOf flags, dir := .tx, state := .dataExchange }, wt := { y.wt with armed := false, remaining := 0 } } } ⟨.ok, 0#16⟩

theorem msgCheck_cases {c h : Nat} {s t : State} {r : Reply} (he : msgCheck c h s = .ok (t, r)) : h < s.ctxs.length ∧ MsgCheckCase c h s t r := by
  unfold msgCheck at he
  rw [bind_eq_ok] at he
  obtain ⟨x, hx, he⟩ := he
  obtain ⟨hk, rfl⟩ := State.heldCtx_cases hx
  refine ⟨hk, ?_⟩
  split at he
  · simp at he; obtain ⟨rfl, rfl⟩ := he; exact .drop _ _
  · rw [bind_eq_ok] at he
    obtain ⟨b0, h0, he⟩ := he
    rw [bind_eq_ok] at he
    obtain ⟨lo, h1, he⟩ := he
    rw [bind_eq_ok] at he
    obtain ⟨hi, h2, he⟩ := he
    split at he
    · simp at he; obtain ⟨rfl, rfl⟩ := he; exact .drop _ _
    · split at he
      · simp at he; obtain ⟨rfl, rfl⟩ := he; exact .drop _ _
      · unfold msgBody at he
        split at he
        · simp at he; obtain ⟨rfl, rfl⟩ := he; exact .drop _ _
        · rename_i hlen _ hp
          rw [bind_eq_ok] at he
          obtain ⟨fl, h3, he⟩ := he
          split at he
          · rw [bind_eq_ok] at he
            obtain ⟨data, h4, he⟩ := he
            obtain ⟨h4, hdata⟩ := memRead_cases h4
            have hdl : data.length = le16 lo hi - 1 := by rw [hdata]; simp
            unfold cemHostmsg at he
            split at he
            · simp at he; obtain ⟨rfl, rfl⟩ := he; exact .drop _ _
            · rename_i hst
              rw [bind_eq_ok] at he
              obtain ⟨s1, hw, he⟩ := he
              obtain ⟨hbound, rfl⟩ := memWrite_cases hw
              have hcl : c < s.chans.length := by
                simp only [State.spaceSize] at hbound
                by_contra hcon; rw [if_neg hcon] at hbound; push Not at hp; omega
              simp at he; obtain ⟨rfl, rfl⟩ := he
              have hlo := (memRead1_cases h1).2
              have hhi := (memRead1_cases h2).2
              push Not at hp
              have := MsgCheckCase.acc (c := c) (h := h) (s := s) fl data (by simpa using hst) hcl (by rw [hdl, messageData, hlo, hhi]) (by omega) (by omega)
              refine Eq.subst (motive := fun u => MsgCheckCase c h s u _) ?_ this
              simp only [State.setMem, wtDisarm, State.updWt, State.updCem, State.updChan, List.modify_modify_eq]
              congr 1
              have h1 := State.updChan_congr (s := s) (c := c) (f := fun y => { y with cem := { y.cem with txbuf := y.cem.txbuf.storeList 0 data, txLen := data.length, txIdx := 0, cont := contOf fl, dir := .tx, state := .dataExchange }, wt := { y.wt with armed := false, remaining := 0 } })
                 (g := ((fun x : Chan => { x with wt := x.wt.stopped }) ∘ (fun x : Chan => { x with cem := { x.cem with txLen := data.length, txIdx := 0, cont := contOf fl, dir := .tx, state := .dataExchange } }) ∘ (fun x : Chan => { x with cem := { x.cem with txbuf := (s.mem (.txbuf c)).storeList 0 data } }))) rfl
              simp only [State.updChan, State.mk.injEq, true_and, and_true] at h1
              exact h1
          · simp at he; obtain ⟨rfl, rfl⟩ := he; exact .drop _ _

/-- Everything a dispatch can leave (R220). -/
inductive DispatchCase (e : Nat) (s : State) : State → Reply → Prop
  | empty : (s.ep e).queue = [] → DispatchCase e s s ⟨.empty, 0#16⟩
  | drop (h : Nat) (rest : List Nat) (ev : Event) (v : Half) : (s.ep e).queue = h :: rest → h < s.ctxs.length →
      DispatchCase e s { s with ctxs := s.ctxs.modify h Ctx.released, eps := s.eps.modify e fun y => { y with queue := rest }, events := s.events ++ [ev] } ⟨.discarded, v⟩
  | acc (h : Nat) (rest : List Nat) (f : IfConst) (flags : Byte) (data : List Byte) (v : Half) : (s.ep e).queue = h :: rest → h < s.ctxs.length → s.outIf e = some f →
      (s.cem f.chan).state = .procedureByte → f.chan < s.chans.length → data.length = messageData s h → 1 ≤ data.length → data.length ≤ s.cfg.txqCap →
      DispatchCase e s { s with
        chans := s.chans.modify f.chan fun y => { y with cem := { y.cem with txbuf := y.cem.txbuf.storeList 0 data, txLen := data.length, txIdx := 0, cont := contOf flags, dir := .tx, state := .dataExchange }, wt := { y.wt with armed := false, remaining := 0 } }
        ctxs := s.ctxs.modify h Ctx.released, eps := s.eps.modify e fun y => { y with queue := rest } } ⟨.ok, v⟩

theorem ubtDispatchBody_cases {e : Nat} {s t : State} {r : Reply} (he : ubtDispatchBody e s = .ok (t, r)) : DispatchCase e s t r := by
  unfold ubtDispatchBody at he
  split at he
  · rename_i hq; simp at he; obtain ⟨rfl, rfl⟩ := he; exact .empty hq
  · rename_i k rest hq
    simp only at he
    rw [bind_eq_ok] at he
    obtain ⟨x, hx, he⟩ := he
    obtain ⟨hk, rfl⟩ := State.heldCtx_cases hx
    have hk' : k < s.ctxs.length := by simpa using hk
    have ho : (s.updEp e fun x => { x with queue := rest }).outIf e = s.outIf e := rfl
    cases hif : s.outIf e with
    | none =>
      rw [hif] at he
      simp only [bind_eq_ok] at he
      obtain ⟨⟨s2, r2⟩, hm, he⟩ := he
      simp at he; obtain ⟨rfl, rfl⟩ := he
      simp at hm; obtain ⟨rfl, rfl⟩ := hm
      exact .drop k rest _ _ hq hk'
    | some f =>
      rw [hif] at he
      simp only [bind_eq_ok] at he
      obtain ⟨⟨s2, r2⟩, hm, he⟩ := he
      simp at he; obtain ⟨rfl, rfl⟩ := he
      obtain ⟨_, hm⟩ := msgCheck_cases hm
      cases hm with
      | drop kk n => exact .drop k rest _ _ hq hk'
      | acc fl data h1 h2 h3 h4 h5 =>
        exact .acc k rest f fl data _ hq hk' hif h1 h2 h3 h4 h5

/-- Everything a write completion can leave (R194, R195, R198). -/
inductive WcompleteCase (e : Nat) (status : Byte) (d : Bool) (s : State) : State → Reply → Prop
  | illegal : (s.ep e).inProgress = false → WcompleteCase e status d s s ⟨.illegal, 0#16⟩
  | zlp (h : Nat) (ev : Event) : (s.ep e).inProgress = true → (s.ep e).cur = some h → h < s.ctxs.length → status = 0#8 → d = true → (s.ep e).zlp = false →
      WcompleteCase e status d s { s with eps := s.eps.modify e fun y => { y with zlp := true }, events := s.events ++ [ev] } ⟨.ok, 0#16⟩
  | done (h : Nat) (evs : List Event) : (s.ep e).inProgress = true → (s.ep e).cur = some h → h < s.ctxs.length →
      WcompleteCase e status d s { s with ctxs := s.ctxs.modify h Ctx.released, eps := s.eps.modify e fun y => { y with inProgress := false, cur := none, zlp := false }, events := s.events ++ evs } ⟨.ok, 0#16⟩

theorem WcompleteCase.eq {e st d} {s t u : State} {r} (h : WcompleteCase e st d s t r) (e' : t = u) : WcompleteCase e st d s u r := e' ▸ h

theorem wcompleteBody_cases {e : Nat} {st : Byte} {d : Bool} {s t : State} {r : Reply} (he : wcompleteBody e st d s = .ok (t, r)) : WcompleteCase e st d s t r := by
  unfold wcompleteBody at he
  split at he
  · rename_i h; simp at he; obtain ⟨rfl, rfl⟩ := he; exact .illegal (by simpa using h)
  · rename_i h
    have h : (s.ep e).inProgress = true := by simpa using h
    split at he
    · simp at he
    · rename_i k hk
      rw [bind_eq_ok] at he
      obtain ⟨x, hx, he⟩ := he
      obtain ⟨hl, rfl⟩ := State.heldCtx_cases hx
      split at he
      · rename_i hz
        simp only [Bool.and_eq_true, Bool.not_eq_true', isSuccess, decide_eq_true_eq] at hz
        split at he
        · rename_i hd
          simp at he; obtain ⟨rfl, rfl⟩ := he
          exact .zlp k _ h hk hl hz.1.2 hd hz.1.1
        · simp at he; obtain ⟨rfl, rfl⟩ := he
          refine (WcompleteCase.done k [.usbWrite (s.epConst e).addr k 0, .diag .usbWriteSubmitFail k] h hk hl).eq ?_
          simp [writeDone, State.release, State.updEp, State.updCtx, State.emit, State.diag]; rfl
      · split at he
        · simp at he; obtain ⟨rfl, rfl⟩ := he
          refine (WcompleteCase.done k [] h hk hl).eq ?_
          simp [writeDone, State.release, State.updEp, State.updCtx]; rfl
        · simp at he; obtain ⟨rfl, rfl⟩ := he
          refine (WcompleteCase.done k [.diag .usbXferError st.toNat] h hk hl).eq ?_
          simp [writeDone, State.release, State.updEp, State.updCtx, State.emit, State.diag]; rfl

/-- Everything a read completion can leave (R197, R198). -/
inductive RcompleteCase (e : Nat) (status : Byte) (data : List Byte) (s : State) : State → Reply → Prop
  | illegal : (s.ep e).inProgress = false → RcompleteCase e status data s s ⟨.illegal, 0#16⟩
  | ok (h : Nat) : (s.ep e).inProgress = true → (s.ep e).cur = some h → h < s.ctxs.length → status = 0#8 → data.length ≤ s.cfg.ctxSize →
      RcompleteCase e status data s { s with ctxs := s.ctxs.modify h fun y => { y with buf := y.buf.storeList 0 data, size := data.length, totLen := data.length, idx := 0, state := .usbRxPending }, eps := s.eps.modify e fun y => { y with queue := y.queue ++ [h], inProgress := false, cur := none } } ⟨.ok, 0#16⟩
  | err (h : Nat) (ev : Event) : (s.ep e).inProgress = true → (s.ep e).cur = some h → h < s.ctxs.length → status ≠ 0#8 →
      RcompleteCase e status data s { s with ctxs := s.ctxs.modify h Ctx.released, eps := s.eps.modify e fun y => { y with inProgress := false, cur := none }, events := s.events ++ [ev] } ⟨.ok, 0#16⟩

theorem RcompleteCase.eq {e st d} {s t u : State} {r} (h : RcompleteCase e st d s t r) (e' : t = u) : RcompleteCase e st d s u r := e' ▸ h

theorem rcompleteBody_cases {e : Nat} {st : Byte} {d : List Byte} {s t : State} {r : Reply} (he : rcompleteBody e st d s = .ok (t, r)) : RcompleteCase e st d s t r := by
  unfold rcompleteBody at he
  split at he
  · rename_i h; simp at he; obtain ⟨rfl, rfl⟩ := he; exact .illegal (by simpa using h)
  · rename_i h
    have h : (s.ep e).inProgress = true := by simpa using h
    split at he
    · simp at he
    · rename_i k hk
      rw [bind_eq_ok] at he
      obtain ⟨x, hx, he⟩ := he
      obtain ⟨hl, rfl⟩ := State.heldCtx_cases hx
      split at he
      · rename_i hz
        rw [bind_eq_ok] at he
        obtain ⟨s1, hw, he⟩ := he
        obtain ⟨hbound, rfl⟩ := memWrite_cases hw
        simp at he; obtain ⟨rfl, rfl⟩ := he
        refine (RcompleteCase.ok k h hk hl (by simpa [isSuccess] using hz) (by simpa [State.spaceSize, hl] using hbound)).eq ?_
        simp only [readDone, State.setMem, State.updEp, State.updCtx, List.modify_modify_eq]
        congr 1
        have h1 := State.updCtx_congr (s := s) (c := k) (f := fun y => { y with buf := y.buf.storeList 0 d, size := d.length, totLen := d.length, idx := 0, state := .usbRxPending })
          (g := ((fun y : Ctx => { y with size := d.length, totLen := d.length, idx := 0, state := .usbRxPending }) ∘ (fun y : Ctx => { y with buf := (s.mem (.ctx k)).storeList 0 d }))) rfl
        simp only [State.updCtx, State.mk.injEq, true_and, and_true] at h1
        exact h1
      · rename_i hz
        simp at he; obtain ⟨rfl, rfl⟩ := he
        exact .err k (.diag .usbXferError st.toNat) h hk hl (by simpa [isSuccess] using hz)

/-- Everything one part of `UBT.PROCESS` can leave (R199). -/
inductive PartCase (p : Proc) (s : State) : State → Nat → Bool → Prop
  | noif : s.cfg.ifs[p.k]? = none → PartCase p s s p.n true
  | skip (b : Bool) (f : IfConst) : s.cfg.ifs[p.k]? = some f → ((p.part = 0 ∧ f.irq = none ∧ b = false) ∨ (p.part = 1 ∧ f.inn = none ∧ b = false) ∨ (f.out = none ∧ 2 ≤ p.part ∧ b = true)) → PartCase p s s p.n b
  | irq (f : IfConst) (e : Nat) (t : State) (r : Reply) : s.cfg.ifs[p.k]? = some f → p.part = 0 → f.irq = some e → refillTohostBody e p.drawIrq s = .ok (t, r) → PartCase p s t p.n false
  | inn (f : IfConst) (e : Nat) (t : State) (r : Reply) : s.cfg.ifs[p.k]? = some f → p.part = 1 → f.inn = some e → refillTohostBody e p.drawIn s = .ok (t, r) → PartCase p s t p.n false
  | out (f : IfConst) (e : Nat) (t : State) (r : Reply) : s.cfg.ifs[p.k]? = some f → p.part = 2 → f.out = some e → refillFromhostBody e p.drawOut s = .ok (t, r) → PartCase p s t p.n (decide (s.cfg.dispatchMax = 0))
  | disp (f : IfConst) (e : Nat) (t : State) (r : Reply) : s.cfg.ifs[p.k]? = some f → 3 ≤ p.part → f.out = some e → ubtDispatchBody e s = .ok (t, r) → r.rc ≠ .empty → PartCase p s t (p.n + 1) (decide (s.cfg.dispatchMax ≤ p.n + 1))
  | dispEmpty (f : IfConst) (e : Nat) (t : State) (r : Reply) : s.cfg.ifs[p.k]? = some f → 3 ≤ p.part → f.out = some e → ubtDispatchBody e s = .ok (t, r) → r.rc = .empty → PartCase p s t p.n true

theorem processPart_cases {p : Proc} {s t : State} {n : Nat} {b : Bool} (he : processPart p s = .ok (t, n, b)) : PartCase p s t n b := by
  unfold processPart at he
  split at he
  · rename_i h; simp at he; obtain ⟨rfl, rfl, rfl⟩ := he; exact .noif h
  · rename_i f hf
    split at he
    · rename_i hp
      rw [bind_eq_ok] at he
      obtain ⟨⟨s', r⟩, h1, he⟩ := he
      simp at he; obtain ⟨rfl, rfl, rfl⟩ := he
      unfold optRefill at h1
      split at h1
      · rename_i h2; simp at h1; obtain ⟨rfl, rfl⟩ := h1; exact .skip _ f hf (.inl ⟨hp, h2, rfl⟩)
      · rename_i e h2; exact .irq f e _ _ hf hp h2 h1
    · rename_i hp
      rw [bind_eq_ok] at he
      obtain ⟨⟨s', r⟩, h1, he⟩ := he
      simp at he; obtain ⟨rfl, rfl, rfl⟩ := he
      unfold optRefill at h1
      split at h1
      · rename_i h2; simp at h1; obtain ⟨rfl, rfl⟩ := h1; exact .skip _ f hf (.inr (.inl ⟨hp, h2, rfl⟩))
      · rename_i e h2; exact .inn f e _ _ hf hp h2 h1
    · rename_i hp
      rw [bind_eq_ok] at he
      obtain ⟨⟨s', r⟩, h1, he⟩ := he
      simp at he; obtain ⟨rfl, rfl, rfl⟩ := he
      unfold optRefill at h1
      split at h1
      · rename_i h2; simp at h1; obtain ⟨rfl, rfl⟩ := h1; exact .skip _ f hf (.inr (.inr ⟨h2, by omega, by simp [h2]⟩))
      · rename_i e h2
        have := PartCase.out f e _ _ hf hp h2 h1
        simpa [h2] using this
    · rename_i h0 h1 h2
      have hp : 3 ≤ p.part := by
        have := h0; have := h1; have := h2; simp_all; omega
      split at he
      · rename_i ho; simp at he; obtain ⟨rfl, rfl, rfl⟩ := he; exact .skip _ f hf (.inr (.inr ⟨ho, by omega, rfl⟩))
      · rename_i e ho
        rw [bind_eq_ok] at he
        obtain ⟨⟨s', r⟩, h1, he⟩ := he
        simp only at he
        split at he
        · rename_i hrc; simp at he; obtain ⟨rfl, rfl, rfl⟩ := he; exact .dispEmpty f e _ _ hf hp ho h1 hrc
        · rename_i hrc; simp at he; obtain ⟨rfl, rfl, rfl⟩ := he; exact .disp f e _ _ hf hp ho h1 hrc

theorem releaseAll_ctxs (l : List Nat) : ∀ s : State, (s.releaseAll l).ctxs = s.ctxs.mapIdx fun h x => if h ∈ l then x.released else x := by
  induction l with
  | nil => intro s; simp only [State.releaseAll]; apply List.ext_getElem? ; intro i; simp
  | cons a l ih =>
    intro s
    simp only [State.releaseAll, ih]
    apply List.ext_getElem?
    intro i
    simp only [List.getElem?_mapIdx, State.release, State.updCtx, List.getElem?_modify]
    cases s.ctxs[i]? with
    | none => rfl
    | some x =>
      simp only [Option.map_some, List.mem_cons]
      by_cases h1 : a = i
      · subst h1; simp [Ctx.released]
      · have : ¬ i = a := fun h => h1 h.symm
        simp [h1, this]

theorem releaseAll_rest (l : List Nat) : ∀ s : State, s.releaseAll l = { s with ctxs := (s.releaseAll l).ctxs } := by
  induction l with
  | nil => intro s; rfl
  | cons a l ih =>
    intro s
    simp only [State.releaseAll]
    rw [ih]; rfl

theorem drainBody_cases {e : Nat} {s t : State} {r : Reply} (he : drainBody e s = .ok (t, r)) :
   (∀ h ∈ (s.ep e).queue, h < s.ctxs.length) ∧
   t = { s with ctxs := s.ctxs.mapIdx (fun h x => if h ∈ (s.ep e).queue then x.released else x), eps := s.eps.modify e fun y => { y with queue := [] } } := by
  unfold drainBody at he
  simp only at he
  split at he
  · rename_i hq
    simp at he; obtain ⟨rfl, _⟩ := he
    refine ⟨by simpa using hq, ?_⟩
    rw [releaseAll_rest, releaseAll_ctxs]
    rfl
  · simp at he

end Sys2Proof.Machine
end

