-- ==== Sys2Proof/Laws/Exec.lean ====
section
/-! SUPPORT. What each arm of `exec` runs: the checks of R238 around the body of the operation's rule. One lemma per constructor but
`sysReset`, whose arm runs no check. -/

namespace Sys2Proof.Machine

theorem exec_rbReset (c : Byte) (s : State) :
    exec (.rbReset c) s = gate (.rbReset c) s fun s => finish s (ret (s.updRb c.toNat fun r => { r with wr := 0, rd := 0 }) .ok) := rfl

theorem exec_rbWrite (c byte : Byte) (s : State) :
    exec (.rbWrite c byte) s = gate (.rbWrite c byte) s fun s => finish s (rbWriteBody c.toNat byte s) := rfl

theorem exec_rbRead (c : Byte) (s : State) :
    exec (.rbRead c) s = gate (.rbRead c) s fun s => finish s (rbReadBody c.toNat s) := rfl

theorem exec_rbPeek (c : Byte) (s : State) :
    exec (.rbPeek c) s = gate (.rbPeek c) s fun s => finish s (rbPeekBody c.toNat s) := rfl

theorem exec_rbIsempty (c : Byte) (s : State) :
    exec (.rbIsempty c) s = gate (.rbIsempty c) s fun s => finish s (ret s .ok (val16 ((s.rb c.toNat).empty s.cfg).toNat)) := rfl

theorem exec_timRatio (clockIndex rateIndex : Byte) (s : State) :
    exec (.timRatio clockIndex rateIndex) s = gate (.timRatio clockIndex rateIndex) s fun s => finish s (timRatioBody clockIndex.toNat rateIndex.toNat s) := rfl

theorem exec_timApply (c : Byte) (ratio : Half) (s : State) :
    exec (.timApply c ratio) s = gate (.timApply c ratio) s fun s => finish s (timApplyBody c.toNat ratio s) := rfl

theorem exec_wtSetwt (c : Byte) (wtime : Half) (s : State) :
    exec (.wtSetwt c wtime) s = gate (.wtSetwt c wtime) s fun s =>
    finish s (ret (s.updWt c.toNat fun w => ({ w with wtime := wtime }).reloaded) .ok) := rfl

theorem exec_wtSetetu (c : Byte) (ticks : Half) (s : State) :
    exec (.wtSetetu c ticks) s = gate (.wtSetetu c ticks) s fun s => finish s (ret (wtSetEtu c.toNat ticks s) .ok) := rfl

theorem exec_wtTick (c : Byte) (s : State) :
    exec (.wtTick c) s = gate (.wtTick c) s fun s => finish s (wtTickBody c.toNat s) := rfl

theorem exec_poolAlloc (size : Half) (newState : BitVec 3) (s : State) :
    exec (.poolAlloc size newState) s = gate (.poolAlloc size newState) s fun s => finish s (poolAllocBody size.toNat (allocState newState) s) := rfl

theorem exec_poolFree (h : Byte) (s : State) :
    exec (.poolFree h) s = gate (.poolFree h) s fun s => finish s (poolFreeBody h.toNat s) := rfl

theorem exec_poolReport (s : State) :
    exec (.poolReport) s = gate .poolReport s fun s => finish s (ret s .ok (val16 (occupancy s.ctxs))) := rfl

theorem exec_urxIrq (c : Byte) (status : Half) (data : Byte) (s : State) :
    exec (.urxIrq c status data) s = gate (.urxIrq c status data) s fun s => finish s (urxIrqBody c.toNat status data s) := rfl

theorem exec_cemIosig (c : Byte) (signal : BitVec 2) (active : Bool) (s : State) :
    exec (.cemIosig c signal active) s = gate (.cemIosig c signal active) s fun s => finish s (cemIosigBody c.toNat (signalOf signal) active s) := rfl

theorem exec_cemTxbyte (c : Byte) (s : State) :
    exec (.cemTxbyte c) s = gate (.cemTxbyte c) s fun s => finish s (cemTxbyteBody c.toNat s) := rfl

theorem exec_cemRxbyte (c byte : Byte) (s : State) :
    exec (.cemRxbyte c byte) s = gate (.cemRxbyte c byte) s fun s => finish s (cemRxbyteBody c.toNat byte s) := rfl

theorem exec_cemPump (c : Byte) (s : State) :
    exec (.cemPump c) s = gate (.cemPump c) s fun s => finish s (cemPumpBody c.toNat s) := rfl

theorem exec_cemFidi (c fidi : Byte) (s : State) :
    exec (.cemFidi c fidi) s = gate (.cemFidi c fidi) s fun s => finish s (cemFidiBody c.toNat fidi s) := rfl

theorem exec_ubtEnq (e h : Byte) (s : State) :
    exec (.ubtEnq e h) s = gate (.ubtEnq e h) s fun s => finish s (ubtEnqBody e.toNat h.toNat s) := rfl

theorem exec_ubtRefillTohost (e : Byte) (draw : Bool) (s : State) :
    exec (.ubtRefillTohost e draw) s = gate (.ubtRefillTohost e draw) s fun s => finish s (refillTohostBody e.toNat draw s) := rfl

theorem exec_ubtWcomplete (e status : Byte) (draw : Bool) (s : State) :
    exec (.ubtWcomplete e status draw) s = gate (.ubtWcomplete e status draw) s fun s => finish s (wcompleteBody e.toNat status draw s) := rfl

theorem exec_ubtRefillFromhost (e : Byte) (draw : Bool) (s : State) :
    exec (.ubtRefillFromhost e draw) s = gate (.ubtRefillFromhost e draw) s fun s => finish s (refillFromhostBody e.toNat draw s) := rfl

theorem exec_ubtRcomplete (e status : Byte) (data : List Byte) (s : State) :
    exec (.ubtRcomplete e status data) s = gate (.ubtRcomplete e status data) s fun s => finish s (rcompleteBody e.toNat status data s) := rfl

theorem exec_ubtDispatch (e : Byte) (s : State) :
    exec (.ubtDispatch e) s = gate (.ubtDispatch e) s fun s => finish s (ubtDispatchBody e.toNat s) := rfl

theorem exec_ubtProcess (k : Byte) (drawIrq drawIn drawOut : Bool) (s : State) :
    exec (.ubtProcess k drawIrq drawIn drawOut) s = gate (.ubtProcess k drawIrq drawIn drawOut) s fun s =>
    processRun (processFuel s) ⟨k.toNat, drawIrq, drawIn, drawOut, 0, 0, 0#8⟩ s := rfl

theorem exec_ubtDrain (e : Byte) (s : State) :
    exec (.ubtDrain e) s = gate (.ubtDrain e) s fun s =>
    if (s.ep e.toNat).inProgress then .next { s with mainOp := some (.drain e.toNat) } else drainEnd e.toNat s := rfl

end Sys2Proof.Machine
end

