-- ==== Sys2Proof/Laws/Frame.lean ====
section
/-! SUPPORT. What every rule body leaves alone: the parameters, the halt, the port, the answer, the main-context operation in progress,
the lengths of the lists; and that it only appends to the event history. One lemma per body and internal procedure. -/

namespace Sys2Proof.Machine

/-- What a rule body leaves alone between the state before and the state after. -/
structure Frame (s t : State) : Prop where
  cfg : t.cfg = s.cfg
  halted : t.halted = s.halted
  haltCode : t.haltCode = s.haltCode
  era : t.era = s.era
  port : t.port = s.port
  preempt : t.preempt = s.preempt
  mainOp : t.mainOp = s.mainOp
  resp : t.resp = s.resp
  events : s.events <+: t.events
  l1 : t.chans.length = s.chans.length
  l2 : t.ctxs.length = s.ctxs.length
  l3 : t.eps.length = s.eps.length

theorem Frame.refl (s) : Frame s s := ⟨rfl, rfl, rfl, rfl, rfl, rfl, rfl, rfl, List.prefix_rfl, rfl, rfl, rfl⟩

theorem Frame.trans {s t u} (h : Frame s t) (k : Frame t u) : Frame s u :=
  ⟨k.cfg.trans h.cfg, k.halted.trans h.halted, k.haltCode.trans h.haltCode, k.era.trans h.era, k.port.trans h.port, k.preempt.trans h.preempt, k.mainOp.trans h.mainOp, k.resp.trans h.resp, h.events.trans k.events, k.l1.trans h.l1, k.l2.trans h.l2, k.l3.trans h.l3⟩

theorem Frame.chan (s c f) : Frame s (s.updChan c f) := ⟨rfl, rfl, rfl, rfl, rfl, rfl, rfl, rfl, List.prefix_rfl, by simp, rfl, rfl⟩

theorem Frame.cem (s c f) : Frame s (s.updCem c f) := Frame.chan _ _ _

theorem Frame.rb (s c f) : Frame s (s.updRb c f) := Frame.chan _ _ _

theorem Frame.uart (s c f) : Frame s (s.updUart c f) := Frame.chan _ _ _

theorem Frame.wt (s c f) : Frame s (s.updWt c f) := Frame.chan _ _ _

theorem Frame.ctx (s c f) : Frame s (s.updCtx c f) := ⟨rfl, rfl, rfl, rfl, rfl, rfl, rfl, rfl, List.prefix_rfl, rfl, by simp, rfl⟩

theorem Frame.ep (s c f) : Frame s (s.updEp c f) := ⟨rfl, rfl, rfl, rfl, rfl, rfl, rfl, rfl, List.prefix_rfl, rfl, rfl, by simp⟩

theorem Frame.emit (s ev) : Frame s (s.emit ev) := ⟨rfl, rfl, rfl, rfl, rfl, rfl, rfl, rfl, List.prefix_append _ _, rfl, rfl, rfl⟩

theorem Frame.diag (s a b) : Frame s (s.diag a b) := Frame.emit _ _

theorem Frame.release (s h) : Frame s (s.release h) := Frame.ctx _ _ _

theorem Frame.setMem (s sp m) : Frame s (s.setMem sp m) := by cases sp <;> first | exact Frame.chan _ _ _ | exact Frame.ctx _ _ _ | exact Frame.refl _

theorem Frame.memWrite {s sp a bs t} (h : memWrite s sp a bs = .ok t) : Frame s t := by obtain ⟨_, rfl⟩ := memWrite_cases h; exact Frame.setMem _ _ _

theorem Frame.alloc (s n st) : Frame s (s.alloc n st).1 := by
  rcases State.alloc_cases s n st with ⟨_, h⟩ | ⟨_, k, _, h⟩ <;> rw [h]
  · exact Frame.diag _ _ _
  · exact Frame.ctx _ _ _

/-- A body that returns leaves these alone. -/
def FrameBody (s : State) (b : Body) : Prop := ∀ u r, b = .ok (u, r) → Frame s u

theorem FrameBody.ret {s t rc v} (h : Frame s t) : FrameBody s (ret t rc v) := by intro u r hb; simp at hb; obtain ⟨rfl, _⟩ := hb; exact h

theorem FrameBody.err {s e} : FrameBody s (.error e) := by intro u r hb; simp at hb

theorem FrameBody.bind {α : Type} {s} {x : Except Stop α} {f : α → Body} (h : ∀ a, x = .ok a → FrameBody s (f a)) : FrameBody s (x >>= f) := by
  intro u r hb; rw [bind_eq_ok] at hb; obtain ⟨a, h1, h2⟩ := hb; exact h a h1 u r h2

theorem FrameBody.bindB {s} {x : Body} {f : State × Reply → Body} (hx : FrameBody s x) (h : ∀ u r, x = .ok (u, r) → Frame s u → FrameBody s (f (u, r))) : FrameBody s (x >>= f) := by
  refine FrameBody.bind ?_; rintro ⟨u, r⟩ h1; exact h u r h1 (hx u r h1)

theorem FrameBody.ite {s} {c : Prop} [Decidable c] {a b : Body} (h1 : c → FrameBody s a) (h2 : ¬c → FrameBody s b) : FrameBody s (if c then a else b) := by
  split
  · exact h1 ‹_›
  · exact h2 ‹_›

theorem FrameBody.mono {s t b} (h : Frame s t) (hb : FrameBody t b) : FrameBody s b := fun u r e => h.trans (hb u r e)

theorem frame_rbWriteBody (c b s) : FrameBody s (rbWriteBody c b s) := by
  unfold rbWriteBody
  refine .ite (fun _ => .ret (.diag _ _ _)) fun _ => .bind fun t ht => .ret ((Frame.memWrite ht).trans (.rb _ _ _))

theorem frame_rbReadBody (c s) : FrameBody s (rbReadBody c s) := by
  unfold rbReadBody
  exact .ite (fun _ => .ret (.refl _)) fun _ => .bind fun t ht => .ret (.rb _ _ _)

theorem frame_rbPeekBody (c s) : FrameBody s (rbPeekBody c s) := by
  unfold rbPeekBody
  exact .ite (fun _ => .ret (.refl _)) fun _ => .bind fun t ht => .ret (.refl _)

theorem frame_timRatioBody (a b s) : FrameBody s (timRatioBody a b s) := by
  unfold timRatioBody; split <;> exact .ret (.refl _)

theorem frame_applyRatio (c r s) : Frame s (applyRatio c r s) := by
  unfold applyRatio unlockStep
  simp only
  split
  · exact ((((((((Frame.uart _ _ _).trans (.emit _ _)).trans (.emit _ _)).trans (.uart _ _ _)).trans (.emit _ _)).trans (.uart _ _ _)).trans (.emit _ _)).trans (.emit _ _))
  · exact (((((((Frame.uart _ _ _).trans (.emit _ _)).trans (.uart _ _ _)).trans (.emit _ _)).trans (.uart _ _ _)).trans (.emit _ _)).trans (.emit _ _))

theorem frame_timApplyBody (a b s) : FrameBody s (timApplyBody a b s) := by
  unfold timApplyBody
  exact .ite (fun _ => .ret (.diag _ _ _)) fun _ => .ret (frame_applyRatio _ _ _)

theorem frame_urxIrqBody (c st d s) : FrameBody s (urxIrqBody c st d s) := by
  unfold urxIrqBody
  simp only
  have h2 : Frame s ((s.updChan c fun x => { x with stat := 0#16 }).updChan c fun x => { x with stat := x.stat ||| errorBits st }) := (Frame.chan _ _ _).trans (.chan _ _ _)
  exact .ite (fun _ => .mono h2 (frame_rbWriteBody _ _ _)) fun _ => .ret (h2.trans (.diag _ _ _))

theorem frame_clearExchange (c s) : Frame s (clearExchange c s) := (Frame.cem _ _ _).trans (.wt _ _ _)

theorem frame_enterIdle (c s) : Frame s (enterIdle c s) := (frame_clearExchange c s).trans (.cem _ _ _)

theorem frame_enterPb (c s) : Frame s (enterPb c s) := (Frame.cem _ _ _).trans (.wt _ _ _)

theorem frame_cemIosigBody (c sig a s) : FrameBody s (cemIosigBody c sig a s) := by
  unfold cemIosigBody
  refine .ite (fun _ => .ret (.refl _)) fun _ => ?_
  simp only
  have h1 : Frame s (s.updCem c fun x => x.setLevel sig a) := .cem _ _ _
  split
  · exact .ret (h1.trans (.cem _ _ _))
  · exact .ret (h1.trans (.cem _ _ _))
  · exact .ret h1
  · unfold rstActive
    simp only
    refine .ite (fun _ => ?_) fun _ => .ret (h1.trans ((frame_clearExchange _ _).trans (.cem _ _ _)))
    refine .bindB (.mono (h1.trans ((frame_clearExchange _ _).trans (.cem _ _ _))) (frame_timApplyBody _ _ _)) fun u r _ hu => .ret (hu.trans (.wt _ _ _))
  · exact .ret (h1.trans ((frame_clearExchange _ _).trans (.cem _ _ _)))
  · exact .ret (h1.trans (.cem _ _ _))

theorem frame_txFinish (c s) : Frame s (txFinish c s) := by
  unfold txFinish
  simp only
  have h1 : Frame s (s.updCem c fun x => { x with txLen := 0, txIdx := 0 }) := .cem _ _ _
  split
  · exact h1.trans (frame_enterIdle _ _)
  · split
    · exact h1.trans (frame_enterPb _ _)
    · exact h1.trans (.cem _ _ _)

theorem frame_txNullOr (c s b) (h : FrameBody s b) : FrameBody s (txNullOr c s b) := by
  unfold txNullOr
  exact .ite (fun _ => .ret ((Frame.cem _ _ _).trans (.wt _ _ _))) fun _ => h

theorem frame_cemTxbyteBody (c s) : FrameBody s (cemTxbyteBody c s) := by
  unfold cemTxbyteBody
  split
  · unfold txAtr
    refine .bind fun b hb => ?_
    simp only
    refine .ret ?_
    split
    · exact (Frame.cem _ _ _).trans (frame_enterIdle _ _)
    · exact .cem _ _ _
  · exact frame_txNullOr _ _ _ (.ret (.refl _))
  · split
    · refine frame_txNullOr _ _ _ ?_
      unfold txQueued
      refine .bind fun b hb => ?_
      simp only
      refine .ret ?_
      split
      · exact (Frame.cem _ _ _).trans (frame_txFinish _ _)
      · exact .cem _ _ _
    · exact .ret (.refl _)
  · exact .ret (.refl _)

theorem frame_ubtEnqBody (e h s) : FrameBody s (ubtEnqBody e h s) := by
  unfold ubtEnqBody
  exact .ite (fun _ => .err) fun _ => .ite (fun _ => .err) fun _ => .ret ((Frame.ctx _ _ _).trans (.ep _ _ _))

theorem frame_cemSend (c f b s) : FrameBody s (cemSend c f b s) := by
  unfold cemSend
  split
  · exact .ret (.diag _ _ _)
  · rename_i e _
    have := Frame.alloc s (5 + b.length) .uartTxPending
    split
    · rename_i s1 h1; rw [h1] at this; exact .ret this
    · rename_i s1 h h1; rw [h1] at this
      refine .bind fun s2 h2 => ?_
      have h2 := this.trans (.memWrite h2)
      exact .bindB (.mono ((h2.trans (.ctx _ _ _)).trans (.cem _ _ _)) (frame_ubtEnqBody _ _ _)) fun u r _ hu => .ret hu

theorem frame_afterSend (c s b) (h : FrameBody s b) : FrameBody s (afterSend c b) := by
  unfold afterSend
  refine .bindB h fun u r _ hu => ?_
  exact .ite (fun _ => .ret (hu.trans (frame_enterPb _ _))) fun _ => .ret (hu.trans (frame_enterIdle _ _))

theorem frame_cemRxbyteBody (c b s) : FrameBody s (cemRxbyteBody c b s) := by
  unfold cemRxbyteBody
  split
  · unfold rxHeader
    refine .ite (fun _ => .ret (.refl _)) fun _ => .bind fun s1 h1 => ?_
    have h1 := Frame.memWrite h1
    simp only
    refine .ite (fun _ => .ret (h1.trans (.cem _ _ _))) fun _ => .bind fun a _ => .bind fun a2 _ => ?_
    exact frame_afterSend _ _ _ (.mono ((h1.trans (.cem _ _ _)).trans (.cem _ _ _)) (frame_cemSend _ _ _ _))
  · split
    · unfold rxData
      refine .ite (fun _ => .err) fun _ => .bind fun s1 h1 => ?_
      have h1 := Frame.memWrite h1
      simp only
      refine .ite (fun _ => .ret (h1.trans (.cem _ _ _))) fun _ => .bind fun a _ => ?_
      exact frame_afterSend _ _ _ (.mono (h1.trans (.cem _ _ _)) (frame_cemSend _ _ _ _))
    · exact .ret (.diag _ _ _)
  · exact .ret (.diag _ _ _)

theorem frame_cemPumpBody (c s) : FrameBody s (cemPumpBody c s) := by
  unfold cemPumpBody
  refine .ite (fun _ => .ret (.refl _)) fun _ => .bind fun b hb => .bindB (frame_cemRxbyteBody _ _ _) fun u r _ hu => ?_
  exact .ite (fun _ => .ret (.refl _)) fun _ => .ret (hu.trans (.rb _ _ _))

theorem frame_cemFidiBody (c b s) : FrameBody s (cemFidiBody c b s) := by
  unfold cemFidiBody
  split
  · exact .ret (.diag _ _ _)
  · exact .bindB (frame_timApplyBody _ _ _) fun u r _ hu => .ret (hu.trans (.wt _ _ _))

theorem frame_wtTickBody (c s) : FrameBody s (wtTickBody c s) := by
  unfold wtTickBody
  simp only
  exact .ite (fun _ => .ret (.refl _)) fun _ => .ite (fun _ => .err) fun _ => .ite (fun _ => .ret (.wt _ _ _)) fun _ => .ret (((Frame.cem _ _ _).trans (.diag _ _ _)).trans (.wt _ _ _))

theorem frame_poolAllocBody (n st s) : FrameBody s (poolAllocBody n st s) := by
  unfold poolAllocBody
  have := Frame.alloc s n st
  split
  · rename_i h; rw [h] at this; exact .ret this
  · rename_i h; rw [h] at this; exact .ret this

theorem frame_poolFreeBody (h s) : FrameBody s (poolFreeBody h s) := by
  unfold poolFreeBody
  exact .ite (fun _ => .err) fun _ => .ite (fun _ => .err) fun _ => .ite (fun _ => .err) fun _ => .ret (.release _ _)

theorem frame_refillTohostBody (e d s) : FrameBody s (refillTohostBody e d s) := by
  intro u r hb
  cases refillTohostBody_cases hb
  · exact .refl _
  · exact ⟨rfl, rfl, rfl, rfl, rfl, rfl, rfl, rfl, List.prefix_append _ _, by simp, by simp, by simp⟩
  · exact ⟨rfl, rfl, rfl, rfl, rfl, rfl, rfl, rfl, List.prefix_append _ _, by simp, by simp, by simp⟩

theorem frame_refillFromhostBody (e d s) : FrameBody s (refillFromhostBody e d s) := by
  intro u r hb
  cases refillFromhostBody_cases hb
  · exact .refl _
  · exact .diag _ _ _
  · exact ⟨rfl, rfl, rfl, rfl, rfl, rfl, rfl, rfl, List.prefix_append _ _, by simp, by simp, by simp⟩
  · exact ⟨rfl, rfl, rfl, rfl, rfl, rfl, rfl, rfl, List.prefix_append _ _, by simp, by simp, by simp⟩

theorem frame_wcompleteBody (e a d s) : FrameBody s (wcompleteBody e a d s) := by
  intro u r hb
  cases wcompleteBody_cases hb
  · exact .refl _
  · exact ⟨rfl, rfl, rfl, rfl, rfl, rfl, rfl, rfl, List.prefix_append _ _, by simp, by simp, by simp⟩
  · exact ⟨rfl, rfl, rfl, rfl, rfl, rfl, rfl, rfl, List.prefix_append _ _, by simp, by simp, by simp⟩

theorem frame_rcompleteBody (e a d s) : FrameBody s (rcompleteBody e a d s) := by
  intro u r hb
  cases rcompleteBody_cases hb
  · exact .refl _
  · exact ⟨rfl, rfl, rfl, rfl, rfl, rfl, rfl, rfl, List.prefix_rfl, by simp, by simp, by simp⟩
  · exact ⟨rfl, rfl, rfl, rfl, rfl, rfl, rfl, rfl, List.prefix_append _ _, by simp, by simp, by simp⟩

theorem frame_ubtDispatchBody (e s) : FrameBody s (ubtDispatchBody e s) := by
  intro u r hb
  cases ubtDispatchBody_cases hb
  · exact .refl _
  · exact ⟨rfl, rfl, rfl, rfl, rfl, rfl, rfl, rfl, List.prefix_append _ _, by simp, by simp, by simp⟩
  · exact ⟨rfl, rfl, rfl, rfl, rfl, rfl, rfl, rfl, List.prefix_rfl, by simp, by simp, by simp⟩

theorem frame_drainBody (e s) : FrameBody s (drainBody e s) := by
  intro u r hb
  obtain ⟨_, rfl⟩ := drainBody_cases hb
  exact ⟨rfl, rfl, rfl, rfl, rfl, rfl, rfl, rfl, List.prefix_rfl, by simp, by simp, by simp⟩

theorem frame_processPart {p s t n b} (h : PartCase p s t n b) : Frame s t := by
  cases h with
  | noif => exact .refl _
  | skip => exact .refl _
  | irq f e t r h1 h2 h3 h4 => exact frame_refillTohostBody _ _ _ _ _ h4
  | inn f e t r h1 h2 h3 h4 => exact frame_refillTohostBody _ _ _ _ _ h4
  | out f e t r h1 h2 h3 h4 => exact frame_refillFromhostBody _ _ _ _ _ h4
  | disp f e t r h1 h2 h3 h4 => exact frame_ubtDispatchBody _ _ _ _ h4
  | dispEmpty f e t r h1 h2 h3 h4 => exact frame_ubtDispatchBody _ _ _ _ h4

/-- The rule body of each operation that is one body (all but `SYS.RESET`, `UBT.PROCESS` and `UBT.DRAIN`). -/
def bodyOf : Instr → Option (State → Body)
  | .sysReset => none
  | .rbReset c => some fun s => ret (s.updRb c.toNat fun r => { r with wr := 0, rd := 0 }) .ok
  | .rbWrite c b => some (rbWriteBody c.toNat b)
  | .rbRead c => some (rbReadBody c.toNat)
  | .rbPeek c => some (rbPeekBody c.toNat)
  | .rbIsempty c => some fun s => ret s .ok (val16 ((s.rb c.toNat).empty s.cfg).toNat)
  | .timRatio a b => some (timRatioBody a.toNat b.toNat)
  | .timApply c r => some (timApplyBody c.toNat r)
  | .urxIrq c st d => some (urxIrqBody c.toNat st d)
  | .cemIosig c sig a => some (cemIosigBody c.toNat (signalOf sig) a)
  | .cemTxbyte c => some (cemTxbyteBody c.toNat)
  | .cemRxbyte c b => some (cemRxbyteBody c.toNat b)
  | .cemFidi c b => some (cemFidiBody c.toNat b)
  | .cemPump c => some (cemPumpBody c.toNat)
  | .wtSetwt c w => some fun s => ret (s.updWt c.toNat fun x => ({ x with wtime := w }).reloaded) .ok
  | .wtSetetu c w => some fun s => ret (wtSetEtu c.toNat w s) .ok
  | .wtTick c => some (wtTickBody c.toNat)
  | .poolAlloc n st => some (poolAllocBody n.toNat (allocState st))
  | .poolFree h => some (poolFreeBody h.toNat)
  | .poolReport => some fun s => ret s .ok (val16 (occupancy s.ctxs))
  | .ubtEnq e h => some (ubtEnqBody e.toNat h.toNat)
  | .ubtRefillTohost e d => some (refillTohostBody e.toNat d)
  | .ubtWcomplete e st d => some (wcompleteBody e.toNat st d)
  | .ubtRefillFromhost e d => some (refillFromhostBody e.toNat d)
  | .ubtRcomplete e st d => some (rcompleteBody e.toNat st d)
  | .ubtProcess _ _ _ _ => none
  | .ubtDrain _ => none
  | .ubtDispatch e => some (ubtDispatchBody e.toNat)

theorem exec_body {i : Instr} {b : State → Body} (h : bodyOf i = some b) (s : State) : exec i s = gate i s fun s => finish s (b s) := by
  cases i <;> simp only [bodyOf, Option.some.injEq, reduceCtorEq] at h <;> subst h <;> rfl

theorem frame_body {i : Instr} {b : State → Body} (h : bodyOf i = some b) (s : State) : FrameBody s (b s) := by
  cases i <;> simp only [bodyOf, Option.some.injEq, reduceCtorEq] at h <;> subst h
  · exact .ret (.rb _ _ _)
  · exact frame_rbWriteBody _ _ _
  · exact frame_rbReadBody _ _
  · exact frame_rbPeekBody _ _
  · exact .ret (.refl _)
  · exact frame_timRatioBody _ _ _
  · exact frame_timApplyBody _ _ _
  · exact frame_urxIrqBody _ _ _ _
  · exact frame_cemIosigBody _ _ _ _
  · exact frame_cemTxbyteBody _ _
  · exact frame_cemRxbyteBody _ _ _
  · exact frame_cemFidiBody _ _ _
  · exact frame_cemPumpBody _ _
  · exact .ret (.wt _ _ _)
  · exact .ret (.wt _ _ _)
  · exact frame_wtTickBody _ _
  · exact frame_poolAllocBody _ _ _
  · exact frame_poolFreeBody _ _
  · exact .ret (.refl _)
  · exact frame_ubtEnqBody _ _ _
  · exact frame_refillTohostBody _ _ _
  · exact frame_wcompleteBody _ _ _ _
  · exact frame_refillFromhostBody _ _ _
  · exact frame_rcompleteBody _ _ _ _
  · exact frame_ubtDispatchBody _ _

theorem plain_next {i : Instr} {b : State → Body} (h : bodyOf i = some b) {s t : State} (he : exec i s = .next t) :
   (∃ r, t = { s with resp := r }) ∨ (i.wellFormed s.cfg = true ∧ s.halted = false ∧ ((∃ u r a, b s = .ok (u, r) ∧ Frame s u ∧ t = u.answer r.rc a r.val) ∨ ∃ k, b s = .error (.fatal k) ∧ t = s.raiseFatal k)) := by
  rw [exec_body h] at he
  rcases gate_next he with ⟨_, rfl⟩ | ⟨_, rfl⟩ | ⟨h1, h2, h3⟩
  · exact .inl ⟨_, rfl⟩
  · exact .inl ⟨_, rfl⟩
  · refine .inr ⟨h1, h2, ?_⟩
    rcases finish_next h3 with ⟨u, r, h4, rfl⟩ | ⟨k, h4, rfl⟩
    · exact .inl ⟨u, r, _, h4, frame_body h s u r h4, rfl⟩
    · exact .inr ⟨k, h4, rfl⟩

end Sys2Proof.Machine
end

