-- ==== Sys2Proof/Laws/PerInstr.lean ====
section
/-! SUPPORT. Statements about every operation as syntax, one lemma per constructor. -/

namespace Sys2Proof.Laws.LegalIsEncodable

/-- R75, R72: a request that is legal under well-formed parameters fits its command word: the only operand that a field could be too
narrow for, the data of `UBT.RCOMPLETE`, is at most `CTX_SIZE` bytes long, which is below 2^16. -/
def Statement (i : Instr) : Prop := ∀ p : Config, p.wellFormed = true → i.wellFormed p = true → i.encodable = true

theorem sysReset : Statement .sysReset := fun _ _ _ => rfl

theorem rbReset (c : Byte) : Statement (.rbReset c) := fun _ _ _ => rfl

theorem rbWrite (c : Byte) (b : Byte) : Statement (.rbWrite c b) := fun _ _ _ => rfl

theorem rbRead (c : Byte) : Statement (.rbRead c) := fun _ _ _ => rfl

theorem rbPeek (c : Byte) : Statement (.rbPeek c) := fun _ _ _ => rfl

theorem rbIsempty (c : Byte) : Statement (.rbIsempty c) := fun _ _ _ => rfl

theorem timRatio (ci : Byte) (ri : Byte) : Statement (.timRatio ci ri) := fun _ _ _ => rfl

theorem timApply (c : Byte) (r : Half) : Statement (.timApply c r) := fun _ _ _ => rfl

theorem urxIrq (c : Byte) (st : Half) (d : Byte) : Statement (.urxIrq c st d) := fun _ _ _ => rfl

theorem cemIosig (c : Byte) (sig : BitVec 2) (act : Bool) : Statement (.cemIosig c sig act) := fun _ _ _ => rfl

theorem cemTxbyte (c : Byte) : Statement (.cemTxbyte c) := fun _ _ _ => rfl

theorem cemRxbyte (c : Byte) (b : Byte) : Statement (.cemRxbyte c b) := fun _ _ _ => rfl

theorem cemFidi (c : Byte) (x : Byte) : Statement (.cemFidi c x) := fun _ _ _ => rfl

theorem cemPump (c : Byte) : Statement (.cemPump c) := fun _ _ _ => rfl

theorem wtSetwt (c : Byte) (v : Half) : Statement (.wtSetwt c v) := fun _ _ _ => rfl

theorem wtSetetu (c : Byte) (v : Half) : Statement (.wtSetetu c v) := fun _ _ _ => rfl

theorem wtTick (c : Byte) : Statement (.wtTick c) := fun _ _ _ => rfl

theorem poolAlloc (n : Half) (st : BitVec 3) : Statement (.poolAlloc n st) := fun _ _ _ => rfl

theorem poolFree (h : Byte) : Statement (.poolFree h) := fun _ _ _ => rfl

theorem poolReport : Statement .poolReport := fun _ _ _ => rfl

theorem ubtEnq (e : Byte) (h : Byte) : Statement (.ubtEnq e h) := fun _ _ _ => rfl

theorem ubtRefillTohost (e : Byte) (d : Bool) : Statement (.ubtRefillTohost e d) := fun _ _ _ => rfl

theorem ubtWcomplete (e : Byte) (st : Byte) (d : Bool) : Statement (.ubtWcomplete e st d) := fun _ _ _ => rfl

theorem ubtRefillFromhost (e : Byte) (d : Bool) : Statement (.ubtRefillFromhost e d) := fun _ _ _ => rfl

theorem ubtRcomplete (e : Byte) (st : Byte) (data : List Byte) : Statement (.ubtRcomplete e st data) := by
  intro p hp hi
  simp only [Config.wellFormed, Bool.and_eq_true, decide_eq_true_eq] at hp
  simp only [Instr.wellFormed, Bool.and_eq_true, decide_eq_true_eq] at hi
  simp only [Instr.encodable, decide_eq_true_eq]
  omega

theorem ubtProcess (k : Byte) (d0 : Bool) (d1 : Bool) (d2 : Bool) : Statement (.ubtProcess k d0 d1 d2) := fun _ _ _ => rfl

theorem ubtDrain (e : Byte) : Statement (.ubtDrain e) := fun _ _ _ => rfl

theorem ubtDispatch (e : Byte) : Statement (.ubtDispatch e) := fun _ _ _ => rfl

end Sys2Proof.Laws.LegalIsEncodable
end

