-- ==== Sys2Proof/Laws/Process.lean ====
section
/-! SUPPORT. The step that goes on with an operation in progress, what `UBT.PROCESS` does part by part, and the induction over its parts,
packaged once. -/

namespace Sys2Proof.Machine

/-! ### No part of `UBT.PROCESS` raises the fatal halt (R231, R237) -/

/-- The computation does not end in the fatal halt. -/
abbrev NotFatal {α : Type} (x : Except Stop α) : Prop := ∀ k, x ≠ .error (.fatal k)

theorem NotFatal.ok {α : Type} (a : α) : NotFatal (.ok a : Except Stop α) := fun _ h => nomatch h

theorem NotFatal.ret (s : State) (rc : RC) (v : Half) : NotFatal (ret s rc v) := NotFatal.ok _

theorem NotFatal.fault {α : Type} (f : Fault) : NotFatal (.error (.fault f) : Except Stop α) := fun _ h => nomatch h

theorem NotFatal.ite {α : Type} {c : Prop} [Decidable c] {x y : Except Stop α} (hx : c → NotFatal x) (hy : ¬c → NotFatal y) :
    NotFatal (if c then x else y) := by
  split
  · exact hx ‹_›
  · exact hy ‹_›

theorem NotFatal.bind {α β : Type} {x : Except Stop α} {f : α → Except Stop β} (hx : NotFatal x) (hf : ∀ a, x = .ok a → NotFatal (f a)) :
    NotFatal (x >>= f) := by
  cases x with
  | ok a => exact hf a rfl
  | error e => intro k h; exact hx k (by simpa [Bind.bind, Except.bind] using h)

theorem heldCtx_notFatal (s : State) (h : Nat) : NotFatal (s.heldCtx h) := .ite (fun _ => .ok _) fun _ => .fault _

theorem memRead_notFatal (s : State) (sp : Space) (a n : Nat) : NotFatal (memRead s sp a n) := .ite (fun _ => .ok _) fun _ => .fault _

theorem memRead1_notFatal (s : State) (sp : Space) (a : Nat) : NotFatal (memRead1 s sp a) := .ite (fun _ => .ok _) fun _ => .fault _

theorem memWrite_notFatal (s : State) (sp : Space) (a : Nat) (bs : List Byte) : NotFatal (memWrite s sp a bs) :=
  .ite (fun _ => .ok _) fun _ => .fault _

theorem cemHostmsg_notFatal (c : Nat) (flags : Byte) (data : List Byte) (s : State) : NotFatal (cemHostmsg c flags data s) :=
  .ite (fun _ => .ret _ _ _) fun _ => .bind (memWrite_notFatal _ _ _ _) fun _ _ => .ret _ _ _

theorem msgCheck_notFatal (c h : Nat) (s : State) : NotFatal (msgCheck c h s) :=
  .bind (heldCtx_notFatal _ _) fun _ _ => .ite (fun _ => .ret _ _ _) fun _ =>
    .bind (memRead1_notFatal _ _ _) fun _ _ => .bind (memRead1_notFatal _ _ _) fun _ _ => .bind (memRead1_notFatal _ _ _) fun _ _ =>
      .ite (fun _ => .ret _ _ _) fun _ => .ite (fun _ => .ret _ _ _) fun _ => .ite (fun _ => .ret _ _ _) fun _ =>
        .bind (memRead1_notFatal _ _ _) fun _ _ =>
          .ite (fun _ => .bind (memRead_notFatal _ _ _ _) fun _ _ => cemHostmsg_notFatal _ _ _ _) fun _ => .ret _ _ _

theorem refillTohostBody_notFatal (e : Nat) (draw : Bool) (s : State) : NotFatal (refillTohostBody e draw s) := by
  unfold refillTohostBody
  refine .ite (fun _ => .ret _ _ _) fun _ => ?_
  split
  · exact .ret _ _ _
  · exact .bind (heldCtx_notFatal _ _) fun _ _ => .ite (fun _ => .ret _ _ _) fun _ => .ret _ _ _

theorem refillFromhostBody_notFatal (e : Nat) (draw : Bool) (s : State) : NotFatal (refillFromhostBody e draw s) := by
  unfold refillFromhostBody
  refine .ite (fun _ => .ret _ _ _) fun _ => ?_
  split
  · exact .ret _ _ _
  · exact .ite (fun _ => .ret _ _ _) fun _ => .ret _ _ _

theorem ubtDispatchBody_notFatal (e : Nat) (s : State) : NotFatal (ubtDispatchBody e s) := by
  unfold ubtDispatchBody
  split
  · exact .ret _ _ _
  · refine .bind (heldCtx_notFatal _ _) fun _ _ => ?_
    dsimp only
    split
    · exact .bind (.ret _ _ _) fun _ _ => .ret _ _ _
    · exact .bind (msgCheck_notFatal _ _ _) fun _ _ => .ret _ _ _

theorem optRefill_notFatal {e : Option Nat} {body : Nat → Body} {s : State} (h : ∀ e, NotFatal (body e)) : NotFatal (optRefill e body s) := by
  cases e with
  | none => exact .ret _ _ _
  | some e => exact h e

theorem processPart_notFatal (p : Proc) (s : State) : NotFatal (processPart p s) := by
  unfold processPart
  split
  · exact .ok _
  · split
    · exact .bind (optRefill_notFatal fun e => refillTohostBody_notFatal e _ s) fun _ _ => .ok _
    · exact .bind (optRefill_notFatal fun e => refillTohostBody_notFatal e _ s) fun _ _ => .ok _
    · exact .bind (optRefill_notFatal fun e => refillFromhostBody_notFatal e _ s) fun _ _ => .ok _
    · split
      · exact .ok _
      · exact .bind (ubtDispatchBody_notFatal _ _) fun _ _ => .ite (fun _ => .ok _) fun _ => .ok _

/-! ### The parts in a row (R199) -/

/-- The progress after one more part, which led from `s` to `t` and left `n` contexts dispatched. -/
def Proc.next (p : Proc) (s t : State) (n : Nat) : Proc := { p with part := p.part + 1, n := n, aux := partAux p.aux s t }

/-- How a run of parts that answers a next state began: its first part led to `u`, and the run ended there, stopped at the boundary after
it, or went on past it. -/
inductive RunCase (fuel : Nat) (p : Proc) (s : State) : State → Prop
  | last (u : State) (n : Nat) : PartCase p s u n true → RunCase fuel p s (processDone (p.next s u n).aux n u)
  | stop (u : State) (n : Nat) : PartCase p s u n false → u.preempted = true →
      RunCase fuel p s { u with mainOp := some (.process (p.next s u n)) }
  | more (u : State) (n : Nat) (t : State) : PartCase p s u n false → u.preempted = false →
      processRun fuel (p.next s u n) u.passBoundary = .next t → RunCase fuel p s t

theorem processRun_cases {fuel : Nat} {p : Proc} {s t : State} (h : processRun (fuel + 1) p s = .next t) : RunCase fuel p s t := by
  unfold processRun at h
  split at h
  · rename_i k hk; exact absurd hk (processPart_notFatal p s k)
  · exact nomatch h
  · rename_i u n ends hu
    have hpart := processPart_cases hu
    cases ends with
    | true =>
      obtain rfl : processDone _ n u = t := by simpa using h
      exact .last u n hpart
    | false =>
      simp only [Bool.false_eq_true, if_false] at h
      split at h
      · rename_i hpre
        obtain rfl : ({ u with mainOp := _ } : State) = t := by simpa using h
        exact .stop u n hpart hpre
      · rename_i hpre
        exact .more u n t hpart (by simpa using hpre) h

/-- What holds before a run of parts, and outlasts a part, a boundary passed, the answer and the record of the operation, holds after. -/
theorem processRun_keeps {P : State → Prop} (part : ∀ p s t n ends, P s → PartCase p s t n ends → P t)
    (pass : ∀ s, P s → P s.passBoundary) (record : ∀ s m, P s → P { s with mainOp := m })
    (answer : ∀ s rc aux val, P s → P (s.answer rc aux val)) :
    ∀ (fuel : Nat) (p : Proc) (s t : State), P s → processRun fuel p s = .next t → P t
  | 0, p, s, t, hs, h => by
    obtain rfl : processDone p.aux p.n s = t := by simpa [processRun] using h
    exact answer _ _ _ _ (record _ _ hs)
  | fuel + 1, p, s, t, hs, h => by
    cases processRun_cases h with
    | last u n hu => exact answer _ _ _ _ (record _ _ (part _ _ _ _ _ hs hu))
    | stop u n hu _ => exact record _ _ (part _ _ _ _ _ hs hu)
    | more u n _ hu _ hrest => exact processRun_keeps part pass record answer fuel _ _ t (pass _ (part _ _ _ _ _ hs hu)) hrest

/-- The same for a suspended operation that goes on, on a halted core too (R232). -/
theorem processResume_keeps {P : State → Prop} (part : ∀ p s t n ends, P s → PartCase p s t n ends → P t)
    (pass : ∀ s, P s → P s.passBoundary) (record : ∀ s m, P s → P { s with mainOp := m })
    (answer : ∀ s rc aux val, P s → P (s.answer rc aux val)) {p : Proc} {s t : State} (hs : P s) (h : processResume p s = .next t) :
    P t := by
  unfold processResume at h
  split at h
  · obtain rfl : ({ s with mainOp := none } : State).answerHalted = t := by simpa using h
    exact answer _ _ _ _ (record _ _ hs)
  · exact processRun_keeps part pass record answer _ _ _ _ hs h

/-! ### The step that goes on with an operation in progress -/

theorem step_process {s : State} {p : Proc} (hm : s.mainOp = some (.process p)) :
    step s = if s.preempted then takeRequest s.passBoundary else processResume p s.passBoundary := by
  simp only [step, cycle, hm]

theorem step_drain {s : State} {e : Nat} (hm : s.mainOp = some (.drain e)) :
    step s = if s.halted || !(s.ep e).inProgress then drainEnd e s else if s.irqPresented then takeRequest s else .next s := by
  simp only [step, cycle, hm]

/-- The three ways in which operation `i` leads from `s` to `t`. -/
theorem runs_cases {i : Instr} {s t : State} (h : Runs i s t) :
    exec i s = .next t ∨
      (∃ (p : Proc) (k : Byte), s.mainOp = some (.process p) ∧ s.preempted = false ∧ p.k = k.toNat ∧
        i = .ubtProcess k p.drawIrq p.drawIn p.drawOut ∧ processResume p s.passBoundary = .next t) ∨
      ∃ e : Byte, s.mainOp = some (.drain e.toNat) ∧ (s.halted = true ∨ (s.ep e.toNat).inProgress = false) ∧ i = .ubtDrain e ∧
        drainEnd e.toNat s = .next t := by
  obtain h | ⟨hm, hg, hs⟩ := h
  · exact .inl h
  · right
    cases hop : s.mainOp with
    | none => simp [hop] at hm
    | some m =>
      cases m with
      | process p =>
        left
        have hpre : s.preempted = false := by simpa [State.goesOn, hop] using hg
        cases i <;> simp [hop, MainOp.isRestOf] at hm
        rename_i k a b d
        obtain ⟨hk, rfl, rfl, rfl⟩ := hm
        exact ⟨p, k, rfl, hpre, hk, rfl, by simpa [step_process hop, hpre] using hs⟩
      | drain e =>
        right
        cases i <;> simp [hop, MainOp.isRestOf] at hm
        rename_i d
        subst hm
        have hend : (s.halted || !(s.ep d.toNat).inProgress) = true := by simpa [State.goesOn, hop] using hg
        refine ⟨d, rfl, by simpa using hend, rfl, ?_⟩
        rw [step_drain hop, if_pos hend] at hs
        exact hs

end Sys2Proof.Machine
end

