-- ==== Sys2Proof/Tests/Slice0.lean ====
section
/-! SUPPORT. Tests: ill-formed terms that the checks refuse; command words written out from spec/ (the encodings of 95_test_vectors) with
what they decode to; single steps with the results of 95_test_vectors; and for every statement with hypotheses, states and operands that
meet them together, clause by clause. -/

set_option Elab.async false
set_option synthInstance.maxSize 2000
set_option synthInstance.maxHeartbeats 400000

namespace Sys2Proof.Tests

open Sys2Proof Sys2Proof.Machine

/-! ### Helpers -/

/-- The operation answers a next state of which `f` holds. -/
def after (i : Instr) (s : State) (f : State → Bool) : Bool :=
  match exec i s with
  | .next t => f t
  | _ => false

/-- The step answers a next state of which `f` holds. -/
def stepsTo (s : State) (f : State → Bool) : Bool :=
  match step s with
  | .next t => f t
  | _ => false

theorem after_iff (i : Instr) (s : State) (f : State → Bool) : after i s f = true ↔ ∃ t, exec i s = .next t ∧ f t = true := by
  unfold after
  cases exec i s <;> simp

theorem stepsTo_iff (s : State) (f : State → Bool) : stepsTo s f = true ↔ ∃ t, step s = .next t ∧ f t = true := by
  unfold stepsTo
  cases step s <;> simp

/-- The operation that a list of words decodes to, if it does. -/
def dec (ws : List PortWord) : Option Instr := (decode ws).toOption

/-- The response of the operation, and the events it emitted. -/
def gives (i : Instr) (s : State) (rc : RC) (aux : Byte) (val : Half) (evs : List Event) : Bool :=
  after i s fun t => decide (t.resp = ⟨rc, aux, val⟩ ∧ t.events = s.events ++ evs)

/-- The core after reset under other parameters. -/
def on (p : Config) : State := State.resetWith p

/-- A core with small buffers. -/
def smallRings : Config := { Config.default with rbCap := 2, rbUsable := 2 }

/-- A core with one context. -/
def oneCtx : Config := { Config.default with poolN := 1 }

/-- The engine of channel 0 in a state, powered and clocked. -/
def engine (st : CemState) (f : Cem → Cem := id) (s : State := State.reset) : State :=
  s.updCem 0 fun x => f { x with vcc := true, clk := true, state := st }

/-- The engine idle with `n` header bytes received. -/
def idleWith (n : Nat) (s : State := State.reset) : State :=
  engine .idle (fun x => { x with hdrN := n, hdr := [(0, 0xA0#8), (1, 0xA4#8), (2, 0#8), (3, 0#8)].take n }) s

/-- The engine owing a procedure byte, its timer running with `r` ticks left, `left` data bytes expected. -/
def owing (r : Nat := 3571200) (left : Nat := 2) (s : State := State.reset) : State :=
  (engine .procedureByte (fun x => { x with hdrN := 5, rxLeft := left }) s).updWt 0 fun w => { w with armed := true, remaining := r }

/-- The engine with host bytes 0x9F and 0x17 queued, the first `k` of them out. -/
def sending (k : Nat) (cont : Cont := .tx) (left : Nat := 2) (s : State := State.reset) : State :=
  engine .dataExchange (fun x => { x with
    hdrN := 5, txbuf := [(0, 0x9F#8), (1, 0x17#8)], txLen := 2, txIdx := k, dir := .tx, cont := cont, rxLeft := left }) s

/-- The engine receiving a data field: `n` bytes there, `left` to come. -/
def receiving (n left : Nat) (s : State := State.reset) : State :=
  engine .dataExchange (fun x => { x with
    hdrN := 5, dir := .rx, cont := .rx, rxN := n, rxLeft := left, rxbuf := [(0, 0x3F#8)].take n }) s

/-- Context 0 queued on endpoint 0 with 10 bytes. -/
def queuedIn (s : State := State.reset) : State :=
  (s.updCtx 0 fun y => { y with state := .usbTxPending, size := 10, totLen := 10, owner := some 0 }).updEp 0 fun y =>
    { y with queue := [0] }

/-- A write of context 0 in flight on endpoint 0, `n` bytes long. -/
def writing (n : Nat := 10) (z : Bool := false) (s : State := State.reset) : State :=
  (s.updCtx 0 fun y => { y with state := .usbTxBusy, size := n, totLen := n, owner := some 0 }).updEp 0 fun y =>
    { y with inProgress := true, cur := some 0, zlp := z }

/-- A read into context 0 in flight on endpoint 1. -/
def reading (s : State := State.reset) : State :=
  (s.updCtx 0 fun y => { y with state := .usbRxBusy, owner := some 1 }).updEp 1 fun y =>
    { y with inProgress := true, cur := some 0 }

/-- Context 0 queued on endpoint 1 with the bytes of a host message. -/
def received (bytes : List Byte) (s : State := State.reset) : State :=
  (s.updCtx 0 fun y => { y with
    state := .usbRxPending, size := bytes.length, totLen := bytes.length, owner := some 1
    buf := bytes.zipIdx.map fun x => (x.2, x.1) }).updEp 1 fun y => { y with queue := [0] }

/-- Every context taken by the software that allocated it. -/
def noneFree (s : State := State.reset) : State :=
  { s with ctxs := s.ctxs.map fun y => { y with state := .uartTxPending } }

/-- `s` with requests presented. -/
def presenting (ws : List PortWord) (s : State := State.reset) : State := { s with port := ws }

/-- `s` halted by a double free. -/
def halted (s : State := State.reset) : State := { s with halted := true, haltCode := 0xF0#8 }

/-- `s` with a `UBT.PROCESS` of interface 0 suspended after `part` parts, `n` contexts dispatched. -/
def suspended (part n : Nat) (s : State := State.reset) (aux : Byte := 0#8) : State :=
  { s with mainOp := some (.process ⟨0, true, true, true, part, n, aux⟩) }

/-- `s` with a `UBT.DRAIN` of endpoint 0 held. -/
def held (s : State) : State := { s with mainOp := some (.drain 0) }

/-- The step goes on with the rest of operation `i`, from a state of the invariant, and `f` holds of the state it leads to. -/
def goesOnTo (i : Instr) (s : State) (f : State → Bool) : Bool :=
  decide (CoreInv s) && s.mainOp.any (·.isRestOf i) && s.goesOn && stepsTo s f

/-- A host message of one byte, 0xA4, to be followed by the reader's data. -/
def hostByte : List Byte := [0x01#8, 0#8, 0x02#8, 0#8, 0x04#8, 0xA4#8]

/-! ### Ill-formed terms -/

theorem test_wellFormed_default : Config.default.wellFormed = true := by decide

theorem test_wellFormed_refuses_sizes :
    ([{ Config.default with nChan := 0 }, { Config.default with rbCap := 1, rbUsable := 1 },
      { Config.default with rbCap := 3, rbUsable := 3 }, { Config.default with rbUsable := 1022 },
      { Config.default with poolN := 0 }, { Config.default with poolN := 17 }, { Config.default with ctxSize := 263 },
      { Config.default with ctxSize := 65536 }, { Config.default with rxbufCap := 254 }].all fun p => !p.wellFormed) = true := by
  decide +kernel

theorem test_wellFormed_refuses_tables :
    ([{ Config.default with fiTable := defaultFiTable.drop 1 }, { Config.default with diTable := defaultDiTable.drop 1 },
      { Config.default with atr := [] }, { Config.default with atr := List.replicate 34 0#8 },
      { Config.default with ratioBase := 0 }, { Config.default with ratioMin := 0 },
      { Config.default with ratioMin := 2048 }, { Config.default with ratioMax := 65536 },
      { Config.default with ratioReset := 2048 }, { Config.default with ratioMin := 373 }].all fun p => !p.wellFormed) = true := by
  decide +kernel

theorem test_wellFormed_refuses_endpoints :
    ([{ Config.default with eps := [] }, { Config.default with eps := List.replicate 17 ⟨0x82#8, .toHost, 64⟩ },
      { Config.default with eps := [⟨0x82#8, .toHost, 0⟩, ⟨0x01#8, .fromHost, 64⟩, ⟨0x83#8, .toHost, 64⟩] },
      { Config.default with ifs := [] }, { Config.default with ifs := [⟨some 1, some 0, some 1, 0⟩] },
      { Config.default with ifs := [⟨some 2, some 1, some 1, 0⟩] }, { Config.default with ifs := [⟨some 2, some 0, some 2, 0⟩] },
      { Config.default with ifs := [⟨some 3, some 0, some 1, 0⟩] }, { Config.default with ifs := [⟨some 2, some 0, some 1, 1⟩] },
      { Config.default with ifs := [⟨some 0, some 0, some 1, 0⟩] },
      { Config.default with ifs := [⟨some 2, none, some 1, 0⟩, ⟨none, some 0, none, 0⟩] }].all fun p => !p.wellFormed) = true := by
  decide +kernel

theorem test_wellFormed_refuses_channels :
    ([.rbReset 1#8, .rbWrite 1#8 0#8, .rbRead 1#8, .rbPeek 1#8, .rbIsempty 1#8, .timApply 1#8 372#16, .urxIrq 1#8 0#16 0#8,
      .cemIosig 1#8 0#2 true, .cemTxbyte 1#8, .cemRxbyte 1#8 0#8, .cemFidi 1#8 0x11#8, .cemPump 1#8, .wtSetwt 1#8 0#16,
      .wtSetetu 1#8 0#16, .wtTick 1#8].all fun i : Instr => !i.wellFormed Config.default) = true := by decide +kernel

theorem test_wellFormed_refuses_operands :
    ([.cemIosig 0#8 3#2 true, .poolAlloc 0#16 0#3, .poolAlloc 0#16 2#3, .poolAlloc 0#16 7#3, .ubtEnq 1#8 0#8, .ubtEnq 3#8 0#8,
      .ubtRefillTohost 1#8 true, .ubtWcomplete 1#8 0#8 true, .ubtRefillFromhost 0#8 true, .ubtRcomplete 0#8 0#8 [],
      .ubtRcomplete 1#8 0#8 (List.replicate 321 0#8), .ubtProcess 1#8 false false false, .ubtDrain 3#8,
      .ubtDispatch 0#8].all fun i : Instr => !i.wellFormed Config.default) = true := by decide +kernel

theorem test_encodable_refuses : (Instr.ubtRcomplete 1#8 0#8 (List.replicate 65536 0#8)).encodable = false := by
  show decide ((List.replicate 65536 0#8).length < 65536) = false
  rw [List.length_replicate]
  decide

/-! ### Words of the spec (the encoding columns of 95_test_vectors; R72 where no vector gives one) -/

theorem test_decode_sys_rb :
    dec [0x0100000000000000#64] = some .sysReset ∧ dec [0x1000000000000000#64] = some (.rbReset 0#8) ∧
    dec [0x110000A100000000#64] = some (.rbWrite 0#8 0xA1#8) ∧ dec [0x1200000000000000#64] = some (.rbRead 0#8) ∧
    dec [0x1300000000000000#64] = some (.rbPeek 0#8) ∧ dec [0x1400000000000000#64] = some (.rbIsempty 0#8) := by decide +kernel

theorem test_decode_tim_urx :
    dec [0x20000001000A0000#64] = some (.timRatio 1#8 10#8) ∧ dec [0x210007FF00000000#64] = some (.timApply 0#8 2047#16) ∧
    dec [0x3000FA1F00400000#64] = some (.urxIrq 0#8 0xFA1F#16 0x40#8) := by decide +kernel

theorem test_decode_cem :
    dec [0x4000000200010000#64] = some (.cemIosig 0#8 2#2 true) ∧ dec [0x4000000100000000#64] = some (.cemIosig 0#8 1#2 false) ∧
    dec [0x4100000000000000#64] = some (.cemTxbyte 0#8) ∧ dec [0x420000A400000000#64] = some (.cemRxbyte 0#8 0xA4#8) ∧
    dec [0x4300009400000000#64] = some (.cemFidi 0#8 0x94#8) ∧ dec [0x4400000000000000#64] = some (.cemPump 0#8) := by
  decide +kernel

theorem test_decode_wt_pool :
    dec [0x5000000400000000#64] = some (.wtSetwt 0#8 4#16) ∧ dec [0x5100000300000000#64] = some (.wtSetetu 0#8 3#16) ∧
    dec [0x5200000000000000#64] = some (.wtTick 0#8) ∧ dec [0x6000014000010000#64] = some (.poolAlloc 320#16 1#3) ∧
    dec [0x61FF000000000000#64] = some (.poolFree 255#8) ∧ dec [0x6200000000000000#64] = some .poolReport := by decide +kernel

theorem test_decode_ubt :
    dec [0x7000000900000000#64] = some (.ubtEnq 0#8 9#8) ∧ dec [0x7102000100000000#64] = some (.ubtRefillTohost 2#8 true) ∧
    dec [0x7200000300010000#64] = some (.ubtWcomplete 0#8 3#8 true) ∧
    dec [0x7301000000000000#64] = some (.ubtRefillFromhost 1#8 false) ∧
    dec [0x74010000000B0000#64, 0x3322110200070001#64, 0x0000000000665544#64] =
      some (.ubtRcomplete 1#8 0#8 [0x01#8, 0#8, 0x07#8, 0#8, 0x02#8, 0x11#8, 0x22#8, 0x33#8, 0x44#8, 0x55#8, 0x66#8]) ∧
    dec [0x7500000400000000#64] = some (.ubtProcess 0#8 false false true) ∧ dec [0x7603000000000000#64] = some (.ubtDrain 3#8) ∧
    dec [0x7701000000000000#64] = some (.ubtDispatch 1#8) := by decide +kernel

/-- The words of 95_test_vectors 2.6 and 2.9 that are no request. -/
theorem test_decode_refuses :
    ([[0x0000000000000000#64], [0x0200000000000000#64], [0x1500000000000000#64], [0x8000000000000000#64], [0x1200000000000001#64],
      [0x1200000100000000#64], [0x2001000100010000#64], [0x1100010000000000#64],
      [0x74010000000A0000#64, 0x3322110200070001#64, 0x0000000000FF5544#64]].all fun ws => (dec ws).isNone) = true := by
  decide +kernel

/-- The table's numbering of the bits: the first word is bits 63..0, a data word follows. -/
theorem test_decodeTableWord :
    decodeTableWord 64 0x110000A100000000 = some (.rbWrite 0#8 0xA1#8) ∧
    decodeTableWord 128 (0x7401000000060000 + 0x0000A40400020001 * 2 ^ 64) =
      some (.ubtRcomplete 1#8 0#8 [0x01#8, 0x00#8, 0x02#8, 0x00#8, 0x04#8, 0xA4#8]) ∧
    decodeTableWord 64 0 = none := by decide +kernel

theorem test_withFetchWord_runs :
    stepsTo (State.reset.withFetchWord 64 0x110000A100000000) (fun t => decide (t.rb 0 = ⟨[(0, 0xA1#8)], 1, 0⟩)) = true := by
  decide +kernel

/-! ### Single steps (95_test_vectors) -/

theorem test_sysReset_clears_halt : after .sysReset (halted noneFree) (fun t => decide (t.halted = false ∧ (t.ctx 0).state = .free ∧
    t.resp = ⟨.ok, 0#8, 0#16⟩)) = true := by decide +kernel

theorem test_rbReset : after (.rbReset 0#8) (State.reset.updRb 0 fun r => { r with wr := 7, rd := 5 }) (fun t =>
    decide ((t.rb 0).wr = 0 ∧ (t.rb 0).rd = 0)) = true := by decide +kernel

theorem test_rbWrite_wraps : after (.rbWrite 0#8 0xA6#8) ((on smallRings).updRb 0 fun r => { r with wr := 3, rd := 2 }) (fun t =>
    decide (t.rb 0 = ⟨[(1, 0xA6#8)], 0, 2⟩)) = true := by decide +kernel

theorem test_rbWrite_full : gives (.rbWrite 0#8 0xA5#8) ((on smallRings).updRb 0 fun r => { r with wr := 2 }) .full 0x01#8 0#16
    [.diag .rbOverrun 0xA5] = true := by decide +kernel

theorem test_rbRead : after (.rbRead 0#8) (State.reset.updRb 0 fun _ => ⟨[(0, 0xA1#8)], 1, 0⟩) (fun t =>
    decide (t.resp = ⟨.ok, 0#8, 0xA1#16⟩ ∧ (t.rb 0).rd = 1)) = true := by decide +kernel

theorem test_rbPeek : after (.rbPeek 0#8) (State.reset.updRb 0 fun _ => ⟨[(0, 0xA1#8)], 1, 0⟩) (fun t =>
    decide (t.resp = ⟨.ok, 0#8, 0xA1#16⟩ ∧ (t.rb 0).rd = 0)) = true := by decide +kernel

theorem test_rbIsempty : gives (.rbIsempty 0#8) State.reset .ok 0#8 1#16 [] = true := by decide +kernel

theorem test_timRatio_truncates : gives (.timRatio 1#8 9#8) State.reset .ok 0#8 18#16 [] = true := by decide +kernel

theorem test_timRatio_multiplies_first : gives (.timRatio 1#8 9#8) (on { Config.default with ratioBase := 2 }) .ok 0#8 37#16 [] = true := by
  decide +kernel

theorem test_timApply_unlocks : gives (.timApply 0#8 372#16) (on { Config.default with uartHasWprot := true }) .ok 0#8 0#16
    [.uartCtl 0 .rxdis, .uartCtl 0 .wpunlock, .uartCtl 0 (.fidi 372#16), .uartCtl 0 .rxen, .uartCtl 0 .sttto] = true := by
  decide +kernel

theorem test_timApply_out_of_range : gives (.timApply 0#8 2048#16) State.reset .unsupported 0x04#8 0#16
    [.diag .fidiUnsupported 0x800] = true := by decide +kernel

theorem test_urxIrq_error_bit : gives (.urxIrq 0#8 0x0400#16 0x3F#8) State.reset .discarded 0x02#8 0#16
    [.diag .uartRxError 0x400] = true := by decide +kernel

theorem test_urxIrq_other_bits : after (.urxIrq 0#8 0xFA1F#16 0x40#8) State.reset (fun t =>
    decide (t.resp = ⟨.ok, 0#8, 0#16⟩ ∧ t.rb 0 = ⟨[(0, 0x40#8)], 1, 0⟩)) = true := by decide +kernel

theorem test_cemIosig_vcc_off : after (.cemIosig 0#8 0#2 false) owing (fun t =>
    decide ((t.cem 0).state = .poweredOff ∧ (t.cem 0).hdrN = 0 ∧ (t.wt 0).armed = false)) = true := by decide +kernel

theorem test_cemIosig_release : after (.cemIosig 0#8 2#2 false) (engine .inReset fun x => { x with rst := true, clk := false })
    (fun t => decide ((t.cem 0).state = .poweredOff)) = true := by decide +kernel

theorem test_cemTxbyte_last_atr : after (.cemTxbyte 0#8) (engine .atrTx fun x => { x with atrIdx := 3 }) (fun t =>
    decide (t.resp = ⟨.ok, 0#8, 0x50#16⟩ ∧ (t.cem 0).state = .idle)) = true := by decide +kernel

theorem test_cemTxbyte_null_first : after (.cemTxbyte 0#8) (engine .dataExchange (fun x => { x with nullPending := true }) (sending 0))
    (fun t => decide (t.resp = ⟨.ok, 0#8, 0x60#16⟩ ∧ (t.cem 0).txIdx = 0)) = true := by decide +kernel

theorem test_cemRxbyte_header : after (.cemRxbyte 0#8 0x02#8) (idleWith 4) (fun t =>
    decide ((t.ctx 0).buf.map Prod.snd = [0x81#8, 0#8, 0x06#8, 0#8, 0x01#8, 0xA0#8, 0xA4#8, 0#8, 0#8, 0x02#8] ∧
      (t.ctx 0).state = .usbTxPending ∧ (t.ep 0).queue = [0] ∧ (t.wt 0).remaining = 3571200)) = true := by decide +kernel

theorem test_cemRxbyte_data : after (.cemRxbyte 0#8 0x00#8) (receiving 1 1) (fun t =>
    decide ((t.ctx 0).buf.map Prod.snd = [0x81#8, 0#8, 0x03#8, 0#8, 0#8, 0x3F#8, 0#8] ∧
      (t.cem 0).state = .procedureByte ∧ (t.cem 0).seq = 1#8)) = true := by decide +kernel

theorem test_cemFidi : after (.cemFidi 0#8 0x94#8) State.reset (fun t =>
    decide (t.resp = ⟨.ok, 0#8, 64#16⟩ ∧ (t.uart 0).fidi = 64#16 ∧ (t.wt 0).etu = 64#16)) = true := by decide +kernel

theorem test_cemPump_keeps_unmodelled : after (.cemPump 0#8) ((idleWith 0).updRb 0 fun _ => ⟨[(0, 0xFF#8)], 1, 0⟩) (fun t =>
    decide (t.resp = ⟨.unmodelled, 0#8, 0#16⟩ ∧ (t.rb 0).rd = 0)) = true := by decide +kernel

theorem test_wtSetwt_reloads : after (.wtSetwt 0#8 2#16) (owing 1) (fun t => decide ((t.wt 0).remaining = 744)) = true := by
  decide +kernel

theorem test_wtSetetu_zero_disarms : after (.wtSetetu 0#8 0#16) (owing 1) (fun t =>
    decide ((t.wt 0).armed = false ∧ (t.wt 0).remaining = 0)) = true := by decide +kernel

theorem test_wtTick_expires : gives (.wtTick 0#8) (owing 1) .ok 0x0C#8 1#16 [.diag .wtxSent 0] = true := by decide +kernel

theorem test_poolAlloc_too_large : gives (.poolAlloc 321#16 3#3) State.reset .oom 0x03#8 0#16 [.diag .poolOom 0x141] = true := by
  decide +kernel

theorem test_poolFree_double : gives (.poolFree 0#8) State.reset .halted 0xF0#8 0#16 [.halt .doubleFree] = true := by decide +kernel

theorem test_poolReport : gives .poolReport (noneFree (on { Config.default with poolN := 2 })) .ok 0#8 3#16 [] = true := by decide +kernel

theorem test_ubtEnq_twice : gives (.ubtEnq 2#8 0#8) queuedIn .halted 0xF2#8 0#16 [.halt .queueCorrupt] = true := by decide +kernel

theorem test_ubtRefillTohost_refused : gives (.ubtRefillTohost 0#8 false) queuedIn .fail 0x07#8 0#16
    [.usbWrite 0x82#8 0 10, .diag .usbWriteSubmitFail 0] = true := by decide +kernel

theorem test_ubtWcomplete_zero_length : gives (.ubtWcomplete 0#8 0#8 false) (writing 0) .ok 0x07#8 0#16
    [.usbWrite 0x82#8 0 0, .diag .usbWriteSubmitFail 0] = true := by decide +kernel

theorem test_ubtRefillFromhost : gives (.ubtRefillFromhost 1#8 true) queuedIn .ok 0#8 1#16 [.usbRead 0x01#8 1 320] = true := by
  decide +kernel

theorem test_ubtRcomplete : after (.ubtRcomplete 1#8 0#8 [0x01#8, 0#8]) reading (fun t =>
    decide ((t.ctx 0).buf = [(0, 0x01#8), (1, 0#8)] ∧ (t.ctx 0).size = 2 ∧ (t.ep 1).queue = [0] ∧
      (t.ep 1).inProgress = false)) = true := by decide +kernel

theorem test_ubtProcess : gives (.ubtProcess 0#8 true true true) (received [0x01#8, 0#8, 0#8, 0#8]) .ok 0x05#8 1#16
    [.usbRead 0x01#8 1 320, .diag .msgMalformed 4] = true := by decide +kernel

theorem test_ubtDrain : gives (.ubtDrain 0#8) queuedIn .ok 0#8 1#16 [] = true := by decide +kernel

theorem test_ubtDispatch_accepts : after (.ubtDispatch 1#8) (received hostByte owing) (fun t =>
    decide ((t.cem 0).txbuf = [(0, 0xA4#8)] ∧ (t.cem 0).cont = .rx ∧ (t.cem 0).state = .dataExchange ∧
      (t.ctx 0).state = .free)) = true := by decide +kernel

theorem test_ubtDispatch_type_before_length : gives (.ubtDispatch 1#8) (received [0x81#8, 0#8, 0x02#8, 0#8, 0x04#8, 0xA4#8]) .discarded 0x06#8
    0#16 [.diag .msgUnknownType 0x81] = true := by decide +kernel

/-! ### Witnesses: states and operands that meet the hypotheses of each statement, clause by clause -/

theorem witness_DecodeOfEncode :
    (Instr.ubtRcomplete 1#8 0#8 (List.replicate 65535 0#8)).encodable = true ∧ (Instr.ubtRcomplete 1#8 0#8 []).encodable = true ∧
      (Instr.rbRead 0#8).encodable = true := by
  refine ⟨?_, rfl, rfl⟩
  show decide ((List.replicate 65535 0#8).length < 65536) = true
  rw [List.length_replicate]
  decide

theorem witness_EncodeOfDecode :
    decode [0x6000014000010000#64] = .ok (.poolAlloc 320#16 1#3) := rfl

theorem witness_SplitRequestOfEncode :
    (Instr.ubtRcomplete 1#8 0#8 [1#8, 2#8, 3#8, 4#8, 5#8, 6#8, 7#8, 8#8, 9#8]).encodable = true := rfl

theorem witness_UnassignedOpcodesRejected :
    (0x1500000000000000#64).extractLsb' 56 8 ∉ [0x01#8, 0x10#8, 0x11#8, 0x12#8, 0x13#8, 0x14#8, 0x20#8, 0x21#8, 0x30#8,
      0x40#8, 0x41#8, 0x42#8, 0x43#8, 0x44#8, 0x50#8, 0x51#8, 0x52#8, 0x60#8, 0x61#8, 0x62#8, 0x70#8, 0x71#8, 0x72#8, 0x73#8, 0x74#8,
      0x75#8, 0x76#8, 0x77#8] := by decide +kernel

theorem witness_StepRunsDecodedRequest_words :
    let s := presenting [0x1200000000000000#64]
    s.mainOp = none ∧ splitRequest s.port = some ([0x1200000000000000#64], []) ∧ decode [0x1200000000000000#64] = .ok (.rbRead 0#8) := ⟨rfl, rfl, rfl⟩

theorem witness_StepRunsDecodedRequest_encoding :
    let s := presenting [0x1200000000000000#64, 0x0100000000000000#64]
    s.mainOp = none ∧ (Instr.rbRead 0#8).encodable = true ∧ s.port = encode (.rbRead 0#8) ++ [0x0100000000000000#64] := by decide +kernel

theorem witness_StepWithoutOperation :
    let s := presenting [0#64]
    (s.mainOp = none ∧ splitRequest s.port = some ([0#64], []) ∧ decode [0#64] = .error .reservedOpcode) ∧
      State.reset.mainOp = none ∧ State.reset.port = [] := ⟨⟨rfl, rfl, rfl⟩, rfl, rfl⟩

theorem witness_OrderOfChecks :
    (Instr.poolAlloc 10#16 2#3).wellFormed halted.cfg = false ∧
      ((Instr.poolAlloc 10#16 3#3).wellFormed halted.cfg = true ∧ halted.halted = true ∧ Instr.poolAlloc 10#16 3#3 ≠ .sysReset) ∧
      State.reset.halted = false ∧ (State.reset.ep 0).inProgress = false := by decide +kernel

theorem witness_EveryConfigurationStartsSafe :
    smallRings.wellFormed = true ∧ oneCtx.wellFormed = true := by decide +kernel

theorem witness_ParametersFixedHistoryGrows :
    stepsTo (presenting [0x5200000000000000#64] (owing 1)) (fun t => decide (t.events ≠ [])) = true := by decide +kernel

/-- For `StepKeepsChannels`, `StepKeepsInvariant` and `EveryStepCompletes`: an expiry of the timer. -/
theorem witness_StepKeepsInvariant_channels :
    CoreInv (presenting [0x5200000000000000#64] (owing 1)) ∧
      stepsTo (presenting [0x5200000000000000#64] (owing 1)) (fun t => decide (t.cem 0 ≠ (owing 1).cem 0)) = true := by decide +kernel

/-- For `StepKeepsTransport`, `StepKeepsInvariant` and `EveryStepCompletes`: a submission. -/
theorem witness_StepKeepsInvariant_transport :
    CoreInv (presenting [0x7100000100000000#64] queuedIn) ∧
      stepsTo (presenting [0x7100000100000000#64] queuedIn) (fun t => decide ((t.ep 0).cur = some 0)) = true := by decide +kernel

theorem witness_HaltIsPreciseAndOnlyAtThePort :
    CoreInv queuedIn ∧ queuedIn.halted = false ∧ after (.poolFree 0#8) queuedIn (fun t => t.halted) = true ∧
      after (.poolFree 8#8) queuedIn (fun t => t.halted) = true ∧ after (.ubtEnq 0#8 0#8) queuedIn (fun t => t.halted) = true := by decide +kernel

/-- For the second clause of `HaltIsPreciseAndOnlyAtThePort`. -/
theorem witness_HaltIsPrecise_rest :
    (suspended 3 0 (received hostByte owing)).halted = false ∧ (held queuedIn).halted = false ∧
      goesOnTo (.ubtProcess 0#8 true true true) (suspended 3 0 (received hostByte owing)) (fun _ => true) = true ∧
      goesOnTo (.ubtDrain 0#8) (held queuedIn) (fun _ => true) = true := by decide +kernel

theorem witness_OnlyResetLeavesTheHalt :
    let s := presenting [0x1100005500000000#64] halted
    let r := presenting [0x0100000000000000#64] halted
    (s.halted = true ∧ stepsTo s (fun t => t.halted) = true) ∧ r.halted = true ∧ stepsTo r (fun t => !t.halted) = true := by decide +kernel

theorem witness_EngineStateFollowsTheTable_requests :
    let moves : State → Instr → Bool := fun s i =>
      decide (CoreInv s) && decide (0 < s.cfg.nChan) && after i s fun t => decide ((t.cem 0).state ≠ (s.cem 0).state)
    (moves (engine .poweredOff fun x => { x with clk := false }) (.cemIosig 0#8 1#2 true) &&
      moves (engine .clockActive) (.cemIosig 0#8 2#2 true) && moves owing (.cemIosig 0#8 0#2 false) &&
      moves (engine .inReset fun x => { x with rst := true }) (.cemIosig 0#8 2#2 false) &&
      moves (engine .atrTx fun x => { x with atrIdx := 3 }) (.cemTxbyte 0#8) && moves (sending 1) (.cemTxbyte 0#8) &&
      moves (sending 1 .rx 0) (.cemTxbyte 0#8) && moves (idleWith 4) (.cemRxbyte 0#8 2#8) && moves (receiving 1 1) (.cemRxbyte 0#8 0#8) &&
      moves ((receiving 1 1).updRb 0 fun _ => ⟨[(0, 7#8)], 1, 0⟩) (.cemPump 0#8) &&
      moves (received hostByte owing) (.ubtDispatch 1#8) &&
      moves (received hostByte owing) (.ubtProcess 0#8 true true true) &&
      moves owing .sysReset) = true := by decide +kernel

theorem witness_EngineStateFollowsTheTable_suspended :
    let s := suspended 3 0 (received hostByte owing)
    CoreInv s ∧ 0 < s.cfg.nChan ∧ s.mainOp = some (.process ⟨0, true, true, true, 3, 0, 0#8⟩) ∧ s.preempted = false ∧
      stepsTo s (fun t => decide ((t.cem 0).state ≠ (s.cem 0).state)) = true := by decide +kernel

theorem witness_ContextStatesFollowTransitions :
    let moves : State → Instr → Bool := fun s i =>
      decide (CoreInv s) && decide (0 < s.cfg.poolN) && after i s fun t => decide ((t.ctx 0).state ≠ (s.ctx 0).state)
    (moves noneFree .sysReset && moves State.reset (.poolAlloc 320#16 1#3) && moves State.reset (.poolAlloc 0#16 3#3) &&
      moves noneFree (.poolFree 0#8) && moves (idleWith 4) (.cemRxbyte 0#8 2#8) &&
      moves ((receiving 1 1).updRb 0 fun _ => ⟨[(0, 7#8)], 1, 0⟩) (.cemPump 0#8) && moves noneFree (.ubtEnq 0#8 0#8) &&
      moves queuedIn (.ubtRefillTohost 0#8 true) && moves (writing 10) (.ubtWcomplete 0#8 0#8 true) &&
      moves State.reset (.ubtRefillFromhost 1#8 true) && moves reading (.ubtRcomplete 1#8 0#8 [1#8]) &&
      moves reading (.ubtRcomplete 1#8 5#8 []) && moves (received [1#8]) (.ubtDispatch 1#8) && moves queuedIn (.ubtDrain 0#8) &&
      moves queuedIn (.ubtProcess 0#8 true true true)) = true := by decide +kernel

theorem witness_ContextStatesFollowTransitions_rest :
    let moves : Instr → State → Bool := fun i s => goesOnTo i s fun t => decide ((t.ctx 0).state ≠ (s.ctx 0).state)
    (moves (.ubtProcess 0#8 true true true) (suspended 1 0 queuedIn) && moves (.ubtProcess 0#8 true true true) (suspended 2 0) &&
      moves (.ubtProcess 0#8 true true true) (suspended 3 0 (received hostByte owing)) && moves (.ubtDrain 0#8) (held queuedIn)) = true := by
  decide +kernel

theorem witness_BytesOutsideTheStoreKept_rest :
    let s := suspended 3 0 (received hostByte owing)
    s.cfg.wellFormed = true ∧ goesOnTo (.ubtProcess 0#8 true true true) s (fun t => decide (t.mem (.txbuf 0) ≠ s.mem (.txbuf 0))) = true ∧
      mayStore (.ubtProcess 0#8 true true true) s (.txbuf 0) 314 = true ∧ mayStore (.ubtProcess 0#8 true true true) s (.ctx 0) 0 = false ∧
      goesOnTo (.ubtDrain 0#8) (held queuedIn) (fun _ => true) = true ∧ mayStore (.ubtDrain 0#8) (held queuedIn) (.ctx 0) 0 = false := by
  decide +kernel

theorem witness_BytesOutsideTheStoreKept :
    State.reset.cfg.wellFormed = true ∧ after (.rbWrite 0#8 1#8) State.reset (fun _ => true) = true ∧
      mayStore (.rbWrite 0#8 1#8) State.reset (.rb 0) 1 = false ∧ mayStore (.rbWrite 0#8 1#8) State.reset (.rb 0) 0 = true ∧
      mayStore (.cemRxbyte 0#8 2#8) (idleWith 4) (.ctx 0) 10 = false ∧ mayStore (.cemRxbyte 0#8 2#8) (idleWith 4) (.ctx 0) 9 = true := by decide +kernel

theorem witness_RegistersWrittenOnlyByTheirOperations :
    let ring := State.reset.updRb 0 fun _ => ⟨[(0, 7#8)], 1, 0⟩
    (after (.timApply 0#8 64#16) State.reset (fun t => decide (t.uart 0 ≠ State.reset.uart 0)) &&
      after (.wtSetwt 0#8 1#16) State.reset (fun t => decide ((t.wt 0).wtime ≠ (State.reset.wt 0).wtime)) &&
      after (.wtSetetu 0#8 1#16) State.reset (fun t => decide ((t.wt 0).etu ≠ (State.reset.wt 0).etu)) &&
      after (.urxIrq 0#8 0x20#16 0#8) State.reset (fun t => decide ((t.chan 0).stat ≠ (State.reset.chan 0).stat)) &&
      after (.rbWrite 0#8 1#8) State.reset (fun t => decide ((t.rb 0).wr ≠ (State.reset.rb 0).wr)) &&
      after (.rbRead 0#8) ring (fun t => decide ((t.rb 0).rd ≠ (ring.rb 0).rd)) &&
      after (.cemRxbyte 0#8 2#8) (idleWith 4) (fun t => decide ((t.cem 0).seq ≠ ((idleWith 4).cem 0).seq)) &&
      after (.cemIosig 0#8 0#2 true) State.reset (fun t => decide ((t.cem 0).vcc ≠ (State.reset.cem 0).vcc))) = true := by decide +kernel

/-- For the second part: one writer of each register or more, among them each kind of operation that a clause names. -/
theorem witness_RegistersWrittenOnlyByTheirOperations_exchange :
    let writes (i : Instr) (s : State) (f : State → State → Bool) : Bool := decide (CoreInv s) && after i s (f s)
    let pending := (owing 1).updCem 0 fun x => { x with nullPending := true }
    let nul : State → State → Bool := fun s t => decide ((t.cem 0).nullPending ≠ (s.cem 0).nullPending)
    let timer : State → State → Bool := fun s t => decide (((t.wt 0).armed, (t.wt 0).remaining) ≠ ((s.wt 0).armed, (s.wt 0).remaining))
    let hdr : State → State → Bool := fun s t => decide ((t.cem 0).hdrN ≠ (s.cem 0).hdrN)
    let atr : State → State → Bool := fun s t => decide ((t.cem 0).atrIdx ≠ (s.cem 0).atrIdx)
    let tx : State → State → Bool := fun s t => decide (((t.cem 0).txLen, (t.cem 0).txIdx) ≠ ((s.cem 0).txLen, (s.cem 0).txIdx))
    let rx : State → State → Bool := fun s t => decide (((t.cem 0).rxN, (t.cem 0).rxLeft) ≠ ((s.cem 0).rxN, (s.cem 0).rxLeft))
    let dir : State → State → Bool := fun s t => decide (((t.cem 0).dir, (t.cem 0).cont) ≠ ((s.cem 0).dir, (s.cem 0).cont))
    (writes (.wtTick 0#8) (owing 1) nul && writes (.cemTxbyte 0#8) pending nul && writes (.cemIosig 0#8 0#2 false) pending nul &&
      writes (.wtTick 0#8) owing timer && writes (.wtSetwt 0#8 4#16) owing timer && writes (.wtSetetu 0#8 4#16) owing timer &&
      writes (.cemFidi 0#8 0x11#8) (owing 5) timer && writes (.cemTxbyte 0#8) pending timer && writes (.cemIosig 0#8 2#2 true) owing timer &&
      writes (.cemRxbyte 0#8 2#8) (idleWith 4) timer && writes (.ubtDispatch 1#8) (received hostByte owing) timer &&
      writes (.cemRxbyte 0#8 2#8) (idleWith 0) hdr && writes (.cemTxbyte 0#8) (sending 1) hdr && writes (.cemIosig 0#8 0#2 false) owing hdr &&
      writes (.cemTxbyte 0#8) (engine .atrTx) atr &&
      writes (.cemIosig 0#8 2#2 true) (engine .atrTx fun x => { x with atrIdx := 3 }) atr &&
      writes (.cemTxbyte 0#8) (sending 0) tx && writes (.ubtDispatch 1#8) (received hostByte owing) tx &&
      writes (.cemIosig 0#8 2#2 true) (sending 1) tx &&
      writes (.cemRxbyte 0#8 7#8) (receiving 0 2) rx && writes (.cemTxbyte 0#8) (sending 1) rx && writes (.cemIosig 0#8 2#2 true) owing rx &&
      writes (.cemTxbyte 0#8) (sending 1 .rx) dir && writes (.cemRxbyte 0#8 7#8) (receiving 1 1) dir &&
      writes (.ubtProcess 0#8 true true true) (received hostByte owing) dir && writes (.cemIosig 0#8 2#2 true) (receiving 0 2) dir) = true := by
  decide +kernel

theorem witness_RegistersWrittenOnlyByTheirOperations_rest :
    let s := suspended 3 0 (received hostByte owing)
    goesOnTo (.ubtProcess 0#8 true true true) s (fun t => decide ((t.cem 0).txLen = 1 ∧ (t.cem 0).dir = .tx ∧ (t.wt 0).armed = false)) = true ∧
      (s.cem 0).txLen = 0 ∧ (s.cem 0).dir = .none ∧ (s.wt 0).armed = true ∧ goesOnTo (.ubtDrain 0#8) (held queuedIn) (fun _ => true) = true := by
  decide +kernel

theorem witness_BytesReadBackAsWritten :
    (memWrite State.reset (.hdr 0) 3 [1#8, 2#8]).toOption.isSome = true ∧ (Space.hdr 0) ≠ .atr ∧
      ¬(Space.hdr 0 = .hdr 0 ∧ 3 ≤ 2 ∧ 2 < 3 + 2) := by decide +kernel

theorem witness_RbResetClearsTheIndices :
    Ready (.rbReset 0#8) State.reset ∧ (Instr.rbReset 0#8).wellFormed halted.cfg = true ∧ halted.halted = true := by decide +kernel

theorem witness_RbWriteResult :
    let s := (on smallRings).updRb 0 fun r => { r with wr := 1 }
    let t := (on smallRings).updRb 0 fun r => { r with wr := 2 }
    (Ready (.rbWrite 0#8 1#8) s ∧ (s.rb 0).count s.cfg < s.cfg.rbUsable) ∧
      Ready (.rbWrite 0#8 1#8) t ∧ t.cfg.rbUsable ≤ (t.rb 0).count t.cfg := by decide +kernel

theorem witness_RbReadPeekIsemptyResult :
    let t := (on smallRings).updRb 0 fun r => { r with wr := 1 }
    (Ready (.rbRead 0#8) State.reset ∧ (State.reset.rb 0).count State.reset.cfg = 0) ∧
      (Ready (.rbRead 0#8) t ∧ (t.rb 0).count t.cfg ≠ 0) ∧ Ready (.rbPeek 0#8) State.reset ∧ Ready (.rbPeek 0#8) t ∧
      Ready (.rbIsempty 0#8) t := by decide +kernel

theorem witness_RingBufferIsFifo :
    let ops : List Instr := [.rbWrite 0#8 1#8, .rbPeek 0#8, .rbWrite 0#8 2#8, .rbWrite 0#8 3#8, .rbRead 0#8, .rbRead 0#8, .rbIsempty 0#8]
    Ready (.rbRead 0#8) (on smallRings) ∧ RingOk smallRings ((on smallRings).rb 0) ∧ (∀ i ∈ ops, isFifoOp 0#8 i = true) ∧
      ((on smallRings).rb 0).empty smallRings = true ∧ ((runAll ops (on smallRings)).any fun r => (r.2.rb 0).empty smallRings) = true := by decide +kernel

theorem witness_TimRatioResult_unsupported :
    let F := State.reset.cfg.fiTable
    let D := State.reset.cfg.diTable
    (Ready (.timRatio 16#8 1#8) State.reset ∧ 16 ≤ (16#8).toNat) ∧ (Ready (.timRatio 1#8 16#8) State.reset ∧ 16 ≤ (16#8).toNat) ∧
      (Ready (.timRatio 7#8 1#8) State.reset ∧ F.getD 7 0 = 0) ∧ (Ready (.timRatio 1#8 0#8) State.reset ∧ D.getD 0 0 = 0) ∧
      (Ready (.timRatio 13#8 1#8) State.reset ∧ State.reset.cfg.ratioMax < F.getD 13 0 * 1 / D.getD 1 0) ∧
      let s := on { Config.default with ratioMin := 6 }
      Ready (.timRatio 1#8 7#8) s ∧ F.getD 1 0 * s.cfg.ratioBase / D.getD 7 0 < s.cfg.ratioMin := by decide +kernel

theorem witness_TimRatioResult_ok :
    let s := on { Config.default with ratioMin := 5, ratioMax := 1860 }
    (Ready (.timRatio 1#8 7#8) s ∧ s.cfg.fiTable.getD 1 0 * s.cfg.ratioBase / s.cfg.diTable.getD 7 0 = s.cfg.ratioMin) ∧
      Ready (.timRatio 6#8 1#8) s ∧ s.cfg.fiTable.getD 6 0 * s.cfg.ratioBase / s.cfg.diTable.getD 1 0 = s.cfg.ratioMax := by decide +kernel

theorem witness_TimRatioIsPure :
    State.reset.halted = false ∧ halted.halted = true := by decide +kernel

theorem witness_TimApplyResult :
    Ready (.timApply 0#8 1#16) State.reset ∧ State.reset.cfg.ratioMin = (1#16).toNat ∧ Ready (.timApply 0#8 2047#16) State.reset ∧
      State.reset.cfg.ratioMax = (2047#16).toNat ∧ Ready (.timApply 0#8 0#16) State.reset ∧ Ready (.timApply 0#8 2048#16) State.reset := by decide +kernel

theorem witness_CemFidiResult :
    let p := Config.default
    Ready (.cemFidi 0#8 0x11#8) State.reset ∧ Ready (.cemFidi 0#8 0x00#8) State.reset ∧ p.diTable.getD (0x00 % 16) 0 = 0 ∧
      Ready (.cemFidi 0#8 0x71#8) State.reset ∧ p.fiTable.getD (0x71 / 16) 0 = 0 ∧ Ready (.cemFidi 0#8 0xD1#8) State.reset ∧
      p.ratioMax < p.fiTable.getD (0xD1 / 16) 0 / p.diTable.getD (0xD1 % 16) 0 ∧ p.fiTable.getD (0x11 / 16) 0 / p.diTable.getD (0x11 % 16) 0 = 372 := by decide +kernel

theorem witness_WtSettingsResult :
    Ready (.wtSetwt 0#8 0#16) owing ∧ (owing.wt 0).armed = true ∧ Ready (.wtSetetu 0#8 5#16) State.reset ∧ (State.reset.wt 0).armed = false := by decide +kernel

theorem witness_WtTickResult :
    (Ready (.wtTick 0#8) State.reset ∧ (State.reset.wt 0).armed = false) ∧
      (Ready (.wtTick 0#8) (owing 2) ∧ ((owing 2).wt 0).armed = true ∧ ((owing 2).wt 0).remaining = 2) ∧
      Ready (.wtTick 0#8) (owing 1) ∧ ((owing 1).wt 0).armed = true ∧ ((owing 1).wt 0).remaining = 1 := by decide +kernel

theorem witness_ExpiryAfterExactlyThePeriod :
    (Ready (.wtTick 0#8) (owing 1) ∧ ((owing 1).wt 0).armed = true ∧ ((owing 1).wt 0).remaining = 0 + 1) ∧
      Ready (.wtTick 0#8) owing ∧ (owing.wt 0).armed = true ∧ (owing.wt 0).remaining = 3571199 + 1 := by decide +kernel

theorem witness_UrxIrqResult :
    let full := (on smallRings).updRb 0 fun r => { r with wr := 2 }
    let one := (on smallRings).updRb 0 fun r => { r with wr := 1 }
    (Ready (.urxIrq 0#8 0x0020#16 0#8) full ∧ 0x0020#16 &&& 0x05E0#16 ≠ 0#16) ∧
      (Ready (.urxIrq 0#8 0xFA1F#16 0#8) full ∧ 0xFA1F#16 &&& 0x05E0#16 = 0#16 ∧ full.cfg.rbUsable ≤ (full.rb 0).count full.cfg) ∧
      Ready (.urxIrq 0#8 0xFA1F#16 0#8) one ∧ (one.rb 0).count one.cfg < one.cfg.rbUsable := by decide +kernel

theorem witness_CemPumpMovesOneByte :
    let ff := (idleWith 0).updRb 0 fun _ => ⟨[(0, 0xFF#8)], 1, 0⟩
    let a0 := (idleWith 0).updRb 0 fun _ => ⟨[(0, 0xA0#8)], 1, 0⟩
    (CoreInv State.reset ∧ Ready (.cemPump 0#8) State.reset ∧ (State.reset.rb 0).count State.reset.cfg = 0) ∧
      (CoreInv ff ∧ Ready (.cemPump 0#8) ff ∧ (ff.rb 0).count ff.cfg ≠ 0 ∧
        after (.cemRxbyte 0#8 0xFF#8) ff (fun t => decide (t.resp.rc = .unmodelled)) = true) ∧
      CoreInv a0 ∧ Ready (.cemPump 0#8) a0 ∧ (a0.rb 0).count a0.cfg ≠ 0 ∧
        after (.cemRxbyte 0#8 0xA0#8) a0 (fun t => decide (t.resp.rc ≠ .unmodelled)) = true := by decide +kernel

theorem witness_PowerAndClockSignals :
    let c := State.reset.cem 0
    let d := (engine .clockActive).cem 0
    (Ready (.cemIosig 0#8 2#2 false) State.reset ∧ c.rst = false) ∧ (Ready (.cemIosig 0#8 0#2 true) State.reset ∧ c.vcc = false) ∧
      (Ready (.cemIosig 0#8 1#2 true) State.reset ∧ c.clk = false) ∧
      Ready (.cemIosig 0#8 1#2 false) (engine .clockActive) ∧ d.clk = true := by decide +kernel

theorem witness_ResetAndPowerOffSignals :
    let s := engine .clockActive
    let r := engine .clockActive id (on { Config.default with rstRestoresFidi := true })
    let h := engine .inReset fun x => { x with rst := true }
    (Ready (.cemIosig 0#8 2#2 true) s ∧ (s.cem 0).rst = false ∧ s.cfg.rstRestoresFidi = false) ∧
      (Ready (.cemIosig 0#8 2#2 true) r ∧ (r.cem 0).rst = false ∧ r.cfg.rstRestoresFidi = true) ∧
      (Ready (.cemIosig 0#8 0#2 false) s ∧ (s.cem 0).vcc = true) ∧ Ready (.cemIosig 0#8 2#2 false) h ∧ (h.cem 0).rst = true := by decide +kernel

theorem witness_TxbyteWithoutQueuedBytes :
    let null : Cem → Cem := fun x => { x with nullPending := true }
    let p := owing.updCem 0 null
    let d := (sending 0).updCem 0 null
    (Ready (.cemTxbyte 0#8) p ∧ (p.cem 0).state = .procedureByte ∧ (p.cem 0).nullPending = true) ∧
      (Ready (.cemTxbyte 0#8) d ∧ (d.cem 0).state = .dataExchange ∧ (d.cem 0).dir = .tx ∧ (d.cem 0).nullPending = true) ∧
      (Ready (.cemTxbyte 0#8) owing ∧ (owing.cem 0).state = .procedureByte ∧ (owing.cem 0).nullPending = false) ∧
      (Ready (.cemTxbyte 0#8) (receiving 0 1) ∧ ((receiving 0 1).cem 0).state = .dataExchange ∧ ((receiving 0 1).cem 0).dir ≠ .tx) ∧
      Ready (.cemTxbyte 0#8) (idleWith 0) ∧ Ready (.cemTxbyte 0#8) (engine .inReset) ∧ Ready (.cemTxbyte 0#8) (engine .clockActive) ∧
      Ready (.cemTxbyte 0#8) State.reset ∧ (State.reset.cem 0).state = .poweredOff := by decide +kernel

theorem witness_TxbyteHandsOutTheAtr :
    let s := engine .atrTx fun x => { x with atrIdx := 2 }
    let t := engine .atrTx fun x => { x with atrIdx := 3 }
    (Ready (.cemTxbyte 0#8) s ∧ (s.cem 0).state = .atrTx ∧ (s.cem 0).atrIdx + 1 < s.cfg.atr.length) ∧
      Ready (.cemTxbyte 0#8) t ∧ (t.cem 0).state = .atrTx ∧ (t.cem 0).atrIdx + 1 = t.cfg.atr.length := by decide +kernel

theorem witness_TxbyteHandsOutHostBytes :
    let sends : State → Bool := fun s => decide (Ready (.cemTxbyte 0#8) s ∧ (s.cem 0).state = .dataExchange ∧ (s.cem 0).dir = .tx ∧
      (s.cem 0).nullPending = false ∧ (s.cem 0).txLen ≤ s.cfg.txqCap)
    (sends (sending 0) = true ∧ ((sending 0).cem 0).txIdx + 1 < ((sending 0).cem 0).txLen) ∧
      (sends (sending 1) = true ∧ ((sending 1).cem 0).txIdx + 1 = ((sending 1).cem 0).txLen ∧ ((sending 1).cem 0).cont = .tx) ∧
      (sends (sending 1 .rx 1) = true ∧ ((sending 1 .rx 1).cem 0).cont = .rx ∧ 0 < ((sending 1 .rx 1).cem 0).rxLeft) ∧
      sends (sending 1 .rx 0) = true ∧ ((sending 1 .rx 0).cem 0).rxLeft = 0 := by decide +kernel

theorem witness_RxbyteWithoutAMessage :
    (Ready (.cemRxbyte 0#8 0xFF#8) (idleWith 3) ∧ ((idleWith 3).cem 0).state = .idle ∧ ((idleWith 3).cem 0).hdrN = 3) ∧
      (Ready (.cemRxbyte 0#8 0xFE#8) (idleWith 0) ∧ ((idleWith 0).cem 0).hdrN = 0) ∧
      (Ready (.cemRxbyte 0#8 0xFF#8) (idleWith 0) ∧ ((idleWith 0).cem 0).state = .idle) ∧
      (Ready (.cemRxbyte 0#8 0#8) (sending 0) ∧ ((sending 0).cem 0).state ≠ .idle ∧ ((sending 0).cem 0).dir ≠ .rx) ∧
      Ready (.cemRxbyte 0#8 0#8) owing ∧ (owing.cem 0).state ≠ .idle ∧ (owing.cem 0).state ≠ .dataExchange := by decide +kernel

theorem witness_FifthHeaderByteSendsTheHeader :
    let s := queuedIn (idleWith 4)
    Ready (.cemRxbyte 0#8 2#8) s ∧ (s.cem 0).state = .idle ∧ (s.cem 0).hdrN = 4 ∧ s.inEp 0 = some 0 ∧ s.leastFree 1 := by decide +kernel

theorem witness_DataBytesFillAndSendTheField :
    let s := receiving 0 2
    let t := receiving 1 1
    let u := receiving 0 255
    (Ready (.cemRxbyte 0#8 2#8) s ∧ (s.cem 0).state = .dataExchange ∧ (s.cem 0).dir = .rx ∧ (s.cem 0).rxN + (s.cem 0).rxLeft ≤ 255 ∧
        2 ≤ (s.cem 0).rxLeft) ∧
      (Ready (.cemRxbyte 0#8 2#8) t ∧ (t.cem 0).rxLeft = 1 ∧ (t.cem 0).rxN + (t.cem 0).rxLeft ≤ 255 ∧ t.inEp 0 = some 0 ∧ t.leastFree 0) ∧
      Ready (.cemRxbyte 0#8 2#8) u ∧ (u.cem 0).rxN + (u.cem 0).rxLeft = 255 := by decide +kernel

theorem witness_UnsendableUnitIsDropped :
    let noIn := { Config.default with ifs := [⟨some 2, none, some 1, 0⟩] }
    let drops : State → Bool := fun s => decide (Ready (.cemRxbyte 0#8 2#8) s)
    (drops (idleWith 4 (on noIn)) = true ∧ ((idleWith 4 (on noIn)).cem 0).hdrN = 4 ∧ (idleWith 4 (on noIn)).inEp 0 = none) ∧
      (drops (noneFree (idleWith 4)) = true ∧ (noneFree (idleWith 4)).inEp 0 ≠ none ∧ (noneFree (idleWith 4)).poolFull) ∧
      (drops (receiving 1 1 (on noIn)) = true ∧ ((receiving 1 1 (on noIn)).cem 0).rxLeft = 1 ∧ (receiving 1 1 (on noIn)).inEp 0 = none) ∧
      drops (noneFree (receiving 254 1)) = true ∧ ((receiving 254 1).cem 0).rxN ≤ 254 ∧ (noneFree (receiving 254 1)).poolFull := by decide +kernel

theorem witness_AtrAfterResetInOrder :
    Config.default.wellFormed = true ∧ (0#8).toNat < Config.default.nChan ∧
      { Config.default with atr := [0x3B#8], rstRestoresFidi := true }.wellFormed = true := by decide +kernel

theorem witness_HostBytesLeaveInOrder :
    let s := received [0x01#8, 0x55#8, 0x03#8, 0#8, 0x02#8, 0x90#8, 0#8] owing
    let f : IfConst := ⟨some 2, some 0, some 1, 0⟩
    CoreInv s ∧ Ready (.ubtDispatch 1#8) s ∧ (s.ep 1).queue = 0 :: [] ∧ f ∈ s.cfg.ifs ∧ f.out = some 1 ∧ f.chan = 0 ∧
      (s.cem 0).state = .procedureByte ∧ (s.cem 0).nullPending = false ∧ 1 ≤ 2 ∧ 2 ≤ s.cfg.txqCap ∧ s.holdsMessage 0 2 0x01#8 0x02#8 := by decide +kernel

theorem witness_PoolAllocResult :
    (Ready (.poolAlloc 321#16 3#3) State.reset ∧ State.reset.cfg.ctxSize < (321#16).toNat) ∧
      (Ready (.poolAlloc 320#16 1#3) noneFree ∧ noneFree.poolFull) ∧
      Ready (.poolAlloc 320#16 1#3) queuedIn ∧ (320#16).toNat ≤ queuedIn.cfg.ctxSize ∧ queuedIn.leastFree 1 := by decide +kernel

theorem witness_PoolFreeResult :
    (Ready (.poolFree 8#8) State.reset ∧ State.reset.cfg.poolN ≤ (8#8).toNat) ∧
      (Ready (.poolFree 7#8) State.reset ∧ (State.reset.ctx 7).state = .free) ∧
      (Ready (.poolFree 0#8) queuedIn ∧ (queuedIn.ctx 0).state ≠ .free ∧ ∃ x ∈ queuedIn.eps, x.cur = some 0 ∨ 0 ∈ x.queue) ∧
      Ready (.poolFree 7#8) noneFree ∧ (noneFree.ctx 7).state ≠ .free ∧ ¬∃ x ∈ noneFree.eps, x.cur = some 7 ∨ 7 ∈ x.queue := by decide +kernel

theorem witness_PoolReportIsTheOccupancy :
    Ready .poolReport noneFree := by decide +kernel

theorem witness_UbtEnqResult :
    (Ready (.ubtEnq 0#8 8#8) State.reset ∧ State.reset.cfg.poolN ≤ (8#8).toNat) ∧
      (Ready (.ubtEnq 0#8 7#8) State.reset ∧ (State.reset.ctx 7).state ≠ .uartTxPending) ∧
      Ready (.ubtEnq 2#8 7#8) noneFree ∧ (noneFree.ctx 7).state = .uartTxPending := by decide +kernel

theorem witness_UbtRefillTohostResult :
    (CoreInv writing ∧ Ready (.ubtRefillTohost 0#8 true) writing ∧ (writing.ep 0).inProgress = true) ∧
      (CoreInv State.reset ∧ Ready (.ubtRefillTohost 2#8 true) State.reset ∧ (State.reset.ep 2).queue = []) ∧
      (CoreInv queuedIn ∧ Ready (.ubtRefillTohost 0#8 true) queuedIn ∧ (queuedIn.ep 0).inProgress = false ∧
        (queuedIn.ep 0).queue = 0 :: []) ∧ Ready (.ubtRefillTohost 0#8 false) queuedIn := by decide +kernel

theorem witness_UbtWcompleteResult :
    let flies : State → Byte → Bool → Bool := fun s st d => decide (Ready (.ubtWcomplete 0#8 st d) s ∧ (s.ep 0).inProgress = true ∧
      (s.ep 0).cur = some 0 ∧ 0 < s.cfg.poolN)
    (flies (writing 128) 0#8 true = true ∧ flies (writing 128) 0#8 false = true ∧ ((writing 128).ep 0).zlp = false ∧
        ((writing 128).ctx 0).size % ((writing 128).epConst 0).mps = 0) ∧
      (flies (writing 10) 0#8 true = true ∧ ((writing 10).ctx 0).size % ((writing 10).epConst 0).mps ≠ 0) ∧
      (flies (writing 64 true) 0#8 true = true ∧ ((writing 64 true).ep 0).zlp = true) ∧ flies (writing 64) 3#8 true = true := by decide +kernel

theorem witness_UbtRefillFromhostResult :
    (CoreInv reading ∧ Ready (.ubtRefillFromhost 1#8 true) reading ∧ (reading.ep 1).inProgress = true) ∧
      (CoreInv noneFree ∧ Ready (.ubtRefillFromhost 1#8 true) noneFree ∧ (noneFree.ep 1).inProgress = false ∧ noneFree.poolFull) ∧
      (CoreInv queuedIn ∧ Ready (.ubtRefillFromhost 1#8 true) queuedIn ∧ (queuedIn.ep 1).inProgress = false ∧ queuedIn.leastFree 1) ∧
      Ready (.ubtRefillFromhost 1#8 false) queuedIn := by decide +kernel

theorem witness_UbtRcompleteResult :
    (Ready (.ubtRcomplete 1#8 0#8 []) reading ∧ (reading.ep 1).inProgress = true ∧ (reading.ep 1).cur = some 0 ∧
        0 < reading.cfg.poolN) ∧
      Ready (.ubtRcomplete 1#8 0#8 (List.replicate 320 7#8)) reading ∧ Ready (.ubtRcomplete 1#8 5#8 [1#8]) reading := by decide +kernel

theorem witness_UbtProcessRunsItsParts :
    let s := received hostByte owing
    CoreInv s ∧ Ready (.ubtProcess 0#8 true true true) s ∧ s.cfg.ifs[0]? = some ⟨some 2, some 0, some 1, 0⟩ ∧ s.mainOp = none ∧
      s.preempt = [] := by decide +kernel

theorem witness_InterruptStepsBetweenParts :
    let s := { presenting (encode (.wtTick 0#8)) (received [1#8] owing) with preempt := [true] }
    CoreInv s ∧ Ready (.ubtProcess 0#8 true true true) s ∧ s.preempt = true :: [] ∧ (Instr.wtTick 0#8).encodable = true ∧
      s.port = encode (.wtTick 0#8) ++ [] ∧ s.irqPresented = true ∧ s.cfg.ifs[0]? = some ⟨some 2, some 0, some 1, 0⟩ ∧
      after (.ubtProcess 0#8 true true true) s (fun t => decide (t.mainOp = some (.process ⟨0, true, true, true, 1, 0, 0#8⟩))) = true := by
  decide +kernel

/-- An interrupt-context request steps first; and `SYS.RESET` does, on a halted core too. -/
theorem witness_InterruptStepsBetweenParts_request :
    let tick := { presenting (encode (.wtTick 0#8)) (suspended 1 0) with preempt := [true, false] }
    let reset := { presenting (encode .sysReset) (suspended 4 1 (halted (received [1#8] owing))) with preempt := [true] }
    (tick.mainOp = some (.process ⟨0, true, true, true, 1, 0, 0#8⟩) ∧ tick.preempted = true ∧ (Instr.wtTick 0#8).encodable = true ∧
        tick.port = encode (.wtTick 0#8) ++ []) ∧
      reset.mainOp = some (.process ⟨0, true, true, true, 4, 1, 0#8⟩) ∧ reset.preempted = true ∧ Instr.sysReset.encodable = true ∧
      reset.port = encode .sysReset ++ [] := by decide +kernel

/-- A suspended operation goes on: after its first part, before its last dispatch, and with a diagnostic of an earlier part behind it; it
ends, or stops at the next boundary where a request steps. -/
theorem witness_InterruptStepsBetweenParts_resumed :
    let goesOn : State → (State → Bool) → Bool := fun s f =>
      decide (s.halted = false) && decide (s.preempted = false) && goesOnTo (.ubtProcess 0#8 true true true) s f
    let busy := suspended 4 1 (received hostByte owing) 0x07#8
    let again := { presenting (encode (.wtTick 0#8)) (suspended 1 0 (received hostByte owing)) with preempt := [false, true] }
    (goesOn (suspended 1 0 queuedIn) (fun t => decide (t.mainOp = none ∧ (t.ep 0).inProgress = true ∧ (t.ep 1).inProgress = true ∧
        t.resp = ⟨.ok, 0#8, 0#16⟩)) &&
      goesOn busy (fun t => decide (t.mainOp = none ∧ t.resp = ⟨.ok, 0x07#8, 2#16⟩ ∧ (t.cem 0).state = .dataExchange)) &&
      goesOn again (fun t => decide (t.mainOp = some (.process ⟨0, true, true, true, 2, 0, 0#8⟩) ∧ t.resp = again.resp))) = true := by
  decide +kernel

theorem witness_InterruptStepsBetweenParts_halted :
    let s := halted (suspended 1 0)
    s.halted = true ∧ s.mainOp = some (.process ⟨0, true, true, true, 1, 0, 0#8⟩) ∧ s.preempted = false := by decide +kernel

theorem witness_UbtDrainFreesTheQueue :
    CoreInv queuedIn ∧ Ready (.ubtDrain 0#8) queuedIn ∧ queuedIn.mainOp = none ∧ (queuedIn.ep 0).inProgress = false := by decide +kernel

theorem witness_UbtDrainHolds :
    let wait := held writing
    let tick := presenting (encode (.wtTick 0#8)) wait
    let idle := held queuedIn
    (Ready (.ubtDrain 0#8) writing ∧ (writing.ep 0).inProgress = true) ∧
      (wait.mainOp = some (.drain 0) ∧ wait.halted = false ∧ (wait.ep 0).inProgress = true ∧ wait.irqPresented = false) ∧
      (tick.mainOp = some (.drain 0) ∧ tick.halted = false ∧ (tick.ep 0).inProgress = true ∧ tick.irqPresented = true ∧
        (Instr.wtTick 0#8).encodable = true ∧ tick.port = encode (.wtTick 0#8) ++ []) ∧
      (Ready (.ubtDrain 0#8) idle ∧ idle.mainOp = some (.drain 0) ∧ (idle.ep 0).inProgress = false) ∧
      (halted wait).mainOp = some (.drain 0) ∧ (halted wait).halted = true := by decide +kernel

theorem witness_UbtDispatchResult_queue :
    let noOut := { Config.default with ifs := [⟨some 2, some 0, none, 0⟩] }
    (CoreInv State.reset ∧ Ready (.ubtDispatch 1#8) State.reset ∧ (State.reset.ep 1).queue = []) ∧
      CoreInv (received [1#8] (on noOut)) ∧ Ready (.ubtDispatch 1#8) (received [1#8] (on noOut)) ∧
      ((received [1#8] (on noOut)).ep 1).queue = 0 :: [] ∧ ∀ f ∈ noOut.ifs, f.out ≠ some 1 := by decide +kernel

/-- One for each test of `msg_check`, in its order; the last is as long as a message can be. -/
theorem witness_UbtDispatchResult_messages :
    let takes : List Byte → State → Bool := fun bs s =>
      decide (CoreInv (received bs s) ∧ Ready (.ubtDispatch 1#8) (received bs s) ∧ ((received bs s).ep 1).queue = [0])
    (takes [1#8, 0#8, 0#8] owing && takes [1#8, 0#8, 1#8, 0#8] owing && takes [2#8, 0#8, 0#8, 0#8] owing &&
      takes [1#8, 0#8, 1#8, 0#8, 4#8] owing && takes [1#8, 0#8, 0#8, 0#8] owing && takes [1#8, 0#8, 2#8, 0#8, 6#8, 0xA4#8] owing &&
      takes [1#8, 0#8, 2#8, 0#8, 5#8, 0xA4#8] owing && takes [1#8, 0#8, 2#8, 0#8, 0x0A#8, 0xA4#8] owing &&
      takes [1#8, 0#8, 2#8, 0#8, 2#8, 0xA4#8] owing && takes [1#8, 0#8, 2#8, 0#8, 4#8, 0xA4#8] owing &&
      takes [1#8, 0#8, 2#8, 0#8, 4#8, 0xA4#8] (idleWith 0) &&
      takes ([1#8, 0#8, 0x3C#8, 1#8, 2#8] ++ List.replicate 315 0x90#8) owing) = true := by decide +kernel

end Sys2Proof.Tests
end

-- Proofs of the family 00_scope: the state after reset, and what no step changes.
section
/-! SUPPORT. The state after reset (R46), part by part, and that it meets the invariant (R1). -/

namespace Sys2Proof.Machine

/-! ### Reading the state after reset (R46) -/

@[simp] theorem State.resetWith_cfg (p : Config) : (State.resetWith p).cfg = p := rfl

@[simp] theorem State.chan_resetWith (p : Config) (c : Nat) : (State.resetWith p).chan c = Chan.reset p := by
  simp [State.chan, State.resetWith]

@[simp] theorem State.ctx_resetWith (p : Config) (h : Nat) : (State.resetWith p).ctx h = Ctx.reset := by
  simp [State.ctx, State.resetWith]

@[simp] theorem State.ep_resetWith (p : Config) (e : Nat) : (State.resetWith p).ep e = Ep.reset := by
  simp [State.ep, State.resetWith]

theorem State.resetWith_shape (p : Config) : (State.resetWith p).shape :=
  ⟨List.length_replicate, List.length_replicate, List.length_replicate⟩

/-! ### The invariants of a channel after reset -/

/-- R46: a store in which nothing has been written is canonical and within any bound. -/
theorem Memory.within_nil (n : Nat) : Memory.within n [] := ⟨rfl, by simp⟩

theorem ringOk_reset {p : Config} (hp : ConfigFacts p) : RingOk p (Chan.reset p).rb := by
  have hcap := hp.rbCap
  refine ⟨?_, ?_, ?_, Memory.within_nil _⟩
  · show 0 < 2 * p.rbCap
    omega
  · show 0 < 2 * p.rbCap
    omega
  · simp [Chan.reset, Ring.count]

/-- The reset ratio is in range (R1), so the timing register holds it without truncation. -/
theorem uartOk_reset {p : Config} (hp : ConfigFacts p) : UartOk p (Chan.reset p) := by
  obtain ⟨_, hmin, hmax, hhalf⟩ := hp.ratio
  have hfidi : (Chan.reset p).uart.fidi.toNat = p.ratioReset :=
    Nat.mod_eq_of_lt (show p.ratioReset < 2 ^ 16 by omega)
  exact ⟨hfidi.symm ▸ hmin, hfidi.symm ▸ hmax, rfl, BitVec.zero_and⟩

theorem levelsOk_reset : LevelsOk Cem.reset := by simp [LevelsOk, Cem.reset]

theorem headerOk_reset : HeaderOk Cem.reset := by simp [HeaderOk, Cem.reset]

theorem exchangeOk_reset (p : Config) : ExchangeOk p Cem.reset := by simp [ExchangeOk, Cem.reset]

theorem buffersOk_reset (p : Config) : BuffersOk p Cem.reset :=
  ⟨Memory.within_nil _, Memory.within_nil _, Memory.within_nil _⟩

theorem timerOk_reset (p : Config) : TimerOk (Chan.reset p) := by simp [TimerOk, Chan.reset]

theorem chanOk_reset {p : Config} (hp : ConfigFacts p) : ChanOk p (Chan.reset p) :=
  ⟨ringOk_reset hp, uartOk_reset hp, levelsOk_reset, headerOk_reset, exchangeOk_reset p, buffersOk_reset p, timerOk_reset p⟩

/-! ### The invariants of the pool and the endpoints after reset -/

theorem ctxOk_reset (p : Config) : CtxOk p Ctx.reset :=
  ⟨Nat.zero_le _, Nat.le_refl 0, Nat.zero_le _, Memory.within_nil _, fun _ => ⟨rfl, rfl, rfl, rfl⟩⟩

theorem epOk_resetWith (p : Config) (e : Nat) : EpOk (State.resetWith p) e := by simp [EpOk, Ep.reset]

theorem ownerOk_resetWith (p : Config) (h : Nat) : OwnerOk (State.resetWith p) h := by simp [OwnerOk, Ctx.reset]

theorem transportOk_resetWith (p : Config) : TransportOk (State.resetWith p) :=
  ⟨fun _ hx => List.eq_of_mem_replicate hx ▸ ctxOk_reset p, fun e _ => epOk_resetWith p e, fun h _ => ownerOk_resetWith p h⟩

/-- R1, R46: the state after reset meets the invariant whatever the well-formed parameters. -/
theorem coreInv_resetWith {p : Config} (hp : p.wellFormed = true) : CoreInv (State.resetWith p) :=
  ⟨hp, State.resetWith_shape p, fun _ hx => List.eq_of_mem_replicate hx ▸ chanOk_reset (configFacts_of hp),
    transportOk_resetWith p, ⟨fun _ => rfl, fun h => nomatch h⟩, rfl⟩

/-- R1: the defaults of 00_scope section 4 are well-formed. -/
theorem Config.default_wellFormed : Config.default.wellFormed = true := by decide

end Sys2Proof.Machine
end

section
/-! SUPPORT. What no step changes: the parameters (R2); and that the event history only grows at its end (R45). -/

namespace Sys2Proof.Machine

/-- From `s` to `t` the parameters stay and the event history only grows at its end (R2, R45). -/
structure Grows (s t : State) : Prop where
  cfg : t.cfg = s.cfg
  events : s.events <+: t.events

theorem Grows.of_eq {s t : State} (hcfg : t.cfg = s.cfg) (hevents : t.events = s.events) : Grows s t :=
  ⟨hcfg, hevents ▸ List.prefix_rfl⟩

theorem Grows.refl (s : State) : Grows s s := .of_eq rfl rfl

theorem Grows.trans {s t u : State} (h : Grows s t) (k : Grows t u) : Grows s u :=
  ⟨k.cfg.trans h.cfg, h.events.trans k.events⟩

theorem Frame.grows {s t : State} (h : Frame s t) : Grows s t := ⟨h.cfg, h.events⟩

/-- A finished rule body appends its events, or, where it raises the fatal halt, the `halt` event alone (R231). -/
theorem grows_finish {s t : State} {b : Body} (hb : FrameBody s b) (h : finish s b = .next t) : Grows s t := by
  obtain ⟨u, r, hu, rfl⟩ | ⟨k, _, rfl⟩ := finish_next h
  · exact (hb u r hu).grows.trans (.of_eq rfl rfl)
  · exact ⟨rfl, List.prefix_append _ _⟩

/-- A request that the checks of R238 turn away changes the response alone. -/
theorem grows_gate {i : Instr} {s t : State} {run : State → Outcome} (hrun : run s = .next t → Grows s t)
    (h : gate i s run = .next t) : Grows s t := by
  obtain ⟨_, rfl⟩ | ⟨_, rfl⟩ | ⟨_, _, hr⟩ := gate_next h
  · exact .of_eq rfl rfl
  · exact .of_eq rfl rfl
  · exact hrun hr

/-! ### The main-context operations -/

/-- One part of `UBT.PROCESS` after another (R199). -/
theorem grows_processRun {fuel : Nat} {p : Proc} {s t : State} (h : processRun fuel p s = .next t) : Grows s t :=
  processRun_keeps (P := Grows s) (fun _ _ _ _ _ hs hpart => hs.trans (frame_processPart hpart).grows)
    (fun _ hs => hs.trans (.of_eq rfl rfl)) (fun _ _ hs => hs.trans (.of_eq rfl rfl)) (fun _ _ _ _ hs => hs.trans (.of_eq rfl rfl))
    fuel p s t (.refl s) h

theorem grows_processResume {p : Proc} {s t : State} (h : processResume p s = .next t) : Grows s t := by
  unfold processResume at h
  split at h
  · obtain rfl := next_inj h
    exact .of_eq rfl rfl
  · exact grows_processRun h

theorem grows_drainEnd {e : Nat} {s t : State} (h : drainEnd e s = .next t) : Grows s t := by
  have hrecord : Grows s { s with mainOp := none } := .of_eq rfl rfl
  simp only [drainEnd] at h
  split at h
  · obtain rfl := next_inj h
    exact .of_eq rfl rfl
  · exact hrecord.trans (grows_finish (frame_drainBody _ _) h)

/-! ### Every operation, and the step -/

theorem grows_exec {i : Instr} {s t : State} (h : exec i s = .next t) : Grows s t := by
  cases hb : bodyOf i with
  | some b =>
    rw [exec_body hb] at h
    exact grows_gate (grows_finish (frame_body hb s)) h
  | none =>
    cases i <;> simp only [bodyOf, reduceCtorEq] at hb
    case sysReset =>
      obtain rfl := next_inj h
      exact .of_eq rfl rfl
    case ubtProcess k a b d => exact grows_gate grows_processRun h
    case ubtDrain e =>
      rw [exec_ubtDrain] at h
      refine grows_gate (fun hr => ?_) h
      split at hr
      · obtain rfl := next_inj hr
        exact .of_eq rfl rfl
      · exact grows_drainEnd hr

theorem grows_takeRequest {s t : State} (h : takeRequest s = .next t) : Grows s t := by
  unfold takeRequest at h
  split at h
  · obtain rfl := next_inj h
    exact .refl s
  · rename_i ws rest _
    have htaken : Grows s { s with port := rest } := .of_eq rfl rfl
    split at h
    · exact htaken.trans (grows_exec h)
    · obtain rfl := next_inj h
      exact .of_eq rfl rfl

theorem grows_step {s t : State} (h : step s = .next t) : Grows s t := by
  have hpass : Grows s s.passBoundary := .of_eq rfl rfl
  cases hm : s.mainOp with
  | none =>
    simp only [step, cycle, hm] at h
    exact grows_takeRequest h
  | some m =>
    cases m with
    | process p =>
      rw [step_process hm] at h
      split at h
      · exact hpass.trans (grows_takeRequest h)
      · exact hpass.trans (grows_processResume h)
    | drain e =>
      rw [step_drain hm] at h
      split at h
      · exact grows_drainEnd h
      · split at h
        · exact grows_takeRequest h
        · obtain rfl := next_inj h
          exact .refl s

end Sys2Proof.Machine
end

section
/-! The statements of the family 00_scope. -/

namespace Sys2Proof.Proofs

open Sys2Proof Sys2Proof.Machine

/-- Settles O12: every way a step can go keeps the parameters and only appends events. -/
theorem parametersFixedHistoryGrows : Obligations.ParametersFixedHistoryGrows := by
  intro s t h
  obtain ⟨hcfg, evs, hevs⟩ := grows_step h
  exact ⟨hcfg, evs, hevs.symm⟩

/-- Settles O11: the invariant holds part by part of the reset values (R46). -/
theorem everyConfigurationStartsSafe : Obligations.EveryConfigurationStartsSafe := fun _ hp => coreInv_resetWith hp

/-- Settles O10: the case of O11 at the defaults, which are well-formed. -/
theorem resetStateMeetsInvariant : Obligations.ResetStateMeetsInvariant :=
  ⟨Config.default_wellFormed, coreInv_resetWith Config.default_wellFormed⟩

end Sys2Proof.Proofs
end

-- Proofs of the family 10_state: what every step keeps, the transitions of the contexts, and which operations write a register.
section
/-! SUPPORT. The inductions over a step and over the parts of `UBT.PROCESS`, packaged once: what a step must keep, piece by piece, to keep
a property of the state, and what the parts keep of a property that speaks of their progress. -/

namespace Sys2Proof.Machine

/-- What keeps `P` over every step: the environment's fields and the record of an operation do not matter to it, and every rule body, part
of `UBT.PROCESS`, end of `UBT.DRAIN`, fatal halt and reset keeps it. -/
structure KeptByStep (P : State → Prop) : Prop where
  outer : ∀ s port preempt mainOp resp, P s → P { s with port := port, preempt := preempt, mainOp := mainOp, resp := resp }
  body : ∀ i b s t r, bodyOf i = some b → i.wellFormed s.cfg = true → P s → b s = .ok (t, r) → P t
  part : ∀ p s t n ends, P s → PartCase p s t n ends → P t
  drain : ∀ e s t r, P s → drainBody e s = .ok (t, r) → P t
  fatal : ∀ s k, P s → P (s.raiseFatal k)
  reset : ∀ s, P s → P s.sysReset

namespace KeptByStep

variable {P : State → Prop} (k : KeptByStep P) {s t : State}
include k

theorem passBoundary (hs : P s) : P s.passBoundary := k.outer s _ _ _ _ hs

theorem record (m : Option MainOp) (hs : P s) : P { s with mainOp := m } := k.outer s _ _ _ _ hs

theorem answer (rc : RC) (aux : Byte) (val : Half) (hs : P s) : P (s.answer rc aux val) := k.outer s _ _ _ _ hs

theorem processRun {fuel : Nat} {p : Proc} (hs : P s) (h : processRun fuel p s = .next t) : P t :=
  processRun_keeps k.part (fun _ => k.passBoundary) (fun _ m => k.record m) (fun _ rc aux val => k.answer rc aux val) fuel p s t hs h

theorem processResume {p : Proc} (hs : P s) (h : processResume p s = .next t) : P t :=
  processResume_keeps k.part (fun _ => k.passBoundary) (fun _ m => k.record m) (fun _ rc aux val => k.answer rc aux val) hs h

theorem drainEnd {e : Nat} (hs : P s) (h : drainEnd e s = .next t) : P t := by
  have hs0 : P { s with mainOp := none } := k.record none hs
  simp only [Machine.drainEnd] at h
  split at h
  · obtain rfl := next_inj h
    exact k.answer _ _ _ hs0
  · obtain ⟨u, r, hu, rfl⟩ | ⟨code, _, rfl⟩ := finish_next h
    · exact k.answer _ _ _ (k.drain _ _ _ _ hs0 hu)
    · exact k.fatal _ _ hs0

/-- A request that the checks of R238 turn away changes the answer alone. -/
theorem gate {i : Instr} {run : State → Outcome} (hs : P s) (hrun : i.wellFormed s.cfg = true → run s = .next t → P t)
    (h : gate i s run = .next t) : P t := by
  obtain ⟨_, rfl⟩ | ⟨_, rfl⟩ | ⟨hw, _, hr⟩ := gate_next h
  · exact k.answer _ _ _ hs
  · exact k.answer _ _ _ hs
  · exact hrun hw hr

theorem exec {i : Instr} (hs : P s) (h : exec i s = .next t) : P t := by
  cases hb : bodyOf i with
  | some b =>
    rw [exec_body hb] at h
    refine k.gate hs (fun hw hr => ?_) h
    obtain ⟨u, r, hu, rfl⟩ | ⟨code, _, rfl⟩ := finish_next hr
    · exact k.answer _ _ _ (k.body _ _ _ _ _ hb hw hs hu)
    · exact k.fatal _ _ hs
  | none =>
    cases i <;> simp only [bodyOf, reduceCtorEq] at hb
    case sysReset =>
      obtain rfl := next_inj h
      exact k.answer _ _ _ (k.reset _ hs)
    case ubtProcess => exact k.gate hs (fun _ => k.processRun hs) h
    case ubtDrain e =>
      rw [exec_ubtDrain] at h
      refine k.gate hs (fun _ hr => ?_) h
      split at hr
      · obtain rfl := next_inj hr
        exact k.record _ hs
      · exact k.drainEnd hs hr

theorem takeRequest (hs : P s) (h : takeRequest s = .next t) : P t := by
  unfold Machine.takeRequest at h
  split at h
  · obtain rfl := next_inj h
    exact hs
  · rename_i ws rest _
    have htaken : P { s with port := rest } := k.outer s _ _ _ _ hs
    split at h
    · exact k.exec htaken h
    · obtain rfl := next_inj h
      exact k.answer _ _ _ htaken

theorem step (hs : P s) (h : step s = .next t) : P t := by
  cases hm : s.mainOp with
  | none =>
    simp only [Machine.step, cycle, hm] at h
    exact k.takeRequest hs h
  | some m =>
    cases m with
    | process p =>
      rw [step_process hm] at h
      split at h
      · exact k.takeRequest (k.passBoundary hs) h
      · exact k.processResume (k.passBoundary hs) h
    | drain e =>
      rw [step_drain hm] at h
      split at h
      · exact k.drainEnd hs h
      · split at h
        · exact k.takeRequest hs h
        · obtain rfl := next_inj h
          exact hs

end KeptByStep

/-- The induction over the parts of `UBT.PROCESS` for a property `P` of the progress and the state; `Q` is what the run ends with. -/
theorem processRun_induct {P : Proc → State → Prop} {Q : State → Prop}
    (last : ∀ p s t n, P p s → PartCase p s t n true → Q (processDone (p.next s t n).aux n t))
    (more : ∀ p s t n, P p s → PartCase p s t n false → P (p.next s t n) t)
    (pass : ∀ p s, P p s → P p s.passBoundary)
    (stop : ∀ p s t n, P p s → PartCase p s t n false → Q { t with mainOp := some (.process (p.next s t n)) })
    (spent : ∀ p s, P p s → Q (processDone p.aux p.n s)) :
    ∀ (fuel : Nat) (p : Proc) (s t : State), P p s → processRun fuel p s = .next t → Q t
  | 0, p, s, t, hs, h => by
    obtain rfl : processDone p.aux p.n s = t := by simpa [processRun] using h
    exact spent p s hs
  | fuel + 1, p, s, t, hs, h => by
    cases processRun_cases h with
    | last u n hu => exact last _ _ _ _ hs hu
    | stop u n hu _ => exact stop _ _ _ _ hs hu
    | more u n _ hu _ hrest => exact processRun_induct last more pass stop spent fuel _ _ t (pass _ _ (more _ _ _ _ hs hu)) hrest

end Sys2Proof.Machine
end

section
/-! SUPPORT. What an operation can do to a channel, case by case: one inductive per kind of event, each body tied to its cases, and
`ChanCase`, which says for every operation what may become of a channel. -/

namespace Sys2Proof.Machine

/-! ### One channel changed, contexts and endpoints kept -/

/-- From `s` to `t` a channel stays as it is, but for channel `d`, which may change as `R` says. -/
structure ChanEffect (d : Nat) (R : Chan → Chan → Prop) (s t : State) : Prop where
  cfg : t.cfg = s.cfg
  chan : ∀ c, t.chan c = s.chan c ∨ (c = d ∧ c < s.chans.length ∧ R (s.chan c) (t.chan c))

/-- The contexts and the endpoints stay as they are. -/
structure SameTransport (s t : State) : Prop where
  ctxs : t.ctxs = s.ctxs
  eps : t.eps = s.eps

theorem ChanEffect.of_modify {d : Nat} {R : Chan → Chan → Prop} {s t : State} {g : Chan → Chan} (hcfg : t.cfg = s.cfg)
    (hchans : t.chans = s.chans.modify d g) (hg : d < s.chans.length → R (s.chan d) (g (s.chan d))) : ChanEffect d R s t := by
  refine ⟨hcfg, fun c => ?_⟩
  have hc : t.chan c = (s.updChan d g).chan c := by simp [State.chan, hcfg, hchans]
  rw [hc, State.chan_updChan]
  split
  · rename_i hd
    obtain ⟨rfl, hlt⟩ := hd
    exact .inr ⟨rfl, hlt, hg hlt⟩
  · exact .inl rfl

theorem ChanEffect.of_modify_modify {d : Nat} {R : Chan → Chan → Prop} {s t : State} {f g : Chan → Chan} (hcfg : t.cfg = s.cfg)
    (hchans : t.chans = (s.chans.modify d f).modify d g) (hg : d < s.chans.length → R (s.chan d) (g (f (s.chan d)))) :
    ChanEffect d R s t := .of_modify (g := g ∘ f) hcfg (hchans.trans (List.modify_modify_eq ..)) hg

theorem ChanEffect.of_same {d : Nat} {R : Chan → Chan → Prop} {s t : State} (hcfg : t.cfg = s.cfg) (hchans : t.chans = s.chans) :
    ChanEffect d R s t := ⟨hcfg, fun c => .inl (by simp [State.chan, hcfg, hchans])⟩

theorem ChanEffect.mono {d : Nat} {R R' : Chan → Chan → Prop} {s t : State} (h : ChanEffect d R s t) (hR : ∀ x y, R x y → R' x y) :
    ChanEffect d R' s t := ⟨h.cfg, fun c => (h.chan c).imp_right fun ⟨hd, hlt, hr⟩ => ⟨hd, hlt, hR _ _ hr⟩⟩

/-! ### The ring buffer, the timing register and the timer -/

/-- R121: a ring buffer with one byte more. -/
def Ring.pushed (p : Config) (b : Byte) (r : Ring) : Ring :=
  { r with buf := r.buf.store (r.wr % p.rbCap) b, wr := (r.wr + 1) % (2 * p.rbCap) }

/-- R122: a ring buffer with its oldest byte taken. -/
def Ring.popped (p : Config) (r : Ring) : Ring := { r with rd := (r.rd + 1) % (2 * p.rbCap) }

/-- R121: a byte entered the ring buffer, which was not full. -/
def WriteCase (p : Config) (b : Byte) (x y : Chan) : Prop :=
  x.rb.count p < p.rbUsable ∧ y = { x with rb := x.rb.pushed p b }

theorem rbWriteBody_effect {d : Nat} {b : Byte} {s t : State} {r : Reply} (h : rbWriteBody d b s = .ok (t, r)) :
    SameTransport s t ∧ ChanEffect d (WriteCase s.cfg b) s t := by
  unfold rbWriteBody at h
  split at h
  · obtain ⟨rfl, -⟩ := ret_eq_ok.mp h
    exact ⟨⟨rfl, rfl⟩, .of_same rfl rfl⟩
  · rename_i hfull
    obtain ⟨u, hu, h⟩ := bind_eq_ok.mp h
    obtain ⟨-, rfl⟩ := memWrite_cases hu
    obtain ⟨rfl, -⟩ := ret_eq_ok.mp h
    have hcount : (s.rb d).count s.cfg < s.cfg.rbUsable := by simpa [Ring.full] using hfull
    exact ⟨⟨rfl, rfl⟩, .of_modify_modify rfl rfl fun _ => ⟨hcount, rfl⟩⟩

/-- R122: the oldest byte left the ring buffer, which was not empty. -/
def ReadCase (p : Config) (x y : Chan) : Prop := x.rb.count p ≠ 0 ∧ y = { x with rb := x.rb.popped p }

theorem rbReadBody_effect {d : Nat} {s t : State} {r : Reply} (h : rbReadBody d s = .ok (t, r)) :
    SameTransport s t ∧ ChanEffect d (ReadCase s.cfg) s t := by
  unfold rbReadBody at h
  split at h
  · obtain ⟨rfl, -⟩ := ret_eq_ok.mp h
    exact ⟨⟨rfl, rfl⟩, .of_same rfl rfl⟩
  · rename_i hempty
    obtain ⟨u, hu, h⟩ := bind_eq_ok.mp h
    obtain ⟨rfl, -⟩ := ret_eq_ok.mp h
    have hcount : (s.rb d).count s.cfg ≠ 0 := by simpa [Ring.empty] using hempty
    exact ⟨⟨rfl, rfl⟩, .of_modify rfl rfl fun _ => ⟨hcount, rfl⟩⟩

theorem rbPeekBody_same {d : Nat} {s t : State} {r : Reply} (h : rbPeekBody d s = .ok (t, r)) : t = s := by
  unfold rbPeekBody at h
  split at h
  · exact (ret_eq_ok.mp h).1.symm
  · obtain ⟨_, _, h⟩ := bind_eq_ok.mp h
    exact (ret_eq_ok.mp h).1.symm

theorem timRatioBody_same {a b : Nat} {s t : State} {r : Reply} (h : timRatioBody a b s = .ok (t, r)) : t = s := by
  unfold timRatioBody at h
  split at h <;> exact (ret_eq_ok.mp h).1.symm

/-- R135: the timing register takes a ratio in range. -/
def RetimeCase (p : Config) (ratio : Half) (x y : Chan) : Prop :=
  (p.ratioMin ≤ ratio.toNat ∧ ratio.toNat ≤ p.ratioMax) ∧ y = { x with uart := ⟨ratio, true⟩ }

/-- All that `TIM.APPLY` can do: a diagnostic, or the five steps of R135. -/
theorem timApplyBody_cases {d : Nat} {ratio : Half} {s t : State} {r : Reply} (h : timApplyBody d ratio s = .ok (t, r)) :
    (∃ k n, t = s.diag k n) ∨ ((s.cfg.ratioMin ≤ ratio.toNat ∧ ratio.toNat ≤ s.cfg.ratioMax) ∧
      t = { s.updUart d fun _ => ⟨ratio, true⟩ with events := s.events ++ timingEvents s.cfg d ratio }) := by
  unfold timApplyBody at h
  split at h
  · exact .inl ⟨_, _, (ret_eq_ok.mp h).1.symm⟩
  · refine .inr ⟨by omega, ?_⟩
    rw [← applyRatio_eq]
    exact (ret_eq_ok.mp h).1.symm

theorem timApplyBody_effect {d : Nat} {ratio : Half} {s t : State} {r : Reply} (h : timApplyBody d ratio s = .ok (t, r)) :
    SameTransport s t ∧ ChanEffect d (RetimeCase s.cfg ratio) s t := by
  obtain ⟨k, n, rfl⟩ | ⟨hr, rfl⟩ := timApplyBody_cases h
  · exact ⟨⟨rfl, rfl⟩, .of_same rfl rfl⟩
  · exact ⟨⟨rfl, rfl⟩, .of_modify rfl rfl fun _ => ⟨hr, rfl⟩⟩

/-- R158: a supported Fi/Di byte sets the timing register (where the ratio is in range) and the timer's tick length. -/
def FidiCase (p : Config) (x y : Chan) : Prop :=
  ∃ ratio, (y.uart = x.uart ∨ ((p.ratioMin ≤ ratio.toNat ∧ ratio.toNat ≤ p.ratioMax) ∧ y.uart = ⟨ratio, true⟩)) ∧
    y = { x with uart := y.uart, wt := ({ x.wt with etu := ratio } : Wt).reloaded }

theorem cemFidiBody_effect {d : Nat} {fidi : Byte} {s t : State} {r : Reply} (h : cemFidiBody d fidi s = .ok (t, r)) :
    SameTransport s t ∧ ChanEffect d (FidiCase s.cfg) s t := by
  unfold cemFidiBody at h
  split at h
  · obtain ⟨rfl, -⟩ := ret_eq_ok.mp h
    exact ⟨⟨rfl, rfl⟩, .of_same rfl rfl⟩
  · obtain ⟨⟨u, ru⟩, hu, h⟩ := bind_eq_ok.mp h
    obtain ⟨rfl, -⟩ := ret_eq_ok.mp h
    obtain ⟨k, n, rfl⟩ | ⟨hr, rfl⟩ := timApplyBody_cases hu
    · exact ⟨⟨rfl, rfl⟩, .of_modify rfl rfl fun _ => ⟨_, .inl rfl, rfl⟩⟩
    · exact ⟨⟨rfl, rfl⟩, .of_modify_modify rfl rfl fun _ => ⟨_, .inr ⟨hr, rfl⟩, rfl⟩⟩

/-- R184: one tick of a running countdown. -/
inductive TickCase (x : Chan) : Chan → Prop
  | counts : x.wt.armed = true → 1 < x.wt.remaining → TickCase x { x with wt := { x.wt with remaining := x.wt.remaining - 1 } }
  | expires : x.wt.armed = true → x.wt.remaining = 1 →
      TickCase x { x with cem := { x.cem with nullPending := true }, wt := { x.wt with remaining := x.wt.period } }

theorem wtTickBody_effect {d : Nat} {s t : State} {r : Reply} (h : wtTickBody d s = .ok (t, r)) :
    SameTransport s t ∧ ChanEffect d TickCase s t := by
  simp only [wtTickBody] at h
  split at h
  · obtain ⟨rfl, -⟩ := ret_eq_ok.mp h
    exact ⟨⟨rfl, rfl⟩, .of_same rfl rfl⟩
  · rename_i harmed
    have harmed : (s.wt d).armed = true := by simpa using harmed
    split at h
    · exact nomatch h
    · split at h
      · obtain ⟨rfl, -⟩ := ret_eq_ok.mp h
        exact ⟨⟨rfl, rfl⟩, .of_modify rfl rfl fun _ => .counts harmed (show 1 < (s.wt d).remaining by omega)⟩
      · obtain ⟨rfl, -⟩ := ret_eq_ok.mp h
        exact ⟨⟨rfl, rfl⟩, .of_modify_modify rfl rfl fun _ =>
          .expires harmed (show (s.wt d).remaining = 1 by omega)⟩

/-! ### The receive interrupt (R140) -/

/-- R140: the error bits go to the status word, and the byte enters the ring buffer where there are none and there is room. -/
def IrqCase (p : Config) (status : Half) (b : Byte) (x y : Chan) : Prop :=
  y = { x with stat := errorBits status } ∨
    (x.rb.count p < p.rbUsable ∧ y = { x with stat := errorBits status, rb := x.rb.pushed p b })

theorem urxIrqBody_effect {d : Nat} {status : Half} {b : Byte} {s t : State} {r : Reply} (h : urxIrqBody d status b s = .ok (t, r)) :
    SameTransport s t ∧ ChanEffect d (IrqCase s.cfg status b) s t := by
  simp only [urxIrqBody, State.updChan_updChan] at h
  have hset : ChanEffect d (IrqCase s.cfg status b) s (s.updChan d fun x => { x with stat := errorBits status }) :=
    .of_modify rfl rfl fun _ => .inl rfl
  have hstat : s.updChan d ((fun x => { x with stat := x.stat ||| errorBits status }) ∘ fun x => { x with stat := 0#16 }) =
      s.updChan d fun x => { x with stat := errorBits status } := State.updChan_congr (by simp)
  rw [hstat] at h
  split at h
  · obtain ⟨⟨hctxs, heps⟩, hw⟩ := rbWriteBody_effect h
    refine ⟨⟨hctxs, heps⟩, hw.cfg, fun c => ?_⟩
    obtain hc | ⟨rfl, hlt, hcount, hc⟩ := hw.chan c
    · rw [hc]
      exact hset.chan c
    · have hlt : c < s.chans.length := by simpa using hlt
      rw [State.chan_updChan_same _ hlt] at hcount hc
      exact .inr ⟨rfl, hlt, .inr ⟨hcount, hc⟩⟩
  · obtain ⟨rfl, -⟩ := ret_eq_ok.mp h
    exact ⟨⟨rfl, rfl⟩, .of_modify rfl rfl fun _ => .inl rfl⟩

/-! ### State-entry procedures (R142) -/

/-- A channel whose engine has forgotten its TPDU and is in state `st`. -/
def Chan.cleared (st : CemState) (x : Chan) : Chan := { x with cem := { x.cem.noExchange with state := st }, wt := x.wt.stopped }

/-- A channel whose engine owes a procedure byte. -/
def Chan.owing (x : Chan) : Chan := { x with cem := { x.cem with dir := .none, state := .procedureByte }, wt := x.wt.started }

theorem clearExchange_eq (c : Nat) (s : State) :
    clearExchange c s = s.updChan c fun x => { x with cem := x.cem.noExchange, wt := x.wt.stopped } := State.updChan_updChan ..

theorem enterIdle_eq (c : Nat) (s : State) : enterIdle c s = s.updChan c (·.cleared .idle) := by
  rw [enterIdle, clearExchange_eq]
  exact State.updChan_updChan ..

theorem enterPb_eq (c : Nat) (s : State) : enterPb c s = s.updChan c Chan.owing := State.updChan_updChan ..

/-! ### Card signals (R143 to R149) -/

/-- All that a card signal can do to a channel. -/
inductive SignalCase (p : Config) (sig : Signal) (act : Bool) (x : Chan) : Chan → Prop
  | supply : sig ≠ .rst → act = true →
      ¬(x.cem.state = .poweredOff ∧ (x.cem.setLevel sig act).vcc = true ∧ (x.cem.setLevel sig act).clk = true) →
      SignalCase p sig act x { x with cem := x.cem.setLevel sig act }
  | powered : sig ≠ .rst → act = true → x.cem.state = .poweredOff → (x.cem.setLevel sig act).vcc = true →
      (x.cem.setLevel sig act).clk = true →
      SignalCase p sig act x { x with cem := { x.cem.setLevel sig act with state := if x.cem.rst then .inReset else .clockActive } }
  | clkLost : sig = .clk → act = false → SignalCase p sig act x { x with cem := { x.cem with clk := false } }
  | rstActive : sig = .rst → act = true → p.rstRestoresFidi = false →
      SignalCase p sig act x { x with cem := { x.cem.noExchange with rst := true, atrIdx := 0, state := .inReset }, wt := x.wt.stopped }
  | rstRestores (u : Uart) : sig = .rst → act = true → p.rstRestoresFidi = true →
      (u = x.uart ∨ ((p.ratioMin ≤ u.fidi.toNat ∧ u.fidi.toNat ≤ p.ratioMax) ∧ u.rxEn = true)) →
      SignalCase p sig act x { x with
        uart := u, cem := { x.cem.noExchange with rst := true, atrIdx := 0, state := .inReset }
        wt := { x.wt.stopped with etu := BitVec.ofNat 16 p.ratioReset } }
  | vccLost : sig = .vcc → act = false →
      SignalCase p sig act x
        { x with cem := { x.cem.noExchange with vcc := false, atrIdx := 0, state := .poweredOff }, wt := x.wt.stopped }
  | rstIgnored : sig = .rst → act = false → x.cem.rst = true → x.cem.state ≠ .inReset →
      SignalCase p sig act x { x with cem := { x.cem with rst := false } }
  | atr : sig = .rst → act = false → x.cem.state = .inReset → x.cem.vcc = true → x.cem.clk = true →
      SignalCase p sig act x { x with cem := { x.cem with rst := false, state := .atrTx, atrIdx := 0 } }
  | unpowered : sig = .rst → act = false → x.cem.state = .inReset → ¬(x.cem.vcc = true ∧ x.cem.clk = true) →
      SignalCase p sig act x { x with cem := { x.cem with rst := false, state := .poweredOff } }

/-- R144, R145: the supply or the clock of the card comes on. -/
theorem powerEval_case {p : Config} {sig : Signal} {x : Chan} (hsig : sig ≠ .rst) :
    SignalCase p sig true x { x with cem :=
      (if (x.cem.setLevel sig true).state = .poweredOff ∧ (x.cem.setLevel sig true).vcc = true ∧ (x.cem.setLevel sig true).clk = true then
        { x.cem.setLevel sig true with state := if (x.cem.setLevel sig true).rst then .inReset else .clockActive }
      else x.cem.setLevel sig true) } := by
  have hstate : (x.cem.setLevel sig true).state = x.cem.state := by cases sig <;> rfl
  have hrst : (x.cem.setLevel sig true).rst = x.cem.rst := by
    cases sig with
    | rst => exact absurd rfl hsig
    | vcc => rfl
    | clk => rfl
  rw [hstate, hrst]
  split
  · rename_i hon
    obtain ⟨hoff, hvcc, hclk⟩ := hon
    exact .powered hsig rfl hoff hvcc hclk
  · rename_i hon
    exact .supply hsig rfl hon

/-- R147: RST becomes active. -/
theorem rstActive_effect {d : Nat} {s t : State} {r : Reply}
    (h : rstActive d (s.updCem d fun x => x.setLevel .rst true) = .ok (t, r)) :
    SameTransport s t ∧ ChanEffect d (SignalCase s.cfg .rst true) s t := by
  simp only [rstActive, clearExchange_eq, State.updCem, State.updChan_updChan] at h
  split at h
  · rename_i hrestores
    obtain ⟨⟨u, ru⟩, hu, h⟩ := bind_eq_ok.mp h
    obtain ⟨rfl, -⟩ := ret_eq_ok.mp h
    obtain ⟨k, n, rfl⟩ | ⟨hr, rfl⟩ := timApplyBody_cases hu
    · exact ⟨⟨rfl, rfl⟩, .of_modify_modify rfl rfl fun _ => .rstRestores _ rfl rfl hrestores (.inl rfl)⟩
    · exact ⟨⟨rfl, rfl⟩, .of_modify_modify rfl (List.modify_modify_eq ..) fun _ =>
        .rstRestores ⟨_, true⟩ rfl rfl hrestores (.inr ⟨hr, rfl⟩)⟩
  · rename_i hrestores
    obtain ⟨rfl, -⟩ := ret_eq_ok.mp h
    exact ⟨⟨rfl, rfl⟩, .of_modify rfl rfl fun _ => .rstActive rfl rfl (by simpa using hrestores)⟩

/-- R148: VCC becomes inactive. -/
theorem vccInactive_eq (c : Nat) (s : State) : vccInactive c s =
    s.updChan c fun x => { x with cem := { x.cem.noExchange with atrIdx := 0, state := .poweredOff }, wt := x.wt.stopped } := by
  rw [vccInactive, clearExchange_eq]
  exact State.updChan_updChan ..

/-- R149: RST becomes inactive. -/
theorem rstInactive_case {p : Config} {x : Chan} (hlevel : x.cem.rst = true) :
    SignalCase p .rst false x { x with cem :=
      (if (x.cem.setLevel .rst false).state = .inReset then
        if (x.cem.setLevel .rst false).vcc = true ∧ (x.cem.setLevel .rst false).clk = true then
          { x.cem.setLevel .rst false with state := .atrTx, atrIdx := 0 }
        else { x.cem.setLevel .rst false with state := .poweredOff }
      else x.cem.setLevel .rst false) } := by
  split
  · rename_i hreset
    split
    · rename_i hon
      exact .atr rfl rfl hreset hon.1 hon.2
    · rename_i hon
      exact .unpowered rfl rfl hreset hon
  · rename_i hreset
    exact .rstIgnored rfl rfl hlevel hreset

theorem cemIosigBody_effect {d : Nat} {sig : Signal} {act : Bool} {s t : State} {r : Reply} (h : cemIosigBody d sig act s = .ok (t, r)) :
    SameTransport s t ∧ ChanEffect d (SignalCase s.cfg sig act) s t := by
  simp only [cemIosigBody] at h
  split at h
  · obtain ⟨rfl, -⟩ := ret_eq_ok.mp h
    exact ⟨⟨rfl, rfl⟩, .of_same rfl rfl⟩
  · rename_i hlevel
    split at h
    · obtain ⟨rfl, -⟩ := ret_eq_ok.mp h
      exact ⟨⟨rfl, rfl⟩, .of_modify_modify rfl rfl fun _ => powerEval_case nofun⟩
    · obtain ⟨rfl, -⟩ := ret_eq_ok.mp h
      exact ⟨⟨rfl, rfl⟩, .of_modify_modify rfl rfl fun _ => powerEval_case nofun⟩
    · obtain ⟨rfl, -⟩ := ret_eq_ok.mp h
      exact ⟨⟨rfl, rfl⟩, .of_modify rfl rfl fun _ => .clkLost rfl rfl⟩
    · exact rstActive_effect h
    · obtain ⟨rfl, -⟩ := ret_eq_ok.mp h
      rw [vccInactive_eq]
      exact ⟨⟨rfl, rfl⟩, .of_modify_modify rfl rfl fun _ => .vccLost rfl rfl⟩
    · obtain ⟨rfl, -⟩ := ret_eq_ok.mp h
      have hrst : (s.cem d).rst = true := by simpa [Cem.level] using hlevel
      exact ⟨⟨rfl, rfl⟩, .of_modify_modify rfl rfl fun _ => rstInactive_case hrst⟩

/-! ### Bytes to the reader (R150 to R153) -/

/-- All that handing out a byte can do to a channel. -/
inductive TransmitCase (p : Config) (x : Chan) : Chan → Prop
  | atrByte : x.cem.state = .atrTx → x.cem.atrIdx + 1 ≤ p.atr.length → x.cem.atrIdx + 1 ≠ p.atr.length →
      TransmitCase p x { x with cem := { x.cem with atrIdx := x.cem.atrIdx + 1 } }
  | atrEnd : x.cem.state = .atrTx → x.cem.atrIdx + 1 = p.atr.length →
      TransmitCase p x (Chan.cleared .idle { x with cem := { x.cem with atrIdx := x.cem.atrIdx + 1 } })
  | extension : x.cem.nullPending = true → x.cem.state = .procedureByte ∨ (x.cem.state = .dataExchange ∧ x.cem.dir = .tx) →
      TransmitCase p x { x with cem := { x.cem with nullPending := false }, wt := x.wt.restarted }
  | byte : x.cem.state = .dataExchange → x.cem.dir = .tx → x.cem.txIdx + 1 ≠ x.cem.txLen →
      TransmitCase p x { x with cem := { x.cem with txIdx := x.cem.txIdx + 1 } }
  | toIdle : x.cem.state = .dataExchange → x.cem.dir = .tx → x.cem.txIdx + 1 = x.cem.txLen → x.cem.cont = .tx →
      TransmitCase p x (x.cleared .idle)
  | toProcedure : x.cem.state = .dataExchange → x.cem.dir = .tx → x.cem.txIdx + 1 = x.cem.txLen → x.cem.cont = .rx →
      x.cem.rxLeft = 0 → TransmitCase p x (Chan.owing { x with cem := { x.cem with txLen := 0, txIdx := 0 } })
  | toReceive : x.cem.state = .dataExchange → x.cem.dir = .tx → x.cem.txIdx + 1 = x.cem.txLen → x.cem.cont = .rx →
      x.cem.rxLeft ≠ 0 → x.cem.nullPending = false →
      TransmitCase p x { x with cem := { x.cem with txLen := 0, txIdx := 0, dir := .rx, rxN := 0 } }

theorem txAtr_effect {d : Nat} {s t : State} {r : Reply} (hst : (s.cem d).state = .atrTx) (h : txAtr d s = .ok (t, r)) :
    SameTransport s t ∧ ChanEffect d (TransmitCase s.cfg) s t := by
  obtain ⟨b, hb, h⟩ := bind_eq_ok.mp h
  obtain ⟨rfl, -⟩ := ret_eq_ok.mp h
  have hle : (s.cem d).atrIdx + 1 ≤ s.cfg.atr.length := (memRead1_cases hb).1
  split
  · rename_i hend
    rw [enterIdle_eq]
    refine ⟨⟨rfl, rfl⟩, .of_modify_modify rfl rfl fun hd => .atrEnd hst ?_⟩
    rwa [State.cem_updCem_same _ hd] at hend
  · rename_i hend
    refine ⟨⟨rfl, rfl⟩, .of_modify rfl rfl fun hd => .atrByte hst hle ?_⟩
    rwa [State.cem_updCem_same _ hd] at hend

/-- R153: the end of a message to the reader. -/
theorem txFinish_effect {p : Config} {d : Nat} {s : State} (hst : (s.cem d).state = .dataExchange) (hdir : (s.cem d).dir = .tx)
    (hend : (s.cem d).txIdx + 1 = (s.cem d).txLen) (hnull : (s.cem d).nullPending = false) :
    SameTransport s (txFinish d (s.updCem d fun x => { x with txIdx := x.txIdx + 1 })) ∧
      ChanEffect d (TransmitCase p) s (txFinish d (s.updCem d fun x => { x with txIdx := x.txIdx + 1 })) := by
  simp only [txFinish, State.updCem, State.updChan_updChan, enterIdle_eq, enterPb_eq]
  split
  · rename_i hcont
    exact ⟨⟨rfl, rfl⟩, .of_modify rfl rfl fun hd => .toIdle hst hdir hend (by simpa [State.cem, hd] using hcont)⟩
  · rename_i hcont
    split
    · rename_i hleft
      exact ⟨⟨rfl, rfl⟩, .of_modify rfl rfl fun hd =>
        .toProcedure hst hdir hend (by simpa [State.cem, hd] using hcont) (by simpa [State.cem, hd] using hleft)⟩
    · rename_i hleft
      exact ⟨⟨rfl, rfl⟩, .of_modify rfl rfl fun hd =>
        .toReceive hst hdir hend (by simpa [State.cem, hd] using hcont) (by simpa [State.cem, hd] using hleft) hnull⟩

theorem txQueued_effect {d : Nat} {s t : State} {r : Reply} (hst : (s.cem d).state = .dataExchange) (hdir : (s.cem d).dir = .tx)
    (hnull : (s.cem d).nullPending = false) (h : txQueued d s = .ok (t, r)) :
    SameTransport s t ∧ ChanEffect d (TransmitCase s.cfg) s t := by
  obtain ⟨b, hb, h⟩ := bind_eq_ok.mp h
  obtain ⟨rfl, -⟩ := ret_eq_ok.mp h
  have hd : d < s.chans.length := by
    have hbound := (memRead1_cases hb).1
    by_contra hd
    simp [State.spaceSize, hd] at hbound
  rw [State.cem_updCem_same _ hd]
  split
  · rename_i hend
    exact txFinish_effect hst hdir hend hnull
  · rename_i hend
    exact ⟨⟨rfl, rfl⟩, .of_modify rfl rfl fun _ => .byte hst hdir hend⟩

/-- R151: a pending extension byte goes first. -/
theorem txNullOr_effect {d : Nat} {s t : State} {r : Reply} {orElse : Body}
    (hst : (s.cem d).state = .procedureByte ∨ ((s.cem d).state = .dataExchange ∧ (s.cem d).dir = .tx))
    (helse : (s.cem d).nullPending = false → orElse = .ok (t, r) → SameTransport s t ∧ ChanEffect d (TransmitCase s.cfg) s t)
    (h : txNullOr d s orElse = .ok (t, r)) : SameTransport s t ∧ ChanEffect d (TransmitCase s.cfg) s t := by
  unfold txNullOr at h
  split at h
  · rename_i hnull
    obtain ⟨rfl, -⟩ := ret_eq_ok.mp h
    exact ⟨⟨rfl, rfl⟩, .of_modify_modify rfl rfl fun _ => .extension hnull hst⟩
  · rename_i hnull
    exact helse (by simpa using hnull) h

theorem cemTxbyteBody_effect {d : Nat} {s t : State} {r : Reply} (h : cemTxbyteBody d s = .ok (t, r)) :
    SameTransport s t ∧ ChanEffect d (TransmitCase s.cfg) s t := by
  have hsame : ∀ rc v, ret s rc v = .ok (t, r) → SameTransport s t ∧ ChanEffect d (TransmitCase s.cfg) s t := by
    intro rc v h
    obtain ⟨rfl, -⟩ := ret_eq_ok.mp h
    exact ⟨⟨rfl, rfl⟩, .of_same rfl rfl⟩
  unfold cemTxbyteBody at h
  split at h
  · rename_i hst
    exact txAtr_effect hst h
  · rename_i hst
    exact txNullOr_effect (.inl hst) (fun _ => hsame _ _) h
  · rename_i hst
    split at h
    · rename_i hdir
      exact txNullOr_effect (.inr ⟨hst, hdir⟩) (txQueued_effect hst hdir) h
    · exact hsame _ _ h
  · exact hsame _ _ h

/-! ### Messages to the host (R156) -/

/-- R156: the context that a message is composed in, queued on endpoint `e`. -/
def Ctx.posted (e : Nat) (msg : List Byte) (x : Ctx) : Ctx :=
  { x with
    state := .usbTxPending, buf := x.buf.storeList 0 msg, size := msg.length, totLen := msg.length, idx := 0, owner := some e }

/-- R156: message `msg` of channel `c` went to context `h` and to the queue of endpoint `e`. -/
structure Posts (c : Nat) (msg : List Byte) (e h : Nat) (s t : State) : Prop where
  inEp : s.inEp c = some e
  free : s.leastFree h
  fits : msg.length ≤ s.cfg.ctxSize
  ctxs : t.ctxs = s.ctxs.modify h (Ctx.posted e msg)
  eps : t.eps = s.eps.modify e fun y => { y with queue := y.queue ++ [h] }

/-- Contexts and endpoints as they were, or with a message posted. -/
def MayPost (c : Nat) (s t : State) : Prop := SameTransport s t ∨ ∃ msg e h, Posts c msg e h s t

/-- All that sending a message can do (R156): without an IN endpoint or a free context it answers another code than OK and leaves a
diagnostic; else the message is posted and the sequence number advances. -/
theorem cemSend_cases {c : Nat} {flags : Byte} {bytes : List Byte} {s t : State} {r : Reply}
    (h : cemSend c flags bytes s = .ok (t, r)) :
    (r.rc ≠ .ok ∧ ∃ k n, t = s.diag k n) ∨
      (r.rc = .ok ∧ t.cfg = s.cfg ∧ t.chans = s.chans.modify c (fun x => { x with cem := { x.cem with seq := x.cem.seq + 1#8 } }) ∧
        ∃ msg e h, Posts c msg e h s t) := by
  unfold cemSend at h
  split at h
  · obtain ⟨rfl, rfl⟩ := ret_eq_ok.mp h
    exact .inl ⟨nofun, _, _, rfl⟩
  · rename_i e he
    obtain ⟨-, halloc⟩ | ⟨hfits, k, hk, halloc⟩ := State.alloc_cases s (5 + bytes.length) .uartTxPending <;> rw [halloc] at h
    · obtain ⟨rfl, rfl⟩ := ret_eq_ok.mp h
      exact .inl ⟨nofun, _, _, rfl⟩
    · obtain ⟨u, hu, h⟩ := bind_eq_ok.mp h
      obtain ⟨-, rfl⟩ := memWrite_cases hu
      obtain ⟨⟨v, rv⟩, henq, h⟩ := bind_eq_ok.mp h
      obtain ⟨rfl, rfl⟩ := ret_eq_ok.mp h
      unfold ubtEnqBody at henq
      split at henq
      · exact nomatch henq
      · split at henq
        · exact nomatch henq
        · obtain ⟨rfl, -⟩ := ret_eq_ok.mp henq
          have hfree := State.firstFree_eq_some.mp hk
          refine .inr ⟨rfl, rfl, rfl, deviceMessage (s.cem c).seq flags bytes, e, k, he, hfree, ?_, ?_, rfl⟩
          · simp only [deviceMessage, List.length_cons]
            omega
          · have hlen : (deviceMessage (s.cem c).seq flags bytes).length = 5 + bytes.length := by
              simp only [deviceMessage, List.length_cons]
              omega
            simp only [State.setMem, State.mem, State.ctx_updCtx_same _ hfree.1]
            simp only [State.updEp_ctxs, State.updCtx_ctxs, State.updCem_ctxs, List.modify_modify_eq]
            have hmod := State.updCtx_congr (s := s) (c := k) (g := Ctx.posted e (deviceMessage (s.cem c).seq flags bytes))
              (f := fun y => { y with
                state := .usbTxPending, buf := (s.ctx k).buf.storeList 0 (deviceMessage (s.cem c).seq flags bytes)
                size := 5 + bytes.length, totLen := 5 + bytes.length, idx := 0, owner := some e }) (by simp [Ctx.posted, hlen])
            exact congrArg State.ctxs hmod

theorem MayPost.of_updCem {c d : Nat} {f : Cem → Cem} {s t : State} (h : MayPost c (s.updCem d f) t) : MayPost c s t :=
  h.imp (fun ⟨hctxs, heps⟩ => ⟨hctxs, heps⟩) fun ⟨msg, e, k, hep, hfree, hfits, hctxs, heps⟩ =>
    ⟨msg, e, k, hep, hfree, hfits, hctxs, heps⟩

theorem MayPost.then_same {c : Nat} {s t u : State} (h : MayPost c s t) (hsame : SameTransport t u) : MayPost c s u :=
  h.imp (fun ⟨hctxs, heps⟩ => ⟨hsame.ctxs.trans hctxs, hsame.eps.trans heps⟩) fun ⟨msg, e, k, hep, hfree, hfits, hctxs, heps⟩ =>
    ⟨msg, e, k, hep, hfree, hfits, hsame.ctxs.trans hctxs, hsame.eps.trans heps⟩

/-! ### Bytes from the reader (R154 to R157) -/

/-- R155, R157: after a message the engine owes a procedure byte if it was queued, and has forgotten its TPDU if it was not. -/
def SentCase (x y : Chan) : Prop :=
  y = Chan.owing { x with cem := { x.cem with seq := x.cem.seq + 1#8 } } ∨ y = x.cleared .idle

theorem afterSend_effect {c : Nat} {flags : Byte} {bytes : List Byte} {s t : State} {r : Reply}
    (h : afterSend c (cemSend c flags bytes s) = .ok (t, r)) :
    MayPost c s t ∧ t.cfg = s.cfg ∧ ∃ g, t.chans = s.chans.modify c g ∧ ∀ x, SentCase x (g x) := by
  obtain ⟨⟨u, ru⟩, hu, h⟩ := bind_eq_ok.mp h
  dsimp only at h
  obtain ⟨hrc, k, n, rfl⟩ | ⟨hrc, hcfg, hchans, msg, e, k, hposts⟩ := cemSend_cases hu
  · rw [if_neg hrc] at h
    obtain ⟨rfl, -⟩ := ret_eq_ok.mp h
    rw [enterIdle_eq]
    exact ⟨.inl ⟨rfl, rfl⟩, rfl, _, rfl, fun _ => .inr rfl⟩
  · rw [if_pos hrc] at h
    obtain ⟨rfl, -⟩ := ret_eq_ok.mp h
    rw [enterPb_eq]
    refine ⟨MayPost.then_same (.inr ⟨msg, e, k, hposts⟩) ⟨rfl, rfl⟩, hcfg, _, ?_, fun _ => .inl rfl⟩
    rw [State.updChan_chans, hchans]
    exact List.modify_modify_eq ..

/-- The engine with the last header byte taken (R155). -/
def Cem.headerFull (x : Cem) (b : Byte) : Cem := { x with hdr := x.hdr.store 4 b, hdrN := 5, rxLeft := b.toNat, rxN := 0 }

/-- The engine with one more data byte taken (R157). -/
def Cem.dataTaken (x : Cem) (b : Byte) : Cem :=
  { x with rxbuf := x.rxbuf.store x.rxN b, rxN := x.rxN + 1, rxLeft := x.rxLeft - 1 }

/-- All that a byte from the reader can do to a channel. -/
inductive ReceiveCase (p : Config) (b : Byte) (x : Chan) : Chan → Prop
  | ignored : ReceiveCase p b x x
  | header : x.cem.state = .idle → x.cem.hdrN < 4 →
      ReceiveCase p b x { x with cem := { x.cem with hdr := x.cem.hdr.store x.cem.hdrN b, hdrN := x.cem.hdrN + 1 } }
  | headerEnd (y : Chan) : x.cem.state = .idle → x.cem.hdrN = 4 → SentCase { x with cem := x.cem.headerFull b } y →
      ReceiveCase p b x y
  | data : x.cem.state = .dataExchange → x.cem.dir = .rx → 2 ≤ x.cem.rxLeft → x.cem.rxN < p.rxbufCap →
      ReceiveCase p b x { x with cem := x.cem.dataTaken b }
  | dataEnd (y : Chan) : x.cem.state = .dataExchange → x.cem.dir = .rx → x.cem.rxLeft = 1 → x.cem.rxN < p.rxbufCap →
      SentCase { x with cem := x.cem.dataTaken b } y → ReceiveCase p b x y

theorem rxHeader_effect {d : Nat} {b : Byte} {s t : State} {r : Reply} (hst : (s.cem d).state = .idle) (h : rxHeader d b s = .ok (t, r)) :
    MayPost d s t ∧ ChanEffect d (ReceiveCase s.cfg b) s t := by
  by_cases hpps : (s.cem d).hdrN = 0 ∧ b = 0xFF#8
  · rw [rxHeader, if_pos hpps] at h
    obtain ⟨rfl, -⟩ := ret_eq_ok.mp h
    exact ⟨.inl ⟨rfl, rfl⟩, .of_same rfl rfl⟩
  · have hwrite := h
    rw [rxHeader, if_neg hpps] at hwrite
    obtain ⟨u, hu, -⟩ := bind_eq_ok.mp hwrite
    have hbound := (memWrite_cases hu).1
    simp only [State.spaceSize, hdrLen, List.length_singleton] at hbound
    have hd : d < s.chans.length := by
      by_contra hd
      simp [hd] at hbound
    rw [if_pos hd] at hbound
    by_cases hn : (s.cem d).hdrN = 4
    · rw [rxHeader_full hd hn] at h
      obtain ⟨hpost, hcfg, g, hg, hsent⟩ := afterSend_effect h
      exact ⟨hpost.of_updCem, .of_modify_modify hcfg hg fun _ => .headerEnd _ hst hn (hsent _)⟩
    · have hn : (s.cem d).hdrN < 4 := by omega
      rw [rxHeader_partial hd hn hpps] at h
      obtain ⟨rfl, -⟩ := ret_eq_ok.mp h
      exact ⟨.inl ⟨rfl, rfl⟩, .of_modify rfl rfl fun _ => .header hst hn⟩

theorem rxData_effect {d : Nat} {b : Byte} {s t : State} {r : Reply} (hst : (s.cem d).state = .dataExchange) (hdir : (s.cem d).dir = .rx)
    (h : rxData d b s = .ok (t, r)) : MayPost d s t ∧ ChanEffect d (ReceiveCase s.cfg b) s t := by
  have hleft : (s.cem d).rxLeft ≠ 0 := by
    intro hzero
    rw [rxData, if_pos hzero] at h
    exact nomatch h
  have hwrite := h
  rw [rxData, if_neg hleft] at hwrite
  obtain ⟨u, hu, -⟩ := bind_eq_ok.mp hwrite
  have hbound := (memWrite_cases hu).1
  simp only [State.spaceSize, List.length_singleton] at hbound
  have hd : d < s.chans.length := by
    by_contra hd
    simp [hd] at hbound
  rw [if_pos hd] at hbound
  by_cases hone : (s.cem d).rxLeft = 1
  · rw [rxData_full hd hbound hone] at h
    obtain ⟨hpost, hcfg, g, hg, hsent⟩ := afterSend_effect h
    refine ⟨hpost.of_updCem, .of_modify_modify hcfg hg fun _ => .dataEnd _ hst hdir hone hbound ?_⟩
    have hzero : (s.chan d).cem.rxLeft - 1 = 0 := Nat.sub_eq_zero_of_le (Nat.le_of_eq hone)
    simp only [Cem.dataTaken, hzero]
    exact hsent _
  · have htwo : 2 ≤ (s.cem d).rxLeft := by omega
    rw [rxData_partial hd hbound htwo] at h
    obtain ⟨rfl, -⟩ := ret_eq_ok.mp h
    exact ⟨.inl ⟨rfl, rfl⟩, .of_modify rfl rfl fun _ => .data hst hdir htwo hbound⟩

theorem cemRxbyteBody_effect {d : Nat} {b : Byte} {s t : State} {r : Reply} (h : cemRxbyteBody d b s = .ok (t, r)) :
    MayPost d s t ∧ ChanEffect d (ReceiveCase s.cfg b) s t := by
  have hdiscard : rxDiscard b s = .ok (t, r) → MayPost d s t ∧ ChanEffect d (ReceiveCase s.cfg b) s t := by
    intro h
    obtain ⟨rfl, -⟩ := ret_eq_ok.mp h
    exact ⟨.inl ⟨rfl, rfl⟩, .of_same rfl rfl⟩
  unfold cemRxbyteBody at h
  split at h
  · rename_i hst
    exact rxHeader_effect hst h
  · rename_i hst
    split at h
    · rename_i hdir
      exact rxData_effect hst hdir h
    · exact hdiscard h
  · exact hdiscard h

/-- R141: the engine took the oldest byte of the ring buffer, which leaves it. -/
def PumpCase (p : Config) (x y : Chan) : Prop :=
  x.rb.count p ≠ 0 ∧ ∃ b z, ReceiveCase p b x z ∧ y = { z with rb := z.rb.popped p }

theorem cemPumpBody_effect {d : Nat} {s t : State} {r : Reply} (h : cemPumpBody d s = .ok (t, r)) :
    MayPost d s t ∧ ChanEffect d (PumpCase s.cfg) s t := by
  unfold cemPumpBody at h
  split at h
  · obtain ⟨rfl, -⟩ := ret_eq_ok.mp h
    exact ⟨.inl ⟨rfl, rfl⟩, .of_same rfl rfl⟩
  · rename_i hempty
    have hcount : (s.rb d).count s.cfg ≠ 0 := by simpa [Ring.empty] using hempty
    obtain ⟨b, -, h⟩ := bind_eq_ok.mp h
    obtain ⟨⟨u, ru⟩, hu, h⟩ := bind_eq_ok.mp h
    obtain ⟨hpost, hchan⟩ := cemRxbyteBody_effect hu
    have hlen := (frame_cemRxbyteBody _ _ _ _ _ hu).l1
    dsimp only at h
    split at h
    · obtain ⟨rfl, -⟩ := ret_eq_ok.mp h
      exact ⟨.inl ⟨rfl, rfl⟩, .of_same rfl rfl⟩
    · obtain ⟨rfl, -⟩ := ret_eq_ok.mp h
      refine ⟨hpost.then_same ⟨rfl, rfl⟩, hchan.cfg, fun c => ?_⟩
      simp only [rbAdvance, State.chan_updRb, hlen, hchan.cfg]
      split
      · rename_i hd
        obtain ⟨rfl, hlt⟩ := hd
        obtain hsame | ⟨-, -, hcase⟩ := hchan.chan d
        · exact .inr ⟨rfl, hlt, hcount, b, _, .ignored, by rw [hsame]; rfl⟩
        · exact .inr ⟨rfl, hlt, hcount, b, _, hcase, rfl⟩
      · rename_i hd
        exact (hchan.chan c).imp_right fun ⟨hcd, hlt, _⟩ => absurd ⟨hcd.symm, hlt⟩ hd

/-! ### Messages from the host (R220 to R224) -/

/-- R224: the engine, which owed a procedure byte, takes the bytes of a message of the host. -/
def HandOverCase (p : Config) (x y : Chan) : Prop :=
  x.cem.state = .procedureByte ∧ ∃ (flags : Byte) (data : List Byte), 1 ≤ data.length ∧ data.length ≤ p.txqCap ∧
    y = { x with
      cem := { x.cem with
        txbuf := x.cem.txbuf.storeList 0 data, txLen := data.length, txIdx := 0, cont := contOf flags, dir := .tx
        state := .dataExchange }
      wt := x.wt.stopped }

/-- The messages that arrive on endpoint `e` go to channel `c` (R220). -/
def OutServes (p : Config) (e c : Nat) : Prop := ∃ f ∈ p.ifs, f.chan = c ∧ f.out = some e

/-- R220: a dispatch reaches at most the channel that its endpoint serves. -/
theorem ubtDispatchBody_effect {e : Nat} {s t : State} {r : Reply} (h : ubtDispatchBody e s = .ok (t, r)) (c : Nat) :
    t.chan c = s.chan c ∨ (c < s.chans.length ∧ OutServes s.cfg e c ∧ HandOverCase s.cfg (s.chan c) (t.chan c)) := by
  cases ubtDispatchBody_cases h with
  | empty => exact .inl rfl
  | drop => exact .inl rfl
  | acc k rest f flags data v _ _ hif hst _ _ hpos hfits =>
    have heffect := ChanEffect.of_modify (R := HandOverCase s.cfg) (s := s) (t := { s with
        chans := s.chans.modify f.chan fun y => { y with
          cem := { y.cem with
            txbuf := y.cem.txbuf.storeList 0 data, txLen := data.length, txIdx := 0, cont := contOf flags, dir := .tx
            state := .dataExchange }
          wt := { y.wt with armed := false, remaining := 0 } } }) rfl rfl
      fun _ => ⟨hst, flags, data, hpos, hfits, rfl⟩
    refine (heffect.chan c).imp_right fun ⟨hc, hlt, hcase⟩ => ⟨hlt, ⟨f, List.mem_of_find?_eq_some hif, hc.symm, ?_⟩, hcase⟩
    simpa using List.find?_some hif

/-- The messages that arrive on the OUT endpoint of interface `k` go to channel `c` (R199, R220). -/
def ProcessServes (p : Config) (k c : Nat) : Prop := ∃ f e, p.ifs[k]? = some f ∧ f.out = some e ∧ OutServes p e c

theorem refillTohostBody_chan {e : Nat} {draw : Bool} {s t : State} {r : Reply} (h : refillTohostBody e draw s = .ok (t, r)) (c : Nat) :
    t.chan c = s.chan c := by cases refillTohostBody_cases h <;> rfl

theorem refillFromhostBody_chan {e : Nat} {draw : Bool} {s t : State} {r : Reply} (h : refillFromhostBody e draw s = .ok (t, r))
    (c : Nat) : t.chan c = s.chan c := by cases refillFromhostBody_cases h <;> rfl

/-- One part of `UBT.PROCESS` reaches at most the channel that its interface's OUT endpoint serves (R199). -/
theorem partCase_effect {p : Proc} {s t : State} {n : Nat} {ends : Bool} (h : PartCase p s t n ends) (c : Nat) :
    t.chan c = s.chan c ∨ (c < s.chans.length ∧ ProcessServes s.cfg p.k c ∧
      HandOverCase s.cfg (s.chan c) (t.chan c)) := by
  cases h with
  | noif => exact .inl rfl
  | skip => exact .inl rfl
  | irq _ _ _ _ _ _ _ hr => exact .inl (refillTohostBody_chan hr c)
  | inn _ _ _ _ _ _ _ hr => exact .inl (refillTohostBody_chan hr c)
  | out _ _ _ _ _ _ _ hr => exact .inl (refillFromhostBody_chan hr c)
  | disp f e _ _ hf _ hout hr =>
    exact (ubtDispatchBody_effect hr c).imp_right fun ⟨hlt, hserves, hcase⟩ => ⟨hlt, ⟨f, e, hf, hout, hserves⟩, hcase⟩
  | dispEmpty f e _ _ hf _ hout hr =>
    exact (ubtDispatchBody_effect hr c).imp_right fun ⟨hlt, hserves, hcase⟩ => ⟨hlt, ⟨f, e, hf, hout, hserves⟩, hcase⟩

/-! ### Every operation -/

/-- What operation `i` can make of channel `c`, which was `x`. -/
inductive ChanCase (p : Config) (c : Nat) (x : Chan) : Instr → Chan → Prop
  | same (i : Instr) : ChanCase p c x i x
  | sysReset : ChanCase p c x .sysReset (Chan.reset p)
  | rbReset (d : Byte) : d.toNat = c → ChanCase p c x (.rbReset d) { x with rb := { x.rb with wr := 0, rd := 0 } }
  | rbWrite (d b : Byte) (y : Chan) : d.toNat = c → WriteCase p b x y → ChanCase p c x (.rbWrite d b) y
  | rbRead (d : Byte) (y : Chan) : d.toNat = c → ReadCase p x y → ChanCase p c x (.rbRead d) y
  | timApply (d : Byte) (ratio : Half) (y : Chan) : d.toNat = c → RetimeCase p ratio x y → ChanCase p c x (.timApply d ratio) y
  | urxIrq (d : Byte) (status : Half) (b : Byte) (y : Chan) : d.toNat = c → IrqCase p status b x y →
      ChanCase p c x (.urxIrq d status b) y
  | cemIosig (d : Byte) (sig : BitVec 2) (act : Bool) (y : Chan) : d.toNat = c → sig ≠ 3#2 → SignalCase p (signalOf sig) act x y →
      ChanCase p c x (.cemIosig d sig act) y
  | cemTxbyte (d : Byte) (y : Chan) : d.toNat = c → TransmitCase p x y → ChanCase p c x (.cemTxbyte d) y
  | cemRxbyte (d b : Byte) (y : Chan) : d.toNat = c → ReceiveCase p b x y → ChanCase p c x (.cemRxbyte d b) y
  | cemPump (d : Byte) (y : Chan) : d.toNat = c → PumpCase p x y → ChanCase p c x (.cemPump d) y
  | cemFidi (d fidi : Byte) (y : Chan) : d.toNat = c → FidiCase p x y → ChanCase p c x (.cemFidi d fidi) y
  | wtSetwt (d : Byte) (w : Half) : d.toNat = c →
      ChanCase p c x (.wtSetwt d w) { x with wt := ({ x.wt with wtime := w } : Wt).reloaded }
  | wtSetetu (d : Byte) (w : Half) : d.toNat = c →
      ChanCase p c x (.wtSetetu d w) { x with wt := ({ x.wt with etu := w } : Wt).reloaded }
  | wtTick (d : Byte) (y : Chan) : d.toNat = c → TickCase x y → ChanCase p c x (.wtTick d) y
  | ubtDispatch (e : Byte) (y : Chan) : OutServes p e.toNat c → HandOverCase p x y → ChanCase p c x (.ubtDispatch e) y
  | ubtProcess (k : Byte) (a b d : Bool) (y : Chan) : ProcessServes p k.toNat c → HandOverCase p x y →
      ChanCase p c x (.ubtProcess k a b d) y

theorem ChanCase.of_effect {d : Byte} {R : Chan → Chan → Prop} {i : Instr} {s t : State} (h : ChanEffect d.toNat R s t)
    (hR : ∀ x y, R x y → ChanCase s.cfg d.toNat x i y) (c : Nat) : ChanCase s.cfg c (s.chan c) i (t.chan c) := by
  obtain hsame | ⟨rfl, -, hr⟩ := h.chan c
  · rw [hsame]
    exact .same i
  · exact hR _ _ hr

theorem ChanCase.of_updChan {d : Byte} {g : Chan → Chan} {i : Instr} {s : State} (hg : ∀ x, ChanCase s.cfg d.toNat x i (g x))
    (c : Nat) : ChanCase s.cfg c (s.chan c) i ((s.updChan d.toNat g).chan c) := by
  have heffect : ChanEffect d.toNat (fun x y => ChanCase s.cfg d.toNat x i y) s (s.updChan d.toNat g) :=
    .of_modify rfl rfl fun _ => hg _
  exact .of_effect heffect (fun _ _ => id) c

theorem ChanCase.of_same {i : Instr} {s t : State} {c : Nat} (h : t.chan c = s.chan c) : ChanCase s.cfg c (s.chan c) i (t.chan c) := by
  rw [h]
  exact .same i

/-- Whatever a rule body does, each channel goes through a case of the operation. -/
theorem chanCase_body {i : Instr} {b : State → Body} {s t : State} {r : Reply} (hb : bodyOf i = some b)
    (hw : i.wellFormed s.cfg = true) (h : b s = .ok (t, r)) (c : Nat) : ChanCase s.cfg c (s.chan c) i (t.chan c) := by
  cases i <;> simp only [bodyOf, Option.some.injEq, reduceCtorEq] at hb <;> subst hb
  case rbReset d =>
    obtain ⟨rfl, -⟩ := ret_eq_ok.mp h
    exact .of_updChan (fun _ => .rbReset d rfl) c
  case rbWrite d b => exact .of_effect (rbWriteBody_effect h).2 (fun _ y => .rbWrite d b y rfl) c
  case rbRead d => exact .of_effect (rbReadBody_effect h).2 (fun _ y => .rbRead d y rfl) c
  case rbPeek d => exact .of_same (by rw [rbPeekBody_same h])
  case rbIsempty d =>
    obtain ⟨rfl, -⟩ := ret_eq_ok.mp h
    exact .same _
  case timRatio => exact .of_same (by rw [timRatioBody_same h])
  case timApply d ratio => exact .of_effect (timApplyBody_effect h).2 (fun _ y => .timApply d ratio y rfl) c
  case urxIrq d status b => exact .of_effect (urxIrqBody_effect h).2 (fun _ y => .urxIrq d status b y rfl) c
  case cemIosig d sig act =>
    have hsig : sig ≠ 3#2 := by
      simp only [Instr.wellFormed, Bool.and_eq_true, decide_eq_true_eq] at hw
      exact hw.2
    exact .of_effect (cemIosigBody_effect h).2 (fun _ y => .cemIosig d sig act y rfl hsig) c
  case cemTxbyte d => exact .of_effect (cemTxbyteBody_effect h).2 (fun _ y => .cemTxbyte d y rfl) c
  case cemRxbyte d b => exact .of_effect (cemRxbyteBody_effect h).2 (fun _ y => .cemRxbyte d b y rfl) c
  case cemPump d => exact .of_effect (cemPumpBody_effect h).2 (fun _ y => .cemPump d y rfl) c
  case cemFidi d fidi => exact .of_effect (cemFidiBody_effect h).2 (fun _ y => .cemFidi d fidi y rfl) c
  case wtSetwt d w =>
    obtain ⟨rfl, -⟩ := ret_eq_ok.mp h
    exact .of_updChan (fun _ => .wtSetwt d w rfl) c
  case wtSetetu d w =>
    obtain ⟨rfl, -⟩ := ret_eq_ok.mp h
    exact .of_updChan (fun _ => .wtSetetu d w rfl) c
  case wtTick d => exact .of_effect (wtTickBody_effect h).2 (fun _ y => .wtTick d y rfl) c
  case poolAlloc n st =>
    unfold poolAllocBody at h
    obtain ⟨-, halloc⟩ | ⟨-, k, -, halloc⟩ := State.alloc_cases s n.toNat (allocState st) <;> rw [halloc] at h
    · obtain ⟨rfl, -⟩ := ret_eq_ok.mp h
      exact .same _
    · obtain ⟨rfl, -⟩ := ret_eq_ok.mp h
      exact .same _
  case poolFree k =>
    unfold poolFreeBody at h
    split at h
    · exact nomatch h
    · split at h
      · exact nomatch h
      · split at h
        · exact nomatch h
        · obtain ⟨rfl, -⟩ := ret_eq_ok.mp h
          exact .same _
  case poolReport =>
    obtain ⟨rfl, -⟩ := ret_eq_ok.mp h
    exact .same _
  case ubtEnq e k =>
    unfold ubtEnqBody at h
    split at h
    · exact nomatch h
    · split at h
      · exact nomatch h
      · obtain ⟨rfl, -⟩ := ret_eq_ok.mp h
        exact .same _
  case ubtRefillTohost => cases refillTohostBody_cases h <;> exact .same _
  case ubtWcomplete => cases wcompleteBody_cases h <;> exact .same _
  case ubtRefillFromhost => cases refillFromhostBody_cases h <;> exact .same _
  case ubtRcomplete => cases rcompleteBody_cases h <;> exact .same _
  case ubtDispatch e =>
    obtain hsame | ⟨-, hserves, hcase⟩ := ubtDispatchBody_effect h c
    · exact .of_same hsame
    · exact .ubtDispatch e _ hserves hcase

/-- What the parts of a `UBT.PROCESS` of interface `k` have made of channel `c` since `s`. -/
structure PartsReach (s : State) (k c : Nat) (q : Proc) (u : State) : Prop where
  iface : q.k = k
  cfg : u.cfg = s.cfg
  chan : u.chan c = s.chan c ∨ (ProcessServes s.cfg k c ∧ HandOverCase s.cfg (s.chan c) (u.chan c))

/-- The parts hand over at most one message, because the engine then owes no procedure byte any more. -/
theorem PartsReach.part {s u v : State} {k c n : Nat} {q : Proc} {ends : Bool} (h : PartsReach s k c q u)
    (hpart : PartCase q u v n ends) : PartsReach s k c (q.next u v n) v := by
  refine ⟨h.iface, (frame_processPart hpart).cfg.trans h.cfg, ?_⟩
  obtain hsame | ⟨-, hserves, hcase⟩ := partCase_effect hpart c
  · rw [hsame]
    exact h.chan
  · rw [h.cfg, h.iface] at hserves
    rw [h.cfg] at hcase
    obtain hfirst | ⟨-, -, _, _, _, _, hafter⟩ := h.chan
    · exact .inr ⟨hserves, hfirst ▸ hcase⟩
    · have howes := hcase.1
      rw [hafter] at howes
      exact nomatch howes

theorem PartsReach.chanCase {s u : State} {k : Byte} {c : Nat} {q : Proc} (h : PartsReach s k.toNat c q u) (a b d : Bool) :
    ChanCase s.cfg c (s.chan c) (.ubtProcess k a b d) (u.chan c) := by
  obtain hsame | ⟨hserves, hcase⟩ := h.chan
  · exact .of_same hsame
  · exact .ubtProcess k a b d _ hserves hcase

theorem chanCase_processRun {fuel : Nat} {q : Proc} {k : Byte} {a b d : Bool} {s t : State} (hk : q.k = k.toNat)
    (h : processRun fuel q s = .next t) (c : Nat) : ChanCase s.cfg c (s.chan c) (.ubtProcess k a b d) (t.chan c) :=
  processRun_induct (P := PartsReach s k.toNat c) (Q := fun u => ChanCase s.cfg c (s.chan c) (.ubtProcess k a b d) (u.chan c))
    (last := fun _ _ _ _ hq hpart => (hq.part hpart).chanCase a b d)
    (more := fun _ _ _ _ hq hpart => hq.part hpart)
    (pass := fun _ _ hq => ⟨hq.iface, hq.cfg, hq.chan⟩)
    (stop := fun _ _ _ _ hq hpart => (hq.part hpart).chanCase a b d)
    (spent := fun _ _ hq => hq.chanCase a b d)
    fuel q s t ⟨hk, rfl, .inl rfl⟩ h

theorem chanCase_drainEnd {e : Nat} {i : Instr} {s t : State} (h : drainEnd e s = .next t) (c : Nat) :
    ChanCase s.cfg c (s.chan c) i (t.chan c) := by
  simp only [drainEnd] at h
  split at h
  · obtain rfl := next_inj h
    exact .same i
  · obtain ⟨u, r, hu, rfl⟩ | ⟨_, _, rfl⟩ := finish_next h
    · obtain ⟨-, rfl⟩ := drainBody_cases hu
      exact .same i
    · exact .same i

theorem chanCase_gate {i : Instr} {run : State → Outcome} {s t : State} {c : Nat}
    (hrun : i.wellFormed s.cfg = true → run s = .next t → ChanCase s.cfg c (s.chan c) i (t.chan c)) (h : gate i s run = .next t) :
    ChanCase s.cfg c (s.chan c) i (t.chan c) := by
  obtain ⟨_, rfl⟩ | ⟨_, rfl⟩ | ⟨hw, _, hr⟩ := gate_next h
  · exact .same i
  · exact .same i
  · exact hrun hw hr

theorem chanCase_exec {i : Instr} {s t : State} (h : exec i s = .next t) (c : Nat) : ChanCase s.cfg c (s.chan c) i (t.chan c) := by
  cases hb : bodyOf i with
  | some b =>
    rw [exec_body hb] at h
    refine chanCase_gate (fun hw hr => ?_) h
    obtain ⟨u, r, hu, rfl⟩ | ⟨_, _, rfl⟩ := finish_next hr
    · exact chanCase_body hb hw hu c
    · exact .same i
  | none =>
    cases i <;> simp only [bodyOf, reduceCtorEq] at hb
    case sysReset =>
      obtain rfl := next_inj h
      have hreset : (s.sysReset.answer .ok 0#8 0#16).chan c = Chan.reset s.cfg := State.chan_resetWith s.cfg c
      rw [hreset]
      exact .sysReset
    case ubtProcess => exact chanCase_gate (fun _ hr => chanCase_processRun rfl hr c) h
    case ubtDrain e =>
      rw [exec_ubtDrain] at h
      refine chanCase_gate (fun _ hr => ?_) h
      split at hr
      · obtain rfl := next_inj hr
        exact .same _
      · exact chanCase_drainEnd hr c

/-- Operation `i`, as a request or as the step that goes on with the rest of it, takes every channel through one of its cases. -/
theorem chanCase_runs {i : Instr} {s t : State} (h : Runs i s t) (c : Nat) : ChanCase s.cfg c (s.chan c) i (t.chan c) := by
  obtain hexec | ⟨p, k, -, -, hk, rfl, hresume⟩ | ⟨e, -, -, rfl, hend⟩ := runs_cases h
  · exact chanCase_exec hexec c
  · unfold processResume at hresume
    split at hresume
    · obtain rfl := next_inj hresume
      exact .same _
    · exact chanCase_processRun (s := s.passBoundary) hk hresume c
  · exact chanCase_drainEnd hend c

end Sys2Proof.Machine
end

section
/-! SUPPORT. Every case of an operation keeps the invariants of the channel (R19 to R32, R183). -/

namespace Sys2Proof.Machine

variable {p : Config} {x y : Chan}

/-- R50: a byte written below the bound keeps a store canonical and within it. -/
theorem Memory.within_store {n a : Nat} {m : Memory} (h : Memory.within n m) (ha : a < n) (b : Byte) : Memory.within n (m.store a b) :=
  ⟨Memory.wf_store h.1 a b, Memory.bound_storeList n [b] h.2 (by simpa using ha)⟩

/-- R50: bytes written from the start of a store, and fitting it, keep it canonical and within its bound. -/
theorem Memory.within_storeList {n : Nat} {m : Memory} (h : Memory.within n m) {bs : List Byte} (hbs : bs.length ≤ n) :
    Memory.within n (m.storeList 0 bs) := ⟨Memory.wf_storeList bs h.1 0, Memory.bound_storeList n bs h.2 (by omega)⟩

/-! ### The timer (R32, R183) -/

/-- The clauses of R32 about the countdown alone. -/
abbrev Wt.CountOk (w : Wt) : Prop :=
  (w.armed = true → 0 < w.period ∧ 1 ≤ w.remaining ∧ w.remaining ≤ w.period) ∧ (w.armed = false → w.remaining = 0)

theorem Wt.countOk_stopped (w : Wt) : w.stopped.CountOk := by simp [Wt.CountOk, Wt.stopped]

theorem Wt.countOk_started (w : Wt) : w.started.CountOk := by
  unfold Wt.started
  split
  · rename_i hpos
    exact ⟨fun _ => ⟨hpos, hpos, Nat.le_refl _⟩, nofun⟩
  · exact w.countOk_stopped

/-- R181, R186: a change of the period reloads a running countdown and leaves a stopped one stopped. -/
theorem Wt.countOk_reloaded {w : Wt} (h : w.armed = false → w.remaining = 0) : w.reloaded.CountOk := by
  unfold Wt.reloaded
  split
  · exact w.countOk_started
  · rename_i hstopped
    exact ⟨fun harmed => absurd harmed hstopped, h⟩

theorem Wt.countOk_restarted {w : Wt} (h : w.CountOk) : w.restarted.CountOk := by
  unfold Wt.restarted
  split
  · rename_i harmed
    obtain ⟨hpos, _, _⟩ := h.1 harmed
    exact ⟨fun _ => ⟨hpos, hpos, Nat.le_refl _⟩, fun hstopped => absurd (harmed.symm.trans hstopped) nofun⟩
  · exact h

theorem Wt.armed_of_reloaded {w : Wt} (h : w.reloaded.armed = true) : w.armed = true := by
  by_contra hstopped
  rw [Wt.reloaded, if_neg hstopped] at h
  exact hstopped h

theorem Wt.armed_restarted (w : Wt) : w.restarted.armed = w.armed := by
  unfold Wt.restarted
  split <;> rfl

theorem timerOk_iff : TimerOk x ↔ x.wt.CountOk ∧ (x.wt.armed = true → x.cem.state = .procedureByte) := by
  simp only [TimerOk, Wt.CountOk]
  tauto

/-! ### The engine -/

/-- The invariants of a channel that speak of its engine and its timer. -/
abbrev EngineOk (p : Config) (x : Chan) : Prop :=
  LevelsOk x.cem ∧ HeaderOk x.cem ∧ ExchangeOk p x.cem ∧ BuffersOk p x.cem ∧ TimerOk x

/-- A running countdown is a sign that the engine owes a procedure byte. -/
theorem EngineOk.stopped (h : EngineOk p x) (hst : x.cem.state ≠ .procedureByte) : x.wt.armed = false := by
  obtain ⟨-, -, -, -, htimer⟩ := h
  by_contra harmed
  exact hst ((timerOk_iff.mp htimer).2 (by simpa using harmed))

/-- R24: in the states of an exchange the card is supplied and out of reset. -/
theorem EngineOk.active (h : EngineOk p x) (hoff : x.cem.state ≠ .poweredOff) (hreset : x.cem.state ≠ .inReset) :
    x.cem.vcc = true ∧ x.cem.rst = false := h.1.2.2 hoff hreset

/-- R29: only a data exchange has a direction. -/
theorem EngineOk.dir_none (h : EngineOk p x) (hst : x.cem.state ≠ .dataExchange) : x.cem.dir = .none := by
  obtain ⟨-, -, ⟨-, -, -, -, hdir, -⟩, -⟩ := h
  exact hdir.mpr hst

/-- R142: the engine with no TPDU in progress, idle. -/
theorem engineOk_idle (hlevels : x.cem.vcc = true ∧ x.cem.rst = false) (hatr : x.cem.atrIdx ≤ p.atr.length)
    (hbuffers : BuffersOk p x.cem) : EngineOk p (x.cleared .idle) := by
  refine ⟨⟨nofun, nofun, fun _ _ => hlevels⟩, ?_, ?_, hbuffers, timerOk_iff.mpr ⟨x.wt.countOk_stopped, nofun⟩⟩
  · simp [Chan.cleared, Cem.noExchange, HeaderOk]
  · simp [Chan.cleared, Cem.noExchange, ExchangeOk, hatr]

/-- R142: the engine that owes a procedure byte, after the header and with no byte to the reader left. -/
theorem engineOk_owing (hlevels : x.cem.vcc = true ∧ x.cem.rst = false) (hatr : x.cem.atrIdx ≤ p.atr.length)
    (hbuffers : BuffersOk p x.cem) (hhdr : x.cem.hdrN = 5) (hidx : x.cem.txIdx = 0) (hlen : x.cem.txLen = 0)
    (hrx : x.cem.rxN + x.cem.rxLeft ≤ 255) : EngineOk p x.owing := by
  refine ⟨⟨nofun, nofun, fun _ _ => hlevels⟩, ?_, ?_, hbuffers, timerOk_iff.mpr ⟨x.wt.countOk_started, fun _ => rfl⟩⟩
  · simp [Chan.owing, HeaderOk, hhdr]
  · simp [Chan.owing, ExchangeOk, hatr, hidx, hlen, hrx]

/-- What a channel needs after the last byte of a header or of a data field (R155, R157), whether its message was queued or not. -/
theorem engineOk_sent (h : SentCase x y) (hlevels : x.cem.vcc = true ∧ x.cem.rst = false) (hatr : x.cem.atrIdx ≤ p.atr.length)
    (hbuffers : BuffersOk p x.cem) (hhdr : x.cem.hdrN = 5) (hidx : x.cem.txIdx = 0) (hlen : x.cem.txLen = 0)
    (hrx : x.cem.rxN + x.cem.rxLeft ≤ 255) : EngineOk p y := by
  obtain rfl | rfl := h
  · exact engineOk_owing hlevels hatr hbuffers hhdr hidx hlen hrx
  · exact engineOk_idle hlevels hatr hbuffers

/-! ### Bytes from the reader -/

theorem ReceiveCase.engineOk {b : Byte} (hx : EngineOk p x) (h : ReceiveCase p b x y) : EngineOk p y := by
  have hx' := hx
  obtain ⟨hlevels, hheader, hexchange, ⟨hhdr, htxbuf, hrxbuf⟩, htimer⟩ := hx'
  have hexchange' := hexchange
  obtain ⟨hatr, hatrTx, hidx, hlen, hdirnone, htx, htxlen, -, hrx, hnull⟩ := hexchange'
  cases h with
  | ignored => exact hx
  | header hst hn =>
    have hbound : x.cem.hdrN < hdrLen := Nat.lt_succ_of_lt hn
    refine ⟨hlevels, ?_, hexchange, ⟨Memory.within_store hhdr hbound b, htxbuf, hrxbuf⟩, htimer⟩
    simp [HeaderOk, hst]
    omega
  | headerEnd y hst hn hsent =>
    have hdir : x.cem.dir ≠ .tx := by simp [hx.dir_none (by simp [hst])]
    refine engineOk_sent hsent (hx.active (by simp [hst]) (by simp [hst])) hatr
      ⟨Memory.within_store hhdr (by decide) b, htxbuf, hrxbuf⟩ rfl ?_ (htxlen hdir) ?_
    · exact Nat.le_zero.mp (htxlen hdir ▸ hidx)
    · simp only [Cem.headerFull]
      omega
  | data hst hdir htwo hcap =>
    have hleft : 1 ≤ x.cem.rxLeft - 1 := by omega
    have hsum : x.cem.rxN + 1 + (x.cem.rxLeft - 1) ≤ 255 := by omega
    exact ⟨hlevels, hheader, ⟨hatr, hatrTx, hidx, hlen, hdirnone, htx, htxlen, fun _ => hleft, hsum, hnull⟩,
      ⟨hhdr, htxbuf, Memory.within_store hrxbuf hcap b⟩, htimer⟩
  | dataEnd y hst hdir hone hcap hsent =>
    have hdir' : x.cem.dir ≠ .tx := by simp [hdir]
    refine engineOk_sent hsent (hx.active (by simp [hst]) (by simp [hst])) hatr
      ⟨hhdr, htxbuf, Memory.within_store hrxbuf hcap b⟩ (hheader.2.1 (.inr hst)) ?_ (htxlen hdir') ?_
    · exact Nat.le_zero.mp (htxlen hdir' ▸ hidx)
    · simp only [Cem.dataTaken]
      omega

/-! ### Bytes to the reader -/

theorem TransmitCase.engineOk (hx : EngineOk p x) (h : TransmitCase p x y) : EngineOk p y := by
  have hx' := hx
  obtain ⟨hlevels, hheader, hexchange, hbuffers, htimer⟩ := hx'
  obtain ⟨hatr, hatrTx, hidx, hlen, hdirnone, htx, htxlen, hrxleft, hrx, hnull⟩ := hexchange
  cases h with
  | atrByte hst hle hne =>
    refine ⟨hlevels, hheader, ?_, hbuffers, htimer⟩
    exact ⟨hle, fun _ => Nat.lt_of_le_of_ne hle hne, hidx, hlen, hdirnone, htx, htxlen, hrxleft, hrx, hnull⟩
  | atrEnd hst hend =>
    exact engineOk_idle (hx.active (by simp [hst]) (by simp [hst])) (Nat.le_of_eq hend) hbuffers
  | extension hpending hst =>
    refine ⟨hlevels, hheader, ⟨hatr, hatrTx, hidx, hlen, hdirnone, htx, htxlen, hrxleft, hrx, nofun⟩, hbuffers, ?_⟩
    obtain ⟨hcount, hstate⟩ := timerOk_iff.mp htimer
    exact timerOk_iff.mpr ⟨Wt.countOk_restarted hcount, fun harmed => hstate (x.wt.armed_restarted ▸ harmed)⟩
  | byte hst hdir hne =>
    have hlt := htx hdir
    refine ⟨hlevels, hheader, ?_, hbuffers, htimer⟩
    have hmore : x.cem.txIdx + 1 < x.cem.txLen := by omega
    exact ⟨hatr, hatrTx, Nat.le_of_lt hmore, hlen, hdirnone, fun _ => hmore, htxlen, hrxleft, hrx, hnull⟩
  | toIdle hst hdir hend hcont => exact engineOk_idle (hx.active (by simp [hst]) (by simp [hst])) hatr hbuffers
  | toProcedure hst hdir hend hcont hleft =>
    exact engineOk_owing (hx.active (by simp [hst]) (by simp [hst])) hatr hbuffers (hheader.2.1 (.inr hst)) rfl rfl hrx
  | toReceive hst hdir hend hcont hleft hnone =>
    refine ⟨hlevels, hheader, ?_, hbuffers, htimer⟩
    simp only [ExchangeOk, hst, hnone]
    simp [hatr]
    omega

/-! ### Card signals -/

/-- The states of the engine before an exchange (R24). -/
def CemState.Before (st : CemState) : Prop := st ≠ .idle ∧ st ≠ .procedureByte ∧ st ≠ .dataExchange

@[simp] theorem CemState.before_poweredOff : CemState.poweredOff.Before := ⟨nofun, nofun, nofun⟩
@[simp] theorem CemState.before_clockActive : CemState.clockActive.Before := ⟨nofun, nofun, nofun⟩
@[simp] theorem CemState.before_inReset : CemState.inReset.Before := ⟨nofun, nofun, nofun⟩
@[simp] theorem CemState.before_atrTx : CemState.atrTx.Before := ⟨nofun, nofun, nofun⟩

/-- A channel with no TPDU and no countdown in progress. -/
structure Quiet (p : Config) (x : Chan) : Prop where
  hdrN : x.cem.hdrN = 0
  dir : x.cem.dir = .none
  txIdx : x.cem.txIdx = 0
  txLen : x.cem.txLen = 0
  rx : x.cem.rxN + x.cem.rxLeft ≤ 255
  null : x.cem.nullPending = false
  atr : x.cem.atrIdx ≤ p.atr.length
  buffers : BuffersOk p x.cem
  armed : x.wt.armed = false
  remaining : x.wt.remaining = 0

theorem EngineOk.quiet (hx : EngineOk p x) (hst : x.cem.state.Before) : Quiet p x := by
  have hstopped := hx.stopped hst.2.1
  obtain ⟨-, ⟨-, -, hheader⟩, ⟨hatr, -, hidx, -, hdir, -, hlen, -, hrx, hnull⟩, hbuffers, -, hremaining⟩ := hx
  have hnone := hdir.mpr hst.2.2
  have hzero : x.cem.txLen = 0 := hlen (by simp [hnone])
  refine ⟨hheader hst.1 hst.2.1 hst.2.2, hnone, by omega, hzero, hrx, ?_, hatr, hbuffers, hstopped, hremaining hstopped⟩
  by_contra hpending
  simp [hst.2.1, hnone] at hnull
  exact hpending hnull

theorem Quiet.engineOk (hx : Quiet p x) (hst : x.cem.state.Before) (hlevels : LevelsOk x.cem)
    (hatr : x.cem.state = .atrTx → x.cem.atrIdx < p.atr.length) : EngineOk p x := by
  obtain ⟨hhdr, hdir, hidx, hlen, hrx, hnull, hle, hbuffers, harmed, hremaining⟩ := hx
  obtain ⟨hidle, hpb, hdata⟩ := hst
  refine ⟨hlevels, ?_, ?_, hbuffers, ?_⟩
  · simp [HeaderOk, hidle, hpb, hdata, hhdr]
  · exact ⟨hle, hatr, by omega, by omega, by simp [hdir, hdata], by simp [hdir], fun _ => hlen, by simp [hdir], hrx, by simp [hnull]⟩
  · simp [TimerOk, harmed, hremaining]

/-- R142, R147, R148: a channel whose TPDU and ATR are forgotten, whatever its signals. -/
theorem quiet_forgotten (hbuffers : BuffersOk p x.cem) {z : Chan}
    (hcem : ∃ vcc clk rst st, z.cem = { x.cem.noExchange with vcc := vcc, clk := clk, rst := rst, atrIdx := 0, state := st })
    (harmed : z.wt.armed = false) (hremaining : z.wt.remaining = 0) : Quiet p z := by
  obtain ⟨vcc, clk, rst, st, hcem⟩ := hcem
  refine ⟨?_, ?_, ?_, ?_, ?_, ?_, ?_, ?_, harmed, hremaining⟩ <;> rw [hcem]
  case refine_8 => exact hbuffers
  all_goals simp [Cem.noExchange]

/-- A change of the signals' levels and of the state outside an exchange. -/
theorem Quiet.of_levels {f : Cem} (hx : Quiet p x) {n : Nat} (hn : n ≤ p.atr.length)
    (hf : ∃ vcc clk rst st, f = { x.cem with vcc := vcc, clk := clk, rst := rst, state := st, atrIdx := n }) :
    Quiet p { x with cem := f } := by
  obtain ⟨vcc, clk, rst, st, rfl⟩ := hf
  exact { hx with atr := hn }

/-- A change of a signal's level that changes nothing else of the engine. -/
theorem EngineOk.of_levels {f : Cem} (hx : EngineOk p x) (hf : ∃ vcc clk rst, f = { x.cem with vcc := vcc, clk := clk, rst := rst })
    (hlevels : LevelsOk f) : EngineOk p { x with cem := f } := by
  obtain ⟨vcc, clk, rst, rfl⟩ := hf
  obtain ⟨-, hheader, hexchange, hbuffers, htimer⟩ := hx
  exact ⟨hlevels, hheader, hexchange, hbuffers, htimer⟩

theorem SignalCase.engineOk {sig : Signal} {act : Bool} (hp : ConfigFacts p) (hx : EngineOk p x) (h : SignalCase p sig act x y) :
    EngineOk p y := by
  have hx' := hx
  obtain ⟨⟨hoff, hreset, hactive⟩, -, -, hbuffers, -⟩ := hx'
  have hlen := hp.atr.1
  cases h with
  | supply hsig hact hstays =>
    subst hact
    cases sig with
    | rst => exact absurd rfl hsig
    | vcc =>
      refine hx.of_levels ⟨true, x.cem.clk, x.cem.rst, rfl⟩ ⟨fun hst hon => hstays ⟨hst, hon⟩, hreset, fun h1 h2 => ?_⟩
      exact ⟨rfl, (hactive h1 h2).2⟩
    | clk =>
      exact hx.of_levels ⟨x.cem.vcc, true, x.cem.rst, rfl⟩ ⟨fun hst hon => hstays ⟨hst, hon⟩, hreset, hactive⟩
  | powered hsig hact hst hvcc hclk =>
    have hrst : (x.cem.setLevel sig act).rst = x.cem.rst := by
      cases sig with
      | rst => exact absurd rfl hsig
      | vcc => rfl
      | clk => rfl
    have hquiet := hx.quiet (by simp [hst])
    refine Quiet.engineOk (hquiet.of_levels hquiet.atr ?_) ?_ ?_ ?_
    · cases sig <;> exact ⟨_, _, _, _, rfl⟩
    · by_cases hr : x.cem.rst = true <;> simp [hr]
    · by_cases hr : x.cem.rst = true <;> simp [LevelsOk, hr, hrst, hvcc]
    · by_cases hr : x.cem.rst = true <;> simp [hr]
  | clkLost hsig hact =>
    exact hx.of_levels ⟨x.cem.vcc, false, x.cem.rst, rfl⟩ ⟨fun _ => by simp, hreset, hactive⟩
  | rstActive hsig hact hkeep =>
    exact (quiet_forgotten hbuffers ⟨x.cem.vcc, x.cem.clk, true, .inReset, rfl⟩ rfl rfl).engineOk (by simp) (by simp [LevelsOk]) nofun
  | rstRestores u hsig hact hrestores hu =>
    exact (quiet_forgotten hbuffers ⟨x.cem.vcc, x.cem.clk, true, .inReset, rfl⟩ rfl rfl).engineOk (by simp) (by simp [LevelsOk]) nofun
  | vccLost hsig hact =>
    exact (quiet_forgotten hbuffers ⟨false, x.cem.clk, x.cem.rst, .poweredOff, rfl⟩ rfl rfl).engineOk (by simp) (by simp [LevelsOk]) nofun
  | rstIgnored hsig hact hrst hst =>
    refine hx.of_levels ⟨x.cem.vcc, x.cem.clk, false, rfl⟩ ⟨hoff, fun h => absurd h hst, fun h1 h2 => ?_⟩
    exact ⟨(hactive h1 h2).1, rfl⟩
  | atr hsig hact hst hvcc hclk =>
    have hquiet := (hx.quiet (by simp [hst])).of_levels (Nat.zero_le _) ⟨x.cem.vcc, x.cem.clk, false, .atrTx, rfl⟩
    exact hquiet.engineOk (by simp) (by simp [LevelsOk, hvcc]) fun _ => hlen
  | unpowered hsig hact hst hstays =>
    have hquiet := hx.quiet (by simp [hst])
    have hoff := hquiet.of_levels hquiet.atr ⟨x.cem.vcc, x.cem.clk, false, .poweredOff, rfl⟩
    exact hoff.engineOk (by simp) ⟨fun _ => hstays, nofun, fun h => absurd rfl h⟩ nofun

/-! ### Messages of the host and ticks -/

theorem HandOverCase.engineOk (hx : EngineOk p x) (h : HandOverCase p x y) : EngineOk p y := by
  obtain ⟨hst, flags, data, hpos, hfits, rfl⟩ := h
  have hactive := hx.active (by simp [hst]) (by simp [hst])
  obtain ⟨-, hheader, ⟨hatr, -, -, -, -, -, -, -, hrx, -⟩, ⟨hhdr, htxbuf, hrxbuf⟩, -⟩ := hx
  refine ⟨⟨nofun, nofun, fun _ _ => hactive⟩, ⟨nofun, fun _ => hheader.2.1 (.inl hst), fun _ _ h => absurd rfl h⟩, ?_,
    ⟨hhdr, Memory.within_storeList htxbuf hfits, hrxbuf⟩, timerOk_iff.mpr ⟨x.wt.countOk_stopped, nofun⟩⟩
  simp [ExchangeOk, hatr, hrx, hfits]
  omega

theorem TickCase.engineOk (hx : EngineOk p x) (h : TickCase x y) : EngineOk p y := by
  obtain ⟨hlevels, hheader, hexchange, hbuffers, htimer⟩ := hx
  obtain ⟨⟨hrunning, -⟩, hstate⟩ := timerOk_iff.mp htimer
  cases h with
  | counts harmed hmore =>
    obtain ⟨hpos, hone, hle⟩ := hrunning harmed
    have hleft : 1 ≤ x.wt.remaining - 1 ∧ x.wt.remaining - 1 ≤ x.wt.period := by omega
    exact ⟨hlevels, hheader, hexchange, hbuffers,
      timerOk_iff.mpr ⟨⟨fun _ => ⟨hpos, hleft⟩, fun hstopped => absurd (harmed.symm.trans hstopped) nofun⟩, hstate⟩⟩
  | expires harmed hone =>
    obtain ⟨hpos, -, -⟩ := hrunning harmed
    have hst := hstate harmed
    obtain ⟨hatr, hatrTx, hidx, hlen, hdir, htx, htxlen, hrxleft, hrx, -⟩ := hexchange
    exact ⟨hlevels, hheader, ⟨hatr, hatrTx, hidx, hlen, hdir, htx, htxlen, hrxleft, hrx, fun _ => .inl hst⟩, hbuffers,
      timerOk_iff.mpr ⟨⟨fun _ => ⟨hpos, hpos, Nat.le_refl _⟩, fun hstopped => absurd (harmed.symm.trans hstopped) nofun⟩, hstate⟩⟩

/-- A new period reloads a running countdown (R181, R186). -/
theorem engineOk_reloaded (hx : EngineOk p x) (wtime etu : Half) (u : Uart) :
    EngineOk p { x with uart := u, wt := ({ x.wt with wtime := wtime, etu := etu } : Wt).reloaded } := by
  obtain ⟨hlevels, hheader, hexchange, hbuffers, htimer⟩ := hx
  obtain ⟨⟨-, hstopped⟩, hstate⟩ := timerOk_iff.mp htimer
  refine ⟨hlevels, hheader, hexchange, hbuffers, timerOk_iff.mpr ⟨Wt.countOk_reloaded hstopped, fun harmed => hstate ?_⟩⟩
  exact Wt.armed_of_reloaded (w := { x.wt with wtime := wtime, etu := etu }) harmed

/-! ### Every operation -/

theorem uartOk_set (hx : UartOk p x) {u : Uart}
    (hu : u = x.uart ∨ ((p.ratioMin ≤ u.fidi.toNat ∧ u.fidi.toNat ≤ p.ratioMax) ∧ u.rxEn = true)) : UartOk p { x with uart := u } := by
  obtain rfl | ⟨⟨hmin, hmax⟩, hen⟩ := hu
  · exact hx
  · exact ⟨hmin, hmax, hen, hx.2.2.2⟩

/-- R22, R92: the status word takes error bits alone. -/
theorem uartOk_errors (hx : UartOk p x) (status : Half) : UartOk p { x with stat := errorBits status } := by
  refine ⟨hx.1, hx.2.1, hx.2.2.1, ?_⟩
  simp [errorBits, errMask, BitVec.and_assoc]

/-- What a case leaves of the ring buffer, the UART registers and the status word. -/
abbrev FrontSame (x y : Chan) : Prop := y.rb = x.rb ∧ y.uart = x.uart ∧ y.stat = x.stat

theorem SentCase.front (h : SentCase x y) : FrontSame x y := by
  obtain rfl | rfl := h <;> exact ⟨rfl, rfl, rfl⟩

theorem ReceiveCase.front {b : Byte} (h : ReceiveCase p b x y) : FrontSame x y := by
  cases h with
  | ignored => exact ⟨rfl, rfl, rfl⟩
  | header => exact ⟨rfl, rfl, rfl⟩
  | headerEnd _ _ _ hsent => exact hsent.front
  | data => exact ⟨rfl, rfl, rfl⟩
  | dataEnd _ _ _ _ _ hsent => exact hsent.front

theorem TransmitCase.front (h : TransmitCase p x y) : FrontSame x y := by
  cases h <;> exact ⟨rfl, rfl, rfl⟩

theorem HandOverCase.front (h : HandOverCase p x y) : FrontSame x y := by
  obtain ⟨_, _, _, _, _, rfl⟩ := h
  exact ⟨rfl, rfl, rfl⟩

theorem TickCase.front (h : TickCase x y) : FrontSame x y := by
  cases h <;> exact ⟨rfl, rfl, rfl⟩

theorem uartOk_of_front (hx : UartOk p x) (h : FrontSame x y) : UartOk p y := by
  obtain ⟨-, huart, hstat⟩ := h
  simp only [UartOk, huart, hstat]
  exact hx

theorem chanOk_of_front (hx : ChanOk p x) (h : FrontSame x y) (hy : EngineOk p y) : ChanOk p y :=
  ⟨h.1 ▸ hx.1, uartOk_of_front hx.2.1 h, hy⟩

/-- A card signal leaves the ring buffer and the status word, and the timing register in range. -/
theorem SignalCase.front {sig : Signal} {act : Bool} (hx : UartOk p x) (h : SignalCase p sig act x y) : y.rb = x.rb ∧ UartOk p y := by
  cases h with
  | rstRestores u _ _ _ hu => exact ⟨rfl, uartOk_set hx hu⟩
  | _ => exact ⟨rfl, hx⟩

/-- Whatever becomes of a channel, its invariants hold after. -/
theorem ChanCase.chanOk {c : Nat} {i : Instr} (hp : ConfigFacts p) (hx : ChanOk p x) (h : ChanCase p c x i y) : ChanOk p y := by
  have hx' := hx
  obtain ⟨hring, huart, hengine⟩ := hx'
  cases h with
  | same => exact hx
  | sysReset => exact chanOk_reset hp
  | rbReset => exact ⟨ring_reset hp hring, huart, hengine⟩
  | rbWrite d b y _ hy =>
    obtain ⟨hcount, rfl⟩ := hy
    exact ⟨ring_write hp hring hcount, huart, hengine⟩
  | rbRead d y _ hy =>
    obtain ⟨hcount, rfl⟩ := hy
    exact ⟨ring_read hp hring hcount, huart, hengine⟩
  | timApply d ratio y _ hy =>
    obtain ⟨hrange, rfl⟩ := hy
    exact ⟨hring, uartOk_set huart (.inr ⟨hrange, rfl⟩), hengine⟩
  | urxIrq d status b y _ hy =>
    obtain rfl | ⟨hcount, rfl⟩ := hy
    · exact ⟨hring, uartOk_errors huart status, hengine⟩
    · exact ⟨ring_write hp hring hcount, uartOk_errors huart status, hengine⟩
  | cemIosig d sig act y _ _ hy =>
    obtain ⟨hrb, huart⟩ := hy.front huart
    exact ⟨hrb ▸ hring, huart, hy.engineOk hp hengine⟩
  | cemTxbyte d y _ hy => exact chanOk_of_front hx hy.front (hy.engineOk hengine)
  | cemRxbyte d b y _ hy => exact chanOk_of_front hx hy.front (hy.engineOk hengine)
  | cemPump d y _ hy =>
    obtain ⟨hcount, b, z, hz, rfl⟩ := hy
    obtain ⟨hzring, hzuart, hzengine⟩ := chanOk_of_front hx hz.front (hz.engineOk hengine)
    exact ⟨ring_read hp hzring (hz.front.1 ▸ hcount), hzuart, hzengine⟩
  | cemFidi d fidi y _ hy =>
    obtain ⟨ratio, hu, hy⟩ := hy
    rw [hy]
    refine ⟨hring, uartOk_set huart (hu.imp_right fun ⟨hrange, hset⟩ => ?_), engineOk_reloaded hengine _ _ _⟩
    rw [hset]
    exact ⟨hrange, rfl⟩
  | wtSetwt => exact ⟨hring, huart, engineOk_reloaded hengine _ _ _⟩
  | wtSetetu => exact ⟨hring, huart, engineOk_reloaded hengine _ _ _⟩
  | wtTick d y _ hy => exact chanOk_of_front hx hy.front (hy.engineOk hengine)
  | ubtDispatch e y _ hy => exact chanOk_of_front hx hy.front (hy.engineOk hengine)
  | ubtProcess k a b d y _ hy => exact chanOk_of_front hx hy.front (hy.engineOk hengine)

/-! ### Every step -/

/-- Well-formed parameters, lists of their lengths, and every channel in order. -/
structure ChansOk (s : State) : Prop where
  config : s.cfg.wellFormed = true
  shape : s.shape
  chans : ∀ c, c < s.chans.length → ChanOk s.cfg (s.chan c)

theorem chans_forall {P : Chan → Prop} {s : State} : (∀ x ∈ s.chans, P x) ↔ ∀ c, c < s.chans.length → P (s.chan c) := by
  constructor
  · intro h c hc
    have hget : s.chan c = s.chans[c] := by simp [State.chan, hc]
    exact hget ▸ h _ (List.getElem_mem hc)
  · intro h x hx
    obtain ⟨c, hc, rfl⟩ := List.getElem_of_mem hx
    have hget : s.chan c = s.chans[c] := by simp [State.chan, hc]
    exact hget ▸ h c hc

theorem Frame.shape {s t : State} (h : Frame s t) (hs : s.shape) : t.shape :=
  ⟨h.l1.trans (hs.1.trans (by rw [h.cfg])), h.l2.trans (hs.2.1.trans (by rw [h.cfg])), h.l3.trans (hs.2.2.trans (by rw [h.cfg]))⟩

/-- R10: a reset has a list of each kind, of the length the parameters give. -/
theorem State.sysReset_shape (s : State) : s.sysReset.shape := State.resetWith_shape s.cfg

theorem ChansOk.of_frame {s t : State} (hs : ChansOk s) (hframe : Frame s t)
    (hchan : ∀ c, c < s.chans.length → ChanOk s.cfg (s.chan c) → ChanOk s.cfg (t.chan c)) : ChansOk t := by
  refine ⟨hframe.cfg ▸ hs.config, hframe.shape hs.shape, fun c hc => ?_⟩
  rw [hframe.cfg]
  exact hchan c (hframe.l1 ▸ hc) (hs.chans c (hframe.l1 ▸ hc))

theorem chansOk_keptByStep : KeptByStep ChansOk where
  outer _ _ _ _ _ h := ⟨h.config, h.shape, h.chans⟩
  body i b s t r hb hw hs h :=
    hs.of_frame (frame_body hb s t r h) fun c _ hc => (chanCase_body hb hw h c).chanOk (configFacts_of hs.config) hc
  part p s t n ends hs h := by
    refine hs.of_frame (frame_processPart h) fun c _ hc => ?_
    obtain hsame | ⟨-, -, hcase⟩ := partCase_effect h c
    · exact hsame ▸ hc
    · exact chanOk_of_front hc hcase.front (hcase.engineOk hc.2.2)
  drain e s t r hs h := by
    have hframe := frame_drainBody e s t r h
    obtain ⟨-, rfl⟩ := drainBody_cases h
    exact hs.of_frame hframe fun _ _ hc => hc
  fatal _ _ h := ⟨h.config, h.shape, h.chans⟩
  reset s h := by
    refine ⟨h.config, s.sysReset_shape, fun c _ => ?_⟩
    have hchan : s.sysReset.chan c = Chan.reset s.cfg := State.chan_resetWith s.cfg c
    rw [hchan]
    exact chanOk_reset (configFacts_of h.config)

end Sys2Proof.Machine
end

section
/-! SUPPORT. Which operations write the registers of a channel (R14, R20 to R23, R25 to R32), one row per operation. -/

namespace Sys2Proof.Machine

variable {p : Config} {c : Nat} {x y : Chan} {i : Instr}

/-! ### What the cases leave of the registers -/

theorem Wt.reloaded_settings (w : Wt) : w.reloaded.wtime = w.wtime ∧ w.reloaded.etu = w.etu := by
  unfold Wt.reloaded Wt.started
  split
  · split <;> exact ⟨rfl, rfl⟩
  · exact ⟨rfl, rfl⟩

theorem Wt.started_settings (w : Wt) : w.started.wtime = w.wtime ∧ w.started.etu = w.etu := by
  unfold Wt.started
  split <;> exact ⟨rfl, rfl⟩

theorem Wt.restarted_settings (w : Wt) : w.restarted.wtime = w.wtime ∧ w.restarted.etu = w.etu := by
  unfold Wt.restarted
  split <;> exact ⟨rfl, rfl⟩

/-- The signal levels (R23). -/
def Cem.levels (x : Cem) : Bool × Bool × Bool := (x.vcc, x.clk, x.rst)

/-- The registers of R20 to R23 and R32 that the bytes of the exchange do not touch, but for the sequence number. -/
structure SettingsSame (x y : Chan) : Prop where
  rb : y.rb = x.rb
  uart : y.uart = x.uart
  stat : y.stat = x.stat
  wtime : y.wt.wtime = x.wt.wtime
  etu : y.wt.etu = x.wt.etu
  levels : y.cem.levels = x.cem.levels

theorem SentCase.settings (h : SentCase x y) : SettingsSame x y := by
  obtain rfl | rfl := h
  · obtain ⟨hwtime, hetu⟩ := x.wt.started_settings
    exact ⟨rfl, rfl, rfl, hwtime, hetu, rfl⟩
  · exact ⟨rfl, rfl, rfl, rfl, rfl, rfl⟩

theorem ReceiveCase.settings {b : Byte} (h : ReceiveCase p b x y) : SettingsSame x y := by
  cases h with
  | ignored => exact ⟨rfl, rfl, rfl, rfl, rfl, rfl⟩
  | header => exact ⟨rfl, rfl, rfl, rfl, rfl, rfl⟩
  | headerEnd _ _ _ hsent =>
    obtain ⟨hrb, huart, hstat, hwtime, hetu, hlevels⟩ := hsent.settings
    exact ⟨hrb, huart, hstat, hwtime, hetu, hlevels⟩
  | data => exact ⟨rfl, rfl, rfl, rfl, rfl, rfl⟩
  | dataEnd _ _ _ _ _ hsent =>
    obtain ⟨hrb, huart, hstat, hwtime, hetu, hlevels⟩ := hsent.settings
    exact ⟨hrb, huart, hstat, hwtime, hetu, hlevels⟩

theorem TransmitCase.settings (h : TransmitCase p x y) : SettingsSame x y ∧ y.cem.seq = x.cem.seq := by
  cases h with
  | extension =>
    obtain ⟨hwtime, hetu⟩ := x.wt.restarted_settings
    exact ⟨⟨rfl, rfl, rfl, hwtime, hetu, rfl⟩, rfl⟩
  | toProcedure =>
    obtain ⟨hwtime, hetu⟩ := x.wt.started_settings
    exact ⟨⟨rfl, rfl, rfl, hwtime, hetu, rfl⟩, rfl⟩
  | _ => exact ⟨⟨rfl, rfl, rfl, rfl, rfl, rfl⟩, rfl⟩

theorem HandOverCase.settings (h : HandOverCase p x y) : SettingsSame x y ∧ y.cem.seq = x.cem.seq := by
  obtain ⟨_, _, _, _, _, rfl⟩ := h
  exact ⟨⟨rfl, rfl, rfl, rfl, rfl, rfl⟩, rfl⟩

theorem TickCase.settings (h : TickCase x y) : SettingsSame x y ∧ y.cem.seq = x.cem.seq := by
  cases h <;> exact ⟨⟨rfl, rfl, rfl, rfl, rfl, rfl⟩, rfl⟩

/-- A card signal writes the timing register and the tick length only where RST restores the ratio (R147). -/
theorem SignalCase.settings {sig : Signal} {act : Bool} (h : SignalCase p sig act x y) :
    y.rb = x.rb ∧ y.stat = x.stat ∧ y.wt.wtime = x.wt.wtime ∧ y.cem.seq = x.cem.seq ∧
      ((y.uart = x.uart ∧ y.wt.etu = x.wt.etu) ∨ (sig = .rst ∧ act = true ∧ p.rstRestoresFidi = true)) := by
  cases h with
  | rstRestores u hsig hact hrestores => exact ⟨rfl, rfl, rfl, rfl, .inr ⟨hsig, hact, hrestores⟩⟩
  | supply => cases sig <;> exact ⟨rfl, rfl, rfl, rfl, .inl ⟨rfl, rfl⟩⟩
  | powered => cases sig <;> exact ⟨rfl, rfl, rfl, rfl, .inl ⟨rfl, rfl⟩⟩
  | _ => exact ⟨rfl, rfl, rfl, rfl, .inl ⟨rfl, rfl⟩⟩

/-! ### The registers that only their operations write, in every state -/

/-- R20 to R23, R30, R32: the operations that write each register. -/
structure WrittenBy (p : Config) (c : Nat) (i : Instr) (x y : Chan) : Prop where
  uart : y.uart ≠ x.uart → ∃ d : Byte, d.toNat = c ∧
    ((∃ r, i = .timApply d r) ∨ (∃ v, i = .cemFidi d v) ∨ (p.rstRestoresFidi = true ∧ i = .cemIosig d 2#2 true))
  wtime : y.wt.wtime ≠ x.wt.wtime → ∃ d : Byte, d.toNat = c ∧ ∃ w, i = .wtSetwt d w
  etu : y.wt.etu ≠ x.wt.etu → ∃ d : Byte, d.toNat = c ∧
    ((∃ w, i = .wtSetetu d w) ∨ (∃ v, i = .cemFidi d v) ∨ (p.rstRestoresFidi = true ∧ i = .cemIosig d 2#2 true))
  stat : y.stat ≠ x.stat → ∃ d : Byte, d.toNat = c ∧ ∃ st v, i = .urxIrq d st v
  wr : y.rb.wr ≠ x.rb.wr → ∃ d : Byte, d.toNat = c ∧ ((∃ v, i = .rbWrite d v) ∨ (∃ st v, i = .urxIrq d st v) ∨ i = .rbReset d)
  rd : y.rb.rd ≠ x.rb.rd → ∃ d : Byte, d.toNat = c ∧ (i = .rbRead d ∨ i = .cemPump d ∨ i = .rbReset d)
  seq : y.cem.seq ≠ x.cem.seq → ∃ d : Byte, d.toNat = c ∧ ((∃ v, i = .cemRxbyte d v) ∨ i = .cemPump d)
  levels : y.cem.levels ≠ x.cem.levels → ∃ d : Byte, d.toNat = c ∧ ∃ sig act, i = .cemIosig d sig act

/-- A register that is kept has been written by nothing. -/
theorem kept {α : Type} {a b : α} {P : Prop} (h : a = b) : a ≠ b → P := fun hne => absurd h hne

theorem SettingsSame.writtenBy (h : SettingsSame x y)
    (hseq : y.cem.seq ≠ x.cem.seq → ∃ d : Byte, d.toNat = c ∧ ((∃ v, i = .cemRxbyte d v) ∨ i = .cemPump d)) : WrittenBy p c i x y :=
  ⟨kept h.uart, kept h.wtime, kept h.etu, kept h.stat, kept (by rw [h.rb]), kept (by rw [h.rb]), hseq, kept h.levels⟩

/-- R85: the code of RST among the legal ones. -/
theorem signalOf_eq_rst {sig : BitVec 2} (hlegal : sig ≠ 3#2) (h : signalOf sig = .rst) : sig = 2#2 := by
  unfold signalOf at h
  split at h
  · exact nomatch h
  · split at h
    · exact nomatch h
    · bv_omega

theorem ChanCase.writtenBy (h : ChanCase p c x i y) (hi : i ≠ .sysReset) : WrittenBy p c i x y := by
  cases h with
  | same => exact SettingsSame.writtenBy ⟨rfl, rfl, rfl, rfl, rfl, rfl⟩ (kept rfl)
  | sysReset => exact absurd rfl hi
  | rbReset d hd =>
    exact ⟨kept rfl, kept rfl, kept rfl, kept rfl, fun _ => ⟨d, hd, .inr (.inr rfl)⟩, fun _ => ⟨d, hd, .inr (.inr rfl)⟩, kept rfl,
      kept rfl⟩
  | rbWrite d b y hd hy =>
    obtain ⟨-, rfl⟩ := hy
    exact ⟨kept rfl, kept rfl, kept rfl, kept rfl, fun _ => ⟨d, hd, .inl ⟨b, rfl⟩⟩, kept rfl, kept rfl, kept rfl⟩
  | rbRead d y hd hy =>
    obtain ⟨-, rfl⟩ := hy
    exact ⟨kept rfl, kept rfl, kept rfl, kept rfl, kept rfl, fun _ => ⟨d, hd, .inl rfl⟩, kept rfl, kept rfl⟩
  | timApply d ratio y hd hy =>
    obtain ⟨-, rfl⟩ := hy
    exact ⟨fun _ => ⟨d, hd, .inl ⟨ratio, rfl⟩⟩, kept rfl, kept rfl, kept rfl, kept rfl, kept rfl, kept rfl, kept rfl⟩
  | urxIrq d st b y hd hy =>
    obtain rfl | ⟨-, rfl⟩ := hy
    · exact ⟨kept rfl, kept rfl, kept rfl, fun _ => ⟨d, hd, st, b, rfl⟩, kept rfl, kept rfl, kept rfl, kept rfl⟩
    · exact ⟨kept rfl, kept rfl, kept rfl, fun _ => ⟨d, hd, st, b, rfl⟩, fun _ => ⟨d, hd, .inr (.inl ⟨st, b, rfl⟩)⟩, kept rfl, kept rfl,
        kept rfl⟩
  | cemIosig d sig act y hd hsig hy =>
    have hlevels : y.cem.levels ≠ x.cem.levels →
        ∃ d' : Byte, d'.toNat = c ∧ ∃ sig' act', Instr.cemIosig d sig act = .cemIosig d' sig' act' := fun _ => ⟨d, hd, sig, act, rfl⟩
    obtain ⟨hrb, hstat, hwtime, hseq, ⟨huart, hetu⟩ | ⟨hrst, rfl, hrestores⟩⟩ := hy.settings
    · exact ⟨kept huart, kept hwtime, kept hetu, kept hstat, kept (by rw [hrb]), kept (by rw [hrb]), kept hseq, hlevels⟩
    · obtain rfl := signalOf_eq_rst hsig hrst
      exact ⟨fun _ => ⟨d, hd, .inr (.inr ⟨hrestores, rfl⟩)⟩, kept hwtime, fun _ => ⟨d, hd, .inr (.inr ⟨hrestores, rfl⟩)⟩, kept hstat,
        kept (by rw [hrb]), kept (by rw [hrb]), kept hseq, hlevels⟩
  | cemTxbyte d y _ hy => exact hy.settings.1.writtenBy (kept hy.settings.2)
  | cemRxbyte d b y hd hy => exact hy.settings.writtenBy fun _ => ⟨d, hd, .inl ⟨b, rfl⟩⟩
  | cemPump d y hd hy =>
    obtain ⟨-, b, z, hz, rfl⟩ := hy
    obtain ⟨hrb, huart, hstat, hwtime, hetu, hlevels⟩ := hz.settings
    exact ⟨kept huart, kept hwtime, kept hetu, kept hstat, kept (by simp only [Ring.popped, hrb]), fun _ => ⟨d, hd, .inr (.inl rfl)⟩,
      fun _ => ⟨d, hd, .inr rfl⟩, kept hlevels⟩
  | cemFidi d v y hd hy =>
    obtain ⟨ratio, -, hy⟩ := hy
    rw [hy]
    exact ⟨fun _ => ⟨d, hd, .inr (.inl ⟨v, rfl⟩)⟩, kept (Wt.reloaded_settings _).1, fun _ => ⟨d, hd, .inr (.inl ⟨v, rfl⟩)⟩, kept rfl,
      kept rfl, kept rfl, kept rfl, kept rfl⟩
  | wtSetwt d w hd =>
    exact ⟨kept rfl, fun _ => ⟨d, hd, w, rfl⟩, kept (Wt.reloaded_settings _).2, kept rfl, kept rfl, kept rfl, kept rfl, kept rfl⟩
  | wtSetetu d w hd =>
    exact ⟨kept rfl, kept (Wt.reloaded_settings _).1, fun _ => ⟨d, hd, .inl ⟨w, rfl⟩⟩, kept rfl, kept rfl, kept rfl, kept rfl, kept rfl⟩
  | wtTick d y _ hy => exact hy.settings.1.writtenBy (kept hy.settings.2)
  | ubtDispatch e y _ hy => exact hy.settings.1.writtenBy (kept hy.settings.2)
  | ubtProcess k a b d y _ hy => exact hy.settings.1.writtenBy (kept hy.settings.2)

/-! ### The registers of the exchange, where the invariant holds -/

/-- R25 to R32: the operations that write the registers of the exchange. -/
structure ExchangeWrittenBy (p : Config) (c : Nat) (i : Instr) (x y : Chan) : Prop where
  null : y.cem.nullPending ≠ x.cem.nullPending → isTickOn c i = true ∨ isTransmitOn c i = true ∨ isSignalOn c i = true
  count : (y.wt.armed, y.wt.remaining) ≠ (x.wt.armed, x.wt.remaining) →
    isTickOn c i = true ∨ isPeriodSetOn c i = true ∨ isTransmitOn c i = true ∨ isReceiveOn c i = true ∨ isSignalOn c i = true ∨
      isHandOverTo p c i = true
  hdrN : y.cem.hdrN ≠ x.cem.hdrN → isReceiveOn c i = true ∨ isTransmitOn c i = true ∨ isSignalOn c i = true
  atrIdx : y.cem.atrIdx ≠ x.cem.atrIdx → isTransmitOn c i = true ∨ isSignalOn c i = true
  tx : (y.cem.txLen, y.cem.txIdx) ≠ (x.cem.txLen, x.cem.txIdx) →
    isHandOverTo p c i = true ∨ isTransmitOn c i = true ∨ isSignalOn c i = true
  rx : (y.cem.rxN, y.cem.rxLeft) ≠ (x.cem.rxN, x.cem.rxLeft) →
    isReceiveOn c i = true ∨ isTransmitOn c i = true ∨ isSignalOn c i = true
  dir : (y.cem.dir, y.cem.cont) ≠ (x.cem.dir, x.cem.cont) →
    isHandOverTo p c i = true ∨ isTransmitOn c i = true ∨ isReceiveOn c i = true ∨ isSignalOn c i = true

/-- An operation that leaves the engine writes at most the countdown. -/
theorem ExchangeWrittenBy.of_cem (hcem : y.cem = x.cem) (hcount : (y.wt.armed, y.wt.remaining) = (x.wt.armed, x.wt.remaining) ∨
    isPeriodSetOn c i = true) : ExchangeWrittenBy p c i x y := by
  refine ⟨kept (by rw [hcem]), fun hne => ?_, kept (by rw [hcem]), kept (by rw [hcem]), kept (by rw [hcem]), kept (by rw [hcem]),
    kept (by rw [hcem])⟩
  exact .inr (.inl (hcount.resolve_left hne))

theorem ExchangeWrittenBy.of_transmit (h : isTransmitOn c i = true) : ExchangeWrittenBy p c i x y :=
  ⟨fun _ => .inr (.inl h), fun _ => .inr (.inr (.inl h)), fun _ => .inr (.inl h), fun _ => .inl h, fun _ => .inr (.inl h),
    fun _ => .inr (.inl h), fun _ => .inr (.inl h)⟩

theorem ExchangeWrittenBy.of_signal (h : isSignalOn c i = true) : ExchangeWrittenBy p c i x y :=
  ⟨fun _ => .inr (.inr h), fun _ => .inr (.inr (.inr (.inr (.inl h)))), fun _ => .inr (.inr h), fun _ => .inr h, fun _ => .inr (.inr h),
    fun _ => .inr (.inr h), fun _ => .inr (.inr (.inr h))⟩

/-- Outside an exchange of bytes to the reader no such bytes are left and no extension byte is pending, but while one is owed (R26, R31). -/
theorem EngineOk.nothingToSend (hx : EngineOk p x) (hdir : x.cem.dir ≠ .tx) (hst : x.cem.state ≠ .procedureByte) :
    x.cem.nullPending = false ∧ x.cem.txLen = 0 ∧ x.cem.txIdx = 0 := by
  obtain ⟨-, -, ⟨-, -, hidx, -, -, -, hlen, -, -, hnull⟩, -⟩ := hx
  have hzero := hlen hdir
  refine ⟨?_, hzero, by omega⟩
  by_contra hpending
  exact (hnull (by simpa using hpending)).elim hst hdir

/-- What a byte from the reader leaves of the engine's registers. -/
structure TransmitSame (x y : Chan) : Prop where
  null : y.cem.nullPending = x.cem.nullPending
  atrIdx : y.cem.atrIdx = x.cem.atrIdx
  tx : (y.cem.txLen, y.cem.txIdx) = (x.cem.txLen, x.cem.txIdx)

theorem SentCase.transmitSame (h : SentCase x y) (hx : x.cem.nullPending = false ∧ x.cem.txLen = 0 ∧ x.cem.txIdx = 0) :
    TransmitSame x y := by
  obtain ⟨hnull, hlen, hidx⟩ := hx
  obtain rfl | rfl := h
  · exact ⟨rfl, rfl, rfl⟩
  · exact ⟨hnull.symm, rfl, by simp [Chan.cleared, Cem.noExchange, hlen, hidx]⟩

theorem ReceiveCase.transmitSame {b : Byte} (hx : EngineOk p x) (h : ReceiveCase p b x y) : TransmitSame x y := by
  cases h with
  | ignored => exact ⟨rfl, rfl, rfl⟩
  | header => exact ⟨rfl, rfl, rfl⟩
  | headerEnd y hst _ hsent =>
    have hdir := hx.dir_none (by simp [hst])
    obtain ⟨hnull, hatr, htx⟩ := hsent.transmitSame (hx.nothingToSend (by simp [hdir]) (by simp [hst]))
    exact ⟨hnull, hatr, htx⟩
  | data => exact ⟨rfl, rfl, rfl⟩
  | dataEnd y hst hdir _ _ hsent =>
    obtain ⟨hnull, hatr, htx⟩ := hsent.transmitSame (hx.nothingToSend (by simp [hdir]) (by simp [hst]))
    exact ⟨hnull, hatr, htx⟩

theorem TransmitSame.writtenBy (h : TransmitSame x y) (hi : isReceiveOn c i = true) : ExchangeWrittenBy p c i x y :=
  ⟨kept h.null, fun _ => .inr (.inr (.inr (.inl hi))), fun _ => .inl hi, kept h.atrIdx, kept h.tx, fun _ => .inl hi,
    fun _ => .inr (.inr (.inl hi))⟩

theorem HandOverCase.writtenBy (h : HandOverCase p x y) (hi : isHandOverTo p c i = true) : ExchangeWrittenBy p c i x y := by
  obtain ⟨_, _, _, _, _, rfl⟩ := h
  exact ⟨kept rfl, fun _ => .inr (.inr (.inr (.inr (.inr hi)))), kept rfl, kept rfl, fun _ => .inl hi, kept rfl, fun _ => .inl hi⟩

theorem TickCase.writtenBy (h : TickCase x y) (hi : isTickOn c i = true) : ExchangeWrittenBy p c i x y := by
  cases h <;> exact ⟨fun _ => .inl hi, fun _ => .inl hi, kept rfl, kept rfl, kept rfl, kept rfl, kept rfl⟩

/-- R1: an endpoint is the OUT endpoint of at most one interface. -/
theorem outInterface_unique (hp : ConfigFacts p) {f g : IfConst} {e : Nat} (hf : f ∈ p.ifs) (hg : g ∈ p.ifs) (hfe : f.out = some e)
    (hge : g.out = some e) : f = g := by
  have hfound := State.outIf_eq (s := State.resetWith p) hp hf hfe
  exact Option.some.inj (hfound.symm.trans (State.outIf_eq (s := State.resetWith p) hp hg hge))

theorem ChanCase.exchangeWrittenBy (hp : ConfigFacts p) (hx : EngineOk p x) (h : ChanCase p c x i y) (hi : i ≠ .sysReset) :
    ExchangeWrittenBy p c i x y := by
  cases h with
  | same => exact .of_cem rfl (.inl rfl)
  | sysReset => exact absurd rfl hi
  | rbReset => exact .of_cem rfl (.inl rfl)
  | rbWrite d b y _ hy =>
    obtain ⟨-, rfl⟩ := hy
    exact .of_cem rfl (.inl rfl)
  | rbRead d y _ hy =>
    obtain ⟨-, rfl⟩ := hy
    exact .of_cem rfl (.inl rfl)
  | timApply d ratio y _ hy =>
    obtain ⟨-, rfl⟩ := hy
    exact .of_cem rfl (.inl rfl)
  | urxIrq d st b y _ hy => obtain rfl | ⟨-, rfl⟩ := hy <;> exact .of_cem rfl (.inl rfl)
  | cemIosig d sig act y hd _ _ => exact .of_signal (decide_eq_true hd)
  | cemTxbyte d y hd _ => exact .of_transmit (decide_eq_true hd)
  | cemRxbyte d b y hd hy => exact (hy.transmitSame hx).writtenBy (decide_eq_true hd)
  | cemPump d y hd hy =>
    obtain ⟨-, b, z, hz, rfl⟩ := hy
    obtain ⟨hnull, hatr, htx⟩ := hz.transmitSame hx
    exact TransmitSame.writtenBy ⟨hnull, hatr, htx⟩ (decide_eq_true hd)
  | cemFidi d v y hd hy =>
    obtain ⟨ratio, -, hy⟩ := hy
    exact .of_cem (by rw [hy]) (.inr (decide_eq_true hd))
  | wtSetwt d w hd => exact .of_cem rfl (.inr (decide_eq_true hd))
  | wtSetetu d w hd => exact .of_cem rfl (.inr (decide_eq_true hd))
  | wtTick d y hd hy => exact hy.writtenBy (decide_eq_true hd)
  | ubtDispatch e y hserves hy =>
    obtain ⟨f, hf, hfc, hfe⟩ := hserves
    exact hy.writtenBy (List.any_eq_true.mpr ⟨f, hf, decide_eq_true ⟨hfc, hfe⟩⟩)
  | ubtProcess k a b d y hserves hy =>
    obtain ⟨f, e, hf, hfe, g, hg, hgc, hge⟩ := hserves
    obtain rfl := outInterface_unique hp (List.mem_of_getElem? hf) hg hfe hge
    exact hy.writtenBy (by simp [isHandOverTo, hf, hgc])

end Sys2Proof.Machine
end

section
/-! SUPPORT. The pool and the endpoints (R16 to R18, R33, R34, R203): one lemma on a change of one context and one endpoint, and with it what
every rule body keeps of their invariants and which transition of R17 it takes. -/

namespace Sys2Proof.Machine

variable {s t : State} {e h : Nat}

/-! ### Reading the invariants -/

theorem ctxs_forall {P : Ctx → Prop} {s : State} : (∀ x ∈ s.ctxs, P x) ↔ ∀ h, h < s.ctxs.length → P (s.ctx h) := by
  constructor
  · intro hall h hh
    have hget : s.ctx h = s.ctxs[h] := by simp [State.ctx, hh]
    exact hget ▸ hall _ (List.getElem_mem hh)
  · intro hall x hx
    obtain ⟨h, hh, rfl⟩ := List.getElem_of_mem hx
    have hget : s.ctx h = s.ctxs[h] := by simp [State.ctx, hh]
    exact hget ▸ hall h hh

theorem TransportOk.ctx (inv : TransportOk s) (hh : h < s.ctxs.length) : CtxOk s.cfg (s.ctx h) := ctxs_forall.mp inv.1 h hh

/-- R33: the context of a transfer in flight. -/
theorem TransportOk.cur (inv : TransportOk s) (he : e < s.eps.length) (hcur : (s.ep e).cur = some h) :
    h < s.ctxs.length ∧ (s.ctx h).owner = some e ∧ (s.ctx h).state = busyState (s.epConst e).dir := by
  obtain ⟨-, -, hbusy, -⟩ := inv.2.1 e he
  exact hbusy h (by simp [hcur])

/-- R33: a queued context. -/
theorem TransportOk.queued (inv : TransportOk s) (he : e < s.eps.length) (hq : h ∈ (s.ep e).queue) :
    h < s.ctxs.length ∧ (s.ctx h).owner = some e ∧ (s.ctx h).state = pendingState (s.epConst e).dir := by
  obtain ⟨-, -, -, hpending, -⟩ := inv.2.1 e he
  exact hpending h hq

/-- R18: where a context with an owner is. -/
theorem TransportOk.owned (inv : TransportOk s) (hh : h < s.ctxs.length) (ho : (s.ctx h).owner = some e) : e < s.eps.length ∧
    (((s.ctx h).state = pendingState (s.epConst e).dir ∧ h ∈ (s.ep e).queue) ∨
      ((s.ctx h).state = busyState (s.epConst e).dir ∧ (s.ep e).cur = some h)) := (inv.2.2 h hh).2 e (by simp [ho])

/-- R114: a free context has no owner. -/
theorem TransportOk.free (inv : TransportOk s) (hh : h < s.ctxs.length) (hfree : (s.ctx h).state = .free) : (s.ctx h).owner = none := by
  obtain ⟨-, -, -, -, hcleared⟩ := inv.ctx hh
  exact (hcleared hfree).2.2.2

/-- R18: no endpoint refers to a context without an owner. -/
theorem TransportOk.unreferenced (inv : TransportOk s) (he : e < s.eps.length) (ho : (s.ctx h).owner = none) :
    (s.ep e).cur ≠ some h ∧ h ∉ (s.ep e).queue := by
  constructor
  · intro hcur
    exact absurd (ho.symm.trans (inv.cur he hcur).2.1) nofun
  · intro hq
    exact absurd (ho.symm.trans (inv.queued he hq).2.1) nofun

/-- R17: only the endpoint's own transitions reach a context in a state with an owner, so one in `UART_TX_PENDING` has none. -/
theorem TransportOk.pending_unowned (inv : TransportOk s) (hh : h < s.ctxs.length) (hst : (s.ctx h).state = .uartTxPending) :
    (s.ctx h).owner = none := by
  cases ho : (s.ctx h).owner with
  | none => rfl
  | some e =>
    obtain ⟨-, ⟨hstate, -⟩ | ⟨hstate, -⟩⟩ := inv.owned hh ho <;>
      rw [hst] at hstate <;> cases hd : (s.epConst e).dir <;> simp [hd, pendingState, busyState] at hstate

/-- The context of a transfer in flight is not queued (R33). -/
theorem busy_ne_pending (d : EpDir) : busyState d ≠ pendingState d := by cases d <;> simp [busyState, pendingState]

theorem TransportOk.cur_not_queued (inv : TransportOk s) (he : e < s.eps.length) (hcur : (s.ep e).cur = some h) : h ∉ (s.ep e).queue :=
  fun hq => busy_ne_pending _ ((inv.cur he hcur).2.2.symm.trans (inv.queued he hq).2.2)

/-- R33: an idle endpoint refers to no transfer. -/
theorem TransportOk.idle (inv : TransportOk s) (he : e < s.eps.length) (hidle : (s.ep e).inProgress = false) :
    (s.ep e).cur = none ∧ (s.ep e).zlp = false := by
  obtain ⟨hcur, hzlp, -⟩ := inv.2.1 e he
  refine ⟨hcur.mp hidle, ?_⟩
  by_contra hset
  exact absurd (hidle.symm.trans (hzlp (by simpa using hset)).1) nofun

theorem TransportOk.nodup (inv : TransportOk s) (he : e < s.eps.length) : (s.ep e).queue.Nodup := by
  obtain ⟨-, -, -, -, hnodup⟩ := inv.2.1 e he
  exact hnodup

theorem TransportOk.inProgress (inv : TransportOk s) (he : e < s.eps.length) : (s.ep e).inProgress = false ↔ (s.ep e).cur = none :=
  (inv.2.1 e he).1

/-- R33: a zero-length packet follows only a transfer to the host. -/
theorem TransportOk.zlp_off (inv : TransportOk s) (he : e < s.eps.length) (hd : (s.epConst e).dir = .fromHost) : (s.ep e).zlp = false := by
  obtain ⟨-, hzlp, -⟩ := inv.2.1 e he
  by_contra hset
  exact absurd (hd.symm.trans (hzlp (by simpa using hset)).2) nofun

/-- R50: the bytes of a context. -/
theorem TransportOk.buf (inv : TransportOk s) (hh : h < s.ctxs.length) : Memory.within s.cfg.ctxSize (s.ctx h).buf := by
  obtain ⟨-, -, -, hbuf, -⟩ := inv.ctx hh
  exact hbuf

/-- Equal parameters, contexts and endpoints meet the invariant together. -/
theorem TransportOk.congr (inv : TransportOk s) (hcfg : t.cfg = s.cfg) (hsame : SameTransport s t) : TransportOk t := by
  have hctx : ∀ h, t.ctx h = s.ctx h := fun h => by simp [State.ctx, hsame.ctxs]
  have hep : ∀ e, t.ep e = s.ep e := fun e => by simp [State.ep, hsame.eps]
  have hconst : ∀ e, t.epConst e = s.epConst e := fun e => by simp [State.epConst, hcfg]
  simpa only [TransportOk, EpOk, OwnerOk, hcfg, hsame.ctxs, hsame.eps, hctx, hep, hconst] using inv

/-! ### One context and one endpoint changed -/

/-- The clauses of R33 and R34 that speak of an endpoint of direction `d` alone. -/
structure EpShape (d : EpDir) (y : Ep) : Prop where
  inProgress : y.inProgress = false ↔ y.cur = none
  zlp : y.zlp = true → y.inProgress = true ∧ d = .toHost
  nodup : y.queue.Nodup

/-- Context `h`, which is `x`, and endpoint `e` of direction `d`, which is `y`, agree on where the context is (R18, R33, R34). -/
structure Placed (d : EpDir) (e h : Nat) (x : Ctx) (y : Ep) : Prop where
  cur : y.cur = some h → x.owner = some e ∧ x.state = busyState d
  queued : h ∈ y.queue → x.owner = some e ∧ x.state = pendingState d
  owner : (x.owner = none ∧ (x.state = .free ∨ x.state = .uartTxPending ∨ x.state = .usbRxBusy)) ∨
    (x.owner = some e ∧ ((x.state = pendingState d ∧ h ∈ y.queue) ∨ (x.state = busyState d ∧ y.cur = some h)))

/-- A context that nothing owns or refers to. -/
theorem Placed.unowned {d : EpDir} {x : Ctx} {y : Ep} (ho : x.owner = none)
    (hst : x.state = .free ∨ x.state = .uartTxPending ∨ x.state = .usbRxBusy) (hcur : y.cur ≠ some h) (hq : h ∉ y.queue) :
    Placed d e h x y := ⟨fun hc => absurd hc hcur, fun hm => absurd hm hq, .inl ⟨ho, hst⟩⟩

/-- A context in the queue, not in the transfer in flight. -/
theorem Placed.pending {d : EpDir} {x : Ctx} {y : Ep} (ho : x.owner = some e) (hst : x.state = pendingState d) (hcur : y.cur ≠ some h)
    (hq : h ∈ y.queue) : Placed d e h x y := ⟨fun hc => absurd hc hcur, fun _ => ⟨ho, hst⟩, .inr ⟨ho, .inl ⟨hst, hq⟩⟩⟩

/-- A context in the transfer in flight, not in the queue. -/
theorem Placed.busy {d : EpDir} {x : Ctx} {y : Ep} (ho : x.owner = some e) (hst : x.state = busyState d) (hcur : y.cur = some h)
    (hq : h ∉ y.queue) : Placed d e h x y := ⟨fun _ => ⟨ho, hst⟩, fun hm => absurd hm hq, .inr ⟨ho, .inr ⟨hst, hcur⟩⟩⟩

/-- From `s` to `t` context `h` becomes `f` of itself and endpoint `e` becomes `g` of itself, which no other endpoint and no other
context notices. -/
structure Update (h e : Nat) (f : Ctx → Ctx) (g : Ep → Ep) (s t : State) : Prop where
  cfg : t.cfg = s.cfg
  ctxs : t.ctxs = s.ctxs.modify h f
  eps : t.eps = s.eps.modify e g
  hctx : h < s.ctxs.length
  hep : e < s.eps.length
  owner : (s.ctx h).owner = none ∨ (s.ctx h).owner = some e
  ctxOk : CtxOk s.cfg (f (s.ctx h))
  shape : EpShape (s.epConst e).dir (g (s.ep e))
  placed : Placed (s.epConst e).dir e h (f (s.ctx h)) (g (s.ep e))
  others : ∀ k, k ≠ h → ((g (s.ep e)).cur = some k ↔ (s.ep e).cur = some k) ∧ (k ∈ (g (s.ep e)).queue ↔ k ∈ (s.ep e).queue)

variable {f : Ctx → Ctx} {g : Ep → Ep}

theorem Update.ctx (u : Update h e f g s t) (k : Nat) : t.ctx k = if h = k then f (s.ctx h) else s.ctx k := by
  have hmod : t.ctx k = (s.updCtx h f).ctx k := by simp [State.ctx, u.ctxs]
  rw [hmod, State.ctx_updCtx]
  by_cases hk : h = k
  · subst hk
    simp [u.hctx]
  · simp [hk]

theorem Update.ep (u : Update h e f g s t) (k : Nat) : t.ep k = if e = k then g (s.ep e) else s.ep k := by
  have hmod : t.ep k = (s.updEp e g).ep k := by simp [State.ep, u.eps]
  rw [hmod, State.ep_updEp]
  by_cases hk : e = k
  · subst hk
    simp [u.hep]
  · simp [hk]

theorem Update.epConst (u : Update h e f g s t) (k : Nat) : t.epConst k = s.epConst k := by simp [State.epConst, u.cfg]

theorem Update.epOk (u : Update h e f g s t) (inv : TransportOk s) {j : Nat} (hj : j < s.eps.length) : EpOk t j := by
  have hlen : t.ctxs.length = s.ctxs.length := by simp [u.ctxs]
  simp only [EpOk, u.epConst, u.ep, u.ctx, hlen]
  by_cases hej : e = j
  · subst hej
    simp only [if_true, Option.mem_toList]
    refine ⟨u.shape.inProgress, u.shape.zlp, fun k hk => ?_, fun k hk => ?_, u.shape.nodup⟩
    · by_cases hhk : h = k
      · subst hhk
        simpa [u.hctx] using u.placed.cur hk
      · simpa [hhk] using inv.cur u.hep ((u.others k (Ne.symm hhk)).1.mp hk)
    · by_cases hhk : h = k
      · subst hhk
        simpa [u.hctx] using u.placed.queued hk
      · simpa [hhk] using inv.queued u.hep ((u.others k (Ne.symm hhk)).2.mp hk)
  · simp only [hej, if_false]
    have hother : ∀ k, (s.ctx k).owner = some j → h ≠ k := by
      rintro k hk rfl
      obtain hnone | hsome := u.owner
      · exact absurd (hnone.symm.trans hk) nofun
      · exact hej (Option.some.inj (hsome.symm.trans hk))
    obtain ⟨hcur, hzlp, hbusy, hpending, hnodup⟩ := inv.2.1 j hj
    refine ⟨hcur, hzlp, fun k hk => ?_, fun k hk => ?_, hnodup⟩
    · rw [if_neg (hother k (hbusy k hk).2.1)]
      exact hbusy k hk
    · rw [if_neg (hother k (hpending k hk).2.1)]
      exact hpending k hk

theorem Update.ownerOk (u : Update h e f g s t) (inv : TransportOk s) {k : Nat} (hk : k < s.ctxs.length) : OwnerOk t k := by
  have hlen : t.eps.length = s.eps.length := by simp [u.eps]
  simp only [OwnerOk, u.epConst, u.ep, u.ctx, hlen, Option.mem_toList]
  by_cases hhk : h = k
  · subst hhk
    simp only [if_true]
    obtain ⟨hnone, hst⟩ | ⟨hsome, hplace⟩ := u.placed.owner
    · exact ⟨fun _ => hst, fun j hj => absurd (hnone.symm.trans hj) nofun⟩
    · refine ⟨fun hnone => absurd (hnone.symm.trans hsome) nofun, fun j hj => ?_⟩
      obtain rfl := Option.some.inj (hsome.symm.trans hj)
      simpa [u.hep] using hplace
  · simp only [hhk, if_false]
    obtain ⟨hunowned, -⟩ := inv.2.2 k hk
    refine ⟨hunowned, fun j hj => ?_⟩
    obtain ⟨hjlt, hplace⟩ := inv.owned hk hj
    refine ⟨hjlt, ?_⟩
    by_cases hej : e = j
    · subst hej
      obtain ⟨hcur, hq⟩ := u.others k (Ne.symm hhk)
      simpa [hcur, hq] using hplace
    · simpa [hej] using hplace

theorem Update.transportOk (u : Update h e f g s t) (inv : TransportOk s) : TransportOk t := by
  have hctxs : t.ctxs.length = s.ctxs.length := by simp [u.ctxs]
  have heps : t.eps.length = s.eps.length := by simp [u.eps]
  refine ⟨ctxs_forall.mpr fun k hk => ?_, fun j hj => u.epOk inv (heps ▸ hj), fun k hk => u.ownerOk inv (hctxs ▸ hk)⟩
  rw [u.cfg, u.ctx]
  split
  · exact u.ctxOk
  · exact inv.ctx (hctxs ▸ hk)

/-! ### What a body makes of the pool and the endpoints -/

/-- From `s` to `t` the invariants of the pool and the endpoints are kept, and a context's state changes only along `E`. -/
structure Moves (E : CtxState → CtxState → Prop) (s t : State) : Prop where
  ok : TransportOk t
  edge : ∀ h, (t.ctx h).state = (s.ctx h).state ∨ E (s.ctx h).state (t.ctx h).state

variable {E : CtxState → CtxState → Prop}

theorem Moves.same (inv : TransportOk s) (hcfg : t.cfg = s.cfg) (hsame : SameTransport s t) : Moves E s t :=
  ⟨inv.congr hcfg hsame, fun h => .inl (by simp [State.ctx, hsame.ctxs])⟩

theorem Update.moves (u : Update h e f g s t) (inv : TransportOk s)
    (hedge : (f (s.ctx h)).state = (s.ctx h).state ∨ E (s.ctx h).state (f (s.ctx h)).state) : Moves E s t := by
  refine ⟨u.transportOk inv, fun k => ?_⟩
  rw [u.ctx]
  split
  · rename_i hk
    exact hk ▸ hedge
  · exact .inl rfl

theorem Moves.mono {E' : CtxState → CtxState → Prop} (m : Moves E s t) (hE : ∀ a b, E a b → E' a b) : Moves E' s t :=
  ⟨m.ok, fun h => (m.edge h).imp_right (hE _ _)⟩

/-- R114, R46: the sizes of a context with its bookkeeping cleared. -/
theorem ctxOk_allocated {p : Config} {x : Ctx} (hx : CtxOk p x) (st : CtxState) : CtxOk p (x.allocated st) :=
  ⟨Nat.zero_le _, Nat.le_refl 0, Nat.zero_le _, hx.2.2.2.1, fun _ => ⟨rfl, rfl, rfl, rfl⟩⟩

theorem ctxOk_released {p : Config} {x : Ctx} (hx : CtxOk p x) : CtxOk p x.released := ctxOk_allocated hx .free

/-- A context that nothing owns changes hands between the pool and its user (R110, R112). -/
theorem moves_unowned (inv : TransportOk s) (hcfg : t.cfg = s.cfg) (hep : 0 < s.eps.length) {st : CtxState}
    (hctxs : t.ctxs = s.ctxs.modify h (·.allocated st)) (heps : t.eps = s.eps) (hh : h < s.ctxs.length) (ho : (s.ctx h).owner = none)
    (hst : st = .free ∨ st = .uartTxPending ∨ st = .usbRxBusy) (hedge : E (s.ctx h).state st) : Moves E s t := by
  obtain ⟨hcur, hq⟩ := inv.unreferenced hep ho
  obtain ⟨hprogress, hzlp, -, -, hnodup⟩ := inv.2.1 0 hep
  have u : Update h 0 (·.allocated st) id s t :=
    { cfg := hcfg, ctxs := hctxs, eps := by rw [heps, List.modify_id], hctx := hh, hep := hep, owner := .inl ho
      ctxOk := ctxOk_allocated (inv.ctx hh) st, shape := ⟨hprogress, hzlp, hnodup⟩, placed := .unowned rfl hst hcur hq
      others := fun _ _ => ⟨Iff.rfl, Iff.rfl⟩ }
  exact u.moves inv (.inr hedge)

/-- A context that nothing owns enters the queue of an endpoint to the host (R191). -/
theorem moves_enqueue (inv : TransportOk s) (hcfg : t.cfg = s.cfg) (hctxs : t.ctxs = s.ctxs.modify h f)
    (heps : t.eps = s.eps.modify e fun y => { y with queue := y.queue ++ [h] }) (hh : h < s.ctxs.length) (he : e < s.eps.length)
    (ho : (s.ctx h).owner = none) (hd : (s.epConst e).dir = .toHost) (hctx : CtxOk s.cfg (f (s.ctx h)))
    (hown : (f (s.ctx h)).owner = some e) (hst : (f (s.ctx h)).state = .usbTxPending) (hedge : E (s.ctx h).state .usbTxPending) :
    Moves E s t := by
  obtain ⟨hcur, hq⟩ := inv.unreferenced he ho
  obtain ⟨hprogress, hzlp, -, -, hnodup⟩ := inv.2.1 e he
  have u : Update h e f (fun y => { y with queue := y.queue ++ [h] }) s t :=
    { cfg := hcfg, ctxs := hctxs, eps := heps, hctx := hh, hep := he, owner := .inl ho, ctxOk := hctx
      shape := ⟨hprogress, hzlp, List.concat_eq_append .. ▸ hnodup.concat hq⟩
      placed := .pending hown (by rw [hst, hd]; rfl) hcur (by simp)
      others := fun k hk => ⟨Iff.rfl, by simp [hk]⟩ }
  exact u.moves inv (.inr (hst ▸ hedge))

/-- The context of a transfer in flight is released and the endpoint is idle (R194, R197). -/
theorem moves_release_cur (inv : TransportOk s) (hcfg : t.cfg = s.cfg) (hctxs : t.ctxs = s.ctxs.modify h Ctx.released)
    (heps : t.eps = s.eps.modify e g) (hg : g (s.ep e) = { s.ep e with inProgress := false, cur := none, zlp := false })
    (he : e < s.eps.length) (hcur : (s.ep e).cur = some h) (hedge : E (busyState (s.epConst e).dir) .free) : Moves E s t := by
  obtain ⟨hh, ho, hst⟩ := inv.cur he hcur
  have u : Update h e Ctx.released g s t :=
    { cfg := hcfg, ctxs := hctxs, eps := heps, hctx := hh, hep := he, owner := .inr ho, ctxOk := ctxOk_released (inv.ctx hh)
      shape := hg ▸ ⟨by simp, by simp, inv.nodup he⟩
      placed := hg ▸ .unowned rfl (.inl rfl) (by simp) (inv.cur_not_queued he hcur)
      others := fun k hk => by simp [hg, hcur, Ne.symm hk] }
  exact u.moves inv (.inr (hst ▸ hedge))

/-- The head of a queue is taken and released (R220). -/
theorem moves_take (inv : TransportOk s) (hcfg : t.cfg = s.cfg) (hctxs : t.ctxs = s.ctxs.modify h Ctx.released) {rest : List Nat}
    (heps : t.eps = s.eps.modify e fun y => { y with queue := rest }) (he : e < s.eps.length) (hq : (s.ep e).queue = h :: rest)
    (hedge : E (pendingState (s.epConst e).dir) .free) : Moves E s t := by
  obtain ⟨hh, ho, hst⟩ := inv.queued he (hq ▸ List.mem_cons_self)
  obtain ⟨hprogress, hzlp, -⟩ := inv.2.1 e he
  obtain ⟨hnotin, hnodup⟩ := List.nodup_cons.mp (hq ▸ inv.nodup he)
  have hcur : (s.ep e).cur ≠ some h := fun hcur => inv.cur_not_queued he hcur (hq ▸ List.mem_cons_self)
  have u : Update h e Ctx.released (fun y => { y with queue := rest }) s t :=
    { cfg := hcfg, ctxs := hctxs, eps := heps, hctx := hh, hep := he, owner := .inr ho, ctxOk := ctxOk_released (inv.ctx hh)
      shape := ⟨hprogress, hzlp, hnodup⟩, placed := .unowned rfl (.inl rfl) hcur hnotin
      others := fun k hk => by simp [hq, hk] }
  exact u.moves inv (.inr (hst ▸ hedge))

/-! ### The bodies -/

theorem poolAllocBody_moves {n : Nat} {st : CtxState} {r : Reply} (inv : TransportOk s) (hep : 0 < s.eps.length)
    (hst : st = .usbRxBusy ∨ st = .uartTxPending) (hb : poolAllocBody n st s = .ok (t, r)) :
    Moves (fun a b => a = .free ∧ (b = .usbRxBusy ∨ b = .uartTxPending)) s t := by
  unfold poolAllocBody at hb
  obtain ⟨-, halloc⟩ | ⟨-, k, hk, halloc⟩ := State.alloc_cases s n st <;> rw [halloc] at hb
  · obtain ⟨rfl, -⟩ := ret_eq_ok.mp hb
    exact .same inv rfl ⟨rfl, rfl⟩
  · obtain ⟨rfl, -⟩ := ret_eq_ok.mp hb
    obtain ⟨hlt, hfree, -⟩ := State.firstFree_eq_some.mp hk
    exact moves_unowned inv rfl hep rfl rfl hlt (inv.free hlt hfree) (.inr hst.symm) ⟨hfree, hst⟩

/-- R112: a context that `POOL.FREE` accepts has no owner, because an owner refers to it. -/
theorem poolFreeBody_moves {r : Reply} (inv : TransportOk s) (hep : 0 < s.eps.length) (hshape : s.shape)
    (hb : poolFreeBody h s = .ok (t, r)) : Moves (fun a b => (a = .usbRxBusy ∨ a = .uartTxPending) ∧ b = .free) s t := by
  unfold poolFreeBody at hb
  split at hb
  · exact nomatch hb
  · rename_i hhandle
    split at hb
    · exact nomatch hb
    · rename_i hbusy
      split at hb
      · exact nomatch hb
      · rename_i hfree
        obtain ⟨rfl, -⟩ := ret_eq_ok.mp hb
        have hlt : h < s.ctxs.length := by
          have hlen := hshape.2.1
          omega
        have hown : (s.ctx h).owner = none := by
          cases ho : (s.ctx h).owner with
          | none => rfl
          | some e =>
            obtain ⟨he, hplace⟩ := inv.owned hlt ho
            have hget : s.ep e = s.eps[e] := by simp [State.ep, he]
            exact absurd (referenced_iff.mpr ⟨s.ep e, hget ▸ List.getElem_mem he, (hplace.imp And.right And.right).symm⟩) hfree
        obtain hzero | hpending | hrx := (inv.2.2 h hlt).1 hown
        · exact absurd hzero hbusy
        · exact moves_unowned inv rfl hep rfl rfl hlt hown (.inl rfl) ⟨.inr hpending, rfl⟩
        · exact moves_unowned inv rfl hep rfl rfl hlt hown (.inl rfl) ⟨.inl hrx, rfl⟩

theorem ubtEnqBody_moves {r : Reply} (inv : TransportOk s) (hshape : s.shape) (he : e < s.eps.length) (hd : (s.epConst e).dir = .toHost)
    (hb : ubtEnqBody e h s = .ok (t, r)) : Moves (fun a b => a = .uartTxPending ∧ b = .usbTxPending) s t := by
  unfold ubtEnqBody at hb
  split at hb
  · exact nomatch hb
  · rename_i hhandle
    split at hb
    · exact nomatch hb
    · rename_i hst
      have hst : (s.ctx h).state = .uartTxPending := by simpa using hst
      obtain ⟨rfl, -⟩ := ret_eq_ok.mp hb
      have hlt : h < s.ctxs.length := by
        have hlen := hshape.2.1
        omega
      obtain ⟨hsize, hidx, htot, hbuf, -⟩ := inv.ctx hlt
      exact moves_enqueue inv rfl rfl rfl hlt he (inv.pending_unowned hlt hst) hd ⟨hsize, hidx, htot, hbuf, nofun⟩ rfl rfl ⟨hst, rfl⟩

/-- R1: an endpoint that an interface names exists and has the direction of its use. -/
theorem namesEp_dir {p : Config} {d : EpDir} {o : Option Nat} (hn : p.namesEp d o = true) (ho : o = some e) :
    e < p.eps.length ∧ (p.eps.getD e ⟨0#8, .toHost, 1⟩).dir = d := by
  subst ho
  simp only [Config.namesEp, Option.any_eq_true, decide_eq_true_eq] at hn
  obtain ⟨x, hx, hdir⟩ := hn
  obtain ⟨hlt, rfl⟩ := List.getElem?_eq_some_iff.mp hx
  exact ⟨hlt, by simpa [List.getD_eq_getElem?_getD, hlt] using hdir⟩

/-- R75: a legal endpoint selector. -/
theorem epIs_dir {p : Config} {d : EpDir} {b : Byte} (hb : p.epIs b d = true) :
    b.toNat < p.eps.length ∧ (p.eps.getD b.toNat ⟨0#8, .toHost, 1⟩).dir = d := namesEp_dir (o := some b.toNat) hb rfl

/-- R156: a message goes to a context that was free and to the queue of the IN endpoint. -/
theorem Posts.moves {c : Nat} {msg : List Byte} (hp : Posts c msg e h s t) (hcfg : t.cfg = s.cfg) (inv : TransportOk s)
    (hw : ConfigFacts s.cfg) (hshape : s.shape) : Moves (fun a b => a = .free ∧ b = .usbTxPending) s t := by
  obtain ⟨hin, ⟨hlt, hfree, -⟩, hfits, hctxs, heps⟩ := hp
  obtain ⟨f, hf, hfe⟩ := Option.bind_eq_some_iff.mp hin
  obtain ⟨-, hnames, -⟩ := hw.ifs f (List.mem_of_find?_eq_some hf)
  obtain ⟨he, hd⟩ := namesEp_dir hnames hfe
  have hbuf := inv.buf hlt
  refine moves_enqueue inv hcfg hctxs heps hlt (hshape.2.2 ▸ he) (inv.free hlt hfree) hd ?_ rfl rfl ⟨hfree, rfl⟩
  exact ⟨hfits, Nat.zero_le _, hfits, Memory.within_storeList hbuf hfits, nofun⟩

theorem MayPost.moves {c : Nat} (hp : MayPost c s t) (hcfg : t.cfg = s.cfg) (inv : TransportOk s) (hw : ConfigFacts s.cfg)
    (hshape : s.shape) : Moves (fun a b => a = .free ∧ b = .usbTxPending) s t := by
  obtain hsame | ⟨msg, e, h, hposts⟩ := hp
  · exact .same inv hcfg hsame
  · exact hposts.moves hcfg inv hw hshape

theorem refillTohostBody_moves {draw : Bool} {r : Reply} (inv : TransportOk s) (he : e < s.eps.length) (hd : (s.epConst e).dir = .toHost)
    (hb : refillTohostBody e draw s = .ok (t, r)) : Moves (fun a b => a = .usbTxPending ∧ b = .usbTxBusy) s t := by
  cases refillTohostBody_cases hb with
  | nop => exact .same inv rfl ⟨rfl, rfl⟩
  | sub h rest ev hidle hq hlt _ =>
    obtain ⟨-, ho, hst⟩ := inv.queued he (hq ▸ List.mem_cons_self)
    obtain ⟨hnotin, hnodup⟩ := List.nodup_cons.mp (hq ▸ inv.nodup he)
    obtain ⟨hnone, -⟩ := inv.idle he hidle
    obtain ⟨hsize, hidx, htot, hbuf, -⟩ := inv.ctx hlt
    refine Update.moves (h := h) (e := e) (f := fun y => { y with state := .usbTxBusy })
      (g := fun _ => ⟨rest, true, some h, false⟩) ?_ inv (.inr ⟨by rw [hst, hd]; rfl, rfl⟩)
    exact
      { cfg := rfl, ctxs := rfl, eps := rfl, hctx := hlt, hep := he, owner := .inr ho, ctxOk := ⟨hsize, hidx, htot, hbuf, nofun⟩
        shape := ⟨by simp, by simp, hnodup⟩, placed := .busy ho (by rw [hd]; rfl) rfl hnotin
        others := fun k hk => by simp [hq, hnone, hk, Ne.symm hk] }
  | fail h rest ev hidle hq hlt _ =>
    obtain ⟨hnone, hzlp⟩ := inv.idle he hidle
    have hep : s.ep e = ⟨h :: rest, false, none, false⟩ := by
      change (⟨(s.ep e).queue, (s.ep e).inProgress, (s.ep e).cur, (s.ep e).zlp⟩ : Ep) = _
      rw [hq, hidle, hnone, hzlp]
    have hupd := State.updEp_congr (s := s) (c := e) (f := fun _ => ⟨h :: rest, false, none, false⟩) (g := id) hep.symm
    exact .same inv rfl ⟨rfl, (congrArg State.eps hupd).trans (List.modify_id ..)⟩

theorem refillFromhostBody_moves {draw : Bool} {r : Reply} (inv : TransportOk s) (he : e < s.eps.length)
    (hd : (s.epConst e).dir = .fromHost) (hb : refillFromhostBody e draw s = .ok (t, r)) :
    Moves (fun a b => a = .free ∧ b = .usbRxBusy) s t := by
  cases refillFromhostBody_cases hb with
  | nop => exact .same inv rfl ⟨rfl, rfl⟩
  | oom => exact .same inv rfl ⟨rfl, rfl⟩
  | sub h ev hidle hleast _ =>
    obtain ⟨hlt, hfree, -⟩ := hleast
    have ho := inv.free hlt hfree
    obtain ⟨-, hq⟩ := inv.unreferenced he ho
    obtain ⟨hnone, hzlp⟩ := inv.idle he hidle
    have hbuf := inv.buf hlt
    refine Update.moves (h := h) (e := e) (f := fun y => { y with state := .usbRxBusy, size := 0, totLen := 0, idx := 0, owner := some e })
      (g := fun y => { y with inProgress := true, cur := some h }) ?_ inv (.inr ⟨hfree, rfl⟩)
    exact
      { cfg := rfl, ctxs := rfl, eps := rfl, hctx := hlt, hep := he, owner := .inl ho
        ctxOk := ⟨Nat.zero_le _, Nat.le_refl 0, Nat.zero_le _, hbuf, nofun⟩
        shape := ⟨by simp, by simp [hzlp], inv.nodup he⟩, placed := .busy rfl (by rw [hd]; rfl) rfl hq
        others := fun k hk => by simp [hnone, Ne.symm hk] }
  | fail h ev hidle hleast _ =>
    obtain ⟨hlt, hfree, -⟩ := hleast
    have ho := inv.free hlt hfree
    obtain ⟨-, hq⟩ := inv.unreferenced he ho
    obtain ⟨hnone, hzlp⟩ := inv.idle he hidle
    refine Update.moves (h := h) (e := e) (f := Ctx.released)
      (g := fun y => { y with inProgress := false, cur := none }) ?_ inv (.inl hfree.symm)
    exact
      { cfg := rfl, ctxs := rfl, eps := rfl, hctx := hlt, hep := he, owner := .inl ho, ctxOk := ctxOk_released (inv.ctx hlt)
        shape := ⟨by simp, by simp [hzlp], inv.nodup he⟩, placed := .unowned rfl (.inl rfl) (by simp) hq
        others := fun k hk => by simp [hnone] }

theorem wcompleteBody_moves {status : Byte} {draw : Bool} {r : Reply} (inv : TransportOk s) (he : e < s.eps.length)
    (hd : (s.epConst e).dir = .toHost) (hb : wcompleteBody e status draw s = .ok (t, r)) :
    Moves (fun a b => a = .usbTxBusy ∧ b = .free) s t := by
  cases wcompleteBody_cases hb with
  | illegal => exact .same inv rfl ⟨rfl, rfl⟩
  | zlp h ev hprogress hcur hlt _ _ _ =>
    obtain ⟨-, ho, hst⟩ := inv.cur he hcur
    refine Update.moves (h := h) (e := e) (f := id)
      (g := fun y => { y with zlp := true }) ?_ inv (.inl rfl)
    exact
      { cfg := rfl, ctxs := (List.modify_id ..).symm, eps := rfl, hctx := hlt, hep := he, owner := .inr ho, ctxOk := inv.ctx hlt
        shape := ⟨inv.inProgress he, fun _ => ⟨hprogress, hd⟩, inv.nodup he⟩
        placed := .busy ho hst hcur (inv.cur_not_queued he hcur)
        others := fun _ _ => ⟨Iff.rfl, Iff.rfl⟩ }
  | done h evs hprogress hcur hlt => exact moves_release_cur inv rfl rfl rfl rfl he hcur ⟨by rw [hd]; rfl, rfl⟩

theorem rcompleteBody_moves {status : Byte} {data : List Byte} {r : Reply} (inv : TransportOk s) (he : e < s.eps.length)
    (hd : (s.epConst e).dir = .fromHost) (hb : rcompleteBody e status data s = .ok (t, r)) :
    Moves (fun a b => a = .usbRxBusy ∧ b = if status = 0#8 then .usbRxPending else .free) s t := by
  cases rcompleteBody_cases hb with
  | illegal => exact .same inv rfl ⟨rfl, rfl⟩
  | ok h hprogress hcur hlt hstatus hfits =>
    obtain ⟨-, ho, hst⟩ := inv.cur he hcur
    have hbuf := inv.buf hlt
    have hzlp := inv.zlp_off he hd
    refine Update.moves (h := h) (e := e) (f := fun y => { y with
        buf := y.buf.storeList 0 data, size := data.length, totLen := data.length, idx := 0, state := .usbRxPending })
      (g := fun y => { y with queue := y.queue ++ [h], inProgress := false, cur := none }) ?_ inv
      (.inr ⟨by rw [hst, hd]; rfl, by rw [if_pos hstatus]⟩)
    exact
      { cfg := rfl, ctxs := rfl, eps := rfl, hctx := hlt, hep := he, owner := .inr ho
        ctxOk := ⟨hfits, Nat.zero_le _, hfits, Memory.within_storeList hbuf hfits, nofun⟩
        shape := ⟨by simp, by simp [hzlp], List.concat_eq_append .. ▸ (inv.nodup he).concat (inv.cur_not_queued he hcur)⟩
        placed := .pending ho (by rw [hd]; rfl) (by simp) (by simp)
        others := fun k hk => by simp [hcur, hk, Ne.symm hk] }
  | err h ev hprogress hcur hlt hstatus =>
    have hzlp := inv.zlp_off he hd
    exact moves_release_cur inv rfl rfl rfl (by rw [← hzlp]) he hcur ⟨by rw [hd]; rfl, by rw [if_neg hstatus]⟩

theorem ubtDispatchBody_moves {r : Reply} (inv : TransportOk s) (he : e < s.eps.length) (hd : (s.epConst e).dir = .fromHost)
    (hb : ubtDispatchBody e s = .ok (t, r)) : Moves (fun a b => a = .usbRxPending ∧ b = .free) s t := by
  cases ubtDispatchBody_cases hb with
  | empty => exact .same inv rfl ⟨rfl, rfl⟩
  | drop h rest ev v hq => exact moves_take inv rfl rfl rfl he hq ⟨by rw [hd]; rfl, rfl⟩
  | acc h rest f flags data v hq => exact moves_take inv rfl rfl rfl he hq ⟨by rw [hd]; rfl, rfl⟩

/-! ### The end of a drain (R200) -/

/-- The state after the end of a `UBT.DRAIN`: every queued context released, the queue empty. -/
structure Drained (e : Nat) (s t : State) : Prop where
  cfg : t.cfg = s.cfg
  len : t.ctxs.length = s.ctxs.length
  epsLen : t.eps.length = s.eps.length
  ctx : ∀ k, t.ctx k = if k ∈ (s.ep e).queue then (s.ctx k).released else s.ctx k
  ep : ∀ j, t.ep j = if e = j then { s.ep e with queue := [] } else s.ep j

theorem drainBody_drained {r : Reply} (hb : drainBody e s = .ok (t, r)) : Drained e s t := by
  obtain ⟨hheld, rfl⟩ := drainBody_cases hb
  refine ⟨rfl, List.length_mapIdx .., List.length_modify .., fun k => ?_, fun j => ?_⟩
  · by_cases hk : k < s.ctxs.length
    · simp [State.ctx, hk]
    · have hnot : k ∉ (s.ep e).queue := fun hm => hk (hheld k hm)
      simp [State.ctx, hk, hnot]
  · have hmod := State.ep_updEp s e j fun y => { y with queue := [] }
    refine hmod.trans ?_
    by_cases hej : e = j
    · subst hej
      by_cases he : e < s.eps.length
      · simp [he]
      · simp [State.ep, he, Ep.reset]
    · simp [hej]

theorem Drained.transportOk (d : Drained e s t) (inv : TransportOk s) (he : e < s.eps.length) : TransportOk t := by
  have hconst : ∀ j, t.epConst j = s.epConst j := fun j => by simp [State.epConst, d.cfg]
  have hkept : ∀ k, (k ∈ (s.ep e).queue → False) → t.ctx k = s.ctx k := fun k hk => by rw [d.ctx, if_neg hk]
  refine ⟨ctxs_forall.mpr fun k hk => ?_, fun j hj => ?_, fun k hk => ?_⟩
  · rw [d.cfg, d.ctx]
    have hctx := inv.ctx (d.len ▸ hk)
    split
    · exact ctxOk_released hctx
    · exact hctx
  · rw [d.epsLen] at hj
    obtain ⟨hcur, hzlp, hbusy, hpending, hnodup⟩ := inv.2.1 j hj
    simp only [EpOk, hconst, d.len]
    by_cases hej : e = j
    · subst hej
      rw [d.ep, if_pos rfl]
      refine ⟨hcur, hzlp, fun k hk => ?_, nofun, List.nodup_nil⟩
      rw [hkept k (inv.cur_not_queued he (by simpa using hk))]
      exact hbusy k hk
    · rw [d.ep, if_neg hej]
      have hother : ∀ k, (s.ctx k).owner = some j → t.ctx k = s.ctx k := fun k hk =>
        hkept k fun hq => hej (Option.some.inj ((inv.queued he hq).2.1.symm.trans hk))
      refine ⟨hcur, hzlp, fun k hk => ?_, fun k hk => ?_, hnodup⟩
      · rw [hother k (hbusy k hk).2.1]
        exact hbusy k hk
      · rw [hother k (hpending k hk).2.1]
        exact hpending k hk
  · rw [d.len] at hk
    by_cases hq : k ∈ (s.ep e).queue
    · simp [OwnerOk, d.ctx, hq, Ctx.released]
    · simp only [OwnerOk, hkept k hq, hconst, d.epsLen, Option.mem_toList]
      refine ⟨(inv.2.2 k hk).1, fun j hj => ?_⟩
      obtain ⟨hjlt, hplace⟩ := inv.owned hk hj
      refine ⟨hjlt, ?_⟩
      rw [d.ep]
      split
      · rename_i hej
        subst hej
        exact hplace.imp (fun ⟨_, hm⟩ => absurd hm hq) id
      · exact hplace

theorem drainBody_moves {r : Reply} (inv : TransportOk s) (hb : drainBody e s = .ok (t, r)) :
    Moves (fun a b => (a = .usbTxPending ∨ a = .usbRxPending) ∧ b = .free) s t := by
  have d := drainBody_drained hb
  by_cases he : e < s.eps.length
  · refine ⟨d.transportOk inv he, fun k => ?_⟩
    rw [d.ctx]
    split
    · rename_i hq
      refine .inr ⟨?_, rfl⟩
      rw [(inv.queued he hq).2.2]
      cases (s.epConst e).dir
      · exact .inr rfl
      · exact .inl rfl
    · exact .inl rfl
  · obtain ⟨-, rfl⟩ := drainBody_cases hb
    have hnone : s.ep e = Ep.reset := by simp [State.ep, he]
    refine .same inv rfl ⟨List.ext_getElem? fun k => ?_, List.modify_eq_self (Nat.le_of_not_lt he)⟩
    simp [hnone, Ep.reset]

/-! ### Every operation -/

/-- What every body works on: well-formed parameters, lists of their lengths, and the pool and the endpoints in order. -/
structure PoolOk (s : State) : Prop where
  config : s.cfg.wellFormed = true
  shape : s.shape
  transport : TransportOk s

theorem PoolOk.facts (inv : PoolOk s) : ConfigFacts s.cfg := configFacts_of inv.config

/-- The endpoint of a legal request. -/
theorem PoolOk.legalEp (inv : PoolOk s) {b : Byte} {d : EpDir} (hb : s.cfg.epIs b d = true) :
    b.toNat < s.eps.length ∧ (s.epConst b.toNat).dir = d := by
  obtain ⟨hlt, hd⟩ := epIs_dir hb
  exact ⟨inv.shape.2.2 ▸ hlt, hd⟩

/-- The endpoint that an interface names. -/
theorem PoolOk.namedEp (inv : PoolOk s) {o : Option Nat} {d : EpDir} (hn : s.cfg.namesEp d o = true) (ho : o = some e) :
    e < s.eps.length ∧ (s.epConst e).dir = d := by
  obtain ⟨hlt, hd⟩ := namesEp_dir hn ho
  exact ⟨inv.shape.2.2 ▸ hlt, hd⟩

/-- R17: every rule body keeps the invariants of the pool and the endpoints and moves contexts only along the edges of its operation. -/
theorem moves_body {i : Instr} {b : State → Body} {r : Reply} (hb : bodyOf i = some b) (hw : i.wellFormed s.cfg = true)
    (inv : PoolOk s) (h : b s = .ok (t, r)) : Moves (ctxEdge i) s t := by
  have hcfg := (frame_body hb s t r h).cfg
  have hep : 0 < s.eps.length := by
    have hcount := inv.facts.eps.1
    have hlen := inv.shape.2.2
    omega
  have hsame : SameTransport s t → Moves (ctxEdge i) s t := .same inv.transport hcfg
  have hret : ∀ {rc v}, ret s rc v = .ok (t, r) → Moves (ctxEdge i) s t := by
    intro rc v h
    obtain ⟨rfl, -⟩ := ret_eq_ok.mp h
    exact hsame ⟨rfl, rfl⟩
  cases i <;> simp only [bodyOf, Option.some.injEq, reduceCtorEq] at hb <;> subst hb
  case rbReset =>
    obtain ⟨rfl, -⟩ := ret_eq_ok.mp h
    exact hsame ⟨rfl, rfl⟩
  case rbWrite => exact hsame (rbWriteBody_effect h).1
  case rbRead => exact hsame (rbReadBody_effect h).1
  case rbPeek => exact hsame (rbPeekBody_same h ▸ ⟨rfl, rfl⟩)
  case rbIsempty => exact hret h
  case timRatio => exact hsame (timRatioBody_same h ▸ ⟨rfl, rfl⟩)
  case timApply => exact hsame (timApplyBody_effect h).1
  case urxIrq => exact hsame (urxIrqBody_effect h).1
  case cemIosig => exact hsame (cemIosigBody_effect h).1
  case cemTxbyte => exact hsame (cemTxbyteBody_effect h).1
  case cemRxbyte => exact (cemRxbyteBody_effect h).1.moves hcfg inv.transport inv.facts inv.shape
  case cemPump => exact (cemPumpBody_effect h).1.moves hcfg inv.transport inv.facts inv.shape
  case cemFidi => exact hsame (cemFidiBody_effect h).1
  case wtSetwt =>
    obtain ⟨rfl, -⟩ := ret_eq_ok.mp h
    exact hsame ⟨rfl, rfl⟩
  case wtSetetu =>
    obtain ⟨rfl, -⟩ := ret_eq_ok.mp h
    exact hsame ⟨rfl, rfl⟩
  case wtTick => exact hsame (wtTickBody_effect h).1
  case poolAlloc n st =>
    have hst : allocState st = .usbRxBusy ∨ allocState st = .uartTxPending := by
      unfold allocState
      split
      · exact .inl rfl
      · exact .inr rfl
    exact poolAllocBody_moves inv.transport hep hst h
  case poolFree => exact poolFreeBody_moves inv.transport hep inv.shape h
  case poolReport => exact hret h
  case ubtEnq =>
    obtain ⟨he, hd⟩ := inv.legalEp hw
    exact ubtEnqBody_moves inv.transport inv.shape he hd h
  case ubtRefillTohost =>
    obtain ⟨he, hd⟩ := inv.legalEp hw
    exact refillTohostBody_moves inv.transport he hd h
  case ubtWcomplete =>
    obtain ⟨he, hd⟩ := inv.legalEp hw
    exact wcompleteBody_moves inv.transport he hd h
  case ubtRefillFromhost =>
    obtain ⟨he, hd⟩ := inv.legalEp hw
    exact refillFromhostBody_moves inv.transport he hd h
  case ubtRcomplete =>
    simp only [Instr.wellFormed, Bool.and_eq_true] at hw
    obtain ⟨he, hd⟩ := inv.legalEp hw.1
    exact rcompleteBody_moves inv.transport he hd h
  case ubtDispatch =>
    obtain ⟨he, hd⟩ := inv.legalEp hw
    exact ubtDispatchBody_moves inv.transport he hd h

/-- R17, R199: the transition that part `n` of `UBT.PROCESS` performs. -/
def partEdge (n : Nat) (a b : CtxState) : Prop :=
  (n < 2 ∧ a = .usbTxPending ∧ b = .usbTxBusy) ∨ (n = 2 ∧ a = .free ∧ b = .usbRxBusy) ∨ (3 ≤ n ∧ a = .usbRxPending ∧ b = .free)

theorem partCase_moves {p : Proc} {n : Nat} {ends : Bool} (inv : PoolOk s) (h : PartCase p s t n ends) : Moves (partEdge p.part) s t := by
  have hifs : ∀ {f}, s.cfg.ifs[p.k]? = some f → _ := fun hf => inv.facts.ifs _ (List.mem_of_getElem? hf)
  have hdispatch : ∀ {f e r}, s.cfg.ifs[p.k]? = some f → 3 ≤ p.part → f.out = some e → ubtDispatchBody e s = .ok (t, r) →
      Moves (partEdge p.part) s t := by
    intro f e r hf hpart hout hr
    obtain ⟨-, -, hnames, -⟩ := hifs hf
    obtain ⟨he, hd⟩ := inv.namedEp hnames hout
    exact (ubtDispatchBody_moves inv.transport he hd hr).mono fun _ _ hab => .inr (.inr ⟨hpart, hab⟩)
  cases h with
  | noif => exact .same inv.transport rfl ⟨rfl, rfl⟩
  | skip => exact .same inv.transport rfl ⟨rfl, rfl⟩
  | irq f e t r hf hpart hirq hr =>
    obtain ⟨hnames, -⟩ := hifs hf
    obtain ⟨he, hd⟩ := inv.namedEp hnames hirq
    exact (refillTohostBody_moves inv.transport he hd hr).mono fun _ _ hab => .inl ⟨by omega, hab⟩
  | inn f e t r hf hpart hinn hr =>
    obtain ⟨-, hnames, -⟩ := hifs hf
    obtain ⟨he, hd⟩ := inv.namedEp hnames hinn
    exact (refillTohostBody_moves inv.transport he hd hr).mono fun _ _ hab => .inl ⟨by omega, hab⟩
  | out f e t r hf hpart hout hr =>
    obtain ⟨-, -, hnames, -⟩ := hifs hf
    obtain ⟨he, hd⟩ := inv.namedEp hnames hout
    exact (refillFromhostBody_moves inv.transport he hd hr).mono fun _ _ hab => .inr (.inl ⟨hpart, hab⟩)
  | disp f e t r hf hpart hout hr => exact hdispatch hf hpart hout hr
  | dispEmpty f e t r hf hpart hout hr => exact hdispatch hf hpart hout hr

/-! ### Every step -/

theorem PoolOk.of_frame (inv : PoolOk s) (hframe : Frame s t) (htransport : TransportOk t) : PoolOk t :=
  ⟨hframe.cfg ▸ inv.config, hframe.shape inv.shape, htransport⟩

theorem poolOk_keptByStep : KeptByStep PoolOk where
  outer _ _ _ _ _ inv := ⟨inv.config, inv.shape, inv.transport⟩
  body _ _ _ _ _ hb hw inv h := inv.of_frame (frame_body hb _ _ _ h) (moves_body hb hw inv h).ok
  part _ _ _ _ _ inv h := inv.of_frame (frame_processPart h) (partCase_moves inv h).ok
  drain _ _ _ _ inv h := inv.of_frame (frame_drainBody _ _ _ _ h) (drainBody_moves inv.transport h).ok
  fatal _ _ inv := ⟨inv.config, inv.shape, inv.transport⟩
  reset s inv := ⟨inv.config, s.sysReset_shape, transportOk_resetWith s.cfg⟩

end Sys2Proof.Machine
end

section
/-! SUPPORT. The transitions of R17 for every operation, and the record of the operation in progress and the halt code over every step. -/

namespace Sys2Proof.Machine

variable {s t : State}

/-! ### The transitions of a context's state (R17) -/

/-- R199: the refills come before the dispatches, so what one part leaves of a context, no later part moves on. -/
theorem partEdge_last {m n : Nat} {a b c : CtxState} (hmn : m < n) (hab : partEdge m a b) : ¬partEdge n b c := by
  obtain ⟨-, -, rfl⟩ | ⟨-, -, rfl⟩ | ⟨hm, -, rfl⟩ := hab
  · simp [partEdge]
  · simp [partEdge]
  · simp [partEdge]
    omega

theorem ctxEdge_of_partEdge {n : Nat} {a b : CtxState} (h : partEdge n a b) (k : Byte) (x y z : Bool) :
    ctxEdge (.ubtProcess k x y z) a b := h.imp And.right (Or.imp And.right And.right)

/-- Since `s` every context has kept its state or moved along the edge of one of the parts before progress `q`. -/
structure PartsMove (s : State) (q : Proc) (u : State) : Prop where
  pool : PoolOk u
  edge : ∀ h, (u.ctx h).state = (s.ctx h).state ∨ ∃ m, m < q.part ∧ partEdge m (s.ctx h).state (u.ctx h).state

theorem PartsMove.part {q : Proc} {u v : State} {n : Nat} {ends : Bool} (hq : PartsMove s q u) (h : PartCase q u v n ends) :
    PartsMove s (q.next u v n) v := by
  have hmoves := partCase_moves hq.pool h
  refine ⟨poolOk_keptByStep.part _ _ _ _ _ hq.pool h, fun k => ?_⟩
  have hnext : ∀ m, m ≤ q.part → m < (q.next u v n).part := fun m hm => Nat.lt_succ_of_le hm
  obtain hsame | hedge := hmoves.edge k
  · rw [hsame]
    exact (hq.edge k).imp_right fun ⟨m, hm, hab⟩ => ⟨m, hnext m (Nat.le_of_lt hm), hab⟩
  · obtain hfirst | ⟨m, hm, hab⟩ := hq.edge k
    · exact .inr ⟨q.part, hnext _ (Nat.le_refl _), hfirst ▸ hedge⟩
    · exact absurd hedge (partEdge_last hm hab)

/-- What operation `i` does to the state of every context. -/
abbrev EdgesOf (i : Instr) (s t : State) : Prop := ∀ h, (t.ctx h).state = (s.ctx h).state ∨ ctxEdge i (s.ctx h).state (t.ctx h).state

theorem PartsMove.edgesOf {q : Proc} {u : State} (hq : PartsMove s q u) (k : Byte) (x y z : Bool) : EdgesOf (.ubtProcess k x y z) s u :=
  fun h => (hq.edge h).imp_right fun ⟨_, _, hab⟩ => ctxEdge_of_partEdge hab k x y z

theorem processRun_edges {fuel : Nat} {q : Proc} (inv : PoolOk s) (h : processRun fuel q s = .next t) (k : Byte) (x y z : Bool) :
    EdgesOf (.ubtProcess k x y z) s t :=
  processRun_induct (P := PartsMove s) (Q := EdgesOf (.ubtProcess k x y z) s)
    (last := fun _ _ _ _ hq hpart => (hq.part hpart).edgesOf k x y z)
    (more := fun _ _ _ _ hq hpart => hq.part hpart)
    (pass := fun _ _ hq => ⟨poolOk_keptByStep.passBoundary hq.pool, hq.edge⟩)
    (stop := fun _ _ _ _ hq hpart => (hq.part hpart).edgesOf k x y z)
    (spent := fun _ _ hq => hq.edgesOf k x y z)
    fuel q s t ⟨inv, fun _ => .inl rfl⟩ h

theorem drainEnd_edges {e : Nat} (inv : PoolOk s) (h : drainEnd e s = .next t) (d : Byte) : EdgesOf (.ubtDrain d) s t := by
  simp only [drainEnd] at h
  split at h
  · obtain rfl := next_inj h
    exact fun _ => .inl rfl
  · obtain ⟨u, r, hu, rfl⟩ | ⟨_, _, rfl⟩ := finish_next h
    · exact (drainBody_moves (s := { s with mainOp := none }) inv.transport hu).edge
    · exact fun _ => .inl rfl

theorem gate_edges {i : Instr} {run : State → Outcome} (hrun : i.wellFormed s.cfg = true → run s = .next t → EdgesOf i s t)
    (h : gate i s run = .next t) : EdgesOf i s t := by
  obtain ⟨_, rfl⟩ | ⟨_, rfl⟩ | ⟨hw, _, hr⟩ := gate_next h
  · exact fun _ => .inl rfl
  · exact fun _ => .inl rfl
  · exact hrun hw hr

theorem exec_edges {i : Instr} (inv : PoolOk s) (h : exec i s = .next t) : EdgesOf i s t := by
  cases hb : bodyOf i with
  | some b =>
    rw [exec_body hb] at h
    refine gate_edges (fun hw hr => ?_) h
    obtain ⟨u, r, hu, rfl⟩ | ⟨_, _, rfl⟩ := finish_next hr
    · exact (moves_body hb hw inv hu).edge
    · exact fun _ => .inl rfl
  | none =>
    cases i <;> simp only [bodyOf, reduceCtorEq] at hb
    case sysReset =>
      obtain rfl := next_inj h
      intro k
      have hreset : (s.sysReset.answer .ok 0#8 0#16).ctx k = Ctx.reset := State.ctx_resetWith s.cfg k
      exact .inr (congrArg Ctx.state hreset)
    case ubtProcess k x y z => exact gate_edges (fun _ hr => processRun_edges inv hr k x y z) h
    case ubtDrain e =>
      rw [exec_ubtDrain] at h
      refine gate_edges (fun _ hr => ?_) h
      split at hr
      · obtain rfl := next_inj hr
        exact fun _ => .inl rfl
      · exact drainEnd_edges inv hr e

theorem runs_edges {i : Instr} (inv : PoolOk s) (h : Runs i s t) : EdgesOf i s t := by
  obtain hexec | ⟨p, k, -, -, -, rfl, hresume⟩ | ⟨e, -, -, rfl, hend⟩ := runs_cases h
  · exact exec_edges inv hexec
  · unfold processResume at hresume
    split at hresume
    · obtain rfl := next_inj hresume
      exact fun _ => .inl rfl
    · exact processRun_edges (poolOk_keptByStep.passBoundary inv) hresume k _ _ _
  · exact drainEnd_edges inv hend e

/-! ### The halt code (R15, R230) -/

theorem HaltOk.of_eq (h : HaltOk s) (hhalted : t.halted = s.halted) (hcode : t.haltCode = s.haltCode) : HaltOk t := by
  simp only [HaltOk, hhalted, hcode]
  exact h

theorem HaltOk.of_frame (h : HaltOk s) (hframe : Frame s t) : HaltOk t := h.of_eq hframe.halted hframe.haltCode

theorem haltOk_keptByStep : KeptByStep HaltOk where
  outer _ _ _ _ _ h := h
  body _ _ _ _ _ hb _ hs h := hs.of_frame (frame_body hb _ _ _ h)
  part _ _ _ _ _ hs h := hs.of_frame (frame_processPart h)
  drain _ _ _ _ hs h := hs.of_frame (frame_drainBody _ _ _ _ h)
  fatal _ k _ := ⟨nofun, fun _ => by cases k <;> simp [FatalCode.code]⟩
  reset _ _ := ⟨fun _ => rfl, nofun⟩

/-! ### The record of the operation in progress (R199, R200) -/

theorem mainOk_congr (hcfg : t.cfg = s.cfg) (heps : t.eps.length = s.eps.length) (hop : t.mainOp = s.mainOp) : mainOk t = mainOk s := by
  simp only [mainOk, hcfg, heps, hop]

theorem mainOk_none (h : s.mainOp = none) : mainOk s = true := by simp [mainOk, h]

/-- A part that does not end the operation counts one context for each dispatch and leaves a part to come. -/
theorem partCase_record {p : Proc} {n : Nat} (hn : p.n = p.part - 3) (h : PartCase p s t n false) :
    n = p.part + 1 - 3 ∧ (t.cfg.ifs[p.k]?).any (fun f => decide (p.part + 1 < 3) || (f.out.isSome && decide (n < t.cfg.dispatchMax))) = true := by
  rw [(frame_processPart h).cfg]
  generalize hends : false = ends at h
  cases h with
  | noif => exact nomatch hends
  | skip b f hf hcase =>
    subst hends
    obtain ⟨hpart, -⟩ | ⟨hpart, -⟩ | ⟨-, -, hends⟩ := hcase
    · exact ⟨by omega, by simp [hf, hpart]⟩
    · exact ⟨by omega, by simp [hf, hpart]⟩
    · exact nomatch hends
  | irq f e t r hf hpart => exact ⟨by omega, by simp [hf, hpart]⟩
  | inn f e t r hf hpart => exact ⟨by omega, by simp [hf, hpart]⟩
  | out f e t r hf hpart hout =>
    have hsome : s.cfg.dispatchMax ≠ 0 := of_decide_eq_false hends.symm
    refine ⟨by omega, ?_⟩
    have hzero : p.n = 0 := by omega
    simp [hf, hpart, hout, hzero]
    omega
  | disp f e t r hf hpart hout _ _ =>
    have hless : ¬s.cfg.dispatchMax ≤ p.n + 1 := of_decide_eq_false hends.symm
    refine ⟨by omega, ?_⟩
    simp [hf, hout]
    omega
  | dispEmpty => exact nomatch hends

/-- R199: where a run of parts stops between two of them, what it records is in order. -/
theorem mainOk_processRun {fuel : Nat} {q : Proc} (hk : q.k < 256) (hn : q.n = q.part - 3) (h : processRun fuel q s = .next t) :
    mainOk t = true :=
  processRun_induct (P := fun q _ => q.k < 256 ∧ q.n = q.part - 3) (Q := fun t => mainOk t = true)
    (last := fun _ _ _ _ _ _ => rfl)
    (more := fun _ _ _ _ ⟨hk, hn⟩ hpart => ⟨hk, (partCase_record hn hpart).1⟩)
    (pass := fun _ _ hq => hq)
    (stop := fun p s t n ⟨hk, hn⟩ hpart => by
      obtain ⟨hcount, hleft⟩ := partCase_record hn hpart
      simp only [mainOk, Proc.next, Bool.and_eq_true]
      exact ⟨⟨⟨decide_eq_true hk, decide_eq_true (Nat.succ_pos _)⟩, decide_eq_true hcount⟩, hleft⟩)
    (spent := fun _ _ _ => rfl)
    fuel q s t ⟨hk, hn⟩ h

theorem mainOk_drainEnd {e : Nat} (h : drainEnd e s = .next t) : mainOk t = true := by
  simp only [drainEnd] at h
  split at h
  · obtain rfl := next_inj h
    rfl
  · obtain ⟨u, r, hu, rfl⟩ | ⟨_, _, rfl⟩ := finish_next h
    · exact mainOk_none (frame_drainBody _ _ _ _ hu).mainOp
    · rfl

theorem mainOk_gate {i : Instr} {run : State → Outcome} (hs : mainOk s = true)
    (hrun : i.wellFormed s.cfg = true → run s = .next t → mainOk t = true) (h : gate i s run = .next t) : mainOk t = true := by
  obtain ⟨_, rfl⟩ | ⟨_, rfl⟩ | ⟨hw, _, hr⟩ := gate_next h
  · exact hs
  · exact hs
  · exact hrun hw hr

theorem mainOk_exec {i : Instr} (hshape : s.shape) (hs : mainOk s = true) (h : exec i s = .next t) : mainOk t = true := by
  cases hb : bodyOf i with
  | some b =>
    rw [exec_body hb] at h
    refine mainOk_gate hs (fun _ hr => ?_) h
    obtain ⟨u, r, hu, rfl⟩ | ⟨_, _, rfl⟩ := finish_next hr
    · have hframe := frame_body hb s u r hu
      exact (mainOk_congr hframe.cfg hframe.l3 hframe.mainOp).trans hs
    · exact hs
  | none =>
    cases i <;> simp only [bodyOf, reduceCtorEq] at hb
    case sysReset =>
      obtain rfl := next_inj h
      rfl
    case ubtProcess k x y z => exact mainOk_gate hs (fun _ hr => mainOk_processRun k.isLt rfl hr) h
    case ubtDrain e =>
      rw [exec_ubtDrain] at h
      refine mainOk_gate hs (fun hw hr => ?_) h
      split at hr
      · obtain rfl := next_inj hr
        have hlt : e.toNat < s.cfg.eps.length := of_decide_eq_true hw
        exact decide_eq_true (hshape.2.2.symm ▸ hlt)
      · exact mainOk_drainEnd hr

theorem mainOk_takeRequest (hshape : s.shape) (hs : mainOk s = true) (h : takeRequest s = .next t) : mainOk t = true := by
  unfold takeRequest at h
  split at h
  · obtain rfl := next_inj h
    exact hs
  · rename_i ws rest _
    split at h
    · exact mainOk_exec (s := { s with port := rest }) hshape hs h
    · obtain rfl := next_inj h
      exact hs

/-- Every step leaves a record in order, whether it takes a request, goes on with an operation or holds it. -/
theorem mainOk_step (hshape : s.shape) (hs : mainOk s = true) (h : step s = .next t) : mainOk t = true := by
  cases hm : s.mainOp with
  | none =>
    simp only [step, cycle, hm] at h
    exact mainOk_takeRequest hshape hs h
  | some m =>
    cases m with
    | process p =>
      rw [step_process hm] at h
      split at h
      · exact mainOk_takeRequest (s := s.passBoundary) hshape hs h
      · unfold processResume at h
        split at h
        · obtain rfl := next_inj h
          rfl
        · simp only [mainOk, hm, Bool.and_eq_true, decide_eq_true_eq] at hs
          obtain ⟨⟨⟨hk, -⟩, hn⟩, -⟩ := hs
          exact mainOk_processRun hk hn h
    | drain e =>
      rw [step_drain hm] at h
      split at h
      · exact mainOk_drainEnd h
      · split at h
        · exact mainOk_takeRequest hshape hs h
        · obtain rfl := next_inj h
          exact hs

end Sys2Proof.Machine
end

section
/-! The statements of the family 10_state. -/

namespace Sys2Proof.Proofs

open Sys2Proof Sys2Proof.Machine

/-- Settles O13: every operation takes a channel that meets its invariants through a case that keeps them, and a step is made of
operations. -/
theorem stepKeepsChannels : Obligations.StepKeepsChannels := by
  intro s t hp hshape hchans h
  exact chans_forall.mpr (chansOk_keptByStep.step ⟨hp, hshape, chans_forall.mp hchans⟩ h).chans

/-- Settles O14: every rule body changes at most one context and one endpoint together, and a step is made of rule bodies. -/
theorem stepKeepsTransport : Obligations.StepKeepsTransport :=
  fun _ _ hp hshape _ htransport h => (poolOk_keptByStep.step ⟨hp, hshape, htransport⟩ h).transport

/-- Settles O15: the channels of O13, the pool and the endpoints of O14, the halt code and the record of the operation in progress. -/
theorem stepKeepsInvariant : Obligations.StepKeepsInvariant := by
  intro s t ⟨hp, hshape, hchans, htransport, hhalt, hmain⟩ h
  have hpool := poolOk_keptByStep.step ⟨hp, hshape, htransport⟩ h
  exact ⟨hpool.config, hpool.shape, stepKeepsChannels s t hp hshape hchans h, hpool.transport, haltOk_keptByStep.step hhalt h,
    mainOk_step hshape hmain h⟩

/-- Settles O20: each rule body moves one context along an edge of its operation, and no context takes two in one `UBT.PROCESS`. -/
theorem contextStatesFollowTransitions : Obligations.ContextStatesFollowTransitions := by
  intro i s t h ⟨hp, hshape, _, htransport, _⟩ _ hruns hne
  exact (runs_edges ⟨hp, hshape, htransport⟩ hruns h).resolve_left hne

/-- Settles O22: each case of an operation writes its own registers alone; a channel that the core does not have is never written. -/
theorem registersWrittenOnlyByTheirOperations : Obligations.RegistersWrittenOnlyByTheirOperations := by
  refine ⟨fun i s t c hi hruns => ?_, fun i s t c hinv hi hruns => ?_⟩
  · obtain ⟨huart, hwtime, hetu, hstat, hwr, hrd, hseq, hlevels⟩ := (chanCase_runs hruns c).writtenBy hi
    exact ⟨huart, hwtime, hetu, hstat, hwr, hrd, hseq, hlevels⟩
  · obtain ⟨hconfig, -, hchans, -⟩ := hinv
    have hengine : EngineOk s.cfg (s.chan c) := by
      by_cases hc : c < s.chans.length
      · exact (chans_forall.mp hchans c hc).2.2
      · have hreset : s.chan c = Chan.reset s.cfg := by simp [State.chan, hc]
        exact hreset ▸ (chanOk_reset (configFacts_of hconfig)).2.2
    obtain ⟨hnull, hcount, hhdr, hatr, htx, hrx, hdir⟩ := (chanCase_runs hruns c).exchangeWrittenBy (configFacts_of hconfig) hengine hi
    exact ⟨hnull, hcount, hhdr, hatr, htx, hrx, hdir⟩

/-- Settles O9: the state after a reset is the reset state of the parameters, but for the history and the environment's lists. -/
theorem sysResetRestoresTheTable : Obligations.SysResetRestoresTheTable := by
  intro s
  have hchan : ∀ c, s.sysReset.chan c = Chan.reset s.cfg := State.chan_resetWith s.cfg
  have hctx : ∀ h, s.sysReset.ctx h = Ctx.reset := State.ctx_resetWith s.cfg
  have hep : ∀ e, s.sysReset.ep e = Ep.reset := State.ep_resetWith s.cfg
  refine ⟨_, rfl, rfl, rfl, rfl, rfl, rfl, rfl, s.sysReset_shape, hctx, fun c => ?_, hep, fun sp a hsp => ?_⟩
  · simp only [State.rb, State.uart, State.cem, State.wt, State.chan_answer, hchan]
    exact ⟨rfl, rfl, rfl, rfl, rfl⟩
  · have hempty : (s.sysReset.answer .ok 0#8 0#16).mem sp = [] := by
      cases sp <;> simp [State.mem, State.rb, State.cem, hchan, hctx, Chan.reset, Cem.reset, Ctx.reset]
    rw [State.cell_eq _ hsp, hempty]
    rfl

end Sys2Proof.Proofs
end

-- Proofs of the family 20_memory: every access is in bounds, so every step completes; which bytes each operation stores.
section
/-! SUPPORT. No rule faults where the invariant holds (R56): the accesses in bounds, each rule body, and with them every step. -/

namespace Sys2Proof.Machine

variable {s t : State} {c e h : Nat}

/-! ### Computations that do not fault -/

/-- The computation does not stop with a fault: it answers, or it raises the fatal halt. -/
abbrev NoFault {α : Type} (x : Except Stop α) : Prop := ∀ f, x ≠ .error (.fault f)

theorem NoFault.ok {α : Type} (a : α) : NoFault (.ok a : Except Stop α) := fun _ h => nomatch h

theorem NoFault.fatal {α : Type} (k : FatalCode) : NoFault (.error (.fatal k) : Except Stop α) := fun _ h => nomatch h

theorem NoFault.ret (s : State) (rc : RC) (v : Half) : NoFault (ret s rc v) := .ok _

theorem NoFault.ite {α : Type} {p : Prop} [Decidable p] {x y : Except Stop α} (hx : p → NoFault x) (hy : ¬p → NoFault y) :
    NoFault (if p then x else y) := by
  split
  · exact hx ‹_›
  · exact hy ‹_›

theorem NoFault.bind {α β : Type} {x : Except Stop α} {f : α → Except Stop β} (hx : NoFault x) (hf : ∀ a, x = .ok a → NoFault (f a)) :
    NoFault (x >>= f) := by
  intro k hk
  obtain hstop | ⟨a, ha, hstop⟩ := bind_eq_error.mp hk
  · exact hx k hstop
  · exact hf a ha k hstop

/-! ### Accesses in bounds -/

theorem memRead_noFault {sp : Space} {a n : Nat} (hb : a + n ≤ s.spaceSize sp) : NoFault (memRead s sp a n) := by
  rw [memRead_ok s hb]
  exact .ok _

theorem memRead1_noFault {sp : Space} {a : Nat} (hb : a < s.spaceSize sp) : NoFault (memRead1 s sp a) := by
  rw [memRead1_ok s hb]
  exact .ok _

theorem memWrite_noFault {sp : Space} {a : Nat} {bs : List Byte} (hb : a + bs.length ≤ s.spaceSize sp) : NoFault (memWrite s sp a bs) := by
  rw [memWrite_ok s hb]
  exact .ok _

theorem heldCtx_noFault (hh : h < s.ctxs.length) : NoFault (s.heldCtx h) := by
  rw [State.heldCtx_ok hh]
  exact .ok _

theorem spaceSize_rb (hc : c < s.chans.length) : s.spaceSize (.rb c) = s.cfg.rbCap := if_pos hc

theorem spaceSize_txbuf (hc : c < s.chans.length) : s.spaceSize (.txbuf c) = s.cfg.txqCap := if_pos hc

theorem spaceSize_ctx (hh : h < s.ctxs.length) : s.spaceSize (.ctx h) = s.cfg.ctxSize := if_pos hh

/-! ### The ring buffer, the timing register and the timer -/

/-- R121: the write index modulo the capacity is a cell of the ring buffer. -/
theorem rbWriteBody_noFault (hc : c < s.chans.length) (hcap : 0 < s.cfg.rbCap) (b : Byte) : NoFault (rbWriteBody c b s) := by
  refine .ite (fun _ => .ret _ _ _) fun _ => .bind (memWrite_noFault ?_) fun _ _ => .ret _ _ _
  rw [spaceSize_rb hc]
  exact Nat.mod_lt _ hcap

theorem rbHead_noFault (hc : c < s.chans.length) (hcap : 0 < s.cfg.rbCap) : NoFault (rbHead c s) := by
  rw [rbHead_eq hc hcap]
  exact .ok _

theorem timApplyBody_noFault (c : Nat) (ratio : Half) (s : State) : NoFault (timApplyBody c ratio s) :=
  .ite (fun _ => .ret _ _ _) fun _ => .ret _ _ _

theorem cemFidiBody_noFault (c : Nat) (fidi : Byte) (s : State) : NoFault (cemFidiBody c fidi s) := by
  unfold cemFidiBody
  split
  · exact .ret _ _ _
  · exact .bind (timApplyBody_noFault _ _ _) fun _ _ => .ret _ _ _

/-- R32: a running countdown is not at 0. -/
theorem wtTickBody_noFault (hcount : (s.wt c).armed = true → 1 ≤ (s.wt c).remaining) : NoFault (wtTickBody c s) := by
  refine .ite (fun _ => .ret _ _ _) fun harmed => .ite (fun hzero => ?_) fun _ => .ite (fun _ => .ret _ _ _) fun _ => .ret _ _ _
  have hpos := hcount (by simpa using harmed)
  omega

/-! ### The receive interrupt and the card signals -/

theorem urxIrqBody_noFault (hc : c < s.chans.length) (hcap : 0 < s.cfg.rbCap) (status : Half) (b : Byte) :
    NoFault (urxIrqBody c status b s) := by
  unfold urxIrqBody
  exact .ite (fun _ => rbWriteBody_noFault (by simpa using hc) (by simpa using hcap) b) fun _ => .ret _ _ _

theorem cemIosigBody_noFault (c : Nat) (sig : Signal) (act : Bool) (s : State) : NoFault (cemIosigBody c sig act s) := by
  refine .ite (fun _ => .ret _ _ _) fun _ => ?_
  dsimp only
  split
  case h_4 => exact .ite (fun _ => .bind (timApplyBody_noFault _ _ _) fun _ _ => .ret _ _ _) fun _ => .ret _ _ _
  all_goals exact .ret _ _ _

/-! ### Bytes to the reader and from it -/

/-- R152, R153: the next byte of the Answer-To-Reset, or of the host's message, is one of its bytes. -/
theorem cemTxbyteBody_noFault (hc : c < s.chans.length) (hx : ExchangeOk s.cfg (s.cem c)) : NoFault (cemTxbyteBody c s) := by
  obtain ⟨-, hatr, -, hcap, -, htx, -⟩ := hx
  unfold cemTxbyteBody
  split
  · rename_i hst
    exact .bind (memRead1_noFault (hatr hst)) fun _ _ => .ret _ _ _
  · exact .ite (fun _ => .ret _ _ _) fun _ => .ret _ _ _
  · split
    · rename_i hdir
      have hlt : (s.cem c).txIdx < s.spaceSize (.txbuf c) := spaceSize_txbuf hc ▸ Nat.lt_of_lt_of_le (htx hdir) hcap
      exact .ite (fun _ => .ret _ _ _) fun _ => .bind (memRead1_noFault hlt) fun _ _ => .ret _ _ _
    · exact .ret _ _ _
  · exact .ret _ _ _

theorem ubtEnqBody_noFault (e h : Nat) (s : State) : NoFault (ubtEnqBody e h s) :=
  .ite (fun _ => .fatal _) fun _ => .ite (fun _ => .fatal _) fun _ => .ret _ _ _

/-- R156: a message that the pool has a context for fits it (R110). -/
theorem cemSend_noFault (c : Nat) (flags : Byte) (bytes : List Byte) (s : State) : NoFault (cemSend c flags bytes s) := by
  unfold cemSend
  split
  · exact .ret _ _ _
  · obtain ⟨-, halloc⟩ | ⟨hfits, k, hk, halloc⟩ := State.alloc_cases s (5 + bytes.length) .uartTxPending <;> rw [halloc]
    · exact .ret _ _ _
    · obtain ⟨hlt, -⟩ := State.firstFree_eq_some.mp hk
      refine .bind (memWrite_noFault ?_) fun _ _ => .bind (ubtEnqBody_noFault _ _ _) fun _ _ => .ret _ _ _
      rw [spaceSize_ctx (by simpa using hlt)]
      simp only [messageBytes, List.length_append, List.length_cons, List.length_nil, State.updCtx_cfg]
      omega

theorem afterSend_noFault {x : Body} (hx : NoFault x) : NoFault (afterSend c x) :=
  .bind hx fun _ _ => .ite (fun _ => .ret _ _ _) fun _ => .ret _ _ _

/-- R25, R155: the next header byte is one of five. -/
theorem rxHeader_noFault (hc : c < s.chans.length) (hn : (s.cem c).hdrN ≤ 4) (b : Byte) : NoFault (rxHeader c b s) := by
  by_cases hpps : (s.cem c).hdrN = 0 ∧ b = 0xFF#8
  · rw [rxHeader, if_pos hpps]
    exact .ret _ _ _
  · by_cases hfull : (s.cem c).hdrN = 4
    · rw [rxHeader_full hc hfull]
      exact afterSend_noFault (cemSend_noFault _ _ _ _)
    · rw [rxHeader_partial hc (by omega) hpps]
      exact .ret _ _ _

/-- R28, R157: a data byte is owed, and the receive buffer holds the 255 bytes of the longest data field. -/
theorem rxData_noFault (hc : c < s.chans.length) (hcap : 255 ≤ s.cfg.rxbufCap) (hleft : 1 ≤ (s.cem c).rxLeft)
    (hsum : (s.cem c).rxN + (s.cem c).rxLeft ≤ 255) (b : Byte) : NoFault (rxData c b s) := by
  by_cases hone : (s.cem c).rxLeft = 1
  · rw [rxData_full hc (by omega) hone]
    exact afterSend_noFault (cemSend_noFault _ _ _ _)
  · rw [rxData_partial hc (by omega) (by omega)]
    exact .ret _ _ _

theorem cemRxbyteBody_noFault (hc : c < s.chans.length) (hcap : 255 ≤ s.cfg.rxbufCap) (hh : HeaderOk (s.cem c))
    (hx : ExchangeOk s.cfg (s.cem c)) (b : Byte) : NoFault (cemRxbyteBody c b s) := by
  obtain ⟨-, -, -, -, -, -, -, hleft, hsum, -⟩ := hx
  unfold cemRxbyteBody
  split
  · rename_i hst
    exact rxHeader_noFault hc (hh.1 hst) b
  · split
    · rename_i hdir
      exact rxData_noFault hc hcap (hleft hdir) hsum b
    · exact .ret _ _ _
  · exact .ret _ _ _

theorem cemPumpBody_noFault (hc : c < s.chans.length) (hw : ConfigFacts s.cfg) (hh : HeaderOk (s.cem c))
    (hx : ExchangeOk s.cfg (s.cem c)) : NoFault (cemPumpBody c s) := by
  have hcap : 0 < s.cfg.rbCap := Nat.lt_of_lt_of_le Nat.zero_lt_two hw.rbCap
  exact .ite (fun _ => .ret _ _ _) fun _ => .bind (rbHead_noFault hc hcap) fun b _ =>
    .bind (cemRxbyteBody_noFault hc hw.rxcap hh hx b) fun _ _ => .ite (fun _ => .ret _ _ _) fun _ => .ret _ _ _

/-! ### The pool and the transport -/

theorem poolAllocBody_noFault (n : Nat) (st : CtxState) (s : State) : NoFault (poolAllocBody n st s) := by
  unfold poolAllocBody
  split <;> exact .ret _ _ _

theorem poolFreeBody_noFault (h : Nat) (s : State) : NoFault (poolFreeBody h s) :=
  .ite (fun _ => .fatal _) fun _ => .ite (fun _ => .fatal _) fun _ => .ite (fun _ => .fatal _) fun _ => .ret _ _ _

theorem refillTohostBody_noFault (inv : TransportOk s) (he : e < s.eps.length) (draw : Bool) : NoFault (refillTohostBody e draw s) := by
  unfold refillTohostBody
  refine .ite (fun _ => .ret _ _ _) fun _ => ?_
  split
  · exact .ret _ _ _
  · rename_i h rest hq
    have hlt := (inv.queued he (hq ▸ List.mem_cons_self)).1
    exact .bind (heldCtx_noFault hlt) fun _ _ => .ite (fun _ => .ret _ _ _) fun _ => .ret _ _ _

theorem refillFromhostBody_noFault (e : Nat) (draw : Bool) (s : State) : NoFault (refillFromhostBody e draw s) := by
  unfold refillFromhostBody
  refine .ite (fun _ => .ret _ _ _) fun _ => ?_
  split
  · exact .ret _ _ _
  · exact .ite (fun _ => .ret _ _ _) fun _ => .ret _ _ _

/-- R33: a transfer in flight has its context. -/
theorem TransportOk.inFlight (inv : TransportOk s) (he : e < s.eps.length) (hprogress : (s.ep e).inProgress = true) :
    ∃ h, (s.ep e).cur = some h ∧ h < s.ctxs.length := by
  cases hcur : (s.ep e).cur with
  | none => exact absurd (hprogress.symm.trans ((inv.inProgress he).mpr hcur)) nofun
  | some h => exact ⟨h, rfl, (inv.cur he hcur).1⟩

theorem wcompleteBody_noFault (inv : TransportOk s) (he : e < s.eps.length) (status : Byte) (draw : Bool) :
    NoFault (wcompleteBody e status draw s) := by
  refine .ite (fun _ => .ret _ _ _) fun hprogress => ?_
  obtain ⟨h, hcur, hlt⟩ := inv.inFlight he (by simpa using hprogress)
  rw [hcur]
  exact .bind (heldCtx_noFault hlt) fun _ _ => .ite (fun _ => .ite (fun _ => .ret _ _ _) fun _ => .ret _ _ _) fun _ =>
    .ite (fun _ => .ret _ _ _) fun _ => .ret _ _ _

/-- R75, R197: a legal completion brings no more bytes than a context holds. -/
theorem rcompleteBody_noFault (inv : TransportOk s) (he : e < s.eps.length) (status : Byte) {data : List Byte}
    (hfits : data.length ≤ s.cfg.ctxSize) : NoFault (rcompleteBody e status data s) := by
  refine .ite (fun _ => .ret _ _ _) fun hprogress => ?_
  obtain ⟨h, hcur, hlt⟩ := inv.inFlight he (by simpa using hprogress)
  rw [hcur]
  refine .bind (heldCtx_noFault hlt) fun _ _ => .ite (fun _ => .bind (memWrite_noFault ?_) fun _ _ => .ret _ _ _) fun _ => .ret _ _ _
  rw [spaceSize_ctx hlt]
  omega

/-- R221 to R224: the header and the payload of a message are bytes of its context, and an accepted payload fits the transmit buffer. -/
theorem msgCheck_noFault (hw : ConfigFacts s.cfg) (hc : c < s.chans.length) (hh : h < s.ctxs.length) : NoFault (msgCheck c h s) := by
  obtain ⟨hsize, -⟩ := hw.ctxSize
  by_cases hsmall : (s.ctx h).size < 4
  · rw [msgCheck_small hh hsmall]
    exact .ok _
  · rw [msgCheck_eq hh hsize (by omega)]
    refine .ite (fun _ => .ok _) fun _ => .ite (fun _ => .ok _) fun _ => ?_
    by_cases hlen : le16 (s.cell (.ctx h) 2) (s.cell (.ctx h) 3) < 2 ∨ 1 + s.cfg.txqCap < le16 (s.cell (.ctx h) 2) (s.cell (.ctx h) 3)
    · rw [msgBody, if_pos hlen]
      exact .ret _ _ _
    · rw [msgBody_eq hh hsize (by omega) (by omega)]
      refine .ite (fun _ => .ite (fun _ => .ret _ _ _) fun _ => .bind (memWrite_noFault ?_) fun _ _ => .ret _ _ _) fun _ => .ok _
      rw [spaceSize_txbuf hc]
      simp only [State.messageBody, List.length_map, List.length_range]
      omega

/-! ### What holds at every operation boundary -/

/-- The part of the invariant that the accesses rest on: the channels, the pool and the endpoints in order. -/
structure Sound (s : State) : Prop where
  channels : ChansOk s
  pool : PoolOk s

theorem Sound.facts (inv : Sound s) : ConfigFacts s.cfg := inv.pool.facts

/-- The channel of a legal request. -/
theorem Sound.legalChan (inv : Sound s) {b : Byte} (hb : decide (b.toNat < s.cfg.nChan) = true) :
    b.toNat < s.chans.length ∧ ChanOk s.cfg (s.chan b.toNat) :=
  have hlt := chan_lt inv.pool.shape hb
  ⟨hlt, inv.channels.chans _ hlt⟩

theorem sound_keptByStep : KeptByStep Sound where
  outer _ _ _ _ _ inv := ⟨chansOk_keptByStep.outer _ _ _ _ _ inv.channels, poolOk_keptByStep.outer _ _ _ _ _ inv.pool⟩
  body _ _ _ _ _ hb hw inv h := ⟨chansOk_keptByStep.body _ _ _ _ _ hb hw inv.channels h, poolOk_keptByStep.body _ _ _ _ _ hb hw inv.pool h⟩
  part _ _ _ _ _ inv h := ⟨chansOk_keptByStep.part _ _ _ _ _ inv.channels h, poolOk_keptByStep.part _ _ _ _ _ inv.pool h⟩
  drain _ _ _ _ inv h := ⟨chansOk_keptByStep.drain _ _ _ _ inv.channels h, poolOk_keptByStep.drain _ _ _ _ inv.pool h⟩
  fatal _ _ inv := ⟨chansOk_keptByStep.fatal _ _ inv.channels, poolOk_keptByStep.fatal _ _ inv.pool⟩
  reset _ inv := ⟨chansOk_keptByStep.reset _ inv.channels, poolOk_keptByStep.reset _ inv.pool⟩

/-- R220: the channel that an OUT endpoint serves exists (R1). -/
theorem ubtDispatchBody_noFault (inv : PoolOk s) (he : e < s.eps.length) : NoFault (ubtDispatchBody e s) := by
  unfold ubtDispatchBody
  split
  · exact .ret _ _ _
  · rename_i h rest hq
    have hlt := (inv.transport.queued he (hq ▸ List.mem_cons_self)).1
    refine .bind (heldCtx_noFault hlt) fun _ _ => ?_
    dsimp only
    split
    · exact .bind (.ret _ _ _) fun _ _ => .ret _ _ _
    · rename_i f hf
      obtain ⟨-, -, -, hchan⟩ := inv.facts.ifs f (List.mem_of_find?_eq_some hf)
      exact .bind (msgCheck_noFault inv.facts (inv.shape.1.symm ▸ hchan) hlt) fun _ _ => .ret _ _ _

/-- R200: every queued context is in the pool. -/
theorem drainBody_noFault (inv : PoolOk s) (e : Nat) : NoFault (drainBody e s) := by
  refine .ite (fun _ => .ret _ _ _) fun hout => absurd ?_ hout
  simp only [List.all_eq_true, decide_eq_true_eq]
  intro h hq
  by_cases he : e < s.eps.length
  · exact (inv.transport.queued he hq).1
  · simp [State.ep, he, Ep.reset] at hq

/-! ### Every operation -/

theorem body_noFault {i : Instr} {b : State → Body} (hb : bodyOf i = some b) (hw : i.wellFormed s.cfg = true) (inv : Sound s) :
    NoFault (b s) := by
  have hcap : 0 < s.cfg.rbCap := Nat.lt_of_lt_of_le Nat.zero_lt_two inv.facts.rbCap
  have transport := inv.pool.transport
  cases i <;> simp only [bodyOf, Option.some.injEq, reduceCtorEq] at hb <;> subst hb
  case rbReset => exact .ret _ _ _
  case rbWrite c b => exact rbWriteBody_noFault (inv.legalChan hw).1 hcap b
  case rbRead c => exact .ite (fun _ => .ret _ _ _) fun _ => .bind (rbHead_noFault (inv.legalChan hw).1 hcap) fun _ _ => .ret _ _ _
  case rbPeek c => exact .ite (fun _ => .ret _ _ _) fun _ => .bind (rbHead_noFault (inv.legalChan hw).1 hcap) fun _ _ => .ret _ _ _
  case rbIsempty => exact .ret _ _ _
  case timRatio =>
    unfold timRatioBody
    split <;> exact .ret _ _ _
  case timApply => exact timApplyBody_noFault _ _ _
  case urxIrq c status b => exact urxIrqBody_noFault (inv.legalChan hw).1 hcap status b
  case cemIosig => exact cemIosigBody_noFault _ _ _ _
  case cemTxbyte =>
    obtain ⟨hlt, -, -, -, -, hexchange, -⟩ := inv.legalChan hw
    exact cemTxbyteBody_noFault hlt hexchange
  case cemRxbyte c b =>
    obtain ⟨hlt, -, -, -, hheader, hexchange, -⟩ := inv.legalChan hw
    exact cemRxbyteBody_noFault hlt inv.facts.rxcap hheader hexchange b
  case cemFidi => exact cemFidiBody_noFault _ _ _
  case cemPump =>
    obtain ⟨hlt, -, -, -, hheader, hexchange, -⟩ := inv.legalChan hw
    exact cemPumpBody_noFault hlt inv.facts hheader hexchange
  case wtSetwt => exact .ret _ _ _
  case wtSetetu => exact .ret _ _ _
  case wtTick =>
    obtain ⟨-, -, -, -, -, -, -, hrunning, -⟩ := inv.legalChan hw
    exact wtTickBody_noFault fun harmed => (hrunning harmed).2.1
  case poolAlloc => exact poolAllocBody_noFault _ _ _
  case poolFree => exact poolFreeBody_noFault _ _
  case poolReport => exact .ret _ _ _
  case ubtEnq => exact ubtEnqBody_noFault _ _ _
  case ubtRefillTohost e draw => exact refillTohostBody_noFault transport (inv.pool.legalEp hw).1 draw
  case ubtWcomplete e status draw => exact wcompleteBody_noFault transport (inv.pool.legalEp hw).1 status draw
  case ubtRefillFromhost => exact refillFromhostBody_noFault _ _ _
  case ubtRcomplete e status data =>
    simp only [Instr.wellFormed, Bool.and_eq_true, decide_eq_true_eq] at hw
    exact rcompleteBody_noFault transport (inv.pool.legalEp hw.1).1 status hw.2
  case ubtDispatch => exact ubtDispatchBody_noFault inv.pool (inv.pool.legalEp hw).1

theorem optRefill_noFault {o : Option Nat} {body : Nat → Body} (hbody : ∀ e, o = some e → NoFault (body e)) : NoFault (optRefill o body s) := by
  cases o with
  | none => exact .ret _ _ _
  | some e => exact hbody e rfl

/-- R199: the parts of `UBT.PROCESS` work on the endpoints that its interface names (R1). -/
theorem processPart_noFault (inv : PoolOk s) (p : Proc) : NoFault (processPart p s) := by
  unfold processPart
  split
  · exact .ok _
  · rename_i f hf
    obtain ⟨hirq, hinn, hout, -⟩ := inv.facts.ifs f (List.mem_of_getElem? hf)
    split
    · refine .bind (optRefill_noFault fun e he => ?_) fun _ _ => .ok _
      exact refillTohostBody_noFault inv.transport (inv.namedEp hirq he).1 _
    · refine .bind (optRefill_noFault fun e he => ?_) fun _ _ => .ok _
      exact refillTohostBody_noFault inv.transport (inv.namedEp hinn he).1 _
    · exact .bind (optRefill_noFault fun e _ => refillFromhostBody_noFault e _ s) fun _ _ => .ok _
    · split
      · exact .ok _
      · rename_i e he
        exact .bind (ubtDispatchBody_noFault inv (inv.namedEp hout he).1) fun _ _ => .ite (fun _ => .ok _) fun _ => .ok _

/-! ### Every step -/

/-- The outcome is a next state. -/
abbrev Completes (o : Outcome) : Prop := ∃ t, o = .next t

theorem finish_completes {x : Body} (hx : NoFault x) : Completes (finish s x) := by
  match x with
  | .ok (t, r) => exact ⟨_, rfl⟩
  | .error (.fatal k) => exact ⟨_, rfl⟩
  | .error (.fault f) => exact absurd rfl (hx f)

theorem gate_completes {i : Instr} {run : State → Outcome} (hrun : i.wellFormed s.cfg = true → Completes (run s)) :
    Completes (gate i s run) := by
  cases hw : i.wellFormed s.cfg with
  | false => exact ⟨_, gate_illegal hw run⟩
  | true =>
    cases hh : s.halted with
    | true => exact ⟨_, gate_halted hw hh run⟩
    | false => exact gate_pass hw hh run ▸ hrun hw

/-- R199: part by part, each from a state in order. -/
theorem processRun_completes (fuel : Nat) : ∀ (p : Proc) (s : State), Sound s → Completes (processRun fuel p s) := by
  induction fuel with
  | zero => exact fun _ _ _ => ⟨_, rfl⟩
  | succ fuel ih =>
    intro p s inv
    unfold processRun
    split
    · exact ⟨_, rfl⟩
    · rename_i f hf
      exact absurd hf (processPart_noFault inv.pool p f)
    · rename_i u n ends hu
      have hnext : Sound u := sound_keptByStep.part _ _ _ _ _ inv (processPart_cases hu)
      dsimp only
      split
      · exact ⟨_, rfl⟩
      · split
        · exact ⟨_, rfl⟩
        · exact ih _ _ (sound_keptByStep.passBoundary hnext)

theorem drainEnd_completes (inv : Sound s) (e : Nat) : Completes (drainEnd e s) := by
  unfold drainEnd
  dsimp only
  split
  · exact ⟨_, rfl⟩
  · exact finish_completes (drainBody_noFault (sound_keptByStep.record none inv).pool e)

theorem exec_completes (inv : Sound s) (i : Instr) : Completes (exec i s) := by
  cases hb : bodyOf i with
  | some b =>
    rw [exec_body hb]
    exact gate_completes fun hw => finish_completes (body_noFault hb hw inv)
  | none =>
    cases i <;> simp only [bodyOf, reduceCtorEq] at hb
    case sysReset => exact ⟨_, rfl⟩
    case ubtProcess => exact gate_completes fun _ => processRun_completes _ _ s inv
    case ubtDrain e =>
      rw [exec_ubtDrain]
      refine gate_completes fun _ => ?_
      split
      · exact ⟨_, rfl⟩
      · exact drainEnd_completes inv _

theorem takeRequest_completes (inv : Sound s) : Completes (takeRequest s) := by
  unfold takeRequest
  split
  · exact ⟨_, rfl⟩
  · split
    · exact exec_completes (sound_keptByStep.outer _ _ _ _ _ inv) _
    · exact ⟨_, rfl⟩

theorem step_completes (inv : Sound s) : Completes (step s) := by
  have hpass := sound_keptByStep.passBoundary inv
  cases hm : s.mainOp with
  | none =>
    simp only [step, cycle, hm]
    exact takeRequest_completes inv
  | some m =>
    cases m with
    | process p =>
      rw [step_process hm]
      split
      · exact takeRequest_completes hpass
      · unfold processResume
        split
        · exact ⟨_, rfl⟩
        · exact processRun_completes _ p _ hpass
    | drain e =>
      rw [step_drain hm]
      split
      · exact drainEnd_completes inv e
      · split
        · exact takeRequest_completes inv
        · exact ⟨_, rfl⟩

end Sys2Proof.Machine
end

section
/-! SUPPORT. Which bytes an operation leaves as they were (R50): what a write to a store does to every cell, and for each rule body the
bytes outside those its rule stores. -/

namespace Sys2Proof.Machine

variable {s t u : State} {c d e h : Nat} {x y : Chan} {W V : Space → Nat → Bool}

/-! ### Bytes kept -/

/-- From `s` to `t` every written cell outside `W` stays, and no unwritten one is written there; free values stay what they are. -/
structure BytesKept (W : Space → Nat → Bool) (s t : State) : Prop where
  cfg : t.cfg = s.cfg
  era : t.era = s.era
  mem : ∀ sp a, W sp a = false → (t.mem sp).lookup a = (s.mem sp).lookup a

theorem BytesKept.cell (k : BytesKept W s t) {sp : Space} {a : Nat} (ha : W sp a = false) : t.cell sp a = s.cell sp a := by
  by_cases hsp : sp = .atr
  · subst hsp
    simp only [State.cell, k.cfg]
  · rw [State.cell_eq _ hsp, State.cell_eq _ hsp, k.mem sp a ha, k.era]

theorem BytesKept.refl (s : State) : BytesKept W s s := ⟨rfl, rfl, fun _ _ _ => rfl⟩

theorem BytesKept.trans (k : BytesKept W s t) (l : BytesKept W t u) : BytesKept W s u :=
  ⟨l.cfg.trans k.cfg, l.era.trans k.era, fun sp a ha => (l.mem sp a ha).trans (k.mem sp a ha)⟩

theorem BytesKept.mono (k : BytesKept W s t) (hWV : ∀ sp a, W sp a = true → V sp a = true) : BytesKept V s t := by
  refine ⟨k.cfg, k.era, fun sp a ha => k.mem sp a ?_⟩
  by_contra hW
  exact absurd (ha.symm.trans (hWV sp a (by simpa using hW))) nofun

/-! ### Writes -/

theorem State.setMem_self (s : State) (sp : Space) : s.setMem sp (s.mem sp) = s := by
  have hchan : ∀ (c : Nat) (f : Chan → Chan), f (s.chan c) = s.chan c → s.updChan c f = s := fun c f hf =>
    (State.updChan_congr (g := id) hf).trans (by simp [State.updChan])
  have hctx : ∀ (h : Nat) (f : Ctx → Ctx), f (s.ctx h) = s.ctx h → s.updCtx h f = s := fun h f hf =>
    (State.updCtx_congr (g := id) hf).trans (by simp [State.updCtx])
  cases sp with
  | atr => rfl
  | ctx h => exact hctx h _ rfl
  | _ c => exact hchan c _ rfl

/-- The cells of a store after a write to it (R50, R51); a store that the core does not have takes no bytes. -/
theorem lookup_memWrite {sp : Space} {a : Nat} {bs : List Byte} (hsp : sp ≠ .atr) (hw : memWrite s sp a bs = .ok t) (a' : Nat) :
    (t.mem sp).lookup a' = if a ≤ a' ∧ a' < a + bs.length then bs[a' - a]? else (s.mem sp).lookup a' := by
  obtain ⟨hbound, rfl⟩ := memWrite_cases hw
  by_cases hsize : 0 < s.spaceSize sp
  · rw [State.mem_setMem_same s hsize hsp, Memory.lookup_storeList]
  · obtain rfl : bs = [] := List.length_eq_zero_iff.mp (by omega)
    rw [Memory.storeList, State.setMem_self, if_neg (by simp)]

/-- The `n` cells of store `sp` from `a` on. -/
def bytesFrom (sp : Space) (a n : Nat) (sp' : Space) (a' : Nat) : Bool := decide (sp' = sp ∧ a ≤ a' ∧ a' < a + n)

theorem bytesFrom_zero (sp : Space) (n : Nat) : bytesFrom sp 0 n = firstBytes sp n := by
  funext sp' a
  simp [bytesFrom, firstBytes]

/-- R50, R53: a write leaves every byte but its own. -/
theorem memWrite_bytes {sp : Space} {a : Nat} {bs : List Byte} (hw : memWrite s sp a bs = .ok t) :
    BytesKept (bytesFrom sp a bs.length) s t := by
  have hframe := Frame.memWrite hw
  refine ⟨hframe.cfg, hframe.era, fun sp' a' ha => ?_⟩
  obtain ⟨-, rfl⟩ := memWrite_cases hw
  by_cases hsame : sp' = sp
  · subst hsame
    by_cases hatr : sp' = .atr
    · subst hatr
      rfl
    · rw [lookup_memWrite hatr hw, if_neg (by simpa [bytesFrom] using ha)]
  · rw [State.mem_setMem_ne s hsame]

/-! ### One channel or one context changed -/

/-- Channel `c` is `x` before and `y` after; its stores read the same outside `W`. -/
structure ChanBytes (W : Space → Nat → Bool) (c : Nat) (x y : Chan) : Prop where
  rb : ∀ a, W (.rb c) a = false → y.rb.buf.lookup a = x.rb.buf.lookup a
  hdr : ∀ a, W (.hdr c) a = false → y.cem.hdr.lookup a = x.cem.hdr.lookup a
  txbuf : ∀ a, W (.txbuf c) a = false → y.cem.txbuf.lookup a = x.cem.txbuf.lookup a
  rxbuf : ∀ a, W (.rxbuf c) a = false → y.cem.rxbuf.lookup a = x.cem.rxbuf.lookup a

/-- The four stores of a channel hold the same written cells. -/
structure SameStores (x y : Chan) : Prop where
  rb : y.rb.buf = x.rb.buf
  hdr : y.cem.hdr = x.cem.hdr
  txbuf : y.cem.txbuf = x.cem.txbuf
  rxbuf : y.cem.rxbuf = x.cem.rxbuf

theorem SameStores.refl (x : Chan) : SameStores x x := ⟨rfl, rfl, rfl, rfl⟩

theorem SameStores.bytes (hxy : SameStores x y) : ChanBytes W c x y :=
  ⟨fun _ _ => by rw [hxy.rb], fun _ _ => by rw [hxy.hdr], fun _ _ => by rw [hxy.txbuf], fun _ _ => by rw [hxy.rxbuf]⟩

theorem BytesKept.of_parts (hcfg : t.cfg = s.cfg) (hera : t.era = s.era) (hchan : ∀ c, ChanBytes W c (s.chan c) (t.chan c))
    (hctx : ∀ h a, W (.ctx h) a = false → (t.ctx h).buf.lookup a = (s.ctx h).buf.lookup a) : BytesKept W s t := by
  refine ⟨hcfg, hera, fun sp a ha => ?_⟩
  cases sp with
  | rb c => exact (hchan c).rb a ha
  | ctx h => exact hctx h a ha
  | hdr c => exact (hchan c).hdr a ha
  | txbuf c => exact (hchan c).txbuf a ha
  | rxbuf c => exact (hchan c).rxbuf a ha
  | atr => rfl

/-- One channel changed as `R` says, contexts and endpoints kept. -/
theorem BytesKept.of_effect {R : Chan → Chan → Prop} (hsame : SameTransport s t) (heffect : ChanEffect d R s t) (hera : t.era = s.era)
    (hR : d < s.chans.length → R (s.chan d) (t.chan d) → ChanBytes W d (s.chan d) (t.chan d)) : BytesKept W s t := by
  refine .of_parts heffect.cfg hera (fun c => ?_) fun h a _ => by simp [State.ctx, hsame.ctxs]
  obtain hc | ⟨rfl, hlt, hr⟩ := heffect.chan c
  · exact hc.symm ▸ (SameStores.refl _).bytes
  · exact hR hlt hr

theorem BytesKept.updChan {f : Chan → Chan} (hf : ChanBytes W d (s.chan d) (f (s.chan d))) : BytesKept W s (s.updChan d f) :=
  .of_effect (R := fun _ y => y = f (s.chan d)) ⟨rfl, rfl⟩ (.of_modify rfl rfl fun _ => rfl) rfl fun _ hy => hy.symm ▸ hf

theorem BytesKept.updChan_same {f : Chan → Chan} (hf : SameStores (s.chan d) (f (s.chan d))) : BytesKept W s (s.updChan d f) :=
  .updChan hf.bytes

/-- Context `h` changed, the channels kept. -/
theorem BytesKept.of_modify_ctx {f : Ctx → Ctx} (hcfg : t.cfg = s.cfg) (hera : t.era = s.era) (hchans : t.chans = s.chans)
    (hctxs : t.ctxs = s.ctxs.modify h f)
    (hf : ∀ a, W (.ctx h) a = false → (f (s.ctx h)).buf.lookup a = (s.ctx h).buf.lookup a) : BytesKept W s t := by
  have hchan : ∀ c, t.chan c = s.chan c := fun c => by simp [State.chan, hcfg, hchans]
  have hctx : ∀ k, t.ctx k = (s.updCtx h f).ctx k := fun k => by simp [State.ctx, hctxs]
  refine .of_parts hcfg hera (fun c => (hchan c).symm ▸ (SameStores.refl _).bytes) fun k a ha => ?_
  rw [hctx, State.ctx_updCtx]
  split
  · rename_i hk
    obtain ⟨rfl, -⟩ := hk
    exact hf a ha
  · rfl

theorem BytesKept.updCtx {f : Ctx → Ctx}
    (hf : ∀ a, W (.ctx h) a = false → (f (s.ctx h)).buf.lookup a = (s.ctx h).buf.lookup a) : BytesKept W s (s.updCtx h f) :=
  .of_modify_ctx rfl rfl rfl rfl hf

/-- Parameters, reset count, channels and contexts as they were. -/
theorem BytesKept.of_same (hcfg : t.cfg = s.cfg) (hera : t.era = s.era) (hchans : t.chans = s.chans) (hctxs : t.ctxs = s.ctxs) :
    BytesKept W s t :=
  .of_modify_ctx (h := 0) (f := id) hcfg hera hchans (hctxs.trans (List.modify_id ..).symm) fun _ _ => rfl

/-- Parameters, reset count, channels and contexts of `u` are those of `t`. -/
theorem BytesKept.then_same (hk : BytesKept W s t) (hcfg : u.cfg = t.cfg) (hera : u.era = t.era) (hchans : u.chans = t.chans)
    (hctxs : u.ctxs = t.ctxs) : BytesKept W s u := hk.trans (.of_same hcfg hera hchans hctxs)

/-! ### Cases of an operation that store nothing to a channel -/

variable {p : Config}

theorem ReadCase.sameStores (hxy : ReadCase p x y) : SameStores x y := by
  obtain ⟨-, rfl⟩ := hxy
  exact ⟨rfl, rfl, rfl, rfl⟩

theorem RetimeCase.sameStores {ratio : Half} (hxy : RetimeCase p ratio x y) : SameStores x y := by
  obtain ⟨-, rfl⟩ := hxy
  exact ⟨rfl, rfl, rfl, rfl⟩

theorem FidiCase.sameStores (hxy : FidiCase p x y) : SameStores x y := by
  obtain ⟨_, -, hy⟩ := hxy
  rw [hy]
  exact ⟨rfl, rfl, rfl, rfl⟩

theorem TickCase.sameStores (hxy : TickCase x y) : SameStores x y := by cases hxy <;> exact ⟨rfl, rfl, rfl, rfl⟩

theorem SignalCase.sameStores {sig : Signal} {act : Bool} (hxy : SignalCase p sig act x y) : SameStores x y := by
  cases hxy with
  | supply => cases sig <;> exact ⟨rfl, rfl, rfl, rfl⟩
  | powered => cases sig <;> exact ⟨rfl, rfl, rfl, rfl⟩
  | _ => exact ⟨rfl, rfl, rfl, rfl⟩

theorem TransmitCase.sameStores (hxy : TransmitCase p x y) : SameStores x y := by cases hxy <;> exact ⟨rfl, rfl, rfl, rfl⟩

/-! ### The ring buffer -/

/-- A store reads the same but for the one byte stored to it. -/
theorem lookup_store_outside {sp : Space} {m : Memory} {a k : Nat} (b : Byte) (hW : W sp k = true) (ha : W sp a = false) :
    (m.store k b).lookup a = m.lookup a :=
  Memory.lookup_store_ne m b fun heq => absurd (ha.symm.trans (heq ▸ hW : W sp a = true)) nofun

/-- A store reads the same but for the bytes stored from its start on. -/
theorem lookup_storeList_outside {sp : Space} {m : Memory} {a : Nat} {bs : List Byte} (hW : ∀ k, k < bs.length → W sp k = true)
    (ha : W sp a = false) : (m.storeList 0 bs).lookup a = m.lookup a := by
  rw [Memory.lookup_storeList, if_neg]
  exact fun hin => absurd (ha.symm.trans (hW a (by omega))) nofun

/-- R121: a byte that enters a ring buffer goes to the cell of the write index. -/
theorem pushed_bytes {b : Byte} {stat : Half} (hroom : (s.rb d).count s.cfg < s.cfg.rbUsable)
    (hW : ∀ a, ringStore s d (.rb d) a = true → W (.rb d) a = true) :
    ChanBytes W d (s.chan d) { s.chan d with stat := stat, rb := (s.rb d).pushed s.cfg b } := by
  have hfull : (s.rb d).full s.cfg = false := by simpa [Ring.full] using hroom
  refine ⟨fun a ha => lookup_store_outside b (hW _ ?_) ha, fun _ _ => rfl, fun _ _ => rfl, fun _ _ => rfl⟩
  simp [ringStore, hfull, oneByte]

theorem rbWriteBody_bytes {b : Byte} {r : Reply} (hb : rbWriteBody d b s = .ok (t, r)) : BytesKept (ringStore s d) s t := by
  obtain ⟨hsame, heffect⟩ := rbWriteBody_effect hb
  refine .of_effect hsame heffect (frame_rbWriteBody _ _ _ _ _ hb).era fun _ hwrite => ?_
  obtain ⟨hroom, hchan⟩ := hwrite
  rw [hchan]
  exact pushed_bytes hroom fun _ => id

/-- R140: with an error bit in the status the byte is discarded. -/
theorem urxIrqBody_error {status : Half} (hd : d < s.chans.length) (herr : errorBits status ≠ 0#16) (b : Byte) :
    urxIrqBody d status b s =
      ret ((s.updChan d fun x => { x with stat := errorBits status }).diag .uartRxError (errorBits status).toNat) .discarded := by
  have hstat : s.updChan d ((fun x => { x with stat := x.stat ||| errorBits status }) ∘ fun x => { x with stat := 0#16 }) =
      s.updChan d fun x => { x with stat := errorBits status } := State.updChan_congr (by simp)
  simp only [urxIrqBody, State.updChan_updChan, hstat, State.chan_updChan_same _ hd, if_neg herr]

theorem urxIrqBody_bytes {status : Half} {b : Byte} {r : Reply} (hb : urxIrqBody d status b s = .ok (t, r)) :
    BytesKept (fun sp a => decide (status &&& 0x05E0#16 = 0#16) && ringStore s d sp a) s t := by
  obtain ⟨hsame, heffect⟩ := urxIrqBody_effect hb
  refine .of_effect hsame heffect (frame_urxIrqBody _ _ _ _ _ _ hb).era fun hd hirq => ?_
  by_cases herr : errorBits status = 0#16
  · obtain hchan | ⟨hroom, hchan⟩ := hirq <;> rw [hchan]
    · exact SameStores.bytes ⟨rfl, rfl, rfl, rfl⟩
    · refine pushed_bytes hroom fun a ha => ?_
      have hclean : status &&& 0x05E0#16 = 0#16 := herr
      simpa [hclean] using ha
  · rw [urxIrqBody_error hd herr] at hb
    obtain ⟨rfl, -⟩ := ret_eq_ok.mp hb
    rw [State.chan_diag, State.chan_updChan_same _ hd]
    exact SameStores.bytes ⟨rfl, rfl, rfl, rfl⟩

/-! ### Messages to the host -/

theorem ubtEnqBody_bytes {r : Reply} (hb : ubtEnqBody e h s = .ok (t, r)) : BytesKept W s t := by
  unfold ubtEnqBody at hb
  split at hb
  · exact nomatch hb
  · split at hb
    · exact nomatch hb
    · obtain ⟨rfl, -⟩ := ret_eq_ok.mp hb
      exact .of_modify_ctx rfl rfl rfl rfl fun _ _ => rfl

theorem messageBytes_length (seq flags : Byte) (bytes : List Byte) : (messageBytes seq flags bytes).length = 5 + bytes.length := by
  simp only [messageBytes, List.length_append, List.length_cons, List.length_nil]

/-- R156: a message of `n` data bytes takes the first `5 + n` bytes of the context it is composed in. -/
theorem cemSend_bytes {flags : Byte} {bytes : List Byte} {r : Reply} (hb : cemSend c flags bytes s = .ok (t, r)) :
    BytesKept (messageStore s c bytes.length) s t := by
  unfold cemSend at hb
  split at hb
  · obtain ⟨rfl, -⟩ := ret_eq_ok.mp hb
    exact .of_same rfl rfl rfl rfl
  · rename_i e he
    obtain ⟨-, halloc⟩ | ⟨-, k, hk, halloc⟩ := State.alloc_cases s (5 + bytes.length) .uartTxPending <;> rw [halloc] at hb
    · obtain ⟨rfl, -⟩ := ret_eq_ok.mp hb
      exact .of_same rfl rfl rfl rfl
    · obtain ⟨u, hu, hb⟩ := bind_eq_ok.mp hb
      obtain ⟨⟨v, rv⟩, henq, hb⟩ := bind_eq_ok.mp hb
      obtain ⟨rfl, -⟩ := ret_eq_ok.mp hb
      have halloc : BytesKept (messageStore s c bytes.length) s (s.updCtx k (·.allocated .uartTxPending)) :=
        .of_modify_ctx rfl rfl rfl rfl fun _ _ => rfl
      have hcompose := (memWrite_bytes hu).mono (V := messageStore s c bytes.length) fun sp a ha => by
        rw [bytesFrom_zero, messageBytes_length] at ha
        simpa [messageStore, he, hk] using ha
      exact (((halloc.trans hcompose).trans (.updCtx fun _ _ => rfl)).trans
        (.updChan_same ⟨rfl, rfl, rfl, rfl⟩)).trans (ubtEnqBody_bytes henq)

theorem afterSend_bytes {flags : Byte} {bytes : List Byte} {r : Reply} (hb : afterSend c (cemSend c flags bytes s) = .ok (t, r)) :
    BytesKept (messageStore s c bytes.length) s t := by
  obtain ⟨⟨u, ru⟩, hu, hb⟩ := bind_eq_ok.mp hb
  refine (cemSend_bytes hu).trans ?_
  dsimp only at hb
  split at hb <;> obtain ⟨rfl, -⟩ := ret_eq_ok.mp hb
  · exact enterPb_eq c u ▸ .updChan_same ⟨rfl, rfl, rfl, rfl⟩
  · exact enterIdle_eq c u ▸ .updChan_same ⟨rfl, rfl, rfl, rfl⟩

/-! ### Bytes from the reader -/

/-- A header byte that the engine took had a cell (R25). -/
theorem rxHeader_bounds {b : Byte} {r : Reply} (hpps : ¬((s.cem d).hdrN = 0 ∧ b = 0xFF#8)) (hb : rxHeader d b s = .ok (t, r)) :
    d < s.chans.length ∧ (s.cem d).hdrN ≤ 4 := by
  rw [rxHeader, if_neg hpps] at hb
  obtain ⟨u, hu, -⟩ := bind_eq_ok.mp hb
  have hbound := (memWrite_cases hu).1
  simp only [State.spaceSize, hdrLen, List.length_singleton] at hbound
  split at hbound
  · exact ⟨‹_›, by omega⟩
  · omega

/-- R155: a header byte goes to the next header cell, and the last one makes a message of five bytes. -/
theorem rxHeader_bytes {b : Byte} {r : Reply} (hst : (s.cem d).state = .idle) (hb : rxHeader d b s = .ok (t, r)) :
    BytesKept (rxStore s d) s t := by
  by_cases hpps : (s.cem d).hdrN = 0 ∧ b = 0xFF#8
  · rw [rxHeader, if_pos hpps] at hb
    obtain ⟨rfl, -⟩ := ret_eq_ok.mp hb
    exact .refl s
  · obtain ⟨hd, hn⟩ := rxHeader_bounds hpps hb
    have hcell : rxStore s d (.hdr d) (s.cem d).hdrN = true := by simp [rxStore, hst, oneByte]
    by_cases hfull : (s.cem d).hdrN = 4
    · rw [rxHeader_full hd hfull] at hb
      refine BytesKept.trans (.updChan ⟨fun _ _ => rfl, fun a ha => ?_, fun _ _ => rfl, fun _ _ => rfl⟩)
        ((afterSend_bytes hb).mono fun sp a ha => ?_)
      · exact lookup_store_outside b (hfull ▸ hcell) ha
      · have hmessage : messageStore s d 5 sp a = true := ha
        simp [rxStore, hst, hfull, hmessage]
    · rw [rxHeader_partial hd (by omega) hpps] at hb
      obtain ⟨rfl, -⟩ := ret_eq_ok.mp hb
      exact .updChan ⟨fun _ _ => rfl, fun a ha => lookup_store_outside b hcell ha, fun _ _ => rfl, fun _ _ => rfl⟩

/-- A data byte that the engine took was owed and had a cell (R28). -/
theorem rxData_bounds {b : Byte} {r : Reply} (hb : rxData d b s = .ok (t, r)) :
    d < s.chans.length ∧ (s.cem d).rxN < s.cfg.rxbufCap ∧ (s.cem d).rxLeft ≠ 0 := by
  unfold rxData at hb
  split at hb
  · exact nomatch hb
  · obtain ⟨u, hu, -⟩ := bind_eq_ok.mp hb
    have hbound := (memWrite_cases hu).1
    simp only [State.spaceSize, List.length_singleton] at hbound
    split at hbound
    · exact ⟨‹_›, hbound, ‹_›⟩
    · omega

/-- R157: a data byte goes to the next cell of the receive buffer, and the last one makes a message of all of them. -/
theorem rxData_bytes {b : Byte} {r : Reply} (hst : (s.cem d).state = .dataExchange) (hdir : (s.cem d).dir = .rx)
    (hb : rxData d b s = .ok (t, r)) : BytesKept (rxStore s d) s t := by
  obtain ⟨hd, hcap, hleft⟩ := rxData_bounds hb
  have hcell : rxStore s d (.rxbuf d) (s.cem d).rxN = true := by simp [rxStore, hst, hdir, oneByte]
  by_cases hone : (s.cem d).rxLeft = 1
  · rw [rxData_full hd hcap hone] at hb
    refine BytesKept.trans (.updChan ⟨fun _ _ => rfl, fun _ _ => rfl, fun _ _ => rfl, fun a ha => ?_⟩)
      ((afterSend_bytes hb).mono fun sp a ha => ?_)
    · exact lookup_store_outside b hcell ha
    · rw [List.length_append, List.length_map, List.length_range, List.length_singleton] at ha
      have hmessage : messageStore s d ((s.cem d).rxN + 1) sp a = true := ha
      simp [rxStore, hst, hdir, hone, hmessage]
  · rw [rxData_partial hd hcap (by omega)] at hb
    obtain ⟨rfl, -⟩ := ret_eq_ok.mp hb
    exact .updChan ⟨fun _ _ => rfl, fun _ _ => rfl, fun _ _ => rfl, fun a ha => lookup_store_outside b hcell ha⟩

theorem cemRxbyteBody_bytes {b : Byte} {r : Reply} (hb : cemRxbyteBody d b s = .ok (t, r)) : BytesKept (rxStore s d) s t := by
  have hdiscard : rxDiscard b s = .ok (t, r) → BytesKept (rxStore s d) s t := by
    intro hb
    obtain ⟨rfl, -⟩ := ret_eq_ok.mp hb
    exact .of_same rfl rfl rfl rfl
  unfold cemRxbyteBody at hb
  split at hb
  · rename_i hst
    exact rxHeader_bytes hst hb
  · rename_i hst
    split at hb
    · rename_i hdir
      exact rxData_bytes hst hdir hb
    · exact hdiscard hb
  · exact hdiscard hb

theorem cemPumpBody_bytes {r : Reply} (hb : cemPumpBody d s = .ok (t, r)) : BytesKept (rxStore s d) s t := by
  unfold cemPumpBody at hb
  split at hb
  · obtain ⟨rfl, -⟩ := ret_eq_ok.mp hb
    exact .refl s
  · obtain ⟨b, -, hb⟩ := bind_eq_ok.mp hb
    obtain ⟨⟨u, ru⟩, hu, hb⟩ := bind_eq_ok.mp hb
    dsimp only at hb
    split at hb <;> obtain ⟨rfl, -⟩ := ret_eq_ok.mp hb
    · exact .refl s
    · exact (cemRxbyteBody_bytes hu).trans (.updChan_same ⟨rfl, rfl, rfl, rfl⟩)

/-! ### The pool and the transport -/

theorem release_bytes (s : State) (h : Nat) : BytesKept W s (s.release h) := .updCtx fun _ _ => rfl

theorem poolAllocBody_bytes {n : Nat} {st : CtxState} {r : Reply} (hb : poolAllocBody n st s = .ok (t, r)) : BytesKept W s t := by
  unfold poolAllocBody at hb
  obtain ⟨-, halloc⟩ | ⟨-, k, -, halloc⟩ := State.alloc_cases s n st <;> rw [halloc] at hb <;> obtain ⟨rfl, -⟩ := ret_eq_ok.mp hb
  · exact .of_same rfl rfl rfl rfl
  · exact .updCtx fun _ _ => rfl

theorem poolFreeBody_bytes {r : Reply} (hb : poolFreeBody h s = .ok (t, r)) : BytesKept W s t := by
  unfold poolFreeBody at hb
  split at hb
  · exact nomatch hb
  · split at hb
    · exact nomatch hb
    · split at hb
      · exact nomatch hb
      · obtain ⟨rfl, -⟩ := ret_eq_ok.mp hb
        exact release_bytes s h

theorem refillTohostBody_bytes {draw : Bool} {r : Reply} (hb : refillTohostBody e draw s = .ok (t, r)) : BytesKept W s t := by
  cases refillTohostBody_cases hb with
  | nop => exact .refl s
  | sub => exact .of_modify_ctx rfl rfl rfl rfl fun _ _ => rfl
  | fail => exact .of_same rfl rfl rfl rfl

theorem refillFromhostBody_bytes {draw : Bool} {r : Reply} (hb : refillFromhostBody e draw s = .ok (t, r)) : BytesKept W s t := by
  cases refillFromhostBody_cases hb with
  | nop => exact .refl s
  | oom => exact .of_same rfl rfl rfl rfl
  | sub => exact .of_modify_ctx rfl rfl rfl rfl fun _ _ => rfl
  | fail => exact .of_modify_ctx rfl rfl rfl rfl fun _ _ => rfl

theorem wcompleteBody_bytes {status : Byte} {draw : Bool} {r : Reply} (hb : wcompleteBody e status draw s = .ok (t, r)) :
    BytesKept W s t := by
  cases wcompleteBody_cases hb with
  | illegal => exact .refl s
  | zlp => exact .of_same rfl rfl rfl rfl
  | done => exact .of_modify_ctx rfl rfl rfl rfl fun _ _ => rfl

/-- R197: the bytes of a successful transfer go to the start of its context. -/
theorem rcompleteBody_bytes {status : Byte} {data : List Byte} {r : Reply} (hb : rcompleteBody e status data s = .ok (t, r))
    (hW : ∀ h, status = 0#8 → (s.ep e).cur = some h → ∀ a, a < data.length → W (.ctx h) a = true) : BytesKept W s t := by
  cases rcompleteBody_cases hb with
  | illegal => exact .refl s
  | ok h _ hcur _ hstatus _ =>
    exact .of_modify_ctx rfl rfl rfl rfl fun a ha => lookup_storeList_outside (hW h hstatus hcur) ha
  | err => exact .of_modify_ctx rfl rfl rfl rfl fun _ _ => rfl

/-- R220, R224: a dispatch stores at most the message's data bytes, to the transmit buffer of the channel that its endpoint serves. -/
theorem ubtDispatchBody_bytes {r : Reply} (hb : ubtDispatchBody e s = .ok (t, r))
    (hW : ∀ h rest f, (s.ep e).queue = h :: rest → s.outIf e = some f → (s.cem f.chan).state = .procedureByte →
      messageData s h ≤ s.cfg.txqCap → ∀ a, a < messageData s h → W (.txbuf f.chan) a = true) : BytesKept W s t := by
  cases ubtDispatchBody_cases hb with
  | empty => exact .refl s
  | drop => exact .of_modify_ctx rfl rfl rfl rfl fun _ _ => rfl
  | acc h rest f flags data v hq _ hf hst _ hlen _ hfits =>
    have htaken := BytesKept.updChan (W := W) (s := s) (d := f.chan)
      (f := fun y => { y with
        cem := { y.cem with
          txbuf := y.cem.txbuf.storeList 0 data, txLen := data.length, txIdx := 0, cont := contOf flags, dir := .tx
          state := .dataExchange }
        wt := { y.wt with armed := false, remaining := 0 } })
      ⟨fun _ _ => rfl, fun _ _ => rfl,
        fun a ha => lookup_storeList_outside (fun k hk => hW h rest f hq hf hst (hlen ▸ hfits) k (hlen ▸ hk)) ha, fun _ _ => rfl⟩
    exact htaken.trans (.of_modify_ctx rfl rfl rfl rfl fun _ _ => rfl)

/-- R200: a released context keeps its bytes. -/
theorem drainBody_bytes {r : Reply} (hb : drainBody e s = .ok (t, r)) : BytesKept W s t := by
  have hdrained := drainBody_drained hb
  obtain ⟨-, rfl⟩ := drainBody_cases hb
  refine .of_parts rfl rfl (fun _ => (SameStores.refl _).bytes) fun k a _ => ?_
  rw [hdrained.ctx]
  split <;> rfl

/-! ### Every operation -/

theorem body_bytes {i : Instr} {b : State → Body} {r : Reply} (hb : bodyOf i = some b) (hbody : b s = .ok (t, r)) :
    BytesKept (mayStore i s) s t := by
  have hera := (frame_body hb s t r hbody).era
  have quiet : ∀ {d : Nat} {R : Chan → Chan → Prop}, SameTransport s t ∧ ChanEffect d R s t → (∀ x y, R x y → SameStores x y) →
      BytesKept (mayStore i s) s t := fun heffect hR => .of_effect heffect.1 heffect.2 hera fun _ hr => (hR _ _ hr).bytes
  cases i <;> simp only [bodyOf, Option.some.injEq, reduceCtorEq] at hb <;> subst hb
  case rbReset =>
    obtain ⟨rfl, -⟩ := ret_eq_ok.mp hbody
    exact .updChan_same ⟨rfl, rfl, rfl, rfl⟩
  case rbWrite => exact rbWriteBody_bytes hbody
  case rbRead => exact quiet (rbReadBody_effect hbody) fun _ _ => ReadCase.sameStores
  case rbPeek =>
    obtain rfl := rbPeekBody_same hbody
    exact .refl _
  case rbIsempty =>
    obtain ⟨rfl, -⟩ := ret_eq_ok.mp hbody
    exact .refl s
  case timRatio =>
    obtain rfl := timRatioBody_same hbody
    exact .refl _
  case timApply => exact quiet (timApplyBody_effect hbody) fun _ _ => RetimeCase.sameStores
  case urxIrq => exact urxIrqBody_bytes hbody
  case cemIosig => exact quiet (cemIosigBody_effect hbody) fun _ _ => SignalCase.sameStores
  case cemTxbyte => exact quiet (cemTxbyteBody_effect hbody) fun _ _ => TransmitCase.sameStores
  case cemRxbyte => exact cemRxbyteBody_bytes hbody
  case cemFidi => exact quiet (cemFidiBody_effect hbody) fun _ _ => FidiCase.sameStores
  case cemPump => exact cemPumpBody_bytes hbody
  case wtSetwt =>
    obtain ⟨rfl, -⟩ := ret_eq_ok.mp hbody
    exact .updChan_same ⟨rfl, rfl, rfl, rfl⟩
  case wtSetetu =>
    obtain ⟨rfl, -⟩ := ret_eq_ok.mp hbody
    exact .updChan_same ⟨rfl, rfl, rfl, rfl⟩
  case wtTick => exact quiet (wtTickBody_effect hbody) fun _ _ => TickCase.sameStores
  case poolAlloc => exact poolAllocBody_bytes hbody
  case poolFree => exact poolFreeBody_bytes hbody
  case poolReport =>
    obtain ⟨rfl, -⟩ := ret_eq_ok.mp hbody
    exact .refl s
  case ubtEnq => exact ubtEnqBody_bytes hbody
  case ubtRefillTohost => exact refillTohostBody_bytes hbody
  case ubtWcomplete => exact wcompleteBody_bytes hbody
  case ubtRefillFromhost => exact refillFromhostBody_bytes hbody
  case ubtRcomplete =>
    refine rcompleteBody_bytes hbody fun h hstatus hcur a ha => ?_
    simp [mayStore, hstatus, hcur, firstBytes, ha]
  case ubtDispatch =>
    refine ubtDispatchBody_bytes hbody fun h rest f hq hf hst _ a ha => ?_
    simp [mayStore, hq, hf, hst, firstBytes, ha]

/-- R199: the bytes that the parts of a `UBT.PROCESS` of interface `k` may store. -/
def partStore (p : Config) (k : Nat) (sp : Space) (a : Nat) : Bool :=
  (p.ifs[k]?).any fun f => firstBytes (.txbuf f.chan) p.txqCap sp a

theorem mayStore_ubtProcess (k : Byte) (x y z : Bool) (s : State) : mayStore (.ubtProcess k x y z) s = partStore s.cfg k.toNat := rfl

/-- R199, R220: the OUT endpoint of an interface serves that interface's own channel, because no other names it (R1). -/
theorem partCase_bytes {p : Proc} {n : Nat} {ends : Bool} (hw : ConfigFacts s.cfg) (hpart : PartCase p s t n ends) :
    BytesKept (partStore s.cfg p.k) s t := by
  have hdispatch : ∀ {f e r}, s.cfg.ifs[p.k]? = some f → f.out = some e → ubtDispatchBody e s = .ok (t, r) →
      BytesKept (partStore s.cfg p.k) s t := by
    intro f e r hf hout hr
    refine ubtDispatchBody_bytes hr fun h rest g _ hg _ hfits a ha => ?_
    obtain rfl : f = g := Option.some.inj ((State.outIf_eq hw (List.mem_of_getElem? hf) hout).symm.trans hg)
    simp [partStore, hf, firstBytes, Nat.lt_of_lt_of_le ha hfits]
  cases hpart with
  | noif => exact .refl s
  | skip => exact .refl s
  | irq _ _ _ _ _ _ _ hr => exact refillTohostBody_bytes hr
  | inn _ _ _ _ _ _ _ hr => exact refillTohostBody_bytes hr
  | out _ _ _ _ _ _ _ hr => exact refillFromhostBody_bytes hr
  | disp f e _ _ hf _ hout hr => exact hdispatch hf hout hr
  | dispEmpty f e _ _ hf _ hout hr => exact hdispatch hf hout hr

/-- What the parts of a `UBT.PROCESS` of interface `k` since `s` have left of the stores at progress `q`. -/
structure PartsKeep (s : State) (k : Nat) (q : Proc) (u : State) : Prop where
  iface : q.k = k
  bytes : BytesKept (partStore s.cfg k) s u

theorem PartsKeep.part {k n : Nat} {q : Proc} {ends : Bool} (hw : ConfigFacts s.cfg) (hq : PartsKeep s k q t)
    (hpart : PartCase q t u n ends) : PartsKeep s k (q.next t u n) u := by
  have hcfg := hq.bytes.cfg
  have hkept := partCase_bytes (hcfg.symm ▸ hw) hpart
  rw [hcfg, hq.iface] at hkept
  exact ⟨hq.iface, hq.bytes.trans hkept⟩

theorem processRun_bytes {fuel : Nat} {q : Proc} (hw : ConfigFacts s.cfg) (hrun : processRun fuel q s = .next t) :
    BytesKept (partStore s.cfg q.k) s t :=
  processRun_induct (P := PartsKeep s q.k) (Q := BytesKept (partStore s.cfg q.k) s)
    (last := fun _ _ _ _ hq hpart => (hq.part hw hpart).bytes.then_same rfl rfl rfl rfl)
    (more := fun _ _ _ _ hq hpart => hq.part hw hpart)
    (pass := fun _ _ hq => ⟨hq.iface, hq.bytes.then_same rfl rfl rfl rfl⟩)
    (stop := fun _ _ _ _ hq hpart => (hq.part hw hpart).bytes.then_same rfl rfl rfl rfl)
    (spent := fun _ _ hq => hq.bytes.then_same rfl rfl rfl rfl)
    fuel q s t ⟨rfl, .refl s⟩ hrun

theorem finish_bytes {b : Body} (hb : ∀ u r, b = .ok (u, r) → BytesKept W s u) (hrun : finish s b = .next t) : BytesKept W s t := by
  obtain ⟨u, r, hu, rfl⟩ | ⟨_, _, rfl⟩ := finish_next hrun
  · exact (hb u r hu).then_same rfl rfl rfl rfl
  · exact .of_same rfl rfl rfl rfl

theorem gate_bytes {i : Instr} {run : State → Outcome} (hrun : run s = .next t → BytesKept W s t) (hgate : gate i s run = .next t) :
    BytesKept W s t := by
  obtain ⟨_, rfl⟩ | ⟨_, rfl⟩ | ⟨_, _, hr⟩ := gate_next hgate
  · exact .of_same rfl rfl rfl rfl
  · exact .of_same rfl rfl rfl rfl
  · exact hrun hr

theorem drainEnd_bytes (hend : drainEnd e s = .next t) : BytesKept W s t := by
  have hrecord : BytesKept W s { s with mainOp := none } := .of_same rfl rfl rfl rfl
  simp only [drainEnd] at hend
  split at hend
  · obtain rfl := next_inj hend
    exact .of_same rfl rfl rfl rfl
  · exact hrecord.trans (finish_bytes (fun _ _ => drainBody_bytes) hend)

theorem exec_bytes {i : Instr} (hw : ConfigFacts s.cfg) (hi : i ≠ .sysReset) (hexec : exec i s = .next t) :
    BytesKept (mayStore i s) s t := by
  cases hb : bodyOf i with
  | some b =>
    rw [exec_body hb] at hexec
    exact gate_bytes (finish_bytes fun _ _ => body_bytes hb) hexec
  | none =>
    cases i <;> simp only [bodyOf, reduceCtorEq] at hb
    case sysReset => exact absurd rfl hi
    case ubtProcess => exact gate_bytes (processRun_bytes hw) hexec
    case ubtDrain e =>
      rw [exec_ubtDrain] at hexec
      refine gate_bytes (fun hr => ?_) hexec
      split at hr
      · obtain rfl := next_inj hr
        exact .of_same rfl rfl rfl rfl
      · exact drainEnd_bytes hr

/-- The same for the step that goes on with the rest of an operation. -/
theorem runs_bytes {i : Instr} (hw : ConfigFacts s.cfg) (hi : i ≠ .sysReset) (hruns : Runs i s t) : BytesKept (mayStore i s) s t := by
  obtain hexec | ⟨p, k, -, -, hk, rfl, hresume⟩ | ⟨e, -, -, rfl, hend⟩ := runs_cases hruns
  · exact exec_bytes hw hi hexec
  · have hpass : BytesKept (partStore s.cfg k.toNat) s s.passBoundary := .of_same rfl rfl rfl rfl
    rw [mayStore_ubtProcess]
    unfold processResume at hresume
    split at hresume
    · obtain rfl := next_inj hresume
      exact .of_same rfl rfl rfl rfl
    · exact hpass.trans (hk ▸ processRun_bytes (s := s.passBoundary) hw hresume)
  · exact drainEnd_bytes hend

end Sys2Proof.Machine
end

section
/-! The statements of the family 20_memory. -/

namespace Sys2Proof.Proofs

open Sys2Proof Sys2Proof.Machine

/-- Settles O16: under the invariant every access of every rule body is in bounds, and a step is made of rule bodies. -/
theorem everyStepCompletes : Obligations.EveryStepCompletes :=
  fun _ ⟨hp, hshape, hchans, htransport, _⟩ => step_completes ⟨⟨hp, hshape, chans_forall.mp hchans⟩, ⟨hp, hshape, htransport⟩⟩

/-- Settles O21: each rule body leaves the bytes outside those it stores, and the parts of a `UBT.PROCESS` store to one transmit buffer. -/
theorem bytesOutsideTheStoreKept : Obligations.BytesOutsideTheStoreKept := by
  intro i s t sp a hw hruns hout
  have hi : i ≠ .sysReset := by
    rintro rfl
    exact nomatch hout
  exact (runs_bytes (configFacts_of hw) hi hruns).cell hout

/-- Settles O23: a cell that was written reads the byte written last, and every other cell stays. -/
theorem bytesReadBackAsWritten : Obligations.BytesReadBackAsWritten := by
  intro s t sp a bs hsp hw
  refine ⟨fun i hi => ?_, fun sp' a' hout => (memWrite_bytes hw).cell (by simpa [bytesFrom] using hout)⟩
  rw [State.cell_eq _ hsp, lookup_memWrite hsp hw, if_pos (by omega)]
  simp [hi]

end Sys2Proof.Proofs
end

-- Proofs of the family 30_encoding: the decoder and the encoder are inverse to each other; the port and the step take one request whole.
section
/-! SUPPORT. The fields of a command word (R71) and the operand fields (R72): the encoder and the decoder read each other back. -/

namespace Sys2Proof

/-! ### The command word (R71) -/

/-- The fields of a command word are read back, each from its own bits. -/
@[simp] theorem Cmd.ofWord_word (k : Cmd) : Cmd.ofWord k.word = k := by
  obtain ⟨opc, sel, a, b, d⟩ := k
  simp only [Cmd.ofWord, Cmd.word, Cmd.mk.injEq]
  refine ⟨?_, ?_, ?_, ?_, ?_⟩ <;> ext i hi <;> simp <;> grind

/-- The five fields are all the bits of a command word. -/
@[simp] theorem Cmd.word_ofWord (w : PortWord) : (Cmd.ofWord w).word = w := by
  ext i hi
  simp only [Cmd.ofWord, Cmd.word]
  grind

/-! ### Operand fields (R72) -/

@[simp] theorem fitsIn_setWidth {n : Nat} (x : BitVec n) : fitsIn n (x.setWidth 16) = true := by
  simpa [fitsIn] using (Nat.mod_le _ _).trans_lt x.isLt

theorem extractLsb'_zero_setWidth {n : Nat} (hn : n ≤ 16) (x : BitVec n) : ((x.setWidth 16 : Half)).extractLsb' 0 n = x := by
  rw [BitVec.extractLsb'_setWidth_of_le (by omega), BitVec.extractLsb'_eq_self]

/-- A field whose high bits are zero is its low bits, widened. -/
theorem setWidth_extractLsb'_zero {n : Nat} {x : Half} (h : fitsIn n x = true) : (x.extractLsb' 0 n).setWidth 16 = x := by
  have hlt : x.toNat < 2 ^ n := by simpa [fitsIn] using h
  apply BitVec.eq_of_toNat_eq
  simp [Nat.mod_eq_of_lt hlt, Nat.mod_eq_of_lt x.isLt]

@[simp] theorem fitsIn_byteField (x : Byte) : fitsIn 8 (byteField x) = true := fitsIn_setWidth x

@[simp] theorem lowByte_byteField (x : Byte) : lowByte (byteField x) = x := extractLsb'_zero_setWidth (by omega) x

theorem byteField_lowByte {x : Half} (h : fitsIn 8 x = true) : byteField (lowByte x) = x := setWidth_extractLsb'_zero h

@[simp] theorem fitsIn_bitField (x : Bool) : fitsIn 1 (bitField x) = true := by cases x <;> rfl

@[simp] theorem getElem_bitField (x : Bool) : (bitField x)[0] = x := by cases x <;> rfl

theorem bitField_getElem {x : Half} (h : fitsIn 1 x = true) : bitField x[0] = x := by
  have hread : ∀ n < 2, bitField (BitVec.ofNat 16 n)[0] = BitVec.ofNat 16 n := by decide
  simpa using hread x.toNat (by simpa [fitsIn] using h)

/-- The three draws of `UBT.PROCESS` are read back from their field. -/
theorem draws_of_field (d0 d1 d2 : Bool) :
    let x := BitVec.ofNat 16 (4 * d2.toNat + 2 * d1.toNat + d0.toNat)
    fitsIn 3 x = true ∧ x[0] = d0 ∧ x[1] = d1 ∧ x[2] = d2 := by
  decide +revert

theorem field_of_draws {x : Half} (h : fitsIn 3 x = true) :
    BitVec.ofNat 16 (4 * x[2].toNat + 2 * x[1].toNat + x[0].toNat) = x := by
  have hread : ∀ n < 8, BitVec.ofNat 16 (4 * (BitVec.ofNat 16 n)[2].toNat + 2 * (BitVec.ofNat 16 n)[1].toNat +
      (BitVec.ofNat 16 n)[0].toNat) = BitVec.ofNat 16 n := by decide
  simpa using hread x.toNat (by simpa [fitsIn] using h)

end Sys2Proof
end

section
/-! SUPPORT. The data words of a request (R73): eight bytes each, the last one padded with zero bytes. -/

namespace Sys2Proof

@[simp] theorem length_packWords (n : Nat) (bs : List Byte) : (packWords n bs).length = n := by
  induction n generalizing bs with
  | zero => rfl
  | succ n ih => simp [packWords, ih]

@[simp] theorem packWord_wordBytes_append (w : PortWord) (bs : List Byte) : packWord (wordBytes w ++ bs) = w := by
  ext i hi
  simp only [packWord, wordBytes, List.cons_append, List.getD_cons_succ, List.getD_cons_zero]
  grind

theorem wordBytes_packWord (b0 b1 b2 b3 b4 b5 b6 b7 : Byte) (bs : List Byte) :
    wordBytes (packWord (b0 :: b1 :: b2 :: b3 :: b4 :: b5 :: b6 :: b7 :: bs)) = [b0, b1, b2, b3, b4, b5, b6, b7] := by
  simp only [packWord, wordBytes, List.getD_cons_succ, List.getD_cons_zero, List.cons.injEq, and_true]
  refine ⟨?_, ?_, ?_, ?_, ?_, ?_, ?_, ?_⟩ <;> ext i hi <;> simp <;> grind

/-- The bytes of data words, packed again, are those words. -/
theorem packWords_flatMap_wordBytes (ds : List PortWord) : packWords ds.length (ds.flatMap wordBytes) = ds := by
  induction ds with
  | nil => rfl
  | cons w ds ih =>
    have hdrop : (wordBytes w ++ ds.flatMap wordBytes).drop 8 = ds.flatMap wordBytes := rfl
    simp [packWords, hdrop, ih]

/-- Bytes that fill their data words are read back from them. -/
theorem flatMap_wordBytes_packWords {n : Nat} {bs : List Byte} (h : bs.length = 8 * n) :
    (packWords n bs).flatMap wordBytes = bs := by
  induction n generalizing bs with
  | zero => exact (List.length_eq_zero_iff.mp h).symm
  | succ n ih =>
    match bs, h with
    | b0 :: b1 :: b2 :: b3 :: b4 :: b5 :: b6 :: b7 :: tl, h =>
      have htl : tl.length = 8 * n := by simp at h; omega
      simp [packWords, wordBytes_packWord, ih htl]

/-- Zero bytes at the end are as missing bytes. -/
theorem getD_append_zeros {bs zs : List Byte} (hz : ∀ x ∈ zs, x = 0#8) (i : Nat) : (bs ++ zs).getD i 0#8 = bs.getD i 0#8 := by
  by_cases hi : i < bs.length
  · exact List.getD_append _ _ _ _ hi
  · rw [List.getD_append_right _ _ _ _ (by omega), List.getD_eq_default bs _ (by omega), List.getD_eq_getElem?_getD]
    cases hx : zs[i - bs.length]? with
    | none => rfl
    | some x => exact hz x (List.mem_of_getElem? hx)

theorem packWords_append_zeros {n : Nat} {bs zs : List Byte} (hz : ∀ x ∈ zs, x = 0#8) :
    packWords n (bs ++ zs) = packWords n bs := by
  induction n generalizing bs zs with
  | zero => rfl
  | succ n ih =>
    have hdrop : ∀ x ∈ zs.drop (8 - bs.length), x = 0#8 := fun x hx => hz x (List.mem_of_mem_drop hx)
    simp only [packWords, packWord, getD_append_zeros hz, List.drop_append, ih hdrop]

/-- The data bytes of `UBT.RCOMPLETE` are read back from its data words, zero bytes after them (R73). -/
theorem flatMap_wordBytes_packWords_data (data : List Byte) :
    (packWords ((data.length + 7) / 8) data).flatMap wordBytes =
      data ++ List.replicate (8 * ((data.length + 7) / 8) - data.length) 0#8 := by
  rw [← packWords_append_zeros fun x hx => List.eq_of_mem_replicate hx, flatMap_wordBytes_packWords]
  simp only [List.length_append, List.length_replicate]
  omega

end Sys2Proof
end

section
/-! SUPPORT. The decoder: when it accepts and what it reads (R72 to R75), from the command word's fields and from the data words. -/

namespace Sys2Proof

/-- R78: the 28 operation codes. -/
def assignedOpcodes : List Byte :=
  [0x01#8, 0x10#8, 0x11#8, 0x12#8, 0x13#8, 0x14#8, 0x20#8, 0x21#8, 0x30#8, 0x40#8, 0x41#8, 0x42#8, 0x43#8, 0x44#8, 0x50#8, 0x51#8,
    0x52#8, 0x60#8, 0x61#8, 0x62#8, 0x70#8, 0x71#8, 0x72#8, 0x73#8, 0x74#8, 0x75#8, 0x76#8, 0x77#8]

theorem whenZero_eq_ok {ok : Bool} {i j : Instr} : whenZero ok i = .ok j ↔ ok = true ∧ i = j := by
  cases ok <;> simp [whenZero]

/-! ### Requests of one word -/

/-- Operation code 0x74 is `UBT.RCOMPLETE`'s alone; every other operation is its command word. -/
theorem rcomplete_or_oneWord (i : Instr) :
    (∃ e status data, i = .ubtRcomplete e status data) ∨ ((cmdOf i).opc ≠ 0x74#8 ∧ dataWords i = []) := by
  cases i with
  | ubtRcomplete e status data => exact .inl ⟨e, status, data, rfl⟩
  | _ => exact .inr ⟨by simp [cmdOf], rfl⟩

/-- R72: the row of an operation's code reads the operands back that `cmdOf` writes. -/
theorem decodeCmd_cmdOf {i : Instr} (h : (cmdOf i).opc ≠ 0x74#8) : decodeCmd (cmdOf i) = .ok i := by
  cases i with
  | ubtRcomplete => exact absurd rfl h
  | ubtProcess k d0 d1 d2 =>
    obtain ⟨hfits, h0, h1, h2⟩ := draws_of_field d0 d1 d2
    simp [decodeCmd, cmdOf, whenZero, hfits, h0, h1, h2]
  | _ => simp [decodeCmd, cmdOf, whenZero, extractLsb'_zero_setWidth]

/-- R72: what a row accepts, `cmdOf` writes back: the fields it reads hold its operands, and it has tested that the others are zero. -/
theorem cmdOf_of_decodeCmd {k : Cmd} {i : Instr} (h : decodeCmd k = .ok i) : cmdOf i = k ∧ dataWords i = [] := by
  obtain ⟨opc, sel, a, b, d⟩ := k
  have hopc : opc = BitVec.ofNat 8 opc.toNat := by simp
  simp only [decodeCmd] at h
  split at h
  case h_28 => cases h
  all_goals
    rename_i hcode
    obtain ⟨hzero, rfl⟩ := whenZero_eq_ok.mp h
    simp only [Bool.and_eq_true, decide_eq_true_eq] at hzero
    rw [hcode] at hopc
    simp [cmdOf, dataWords, hopc, hzero, byteField_lowByte, setWidth_extractLsb'_zero, bitField_getElem, field_of_draws]

/-- R75, R78: a code that is no row's is refused. -/
theorem decodeCmd_reserved {k : Cmd} (h : k.opc ∉ assignedOpcodes) : decodeCmd k = .error .reservedOpcode := by
  have hopc : k.opc = BitVec.ofNat 8 k.opc.toNat := by simp
  simp only [decodeCmd]
  split
  case h_28 => rfl
  all_goals
    rename_i hcode
    rw [hcode] at hopc
    exact absurd (by simp [hopc, assignedOpcodes]) h

/-! ### `UBT.RCOMPLETE` and its data words -/

/-- R73, R75: the data words are as many as `len` asks for, and the bytes after the first `len` are zero. -/
theorem decodeData_eq_ok {k : Cmd} {ds : List PortWord} {i : Instr} : decodeData k ds = .ok i ↔
    ds.length = (k.b.toNat + 7) / 8 ∧ (∀ x ∈ (ds.flatMap wordBytes).drop k.b.toNat, x = 0#8) ∧
      .ubtRcomplete k.sel (lowByte k.a) ((ds.flatMap wordBytes).take k.b.toNat) = i := by
  simp only [decodeData, List.all_eq_true, decide_eq_true_eq]
  split_ifs with hwords hpad
  · simp [hwords]
  · rw [Except.ok.injEq]
    exact ⟨fun h => ⟨not_not.mp hwords, hpad, h⟩, fun ⟨_, _, h⟩ => h⟩
  · simp [hpad]

/-- R73: an accepted `UBT.RCOMPLETE` is written back, its data packed into the words it was read from. -/
theorem cmdOf_of_decodeData {k : Cmd} {ds : List PortWord} {i : Instr} (hopc : k.opc = 0x74#8) (ha : fitsIn 8 k.a = true)
    (hd : k.d = 0#16) (h : decodeData k ds = .ok i) : cmdOf i = k ∧ dataWords i = ds := by
  obtain ⟨hwords, hpad, rfl⟩ := decodeData_eq_ok.mp h
  have hbytes : (ds.flatMap wordBytes).length = 8 * ds.length := by simp [wordBytes, Nat.mul_comm]
  have hlen : ((ds.flatMap wordBytes).take k.b.toNat).length = k.b.toNat := by
    rw [List.length_take]
    omega
  constructor
  · simp only [cmdOf, hlen, byteField_lowByte ha, BitVec.ofNat_toNat, BitVec.setWidth_eq, ← hopc, ← hd]
  · rw [dataWords, hlen, ← hwords, ← packWords_append_zeros hpad, List.take_append_drop, packWords_flatMap_wordBytes]

/-! ### The decoder -/

/-- A request of one word (R72) or a `UBT.RCOMPLETE` (R73): all that the decoder accepts. -/
theorem decode_cons_eq_ok {w : PortWord} {ds : List PortWord} {i : Instr} : decode (w :: ds) = .ok i ↔
    ((Cmd.ofWord w).opc = 0x74#8 ∧ fitsIn 8 (Cmd.ofWord w).a = true ∧ (Cmd.ofWord w).d = 0#16 ∧
        decodeData (Cmd.ofWord w) ds = .ok i) ∨
      ((Cmd.ofWord w).opc ≠ 0x74#8 ∧ ds = [] ∧ decodeCmd (Cmd.ofWord w) = .ok i) := by
  simp only [decode]
  split
  · split <;> simp_all
  · split <;> simp_all

theorem decode_encode {i : Instr} (h : i.encodable = true) : decode (encode i) = .ok i := by
  obtain ⟨e, status, data, rfl⟩ | ⟨hopc, hdata⟩ := rcomplete_or_oneWord i
  · have hlen : data.length < 65536 := by simpa [Instr.encodable] using h
    refine decode_cons_eq_ok.mpr (.inl ?_)
    rw [Cmd.ofWord_word]
    refine ⟨rfl, fitsIn_byteField status, rfl, decodeData_eq_ok.mpr ?_⟩
    simp [cmdOf, dataWords, flatMap_wordBytes_packWords_data, Nat.mod_eq_of_lt hlen]
  · refine decode_cons_eq_ok.mpr (.inr ?_)
    rw [Cmd.ofWord_word]
    exact ⟨hopc, hdata, decodeCmd_cmdOf hopc⟩

/-- R72, R73: an operation's command word and data words are the words it was decoded from. -/
theorem encode_of_decode {ws : List PortWord} {i : Instr} (h : decode ws = .ok i) : encode i = ws := by
  cases ws with
  | nil => cases h
  | cons w ds =>
    obtain ⟨hcmd, hdata⟩ : cmdOf i = Cmd.ofWord w ∧ dataWords i = ds := by
      obtain ⟨hopc, ha, hd, hdata⟩ | ⟨_, rfl, hcmd⟩ := decode_cons_eq_ok.mp h
      · exact cmdOf_of_decodeData hopc ha hd hdata
      · exact cmdOf_of_decodeCmd hcmd
    rw [encode, hcmd, hdata, Cmd.word_ofWord]

end Sys2Proof
end

section
/-! SUPPORT. The response word (R76); the port takes a request whole (R73), and the step that takes one (R57, R75, R251). -/

namespace Sys2Proof.Machine

/-! ### The response word -/

/-- R76: the fields of a response are read back from its word. -/
theorem Response.word_fields (r : Response) :
    r.word.extractLsb' 24 8 = r.rc.code ∧ r.word.extractLsb' 16 8 = r.aux ∧ r.word.extractLsb' 0 16 = r.val := by
  simp only [Response.word]
  refine ⟨?_, ?_, ?_⟩ <;> ext i hi <;> simp <;> grind

/-! ### The port and the step -/

/-- R73: the command word of an encoding tells how many words it has. -/
theorem requestWords_cmdOf {i : Instr} (h : i.encodable = true) : requestWords (cmdOf i).word = (encode i).length := by
  obtain ⟨e, status, data, rfl⟩ | ⟨hopc, hdata⟩ := rcomplete_or_oneWord i
  · have hlen : data.length < 65536 := by simpa [Instr.encodable] using h
    simp [requestWords, cmdOf, encode, dataWords, Nat.mod_eq_of_lt hlen, Nat.add_comm]
  · simp [requestWords, hopc, encode, hdata]

theorem splitRequest_encode {i : Instr} (h : i.encodable = true) (rest : List PortWord) :
    splitRequest (encode i ++ rest) = some (encode i, rest) := by
  have hwords := requestWords_cmdOf h
  simp only [encode, List.cons_append, splitRequest] at hwords ⊢
  rw [if_pos (by simp [hwords]), ← List.cons_append, List.take_left' hwords.symm, List.drop_left' hwords.symm]

variable {s : State} {ws rest : List PortWord}

theorem step_of_mainOp_none (hm : s.mainOp = none) : step s = takeRequest s := by
  simp only [step, cycle, hm]

theorem takeRequest_of_decode {i : Instr} (hsplit : splitRequest s.port = some (ws, rest)) (hdec : decode ws = .ok i) :
    takeRequest s = exec i { s with port := rest } := by
  simp only [takeRequest, hsplit, hdec]

theorem takeRequest_of_reject {r : Reject} (hsplit : splitRequest s.port = some (ws, rest)) (hdec : decode ws = .error r) :
    takeRequest s = .next ({ s with port := rest }).answerIllegal := by
  simp only [takeRequest, hsplit, hdec]

theorem takeRequest_of_waiting (hsplit : splitRequest s.port = none) : takeRequest s = .next s := by
  simp only [takeRequest, hsplit]

end Sys2Proof.Machine
end

section
/-! The statements of the family 30_encoding. -/

namespace Sys2Proof.Proofs

open Sys2Proof Sys2Proof.Machine

/-- Settles O1: a one-word request is read back field by field, `UBT.RCOMPLETE` with its data bytes. -/
theorem decodeOfEncode : Obligations.DecodeOfEncode := fun _ => decode_encode

/-- Settles O2: the fields that the decoder reads are written back, and the bits it does not read it has tested to be zero. -/
theorem encodeOfDecode : Obligations.EncodeOfDecode := fun _ _ => encode_of_decode

/-- Settles O3: the command word of an encoding tells its length. -/
theorem splitRequestOfEncode : Obligations.SplitRequestOfEncode := fun _ rest h => splitRequest_encode h rest

/-- Settles O4: the decoder's table has a row for the assigned codes alone, and only one of these takes data words. -/
theorem unassignedOpcodesRejected : Obligations.UnassignedOpcodesRejected := by
  intro w ds hopc
  have hone : (Cmd.ofWord w).opc ≠ 0x74#8 := fun h => hopc (by simp [show w.extractLsb' 56 8 = 0x74#8 from h])
  have hreserved : decodeCmd (Cmd.ofWord w) = .error .reservedOpcode := decodeCmd_reserved hopc
  refine ⟨by simp [decode, hone, hreserved], ?_⟩
  cases ds with
  | nil => exact ⟨.reservedOpcode, by simp [decode, hone, hreserved]⟩
  | cons d ds => exact ⟨.wrongLength, by simp [decode, hone]⟩

/-- Settles O5: the words and codes are closed facts; the fields of every response word are read bit by bit. -/
theorem printedWordsDecode : Obligations.PrintedWordsDecode :=
  ⟨⟨rfl, rfl, rfl, rfl, rfl, rfl, rfl, rfl⟩, ⟨rfl, Response.word_fields⟩, rfl, rfl, rfl, rfl, rfl, rfl, rfl, rfl⟩

/-- Settles O6: a step with no operation in progress takes a request; the port splits an encoding off whole and it decodes back. -/
theorem stepRunsDecodedRequest : Obligations.StepRunsDecodedRequest := by
  have hruns : ∀ (s : State) (ws rest : List PortWord) (i : Instr), s.mainOp = none → splitRequest s.port = some (ws, rest) →
      decode ws = .ok i → step s = exec i { s with port := rest } := fun s ws rest i hm hsplit hdec =>
    (step_of_mainOp_none hm).trans (takeRequest_of_decode hsplit hdec)
  exact ⟨hruns, fun s rest i hm hi hport => hruns s (encode i) rest i hm (hport ▸ splitRequest_encode hi rest) (decode_encode hi)⟩

/-- Settles O7: the other two ways in which a step with no operation in progress takes a request. -/
theorem stepWithoutOperation : Obligations.StepWithoutOperation :=
  ⟨fun _ _ _ _ hm hsplit hdec => (step_of_mainOp_none hm).trans (takeRequest_of_reject hsplit hdec),
    fun _ hm hport => (step_of_mainOp_none hm).trans (takeRequest_of_waiting (by rw [hport]; rfl))⟩

end Sys2Proof.Proofs
end

-- Proofs of the family 40_pool: the pool's operations on the inputs their rules distinguish.
section
/-! SUPPORT. The bodies of `POOL.ALLOC` (R110) and `POOL.FREE` (R112), one equation per case of their rules, and the bits of the
occupancy bitmap in the response's value field (R113). -/

namespace Sys2Proof.Machine

/-- R75, R238: a request past its checks is the finished body of its rule. -/
theorem exec_of_ready {i : Instr} {b : State → Body} {s : State} (hb : bodyOf i = some b) (hready : Ready i s) :
    exec i s = finish s (b s) := by
  obtain ⟨_, _, hw, hh⟩ := hready
  rw [exec_body hb, gate_pass hw hh]

variable {s : State} {n h : Nat} {st : CtxState}

/-! ### Allocation -/

/-- R110: the request is too large, or the pool is full. -/
theorem poolAllocBody_fails (hfail : s.cfg.ctxSize < n ∨ s.poolFull) : poolAllocBody n st s = ret (s.diag .poolOom n) .oom := by
  rw [poolAllocBody, State.alloc_none (hfail.imp_right poolFull_first)]

/-- R110: the least free context. -/
theorem poolAllocBody_takes (hn : n ≤ s.cfg.ctxSize) (hfree : s.leastFree h) :
    poolAllocBody n st s = ret (s.updCtx h (·.allocated st)) .ok (val16 h) := by
  rw [poolAllocBody, State.alloc_some hn (leastFree_first hfree)]

/-! ### Release -/

/-- R112: a handle outside the pool. -/
theorem poolFreeBody_badHandle (hp : s.cfg.poolN ≤ h) : poolFreeBody h s = .error (.fatal .badHandle) := if_pos hp

/-- R112, past the first test: a free context. -/
theorem poolFreeBody_doubleFree (hp : h < s.cfg.poolN) (hfree : (s.ctx h).state = .free) :
    poolFreeBody h s = .error (.fatal .doubleFree) := by
  rw [poolFreeBody, if_neg (by omega), if_pos hfree]

/-- R112, past the tests of the handle and the state: the references alone decide. -/
theorem poolFreeBody_occupied (hp : h < s.cfg.poolN) (hused : (s.ctx h).state ≠ .free) :
    poolFreeBody h s = if s.referenced h = true then .error (.fatal .queueCorrupt) else ret (s.release h) .ok := by
  rw [poolFreeBody, if_neg (by omega), if_neg hused]

/-! ### The occupancy -/

/-- R113: the pool holds at most 16 contexts, so the value field has a bit for each. -/
theorem val16_occupancy_getLsbD (hp : s.cfg.poolN ≤ 16) (hlen : s.ctxs.length = s.cfg.poolN) (h : Nat) :
    (val16 (occupancy s.ctxs)).getLsbD h = decide (h < s.cfg.poolN ∧ (s.ctx h).state ≠ .free) := by
  have hbit : (occupancy s.ctxs).testBit h = decide (h < s.cfg.poolN ∧ (s.ctx h).state ≠ .free) := hlen ▸ occupancy_testBit s.ctxs h
  rw [val16, BitVec.getLsbD_ofNat, hbit, Bool.and_eq_right_iff_imp]
  simp only [decide_eq_true_eq]
  omega

end Sys2Proof.Machine
end

section
/-! The statements of the family 40_pool. -/

namespace Sys2Proof.Proofs

open Sys2Proof Sys2Proof.Machine

/-- Settles O50: the report is the occupancy bitmap, whose bits are read one by one. -/
theorem poolReportIsTheOccupancy : Obligations.PoolReportIsTheOccupancy := by
  intro s hready
  have ⟨hp, ⟨_, hlen, _⟩, _, _⟩ := hready
  refine ⟨val16 (occupancy s.ctxs), ?_, val16_occupancy_getLsbD (configFacts_of hp).poolN.2 hlen⟩
  rw [exec_of_ready rfl hready, finish_ret, newEvents_self, lastDiag_nil]

/-- Settles O48: the two ways an allocation ends; a failure appends its diagnostic, a success no event. -/
theorem poolAllocResult : Obligations.PoolAllocResult := by
  intro size st s hready
  refine ⟨fun hfail => ?_, fun h hsize hfree => ?_⟩
  · have hevents : newEvents s (s.diag .poolOom size.toNat) = [.diag .poolOom size.toNat] := newEvents_of_append rfl
    rw [exec_of_ready rfl hready, poolAllocBody_fails hfail, finish_ret, hevents, lastDiag_single]
    rfl
  · have hevents : newEvents s (s.updCtx h (·.allocated (allocState st))) = [] := newEvents_self s
    rw [exec_of_ready rfl hready, poolAllocBody_takes hsize hfree, finish_ret, hevents, lastDiag_nil]
    rfl

/-- Settles O49: the tests of R112 in their order, then the release. -/
theorem poolFreeResult : Obligations.PoolFreeResult := by
  intro h s hready halts held
  have hexec : exec (.poolFree h) s = finish s (poolFreeBody h.toNat s) := exec_of_ready rfl hready
  have hhalts (k : FatalCode) (hbody : poolFreeBody h.toNat s = .error (.fatal k)) : exec (.poolFree h) s = halts k := by
    rw [hexec, hbody]
    rfl
  have hheld : s.referenced h.toNat = true ↔ held := referenced_iff
  refine ⟨fun hp => hhalts _ (poolFreeBody_badHandle hp), fun hp hfree => hhalts _ (poolFreeBody_doubleFree hp hfree),
    fun hp hused hrefs => hhalts _ ?_, fun hp hused hrefs => ?_⟩
  · rw [poolFreeBody_occupied hp hused, if_pos (hheld.mpr hrefs)]
  · have hevents : newEvents s (s.release h.toNat) = [] := newEvents_self s
    rw [hexec, poolFreeBody_occupied hp hused, if_neg (mt hheld.mp hrefs), finish_ret, hevents, lastDiag_nil]
    rfl

end Sys2Proof.Proofs
end

-- Proofs of the family 41_ringbuffer: the ring buffer's operations, and that they make it a queue.
section
/-! SUPPORT. The responses of `RB.RESET` to `RB.ISEMPTY` in the cases of their rules (R120 to R124); the bytes a ring buffer holds, and
what becomes of them when a byte enters or leaves it (R125). -/

namespace Sys2Proof.Machine

section
variable {s t : State} {i : Instr} {body : State → Body} {rc : RC} {v : Half}

/-- R76, R238: a request past its checks whose body ends with a reply; the events the body appended decide the diagnostic. -/
theorem exec_of_ready_ret {evs : List Event} (hb : bodyOf i = some body) (hready : Ready i s) (hbody : body s = ret t rc v)
    (hevs : t.events = s.events ++ evs) : exec i s = .next (t.answer rc (lastDiag evs) v) := by
  rw [exec_of_ready hb hready, hbody, finish_ret, newEvents_of_append hevs]

/-- R76: without an event of its own an operation answers no diagnostic. -/
theorem exec_of_ready_quiet (hb : bodyOf i = some body) (hready : Ready i s) (hbody : body s = ret t rc v)
    (hevs : t.events = s.events) : exec i s = .next (t.answer rc 0#8 v) :=
  exec_of_ready_ret hb hready hbody (hevs.trans (List.append_nil _).symm)

end

/-! ### The responses (R120 to R124) -/

section
variable {p : Config} {r : Ring}

theorem Ring.empty_iff : r.empty p = true ↔ r.count p = 0 := decide_eq_true_iff

theorem ConfigFacts.rbUsable_pos (hp : ConfigFacts p) : 0 < p.rbUsable := by
  have := hp.rbCap
  have := hp.usable
  omega

theorem Ring.count_cleared : Ring.count p { r with wr := 0, rd := 0 } = 0 := by simp [Ring.count]

theorem Ring.empty_cleared : Ring.empty p { r with wr := 0, rd := 0 } = true := Ring.empty_iff.mpr Ring.count_cleared

/-- R1: a buffer holds at least one byte, so a cleared one is not full. -/
theorem Ring.full_cleared (hp : ConfigFacts p) : Ring.full p { r with wr := 0, rd := 0 } = false := by
  rw [Ring.full, Ring.count_cleared, decide_eq_false_iff_not]
  exact Nat.not_le.mpr hp.rbUsable_pos

end

section
variable {c b : Byte} {s : State}

/-- R75: the channel of a legal ring-buffer request exists. -/
theorem Ready.chan_lt (h : Ready (.rbRead c) s) : c.toNat < s.chans.length := by
  obtain ⟨-, hshape, hw, -⟩ := h
  exact Machine.chan_lt hshape hw

theorem Ready.configFacts {i : Instr} (h : Ready i s) : ConfigFacts s.cfg := configFacts_of h.1

theorem ConfigFacts.rbCap_pos {p : Config} (hp : ConfigFacts p) : 0 < p.rbCap := Nat.lt_of_lt_of_le Nat.zero_lt_two hp.rbCap

theorem Ready.rbHead (h : Ready (.rbRead c) s) :
    rbHead c.toNat s = .ok (s.cell (.rb c.toNat) ((s.rb c.toNat).rd % s.cfg.rbCap)) :=
  rbHead_eq h.chan_lt h.configFacts.rbCap_pos

/-- R71, R120: the operand fields of the request are unused, so zero. -/
theorem encode_rbReset (c : Byte) : encode (.rbReset c) = [0x10#8 ++ (c ++ 0#48)] :=
  have hzero : (0#16 ++ (0#16 ++ 0#16) : BitVec 48) = 0#48 := rfl
  congrArg (fun operands : BitVec 48 => [0x10#8 ++ (c ++ operands)]) hzero

theorem exec_rbReset_ready (h : Ready (.rbReset c) s) :
    exec (.rbReset c) s = .next ((s.updRb c.toNat fun r => { r with wr := 0, rd := 0 }).answer .ok 0#8 0#16) :=
  exec_of_ready_quiet rfl h rfl rfl

theorem exec_rbWrite_room (h : Ready (.rbWrite c b) s) (hroom : (s.rb c.toNat).count s.cfg < s.cfg.rbUsable) :
    exec (.rbWrite c b) s = .next ((s.updRb c.toNat (·.pushed s.cfg b)).answer .ok 0#8 0#16) :=
  exec_of_ready_quiet rfl h (rbWriteBody_eq (Ready.chan_lt h) h.configFacts.rbCap_pos hroom) rfl

theorem exec_rbWrite_full (h : Ready (.rbWrite c b) s) (hfull : s.cfg.rbUsable ≤ (s.rb c.toNat).count s.cfg) :
    exec (.rbWrite c b) s = .next ((s.diag .rbOverrun b.toNat).answer .full 0x01#8 0#16) :=
  exec_of_ready_ret (evs := [.diag .rbOverrun b.toNat]) rfl h (rbWriteBody_full hfull) rfl

theorem exec_rbRead_empty (h : Ready (.rbRead c) s) (hcount : (s.rb c.toNat).count s.cfg = 0) :
    exec (.rbRead c) s = .next (s.answer .empty 0#8 0#16) :=
  exec_of_ready_quiet rfl h (if_pos (Ring.empty_iff.mpr hcount)) rfl

theorem exec_rbRead_takes (h : Ready (.rbRead c) s) (hcount : (s.rb c.toNat).count s.cfg ≠ 0) :
    exec (.rbRead c) s = .next ((s.updRb c.toNat (·.popped s.cfg)).answer .ok 0#8
      ((s.cell (.rb c.toNat) ((s.rb c.toNat).rd % s.cfg.rbCap)).setWidth 16)) := by
  refine exec_of_ready_quiet rfl h ?_ rfl
  rw [rbReadBody, if_neg (mt Ring.empty_iff.mp hcount), h.rbHead, bind_ok, val16, ofNat_toNat_setWidth]
  rfl

theorem exec_rbPeek_empty (h : Ready (.rbPeek c) s) (hcount : (s.rb c.toNat).count s.cfg = 0) :
    exec (.rbPeek c) s = .next (s.answer .empty 0#8 0#16) :=
  exec_of_ready_quiet rfl h (if_pos (Ring.empty_iff.mpr hcount)) rfl

theorem exec_rbPeek_answers (h : Ready (.rbPeek c) s) (hcount : (s.rb c.toNat).count s.cfg ≠ 0) :
    exec (.rbPeek c) s = .next (s.answer .ok 0#8 ((s.cell (.rb c.toNat) ((s.rb c.toNat).rd % s.cfg.rbCap)).setWidth 16)) := by
  refine exec_of_ready_quiet rfl h ?_ rfl
  rw [rbPeekBody, if_neg (mt Ring.empty_iff.mp hcount), Ready.rbHead h, bind_ok, val16, ofNat_toNat_setWidth]

theorem exec_rbIsempty_ready (h : Ready (.rbIsempty c) s) : exec (.rbIsempty c) s =
    .next (s.answer .ok 0#8 (if (s.rb c.toNat).count s.cfg = 0 then 1#16 else 0#16)) := by
  refine exec_of_ready_quiet rfl h ?_ rfl
  by_cases hcount : (s.rb c.toNat).count s.cfg = 0
  · rw [Ring.empty_iff.mpr hcount, if_pos hcount]
    rfl
  · rw [Bool.eq_false_of_not_eq_true (mt Ring.empty_iff.mp hcount), if_neg hcount]
    rfl

end

/-! ### The bytes a ring buffer holds -/

/-- The bytes of a ring buffer, oldest first; a cell that nothing has written reads as `unwritten` says. -/
def Ring.bytes (p : Config) (unwritten : Nat → Byte) (r : Ring) : List Byte :=
  (List.range (r.count p)).map fun k => (r.buf.lookup ((r.rd + k) % p.rbCap)).getD (unwritten ((r.rd + k) % p.rbCap))

theorem State.ringBytes_eq (s : State) (c : Nat) : s.ringBytes c = (s.rb c).bytes s.cfg (Config.unwrittenByte (.rb c) s.era) := rfl

section
variable {p : Config} {r : Ring} {unwritten : Nat → Byte}

theorem Ring.bytes_of_count_zero (h : r.count p = 0) : r.bytes p unwritten = [] := by simp [Ring.bytes, h]

/-- R19, R126: the write index is the read index advanced by the count, up to the wrap that tells full from empty. -/
theorem Ring.rd_add_count_mod (h : RingOk p r) : (r.rd + r.count p) % p.rbCap = r.wr % p.rbCap := by
  obtain ⟨hwr, hrd, -⟩ := h
  rw [Ring.count, mod_sub_eq hwr hrd]
  split
  · rw [Nat.add_sub_cancel' ‹_›]
  · rw [show r.rd + (r.wr + 2 * p.rbCap - r.rd) = r.wr + p.rbCap * 2 by omega, Nat.add_mul_mod_self_left]

/-- Two offsets from the read index that are less than the capacity apart are different cells. -/
theorem add_mod_ne_of_lt {cap rd k n : Nat} (hkn : k < n) (hn : n < cap) : (rd + k) % cap ≠ (rd + n) % cap := fun heq =>
  have hmod : k ≡ n [MOD cap] := Nat.ModEq.add_left_cancel' rd heq
  absurd (hmod.eq_of_lt_of_lt (by omega) hn) (by omega)

/-- A byte enters behind the bytes held, whose cells it leaves alone. -/
theorem Ring.bytes_pushed (hp : ConfigFacts p) (h : RingOk p r) (hroom : r.count p < p.rbUsable) (b : Byte) :
    (r.pushed p b).bytes p unwritten = r.bytes p unwritten ++ [b] := by
  have hcount : (r.pushed p b).count p = r.count p + 1 := ring_write_count hp h hroom
  have husable : p.rbUsable ≤ p.rbCap := by have := hp.usable; omega
  have hlast : (r.rd + r.count p) % p.rbCap = r.wr % p.rbCap := Ring.rd_add_count_mod h
  rw [Ring.bytes, hcount, List.range_succ, List.map_append, List.map_singleton]
  simp only [Ring.pushed]
  congr 1
  · refine List.map_congr_left fun k hk => ?_
    have hne : (r.rd + k) % p.rbCap ≠ r.wr % p.rbCap :=
      hlast ▸ add_mod_ne_of_lt (List.mem_range.mp hk) (Nat.lt_of_lt_of_le hroom husable)
    rw [Memory.lookup_store_ne _ _ hne]
  · rw [hlast, Memory.lookup_store_same, Option.getD_some]

/-- The byte at the read index leaves, and the others follow in order. -/
theorem Ring.bytes_popped (hp : ConfigFacts p) (h : RingOk p r) (hcount : r.count p ≠ 0) :
    r.bytes p unwritten =
      (r.buf.lookup (r.rd % p.rbCap)).getD (unwritten (r.rd % p.rbCap)) :: (r.popped p).bytes p unwritten := by
  have hsucc : (r.popped p).count p + 1 = r.count p := ring_read_count hp h hcount
  have hcell (k : Nat) : ((r.rd + 1) % (2 * p.rbCap) + k) % p.rbCap = (r.rd + (k + 1)) % p.rbCap := by
    rw [Nat.add_mod, Nat.mod_mod_of_dvd _ (Nat.dvd_mul_left _ _), ← Nat.add_mod, Nat.add_assoc, Nat.add_comm 1 k]
  rw [Ring.bytes, ← hsucc, List.range_succ_eq_map, List.map_cons, List.map_map, Nat.add_zero]
  simp only [Ring.bytes, Ring.popped, hcell]
  rfl

end

/-! ### One operation of a sequence (R125) -/

/-- What R125's sequences start from and keep: a core that takes requests on the channel, the indices of its ring buffer in range. -/
abbrev QueueReady (c : Byte) (s : State) : Prop := Ready (.rbRead c) s ∧ RingOk s.cfg (s.rb c.toNat)

/-- What R125 says of one operation: it keeps what the next one needs, and the byte it wrote came in behind those held, the byte
it read was the first of them. -/
structure FifoStep (c : Byte) (i : Instr) (s t : State) : Prop where
  ready : QueueReady c t
  bytes : s.ringBytes c.toNat ++ bytesWritten [i] [t.resp] = bytesRead [i] [t.resp] ++ t.ringBytes c.toNat

section
variable {c : Byte} {s : State}

theorem QueueReady.updRb {f : Ring → Ring} (h : QueueReady c s) (hf : RingOk s.cfg (f (s.rb c.toNat))) :
    QueueReady c (s.updRb c.toNat f) := by
  have hc : c.toNat < s.chans.length := h.1.chan_lt
  obtain ⟨⟨hcfg, ⟨hchans, hctxs, heps⟩, hw, hhalted⟩, -⟩ := h
  refine ⟨⟨hcfg, ⟨(State.updRb_chans_length ..).trans hchans, hctxs, heps⟩, hw, hhalted⟩, ?_⟩
  rw [State.rb_updRb_same s hc]
  exact hf

/-- The ring's bytes after an update of the ring alone. -/
theorem State.ringBytes_updRb (hc : c.toNat < s.chans.length) (f : Ring → Ring) :
    (s.updRb c.toNat f).ringBytes c.toNat = (f (s.rb c.toNat)).bytes s.cfg (Config.unwrittenByte (.rb c.toNat) s.era) := by
  rw [State.ringBytes_eq, State.rb_updRb_same s hc]
  rfl

theorem ringBytes_pushed (h : QueueReady c s) (hroom : (s.rb c.toNat).count s.cfg < s.cfg.rbUsable) (b : Byte) :
    (s.updRb c.toNat (·.pushed s.cfg b)).ringBytes c.toNat = s.ringBytes c.toNat ++ [b] := by
  obtain ⟨hready, hring⟩ := h
  rw [State.ringBytes_updRb hready.chan_lt, Ring.bytes_pushed hready.configFacts hring hroom, State.ringBytes_eq]

theorem ringBytes_popped (h : QueueReady c s) (hcount : (s.rb c.toNat).count s.cfg ≠ 0) : s.ringBytes c.toNat =
    s.cell (.rb c.toNat) ((s.rb c.toNat).rd % s.cfg.rbCap) :: (s.updRb c.toNat (·.popped s.cfg)).ringBytes c.toNat := by
  obtain ⟨hready, hring⟩ := h
  rw [State.ringBytes_updRb hready.chan_lt, State.ringBytes_eq, Ring.bytes_popped hready.configFacts hring hcount]
  rfl

/-- R122: the value field of a read carries the byte. -/
theorem bytesRead_rbRead_ok (c b : Byte) : bytesRead [.rbRead c] [⟨.ok, 0#8, b.setWidth 16⟩] = [b] :=
  congrArg ([·]) (extractLsb'_zero_setWidth (by omega) b)

/-- R121: a byte that finds room enters behind the others; one that finds none is no byte of the sequence. -/
theorem rbWrite_fifoStep (h : QueueReady c s) (b : Byte) : ∃ t, exec (.rbWrite c b) s = .next t ∧ FifoStep c (.rbWrite c b) s t := by
  have ⟨hready, hring⟩ := h
  by_cases hroom : (s.rb c.toNat).count s.cfg < s.cfg.rbUsable
  · refine ⟨_, exec_rbWrite_room hready hroom, h.updRb (ring_write hready.configFacts hring hroom), ?_⟩
    exact (ringBytes_pushed h hroom b).symm
  · exact ⟨_, exec_rbWrite_full hready (Nat.le_of_not_lt hroom), h, List.append_nil _⟩

/-- R122: the oldest byte is the one read; on an empty buffer none is. -/
theorem rbRead_fifoStep (h : QueueReady c s) : ∃ t, exec (.rbRead c) s = .next t ∧ FifoStep c (.rbRead c) s t := by
  have ⟨hready, hring⟩ := h
  by_cases hcount : (s.rb c.toNat).count s.cfg = 0
  · exact ⟨_, exec_rbRead_empty hready hcount, h, List.append_nil _⟩
  · refine ⟨_, exec_rbRead_takes hready hcount, h.updRb (ring_read hready.configFacts hring hcount), ?_⟩
    rw [ringBytes_popped h hcount]
    exact (List.append_nil _).trans (congrArg (· ++ _) (bytesRead_rbRead_ok c _).symm)

/-- R123: a peek reads no byte out. -/
theorem rbPeek_fifoStep (h : QueueReady c s) : ∃ t, exec (.rbPeek c) s = .next t ∧ FifoStep c (.rbPeek c) s t := by
  by_cases hcount : (s.rb c.toNat).count s.cfg = 0
  · exact ⟨_, exec_rbPeek_empty h.1 hcount, h, List.append_nil _⟩
  · exact ⟨_, exec_rbPeek_answers h.1 hcount, h, List.append_nil _⟩

theorem fifoStep_of_isFifoOp {i : Instr} (h : QueueReady c s) (hi : isFifoOp c i = true) :
    ∃ t, exec i s = .next t ∧ FifoStep c i s t := by
  cases i <;> simp only [isFifoOp, decide_eq_true_eq, Bool.false_eq_true] at hi <;> subst hi
  case rbWrite b => exact rbWrite_fifoStep h b
  case rbRead => exact rbRead_fifoStep h
  case rbPeek => exact rbPeek_fifoStep h
  case rbIsempty => exact ⟨_, exec_rbIsempty_ready h.1, h, List.append_nil _⟩

end

/-! ### A sequence (R125) -/

theorem bytesWritten_cons (i : Instr) (is : List Instr) (r : Response) (rs : List Response) :
    bytesWritten (i :: is) (r :: rs) = bytesWritten [i] [r] ++ bytesWritten is rs := by
  cases i <;> simp [bytesWritten]

theorem bytesRead_cons (i : Instr) (is : List Instr) (r : Response) (rs : List Response) :
    bytesRead (i :: is) (r :: rs) = bytesRead [i] [r] ++ bytesRead is rs := by
  cases i <;> simp [bytesRead]

/-- The law of the whole sequence, from that of its operations. -/
theorem runAll_fifo {c : Byte} {ops : List Instr} {s : State} (h : QueueReady c s) (hops : ∀ i ∈ ops, isFifoOp c i = true) :
    ∃ rs t, runAll ops s = some (rs, t) ∧
      s.ringBytes c.toNat ++ bytesWritten ops rs = bytesRead ops rs ++ t.ringBytes c.toNat := by
  induction ops generalizing s with
  | nil => exact ⟨[], s, rfl, List.append_nil _⟩
  | cons i is ih =>
    obtain ⟨hi, his⟩ := List.forall_mem_cons.mp hops
    obtain ⟨u, hexec, hready, hstep⟩ := fifoStep_of_isFifoOp h hi
    obtain ⟨rs, t, hrun, hrest⟩ := ih hready his
    refine ⟨u.resp :: rs, t, by rw [runAll_cons_next hexec, hrun]; rfl, ?_⟩
    calc s.ringBytes c.toNat ++ bytesWritten (i :: is) (u.resp :: rs)
      _ = (s.ringBytes c.toNat ++ bytesWritten [i] [u.resp]) ++ bytesWritten is rs := by rw [bytesWritten_cons i is, List.append_assoc]
      _ = bytesRead [i] [u.resp] ++ (u.ringBytes c.toNat ++ bytesWritten is rs) := by rw [hstep, List.append_assoc]
      _ = bytesRead (i :: is) (u.resp :: rs) ++ t.ringBytes c.toNat := by rw [hrest, bytesRead_cons i is, List.append_assoc]

theorem State.ringBytes_of_empty {s : State} {c : Nat} (h : (s.rb c).empty s.cfg = true) : s.ringBytes c = [] :=
  Ring.bytes_of_count_zero (Ring.empty_iff.mp h)

end Sys2Proof.Machine
end

section
/-! The statements of the family 41_ringbuffer. -/

namespace Sys2Proof.Proofs

open Sys2Proof Sys2Proof.Machine

/-- Settles O24: the encoding, the halted answer, and the cleared indices, whose difference is 0. -/
theorem rbResetClearsTheIndices : Obligations.RbResetClearsTheIndices := by
  refine ⟨encode_rbReset, fun c s hw hhalted => ?_, fun c s hready => ⟨_, exec_rbReset_ready hready, rfl, ?_⟩⟩
  · rw [exec_rbReset, gate_halted hw hhalted]
    rfl
  · have hrb := State.rb_updRb_same s hready.chan_lt fun r => { r with wr := 0, rd := 0 }
    exact ⟨hrb ▸ Ring.empty_cleared, hrb ▸ Ring.full_cleared hready.configFacts⟩

/-- Settles O25: the two cases of R121. -/
theorem rbWriteResult : Obligations.RbWriteResult := fun _ _ _ hready => ⟨exec_rbWrite_room hready, exec_rbWrite_full hready⟩

/-- Settles O26: the cases of R122, R123 and R124. -/
theorem rbReadPeekIsemptyResult : Obligations.RbReadPeekIsemptyResult :=
  ⟨fun _ _ hready => ⟨exec_rbRead_empty hready, exec_rbRead_takes hready⟩,
    fun _ _ hready => ⟨exec_rbPeek_empty hready, exec_rbPeek_answers hready⟩, fun _ _ hready => exec_rbIsempty_ready hready⟩

/-- Settles O27: the law of the sequence; an empty buffer at its start, or its end, adds nothing to it. -/
theorem ringBufferIsFifo : Obligations.RingBufferIsFifo := by
  intro c ops s hready hring hops
  obtain ⟨rs, t, hrun, hlaw⟩ := runAll_fifo ⟨hready, hring⟩ hops
  refine ⟨rs, t, hrun, hlaw, fun hempty => ?_⟩
  have hwritten : bytesRead ops rs ++ t.ringBytes c.toNat = bytesWritten ops rs := by
    rw [← hlaw, State.ringBytes_of_empty hempty, List.nil_append]
  refine ⟨⟨_, hwritten⟩, fun hdrained => ?_⟩
  rw [← hwritten, State.ringBytes_of_empty hdrained, List.append_nil]

end Sys2Proof.Proofs
end

-- Proofs of the family 42_timing: the ratio of an index pair and its application to the UART.
section
/-! SUPPORT. The ratio of an index pair, one equation per case of R133, and the responses of `TIM.RATIO` and `TIM.APPLY` (R133, R135). -/

namespace Sys2Proof.Machine

/-! ### The ratio (R133, R136) -/

/-- R133, R136: the exact product of the clock entry and the base, floored by the division by the rate entry. -/
abbrev flooredRatio (p : Config) (clockIndex rateIndex : Nat) : Nat :=
  p.fiTable.getD clockIndex 0 * p.ratioBase / p.diTable.getD rateIndex 0

section
variable {p : Config} {ci ri : Nat}

/-- R133: an index outside its table, a reserved entry, or a quotient the timing register cannot hold. -/
theorem ratioOf_unsupported (h : 16 ≤ ci ∨ 16 ≤ ri ∨ p.fiTable.getD ci 0 = 0 ∨ p.diTable.getD ri 0 = 0 ∨
    flooredRatio p ci ri < p.ratioMin ∨ p.ratioMax < flooredRatio p ci ri) : ratioOf p ci ri = none := by
  by_cases hindex : 16 ≤ ci ∨ 16 ≤ ri
  · exact if_pos hindex
  by_cases hentry : p.fiTable.getD ci 0 = 0 ∨ p.diTable.getD ri 0 = 0
  · exact (if_neg hindex).trans (if_pos hentry)
  · have hrange : flooredRatio p ci ri < p.ratioMin ∨ p.ratioMax < flooredRatio p ci ri := by tauto
    exact (if_neg hindex).trans ((if_neg hentry).trans (if_pos hrange))

/-- R133: past the three tests the ratio is the floored quotient. -/
theorem ratioOf_supported (hci : ci < 16) (hri : ri < 16) (hF : p.fiTable.getD ci 0 ≠ 0) (hD : p.diTable.getD ri 0 ≠ 0)
    (hmin : p.ratioMin ≤ flooredRatio p ci ri) (hmax : flooredRatio p ci ri ≤ p.ratioMax) :
    ratioOf p ci ri = some (flooredRatio p ci ri) := by
  have hindex : ¬(16 ≤ ci ∨ 16 ≤ ri) := not_or.mpr ⟨Nat.not_le.mpr hci, Nat.not_le.mpr hri⟩
  have hrange : ¬(flooredRatio p ci ri < p.ratioMin ∨ p.ratioMax < flooredRatio p ci ri) :=
    not_or.mpr ⟨Nat.not_lt.mpr hmin, Nat.not_lt.mpr hmax⟩
  exact (if_neg hindex).trans ((if_neg (not_or.mpr ⟨hF, hD⟩)).trans (if_neg hrange))

end

/-! ### `TIM.RATIO` (R133, R134) -/

/-- The response that carries a ratio, or says that there is none. -/
def ratioResponse : Option Nat → Response
  | none => ⟨.unsupported, 0#8, 0#16⟩
  | some r => ⟨.ok, 0#8, val16 r⟩

/-- R134: the body keeps the state, and of the state its reply takes the parameters alone. -/
theorem finish_timRatioBody (ci ri : Nat) (s : State) :
    finish s (timRatioBody ci ri s) = .next { s with resp := ratioResponse (ratioOf s.cfg ci ri) } := by
  unfold timRatioBody
  cases ratioOf s.cfg ci ri <;> rw [finish_ret, newEvents_self, lastDiag_nil] <;> rfl

section
variable {ci ri : Byte} {s : State}

/-- R75, R133: `TIM.RATIO` selects no element of the state, so a core that is not halted always runs it. -/
theorem exec_timRatio_running (hh : s.halted = false) :
    exec (.timRatio ci ri) s = .next { s with resp := ratioResponse (ratioOf s.cfg ci.toNat ri.toNat) } := by
  rw [exec_timRatio, gate_pass rfl hh, finish_timRatioBody]

theorem exec_timRatio_halted (hh : s.halted = true) : exec (.timRatio ci ri) s = .next s.answerHalted := by
  rw [exec_timRatio, gate_halted rfl hh]

theorem exec_timRatio_unsupported (hh : s.halted = false) (hratio : ratioOf s.cfg ci.toNat ri.toNat = none) :
    exec (.timRatio ci ri) s = .next (s.answer .unsupported 0#8 0#16) := by
  rw [exec_timRatio_running hh, hratio]
  rfl

theorem exec_timRatio_ok {r : Nat} (hh : s.halted = false) (hratio : ratioOf s.cfg ci.toNat ri.toNat = some r) :
    exec (.timRatio ci ri) s = .next (s.answer .ok 0#8 (BitVec.ofNat 16 r)) := by
  rw [exec_timRatio_running hh, hratio]
  rfl

end

/-! ### `TIM.APPLY` (R135) -/

section
variable {c : Byte} {ratio : Half} {s : State}

/-- R135: the steps of a change of ratio emit no diagnostic. -/
theorem exec_timApply_inRange (h : Ready (.timApply c ratio) s) (hmin : s.cfg.ratioMin ≤ ratio.toNat)
    (hmax : ratio.toNat ≤ s.cfg.ratioMax) : exec (.timApply c ratio) s =
      .next ({ s.updUart c.toNat fun _ => ⟨ratio, true⟩ with
        events := s.events ++ timingEvents s.cfg c.toNat ratio, resp := ⟨.ok, 0#8, 0#16⟩ }) := by
  have hrange : ¬(ratio.toNat < s.cfg.ratioMin ∨ s.cfg.ratioMax < ratio.toNat) :=
    not_or.mpr ⟨Nat.not_lt.mpr hmin, Nat.not_lt.mpr hmax⟩
  rw [exec_of_ready_ret rfl h (timApplyBody_ok hrange) rfl, lastDiag_timing]
  rfl

/-- R135: a ratio out of range is logged, and never applied partially. -/
theorem exec_timApply_outOfRange (h : Ready (.timApply c ratio) s)
    (hrange : ratio.toNat < s.cfg.ratioMin ∨ s.cfg.ratioMax < ratio.toNat) :
    exec (.timApply c ratio) s = .next ((s.diag .fidiUnsupported ratio.toNat).answer .unsupported 0x04#8 0#16) :=
  exec_of_ready_ret (evs := [.diag .fidiUnsupported ratio.toNat]) rfl h (if_pos hrange) rfl

end

end Sys2Proof.Machine
end

section
/-! The statements of the family 42_timing. -/

namespace Sys2Proof.Proofs

open Sys2Proof Sys2Proof.Machine

/-- Settles O28: the two cases of R133. -/
theorem timRatioResult : Obligations.TimRatioResult := fun _ _ _ ⟨_, _, _, hh⟩ =>
  ⟨fun hunsupported => exec_timRatio_unsupported hh (ratioOf_unsupported hunsupported),
    fun hci hri hF hD hmin hmax => exec_timRatio_ok hh (ratioOf_supported hci hri hF hD hmin hmax)⟩

/-- Settles O29: the function is the response that carries the ratio of the pair. -/
theorem timRatioIsPure : Obligations.TimRatioIsPure :=
  ⟨fun ci ri p => ratioResponse (ratioOf p ci.toNat ri.toNat), fun _ _ _ => ⟨exec_timRatio_running, exec_timRatio_halted⟩⟩

/-- Settles O30: the two cases of R135. -/
theorem timApplyResult : Obligations.TimApplyResult := fun _ _ _ hready =>
  ⟨exec_timApply_inRange hready, exec_timApply_outOfRange hready⟩

end Sys2Proof.Proofs
end

-- Proofs of the family 43_engine: the receive front end and the protocol engine.
section
/-! SUPPORT. Every case of an operation that changes the engine's state is a row of the transition table (R162). -/

namespace Sys2Proof.Machine

variable {p : Config} {c : Nat} {x y : Chan} {i : Instr}

/-! ### Card signals (E1 to E4, E16) -/

/-- R85: the codes of VCC and CLK among the legal ones. -/
theorem signalOf_ne_rst {sig : BitVec 2} (h : signalOf sig ≠ .rst) : sig = 0#2 ∨ sig = 1#2 := by
  unfold signalOf at h
  split at h
  · exact .inl ‹_›
  · split at h
    · exact .inr ‹_›
    · exact absurd rfl h

theorem signalOf_eq_vcc {sig : BitVec 2} (h : signalOf sig = .vcc) : sig = 0#2 := by
  unfold signalOf at h
  split at h
  · assumption
  · split at h <;> exact nomatch h

theorem SignalCase.cemEdge {d : Byte} {sig : BitVec 2} {act : Bool} (hd : d.toNat = c) (hlegal : sig ≠ 3#2)
    (h : SignalCase p (signalOf sig) act x y) (hne : y.cem.state ≠ x.cem.state) :
    cemEdge p c x.cem y.cem (.cemIosig d sig act) := by
  refine ⟨hd, ?_⟩
  cases h with
  | supply hsig =>
    have hsame : (x.cem.setLevel (signalOf sig) act).state = x.cem.state := by cases signalOf sig <;> rfl
    exact absurd hsame hne
  | powered hsig hact hoff hvcc hclk =>
    refine .inl ⟨hoff, signalOf_ne_rst hsig, hact, hvcc, hclk, ?_⟩
    cases hrst : x.cem.rst with
    | false => exact .inl ⟨rfl, rfl⟩
    | true => exact .inr ⟨rfl, rfl⟩
  | clkLost => exact absurd rfl hne
  | rstActive hsig hact => exact .inr (.inl ⟨signalOf_eq_rst hlegal hsig, hact, rfl⟩)
  | rstRestores u hsig hact => exact .inr (.inl ⟨signalOf_eq_rst hlegal hsig, hact, rfl⟩)
  | vccLost hsig hact => exact .inr (.inr (.inl ⟨signalOf_eq_vcc hsig, hact, rfl⟩))
  | rstIgnored => exact absurd rfl hne
  | atr hsig hact hreset hvcc hclk =>
    exact .inr (.inr (.inr (.inl ⟨signalOf_eq_rst hlegal hsig, hact, hreset, hvcc, hclk, rfl⟩)))
  | unpowered hsig hact hreset hpower =>
    exact .inr (.inr (.inr (.inr ⟨signalOf_eq_rst hlegal hsig, hact, hreset, hpower, rfl⟩)))

/-! ### Bytes to the reader and from it (E5 to E15) -/

theorem TransmitCase.cemEdge {d : Byte} (hd : d.toNat = c) (h : TransmitCase p x y) (hne : y.cem.state ≠ x.cem.state) :
    cemEdge p c x.cem y.cem (.cemTxbyte d) := by
  refine ⟨hd, ?_⟩
  cases h with
  | atrByte => exact absurd rfl hne
  | atrEnd hst hend => exact .inl ⟨hst, hend, rfl⟩
  | extension => exact absurd rfl hne
  | byte => exact absurd rfl hne
  | toIdle hst hdir hend hcont => exact .inr (.inl ⟨hst, hdir, hend, hcont, rfl⟩)
  | toProcedure hst hdir hend hcont hleft => exact .inr (.inr ⟨hst, hdir, hend, hcont, hleft, rfl, rfl⟩)
  | toReceive => exact absurd rfl hne

/-- A byte from the reader, whether `CEM.RXBYTE` or `CEM.PUMP` brings it: the two have the same rows. -/
theorem ReceiveCase.cemEdge {d b b' : Byte} (hd : d.toNat = c) (h : ReceiveCase p b x y) (hne : y.cem.state ≠ x.cem.state) :
    cemEdge p c x.cem y.cem (.cemRxbyte d b') := by
  refine ⟨hd, ?_⟩
  cases h with
  | ignored => exact absurd rfl hne
  | header => exact absurd rfl hne
  | headerEnd y hst hn hsent =>
    obtain rfl | rfl := hsent
    · exact .inl ⟨hst, hn, rfl, rfl⟩
    · exact absurd hst.symm hne
  | data => exact absurd rfl hne
  | dataEnd y hst hdir hone _ hsent =>
    obtain rfl | rfl := hsent
    · exact .inr (.inl ⟨hst, hdir, hone, rfl, rfl⟩)
    · exact .inr (.inr ⟨hst, hdir, hone, rfl, rfl⟩)

/-! ### Messages of the host (E10) -/

/-- R224: the host's message takes the engine from owing a procedure byte to handing out the message's bytes. -/
theorem HandOverCase.states (h : HandOverCase p x y) :
    x.cem.state = .procedureByte ∧ y.cem.state = .dataExchange ∧ y.cem.dir = .tx := by
  obtain ⟨hst, _, _, _, _, rfl⟩ := h
  exact ⟨hst, rfl, rfl⟩

/-- R1, R199: the interface whose OUT endpoint serves a channel is that channel's own. -/
theorem ProcessServes.interface {k : Nat} (hp : ConfigFacts p) (h : ProcessServes p k c) : ∃ f, p.ifs[k]? = some f ∧ f.chan = c := by
  obtain ⟨f, e, hf, hfe, g, hg, hgc, hge⟩ := h
  obtain rfl := outInterface_unique hp (List.mem_of_getElem? hf) hg hfe hge
  exact ⟨f, hf, hgc⟩

/-! ### Every operation -/

theorem ChanCase.cemEdge (hp : ConfigFacts p) (h : ChanCase p c x i y) (hne : y.cem.state ≠ x.cem.state) :
    cemEdge p c x.cem y.cem i := by
  cases h with
  | same => exact absurd rfl hne
  | sysReset => exact rfl
  | rbReset => exact absurd rfl hne
  | rbWrite d b y _ hy =>
    obtain ⟨-, rfl⟩ := hy
    exact absurd rfl hne
  | rbRead d y _ hy =>
    obtain ⟨-, rfl⟩ := hy
    exact absurd rfl hne
  | timApply d ratio y _ hy =>
    obtain ⟨-, rfl⟩ := hy
    exact absurd rfl hne
  | urxIrq d status b y _ hy => obtain rfl | ⟨-, rfl⟩ := hy <;> exact absurd rfl hne
  | cemIosig d sig act y hd hsig hy => exact hy.cemEdge hd hsig hne
  | cemTxbyte d y hd hy => exact hy.cemEdge hd hne
  | cemRxbyte d b y hd hy => exact hy.cemEdge hd hne
  | cemPump d y hd hy =>
    obtain ⟨-, b, z, hz, rfl⟩ := hy
    have hrow := hz.cemEdge (b' := b) hd hne
    exact hrow
  | cemFidi d fidi y _ hy =>
    obtain ⟨ratio, -, hy⟩ := hy
    rw [hy] at hne
    exact absurd rfl hne
  | wtSetwt => exact absurd rfl hne
  | wtSetetu => exact absurd rfl hne
  | wtTick d y _ hy => cases hy <;> exact absurd rfl hne
  | ubtDispatch e y hserves hy =>
    obtain ⟨hx, hy, hdir⟩ := hy.states
    exact ⟨hx, hy, hdir, hserves⟩
  | ubtProcess k a b d y hserves hy =>
    obtain ⟨hx, hy, hdir⟩ := hy.states
    exact ⟨hx, hy, hdir, hserves.interface hp⟩

/-- R162 for an operation that a request starts and for the step that goes on with the rest of one. -/
theorem cemEdge_of_runs {s t : State} (hp : ConfigFacts s.cfg) (h : Runs i s t) (c : Nat) (hne : (t.cem c).state ≠ (s.cem c).state) :
    cemEdge s.cfg c (s.cem c) (t.cem c) i := (chanCase_runs h c).cemEdge hp hne

/-- R199: a step that goes on with a suspended `UBT.PROCESS` is the rest of the request that its record names. -/
theorem runs_of_suspended {s t : State} {p : Proc} (hmain : mainOk s = true) (hm : s.mainOp = some (.process p))
    (hpre : s.preempted = false) (h : step s = .next t) :
    Runs (.ubtProcess (BitVec.ofNat 8 p.k) p.drawIrq p.drawIn p.drawOut) s t ∧ (BitVec.ofNat 8 p.k).toNat = p.k := by
  have hk : p.k < 256 := by
    unfold mainOk at hmain
    rw [hm] at hmain
    simp only [Bool.and_eq_true, decide_eq_true_eq] at hmain
    obtain ⟨⟨⟨hk, -⟩, -⟩, -⟩ := hmain
    exact hk
  have hsel : (BitVec.ofNat 8 p.k).toNat = p.k := Nat.mod_eq_of_lt hk
  refine ⟨.inr ⟨?_, ?_, h⟩, hsel⟩
  · simp only [hm, Option.any_some, MainOp.isRestOf, hsel, and_self, decide_true]
  · simp only [State.goesOn, hm, hpre, Bool.not_false]

end Sys2Proof.Machine
end


section
/-! SUPPORT. The receive interrupt, `CEM.FIDI` and the card signals: each body on the inputs that its rule distinguishes (R140, R143 to
R149, R158). -/

namespace Sys2Proof.Machine

/-! ### Updates of one channel in a row -/

theorem State.updCem_updCem (s : State) (c : Nat) (f g : Cem → Cem) : (s.updCem c f).updCem c g = s.updCem c (g ∘ f) :=
  State.updChan_updChan ..

theorem State.updCem_congr {s : State} {c : Nat} {f g : Cem → Cem} (h : f (s.cem c) = g (s.cem c)) : s.updCem c f = s.updCem c g :=
  State.updChan_congr (congrArg (fun y => { s.chan c with cem := y }) h)

/-- A change of the engine and one of the timer are one change of the channel. -/
theorem State.updWt_updCem (s : State) (c : Nat) (f : Cem → Cem) (g : Wt → Wt) :
    (s.updCem c f).updWt c g = s.updChan c fun x => { x with cem := f x.cem, wt := g x.wt } := State.updChan_updChan ..

variable {s : State} {c : Nat}

/-! ### The receive interrupt (R140) -/

/-- R140: without an error bit in the status the byte goes on to the ring buffer. -/
theorem urxIrqBody_clean {status : Half} (hc : c < s.chans.length) (hclean : errorBits status = 0#16) (b : Byte) :
    urxIrqBody c status b s = rbWriteBody c b (s.updChan c fun x => { x with stat := errorBits status }) := by
  have hstat : s.updChan c ((fun x => { x with stat := x.stat ||| errorBits status }) ∘ fun x => { x with stat := 0#16 }) =
      s.updChan c fun x => { x with stat := errorBits status } := State.updChan_congr (by simp)
  simp only [urxIrqBody, State.updChan_updChan, hstat, State.chan_updChan_same _ hc, if_pos hclean]

/-- The status word is no part of the ring buffer. -/
theorem State.rb_updStat (hc : c < s.chans.length) (stat : Half) : (s.updChan c fun x => { x with stat := stat }).rb c = s.rb c := by
  rw [State.rb, State.chan_updChan_same _ hc]
  rfl

section
variable {c b : Byte} {status : Half} {s : State}

theorem exec_urxIrq_error (h : Ready (.urxIrq c status b) s) (herr : errorBits status ≠ 0#16) :
    exec (.urxIrq c status b) s = .next (((s.updChan c.toNat fun x => { x with stat := errorBits status }).diag .uartRxError
      (errorBits status).toNat).answer .discarded 0x02#8 0#16) :=
  exec_of_ready_ret (evs := [.diag .uartRxError (errorBits status).toNat]) rfl h (urxIrqBody_error (Ready.chan_lt h) herr b) rfl

theorem exec_urxIrq_full (h : Ready (.urxIrq c status b) s) (hclean : errorBits status = 0#16)
    (hfull : s.cfg.rbUsable ≤ (s.rb c.toNat).count s.cfg) :
    exec (.urxIrq c status b) s = .next (((s.updChan c.toNat fun x => { x with stat := errorBits status }).diag .rbOverrun
      b.toNat).answer .full 0x01#8 0#16) := by
  have hc : c.toNat < s.chans.length := Ready.chan_lt h
  refine exec_of_ready_ret (evs := [.diag .rbOverrun b.toNat]) rfl h ((urxIrqBody_clean hc hclean b).trans (rbWriteBody_full ?_)) rfl
  rwa [State.rb_updStat hc]

theorem exec_urxIrq_room (h : Ready (.urxIrq c status b) s) (hclean : errorBits status = 0#16)
    (hroom : (s.rb c.toNat).count s.cfg < s.cfg.rbUsable) :
    exec (.urxIrq c status b) s = .next (((s.updChan c.toNat fun x => { x with stat := errorBits status }).updRb c.toNat
      (·.pushed s.cfg b)).answer .ok 0#8 0#16) := by
  have hc : c.toNat < s.chans.length := Ready.chan_lt h
  refine exec_of_ready_quiet rfl h ((urxIrqBody_clean hc hclean b).trans (rbWriteBody_eq ?_ h.configFacts.rbCap_pos ?_)) rfl
  · rwa [State.updChan_chans_length]
  · rwa [State.rb_updStat hc]

end

/-! ### Fi/Di reconfiguration (R158) -/

/-- R93: the clock index is the high half of the byte. -/
theorem fidiClock_eq (x : Byte) : fidiClock x = x.toNat / 16 := by
  have hx := x.isLt
  rw [fidiClock, BitVec.extractLsb'_toNat, Nat.shiftRight_eq_div_pow]
  omega

/-- R93: the rate index is the low half of the byte. -/
theorem fidiRate_eq (x : Byte) : fidiRate x = x.toNat % 16 := by
  rw [fidiRate, BitVec.extractLsb'_toNat, Nat.shiftRight_zero]

/-- R1: a supported ratio fits the timing register. -/
theorem timApplyBody_ofNat {r : Nat} (hp : ConfigFacts s.cfg) (hmin : s.cfg.ratioMin ≤ r) (hmax : r ≤ s.cfg.ratioMax) :
    timApplyBody c (BitVec.ofNat 16 r) s = .ok ({ s.updUart c fun _ => ⟨BitVec.ofNat 16 r, true⟩ with
      events := s.events ++ timingEvents s.cfg c (BitVec.ofNat 16 r) }, ⟨.ok, 0#16⟩) := by
  obtain ⟨-, -, -, hhalf⟩ := hp.ratio
  have hr : (BitVec.ofNat 16 r).toNat = r := Nat.mod_eq_of_lt (show r < 2 ^ 16 by omega)
  exact timApplyBody_ok (by omega)

theorem cemFidiBody_unsupported {fidi : Byte} (h : ratioOf s.cfg (fidiClock fidi) (fidiRate fidi) = none) :
    cemFidiBody c fidi s = ret (s.diag .fidiUnsupported fidi.toNat) .unsupported := by
  rw [cemFidiBody, h]

/-- R158, R181: the timing register takes the ratio, and so does the timer, which reloads a running countdown. -/
theorem cemFidiBody_supported {fidi : Byte} {r : Nat} (hp : ConfigFacts s.cfg)
    (h : ratioOf s.cfg (fidiClock fidi) (fidiRate fidi) = some r) (hmin : s.cfg.ratioMin ≤ r) (hmax : r ≤ s.cfg.ratioMax) :
    cemFidiBody c fidi s = ret ({ (s.updUart c fun _ => ⟨BitVec.ofNat 16 r, true⟩).updWt c fun w =>
        if w.armed = true then Wt.fromFull { w with etu := BitVec.ofNat 16 r } else { w with etu := BitVec.ofNat 16 r } with
      events := s.events ++ timingEvents s.cfg c (BitVec.ofNat 16 r) }) .ok (BitVec.ofNat 16 r) := by
  have hreload : (fun w : Wt => ({ w with etu := BitVec.ofNat 16 r } : Wt).reloaded) = fun w =>
      if w.armed = true then Wt.fromFull { w with etu := BitVec.ofNat 16 r } else { w with etu := BitVec.ofNat 16 r } :=
    funext fun w => reloaded_eq _
  simp only [cemFidiBody, h, timApplyBody_ofNat hp hmin hmax, bind_ok, wtSetEtu, hreload]
  rfl

/-! ### Card signals (R143 to R149) -/

/-- R144, R145: the supply and the clock both on power the engine up. -/
def Cem.poweredUp (x : Cem) : Cem :=
  { x with
    state := if x.state = .poweredOff ∧ x.vcc = true ∧ x.clk = true then (if x.rst = true then .inReset else .clockActive)
      else x.state }

theorem powerEval_eq (c : Nat) (s : State) : powerEval c s = s.updCem c Cem.poweredUp := by
  refine State.updCem_congr ?_
  unfold Cem.poweredUp
  split <;> rfl

theorem cemIosigBody_repeated {sig : Signal} {act : Bool} (h : (s.cem c).level sig = act) : cemIosigBody c sig act s = ret s .ok :=
  if_pos h

theorem cemIosigBody_vccOn (h : (s.cem c).vcc = false) :
    cemIosigBody c .vcc true s = ret (s.updCem c fun x => { x with vcc := true }.poweredUp) .ok := by
  have heval : cemIosigBody c .vcc true s = ret (powerEval c (s.updCem c fun x => x.setLevel .vcc true)) .ok :=
    if_neg (by simp [Cem.level, h])
  rw [heval, powerEval_eq, State.updCem_updCem]
  rfl

theorem cemIosigBody_clkOn (h : (s.cem c).clk = false) :
    cemIosigBody c .clk true s = ret (s.updCem c fun x => { x with clk := true }.poweredUp) .ok := by
  have heval : cemIosigBody c .clk true s = ret (powerEval c (s.updCem c fun x => x.setLevel .clk true)) .ok :=
    if_neg (by simp [Cem.level, h])
  rw [heval, powerEval_eq, State.updCem_updCem]
  rfl

theorem cemIosigBody_clkOff (h : (s.cem c).clk = true) :
    cemIosigBody c .clk false s = ret (s.updCem c fun x => { x with clk := false }) .ok := by
  rw [cemIosigBody, if_neg (by simp [Cem.level, h])]
  rfl

/-- R148: the engine is off and the exchange forgotten. -/
theorem cemIosigBody_vccOff (h : (s.cem c).vcc = true) :
    cemIosigBody c .vcc false s = ret ((s.updCem c fun x => { x.noExchange with vcc := false, atrIdx := 0, state := .poweredOff }).updWt c
      Wt.stopped) .ok := by
  rw [cemIosigBody, if_neg (by simp [Cem.level, h]), State.updWt_updCem]
  simp only [vccInactive_eq, State.updCem, State.updChan_updChan]
  rfl

/-- R149: the ATR starts where the card is powered and clocked. -/
theorem cemIosigBody_rstOff (h : (s.cem c).rst = true) :
    cemIosigBody c .rst false s = ret (s.updCem c fun x =>
      if x.state = .inReset then
        (if x.vcc = true ∧ x.clk = true then { x with rst := false, state := .atrTx, atrIdx := 0 }
          else { x with rst := false, state := .poweredOff })
      else { x with rst := false }) .ok := by
  rw [cemIosigBody, if_neg (by simp [Cem.level, h])]
  simp only [rstInactive, State.updCem_updCem]
  rfl

/-- R147: the engine in reset, with the exchange and the ATR forgotten. -/
abbrev Cem.inReset (x : Cem) : Cem := { x.noExchange with rst := true, atrIdx := 0, state := .inReset }

theorem cemIosigBody_rstOn (h : (s.cem c).rst = false) (hkeep : s.cfg.rstRestoresFidi = false) :
    cemIosigBody c .rst true s = ret ((s.updCem c Cem.inReset).updWt c Wt.stopped) .ok := by
  have hactive : cemIosigBody c .rst true s = rstActive c (s.updCem c fun x => x.setLevel .rst true) := if_neg (by simp [Cem.level, h])
  rw [hactive, rstActive, State.updCem_cfg, if_neg (by simp [hkeep]), clearExchange_eq, State.updWt_updCem]
  simp only [State.updCem, State.updChan_updChan]
  rfl

/-- R147: the reset ratio is in range (R1), so the timing registers take it. -/
theorem cemIosigBody_rstRestores (hp : ConfigFacts s.cfg) (h : (s.cem c).rst = false) (hrestores : s.cfg.rstRestoresFidi = true) :
    cemIosigBody c .rst true s = ret ({ ((s.updCem c Cem.inReset).updWt c fun w =>
          { w with etu := BitVec.ofNat 16 s.cfg.ratioReset, armed := false, remaining := 0 }).updUart c fun _ =>
            ⟨BitVec.ofNat 16 s.cfg.ratioReset, true⟩ with
        events := s.events ++ timingEvents s.cfg c (BitVec.ofNat 16 s.cfg.ratioReset) }) .ok := by
  obtain ⟨-, hmin, hmax, -⟩ := hp.ratio
  have hactive : cemIosigBody c .rst true s = rstActive c (s.updCem c fun x => x.setLevel .rst true) := if_neg (by simp [Cem.level, h])
  have happly := timApplyBody_ofNat (c := c) (s := (clearExchange c (s.updCem c fun x => x.setLevel .rst true)).updCem c fun x =>
    { x with atrIdx := 0, state := .inReset }) hp hmin hmax
  rw [hactive, rstActive, State.updCem_cfg, if_pos hrestores]
  dsimp only
  rw [happly, bind_ok, clearExchange_eq]
  simp only [wtSetEtu, State.updCem, State.updWt, State.updUart, State.updChan, List.modify_modify_eq]
  rfl

end Sys2Proof.Machine
end


section
/-! SUPPORT. Bytes to the reader and from it, and the messages to the host: each body on the inputs that its rule distinguishes (R150 to
R157). -/

namespace Sys2Proof.Machine

variable {s : State} {c e h : Nat}

/-! ### State-entry procedures (R142) -/

/-- R142: the engine idle, after a change `f` of it. -/
theorem enterIdle_updCem (s : State) (c : Nat) (f : Cem → Cem) :
    enterIdle c (s.updCem c f) = (s.updCem c fun x => { (f x).noExchange with state := .idle }).updWt c Wt.stopped := by
  rw [enterIdle_eq, State.updWt_updCem]
  exact State.updChan_updChan ..

/-- R142: the engine owing a procedure byte, after a change `f` of it. -/
theorem enterPb_updCem (s : State) (c : Nat) (f : Cem → Cem) :
    enterPb c (s.updCem c f) = (s.updCem c fun x => { f x with dir := .none, state := .procedureByte }).updWt c Wt.fromFull := by
  rw [enterPb, armed_eq, State.updCem_updCem]
  rfl

/-! ### Bytes to the reader (R150 to R153) -/

/-- R151: a pending extension byte goes before the host's bytes, and while a procedure byte is owed. -/
theorem cemTxbyteBody_extension (hst : (s.cem c).state = .procedureByte ∨ ((s.cem c).state = .dataExchange ∧ (s.cem c).dir = .tx))
    (hnull : (s.cem c).nullPending = true) :
    cemTxbyteBody c s = ret ((s.updCem c fun x => { x with nullPending := false }).updWt c Wt.restarted) .ok
      (s.cfg.pbNull.setWidth 16) := by
  have hfirst (b : Body) : txNullOr c s b = ret ((s.updCem c fun x => { x with nullPending := false }).updWt c Wt.restarted) .ok
      (s.cfg.pbNull.setWidth 16) := by
    rw [txNullOr, if_pos hnull, val16, ofNat_toNat_setWidth]
    rfl
  obtain hpb | ⟨hdata, hdir⟩ := hst
  · simp only [cemTxbyteBody, hpb, hfirst]
  · simp only [cemTxbyteBody, hdata, hdir, hfirst]

/-- R150, R151: nothing to send. -/
theorem cemTxbyteBody_nodata (h : ((s.cem c).state = .procedureByte ∧ (s.cem c).nullPending = false) ∨
      ((s.cem c).state = .dataExchange ∧ (s.cem c).dir ≠ .tx) ∨ (s.cem c).state = .idle ∨ (s.cem c).state = .inReset ∨
      (s.cem c).state = .clockActive ∨ (s.cem c).state = .poweredOff) :
    cemTxbyteBody c s = ret s .nodata := by
  obtain ⟨hpb, hnull⟩ | ⟨hdata, hdir⟩ | hst | hst | hst | hst := h
  · simp [cemTxbyteBody, hpb, txNullOr, hnull]
  · cases hd : (s.cem c).dir with
    | tx => exact absurd hd hdir
    | none => simp only [cemTxbyteBody, hdata, hd]
    | rx => simp only [cemTxbyteBody, hdata, hd]
  all_goals simp only [cemTxbyteBody, hst]

/-- R152: the next byte of the ATR, before the engine is told idle or not. -/
theorem txAtr_eq (hc : c < s.chans.length) (hlt : (s.cem c).atrIdx < s.cfg.atr.length) :
    txAtr c s = ret (if (s.cem c).atrIdx + 1 = s.cfg.atr.length then enterIdle c (s.updCem c fun x => { x with atrIdx := x.atrIdx + 1 })
      else s.updCem c fun x => { x with atrIdx := x.atrIdx + 1 }) .ok ((s.cfg.atr.getD (s.cem c).atrIdx 0#8).setWidth 16) := by
  have hread : memRead1 s .atr (s.cem c).atrIdx = .ok (s.cfg.atr.getD (s.cem c).atrIdx 0#8) := by
    rw [memRead1_ok s hlt]
    simp [State.cell, hlt]
  rw [txAtr, hread, bind_ok]
  dsimp only
  rw [State.cem_updCem_same s hc, val16, ofNat_toNat_setWidth]

theorem cemTxbyteBody_atr (hc : c < s.chans.length) (hst : (s.cem c).state = .atrTx) (hlt : (s.cem c).atrIdx + 1 < s.cfg.atr.length) :
    cemTxbyteBody c s = ret (s.updCem c fun x => { x with atrIdx := x.atrIdx + 1 }) .ok
      ((s.cfg.atr.getD (s.cem c).atrIdx 0#8).setWidth 16) := by
  simp only [cemTxbyteBody, hst]
  rw [txAtr_eq hc (by omega), if_neg (by omega)]

theorem cemTxbyteBody_atrEnd (hc : c < s.chans.length) (hst : (s.cem c).state = .atrTx) (hend : (s.cem c).atrIdx + 1 = s.cfg.atr.length) :
    cemTxbyteBody c s = ret ((s.updCem c fun x => { x.noExchange with atrIdx := x.atrIdx + 1, state := .idle }).updWt c Wt.stopped) .ok
      ((s.cfg.atr.getD (s.cem c).atrIdx 0#8).setWidth 16) := by
  simp only [cemTxbyteBody, hst]
  rw [txAtr_eq hc (by omega), if_pos hend, enterIdle_updCem]
  rfl

/-- R153: the next byte of the host's message, before the end of the message is told. -/
theorem cemTxbyteBody_queued (hc : c < s.chans.length) (hst : (s.cem c).state = .dataExchange) (hdir : (s.cem c).dir = .tx)
    (hnull : (s.cem c).nullPending = false) (hlt : (s.cem c).txIdx < s.cfg.txqCap) :
    cemTxbyteBody c s = ret (if (s.cem c).txIdx + 1 = (s.cem c).txLen then
        txFinish c (s.updCem c fun x => { x with txIdx := x.txIdx + 1 })
      else s.updCem c fun x => { x with txIdx := x.txIdx + 1 }) .ok ((s.cell (.txbuf c) (s.cem c).txIdx).setWidth 16) := by
  have hread : memRead1 s (.txbuf c) (s.cem c).txIdx = .ok (s.cell (.txbuf c) (s.cem c).txIdx) :=
    memRead1_ok s (spaceSize_txbuf hc ▸ hlt)
  simp only [cemTxbyteBody, hst, hdir, txNullOr, hnull, txQueued]
  rw [if_neg nofun, hread, bind_ok, State.cem_updCem_same s hc, val16, ofNat_toNat_setWidth]

/-- R153: after the last byte the exchange is over. -/
theorem txFinish_tx {f : Cem → Cem} (hc : c < s.chans.length) (hcont : (f (s.cem c)).cont = .tx) :
    txFinish c (s.updCem c f) = (s.updCem c fun x => { (f x).noExchange with state := .idle }).updWt c Wt.stopped := by
  rw [txFinish, State.updCem_updCem, enterIdle_updCem, State.cem_updCem_same s hc]
  simp only [Function.comp, hcont]
  rfl

/-- R153: after the last byte the engine receives what is left of the data field, or owes a procedure byte again. -/
theorem txFinish_rx {f : Cem → Cem} (hc : c < s.chans.length) (hcont : (f (s.cem c)).cont = .rx) :
    txFinish c (s.updCem c f) = if (f (s.cem c)).rxLeft = 0 then
        (s.updCem c fun x => { f x with txLen := 0, txIdx := 0, dir := .none, state := .procedureByte }).updWt c Wt.fromFull
      else s.updCem c fun x => { f x with txLen := 0, txIdx := 0, dir := .rx, rxN := 0 } := by
  rw [txFinish, State.updCem_updCem, enterPb_updCem, State.updCem_updCem, State.cem_updCem_same s hc]
  simp only [Function.comp, hcont]
  rfl

/-! ### Messages to the host (R155 to R157) -/

/-- R155 (a), R157: the message is queued, and the engine, after a change `f` of it, owes a procedure byte. -/
theorem afterSend_queued {f : Cem → Cem} {flags : Byte} {bytes : List Byte} (hs : s.shape) (hc : c < s.chans.length)
    (hin : s.inEp c = some e) (hfree : s.leastFree h) (hfits : 5 + bytes.length ≤ s.cfg.ctxSize) :
    afterSend c (cemSend c flags bytes (s.updCem c f)) = ret ((((s.updCem c fun x =>
        { f x with seq := (f x).seq + 1#8, dir := .none, state := .procedureByte }).updWt c Wt.fromFull).updCtx h fun y => { y with
          state := .usbTxPending, size := 5 + bytes.length, totLen := 5 + bytes.length, idx := 0, owner := some e
          buf := y.buf.storeList 0 (deviceMessage (f (s.cem c)).seq flags bytes) }).updEp e
        fun y => { y with queue := y.queue ++ [h] }) .ok := by
  have hshape : (s.updCem c f).shape := (Frame.cem s c f).shape hs
  have hentry := enterPb_updCem s c fun x => { f x with seq := (f x).seq + 1#8 }
  rw [cemSend_ok hshape hin (leastFree_first (s := s.updCem c f) hfree) hfits, afterSend_ok, State.updCem_updCem,
    State.cem_updCem_same s hc]
  exact congrArg (fun t => ret ((State.updCtx t h _).updEp e _) .ok) hentry

/-- R155 (c), R157: the unit is dropped, and the engine, after a change `f` of it, is idle. -/
theorem afterSend_dropped {f : Cem → Cem} {b : Body} {k : DiagCode} {n : Nat} {rc : RC}
    (hb : b = .ok ((s.updCem c f).diag k n, ⟨rc, 0#16⟩)) (hrc : rc ≠ .ok) :
    afterSend c b = ret (((s.updCem c fun x => { (f x).noExchange with state := .idle }).updWt c Wt.stopped).diag k n) rc := by
  rw [hb, afterSend_fail hrc, ← enterIdle_updCem]
  rfl

theorem afterSend_noEp {f : Cem → Cem} {flags : Byte} {bytes : List Byte} (hin : s.inEp c = none) :
    afterSend c (cemSend c flags bytes (s.updCem c f)) =
      ret (((s.updCem c fun x => { (f x).noExchange with state := .idle }).updWt c Wt.stopped).diag .noInEp c) .discarded :=
  afterSend_dropped (cemSend_noEp hin) nofun

theorem afterSend_full {f : Cem → Cem} {flags : Byte} {bytes : List Byte} (hin : s.inEp c ≠ none) (hfull : s.poolFull) :
    afterSend c (cemSend c flags bytes (s.updCem c f)) = ret (((s.updCem c fun x => { (f x).noExchange with state := .idle }).updWt c
      Wt.stopped).diag .poolOom (5 + bytes.length)) .oom :=
  afterSend_dropped (cemSend_full hin (poolFull_first (s := s.updCem c f) hfull)) nofun

/-! ### Bytes from the reader (R154 to R157) -/

theorem cemRxbyteBody_idle (hst : (s.cem c).state = .idle) (b : Byte) : cemRxbyteBody c b s = rxHeader c b s := by
  simp only [cemRxbyteBody, hst]

theorem cemRxbyteBody_data (hst : (s.cem c).state = .dataExchange) (hdir : (s.cem c).dir = .rx) (b : Byte) :
    cemRxbyteBody c b s = rxData c b s := by
  simp only [cemRxbyteBody, hst, hdir]

/-- R154: the engine is not receiving. -/
theorem cemRxbyteBody_discard (hidle : (s.cem c).state ≠ .idle) (hdata : ¬((s.cem c).state = .dataExchange ∧ (s.cem c).dir = .rx))
    (b : Byte) : cemRxbyteBody c b s = ret (s.diag .rxBadState b.toNat) .discarded := by
  unfold cemRxbyteBody
  split
  · exact absurd ‹_› hidle
  · split
    · exact absurd ⟨‹_›, ‹_›⟩ hdata
    · rfl
  · rfl

/-- R156: the size of the message of a whole data field, whose last byte is `b`. -/
theorem messageLength_data (s : State) (c : Nat) (b : Byte) (n : Nat) :
    5 + (((List.range n).map fun i => s.cell (.rxbuf c) i) ++ [b]).length = 6 + n := by
  simp only [List.length_append, List.length_map, List.length_range, List.length_singleton]
  omega

end Sys2Proof.Machine
end


section
/-! SUPPORT. A byte from the reader always answers, so `CEM.PUMP` goes as `CEM.RXBYTE` goes (R141); and the run from reset to the end of
the ATR (R161 (A)). -/

namespace Sys2Proof.Machine

/-! ### `CEM.PUMP` (R141) -/

section
variable {s t : State} {c : Nat}

/-- R155, R157: queued or dropped, a message lets the engine go on. -/
theorem afterSend_completes {flags : Byte} {bytes : List Byte} (hs : s.shape) (hfits : 5 + bytes.length ≤ s.cfg.ctxSize) :
    ∃ t r, afterSend c (cemSend c flags bytes s) = .ok (t, r) := by
  cases hin : s.inEp c with
  | none =>
    rw [cemSend_noEp hin, afterSend_fail (r := ⟨.discarded, 0#16⟩) nofun]
    exact ⟨_, _, rfl⟩
  | some e =>
    cases hfree : s.firstFree with
    | none =>
      rw [cemSend_full (by simp [hin]) hfree, afterSend_fail (r := ⟨.oom, 0#16⟩) nofun]
      exact ⟨_, _, rfl⟩
    | some h =>
      rw [cemSend_ok hs hin hfree hfits, afterSend_ok]
      exact ⟨_, _, rfl⟩

/-- R154: where the invariants of the channel hold, a byte from the reader raises neither a fault nor the fatal halt. -/
theorem cemRxbyteBody_completes (hp : ConfigFacts s.cfg) (hs : s.shape) (hc : c < s.chans.length) (hchan : ChanOk s.cfg (s.chan c))
    (b : Byte) : ∃ t r, cemRxbyteBody c b s = .ok (t, r) := by
  have hsize := hp.ctxSize.1
  have hcap := hp.rxcap
  have hshape (f : Cem → Cem) : (s.updCem c f).shape := (Frame.cem s c f).shape hs
  obtain ⟨-, -, -, hheader, ⟨-, -, -, -, -, -, -, hleft, hsum, -⟩, -⟩ := hchan
  by_cases hidle : (s.cem c).state = .idle
  · rw [cemRxbyteBody_idle hidle]
    by_cases hpps : (s.cem c).hdrN = 0 ∧ b = 0xFF#8
    · exact ⟨_, _, if_pos hpps⟩
    · have hn : (s.cem c).hdrN ≤ 4 := hheader.1 hidle
      by_cases hfull : (s.cem c).hdrN = 4
      · rw [rxHeader_full hc hfull]
        exact afterSend_completes (hshape _) (by simp only [List.length_cons, List.length_nil, State.updCem_cfg]; omega)
      · exact ⟨_, _, rxHeader_partial hc (by omega) hpps⟩
  · by_cases hdata : (s.cem c).state = .dataExchange ∧ (s.cem c).dir = .rx
    · obtain ⟨hst, hdir⟩ := hdata
      have howed : 1 ≤ (s.cem c).rxLeft := hleft hdir
      have htotal : (s.cem c).rxN + (s.cem c).rxLeft ≤ 255 := hsum
      rw [cemRxbyteBody_data hst hdir]
      by_cases hone : (s.cem c).rxLeft = 1
      · rw [rxData_full hc (by omega) hone]
        exact afterSend_completes (hshape _) (by rw [messageLength_data, State.updCem_cfg]; omega)
      · exact ⟨_, _, rxData_partial hc (by omega) (by omega)⟩
    · exact ⟨_, _, cemRxbyteBody_discard hidle hdata b⟩

/-- R141: the oldest byte goes to the engine, and leaves the buffer unless it has no meaning. -/
theorem cemPumpBody_eq {r : Reply} (hc : c < s.chans.length) (hcap : 0 < s.cfg.rbCap) (hcount : (s.rb c).count s.cfg ≠ 0)
    (hrx : cemRxbyteBody c (s.cell (.rb c) ((s.rb c).rd % s.cfg.rbCap)) s = .ok (t, r)) :
    cemPumpBody c s = if r.rc = .unmodelled then ret s .unmodelled
      else ret (rbAdvance c t) r.rc ((s.cell (.rb c) ((s.rb c).rd % s.cfg.rbCap)).setWidth 16) := by
  rw [cemPumpBody, if_neg (mt Ring.empty_iff.mp hcount), rbHead_eq hc hcap, bind_ok, hrx, bind_ok, val16, ofNat_toNat_setWidth]

end

/-! ### The run from reset to the end of the ATR (R161 (A)) -/

section
variable {p : Config} {c : Byte} {x y : Cem} {s t : State} {i : Instr}

theorem runAll_cons {is : List Instr} {rs : List Response} (h : exec i s = .next t) {u : State} (hrun : runAll is t = some (rs, u)) :
    runAll (i :: is) s = some (t.resp :: rs, u) := by
  rw [runAll_cons_next h, hrun]
  rfl

/-- A core with parameters `p` that runs requests on channel `c`, whose engine is `x`. -/
structure EngineAt (p : Config) (c : Byte) (x : Cem) (s : State) : Prop where
  ready : Ready (.cemTxbyte c) s
  cfg : s.cfg = p
  cem : s.cem c.toNat = x

/-- The event history is no part of the engine. -/
theorem State.cem_withEvents (s : State) (evs : List Event) (d : Nat) : ({ s with events := evs } : State).cem d = s.cem d := rfl

/-- R46: the engine after reset. -/
theorem EngineAt.reset (hp : p.wellFormed = true) (hc : c.toNat < p.nChan) : EngineAt p c Cem.reset (State.resetWith p) :=
  ⟨⟨hp, State.resetWith_shape p, decide_eq_true hc, rfl⟩, rfl, congrArg Chan.cem (State.chan_resetWith p c.toNat)⟩

theorem EngineAt.readyIosig (h : EngineAt p c x s) {sig : BitVec 2} (hsig : sig ≠ 3#2) (act : Bool) :
    Ready (.cemIosig c sig act) s := by
  obtain ⟨hp, hs, hc, hh⟩ := h.ready
  exact ⟨hp, hs, Bool.and_eq_true_iff.mpr ⟨hc, decide_eq_true hsig⟩, hh⟩

/-- One request answered without a diagnostic, and the engine it leaves. -/
abbrev Answers (p : Config) (c : Byte) (i : Instr) (s : State) (rc : RC) (v : Half) (y : Cem) : Prop :=
  ∃ u, exec i s = .next u ∧ u.resp = ⟨rc, 0#8, v⟩ ∧ EngineAt p c y u

/-- A request whose body ends with a reply leaves the core running, because a body keeps the parameters, the lists and the halt. -/
theorem EngineAt.answers {body : State → Body} {rc : RC} {v : Half} {evs : List Event} (h : EngineAt p c x s)
    (hb : bodyOf i = some body) (hready : Ready i s) (hbody : body s = ret t rc v) (hevs : t.events = s.events ++ evs)
    (hquiet : lastDiag evs = 0#8) (hcem : t.cem c.toNat = y) : Answers p c i s rc v y := by
  have hframe : Frame s t := frame_body hb s t _ hbody
  obtain ⟨hp, hs, hc, hh⟩ := h.ready
  have hexec := exec_of_ready_ret hb hready hbody hevs
  rw [hquiet] at hexec
  refine ⟨_, hexec, rfl, ⟨?_, hframe.shape hs, ?_, hframe.halted.trans hh⟩, hframe.cfg.trans h.cfg, hcem⟩
  · rw [State.answer, hframe.cfg]
    exact hp
  · rw [State.answer, hframe.cfg]
    exact hc

/-- The engine of a channel that is powered and clocked, in state `st`, with nothing of an exchange. -/
abbrev Cem.supplied (rst : Bool) (st : CemState) : Cem := { Cem.reset with vcc := true, clk := true, rst := rst, state := st }

theorem EngineAt.vccOn (h : EngineAt p c Cem.reset s) :
    Answers p c (.cemIosig c 0#2 true) s .ok 0#16 { Cem.reset with vcc := true } := by
  have hc : c.toNat < s.chans.length := Ready.chan_lt h.ready
  have hbody := cemIosigBody_vccOn (s := s) (c := c.toNat) (by rw [h.cem]; rfl)
  refine h.answers (evs := []) rfl (h.readyIosig (by decide) _) hbody (List.append_nil _).symm rfl ?_
  rw [State.cem_updCem_same s hc, h.cem]
  rfl

theorem EngineAt.clkOn (h : EngineAt p c { Cem.reset with vcc := true } s) :
    Answers p c (.cemIosig c 1#2 true) s .ok 0#16 (Cem.supplied false .clockActive) := by
  have hc : c.toNat < s.chans.length := Ready.chan_lt h.ready
  have hbody := cemIosigBody_clkOn (s := s) (c := c.toNat) (by rw [h.cem]; rfl)
  refine h.answers (evs := []) rfl (h.readyIosig (by decide) _) hbody (List.append_nil _).symm rfl ?_
  rw [State.cem_updCem_same s hc, h.cem]
  rfl

/-- R147: whether RST restores the timing registers or not, the engine is in reset. -/
theorem EngineAt.rstOn (h : EngineAt p c (Cem.supplied false .clockActive) s) :
    Answers p c (.cemIosig c 2#2 true) s .ok 0#16 (Cem.supplied true .inReset) := by
  have hc : c.toNat < s.chans.length := Ready.chan_lt h.ready
  have hready := h.readyIosig (sig := 2#2) (by decide) true
  have hrst : (s.cem c.toNat).rst = false := by rw [h.cem]
  have hcem : (s.updCem c.toNat Cem.inReset).cem c.toNat = Cem.supplied true .inReset := by
    rw [State.cem_updCem_same s hc, h.cem]
    rfl
  cases hrestores : s.cfg.rstRestoresFidi with
  | false =>
    refine h.answers (evs := []) rfl hready (cemIosigBody_rstOn hrst hrestores) (List.append_nil _).symm rfl ?_
    rwa [State.cem_updWt]
  | true =>
    refine h.answers rfl hready (cemIosigBody_rstRestores hready.configFacts hrst hrestores) rfl (lastDiag_timing _ _ _) ?_
    rw [State.cem_withEvents, State.cem_updUart, State.cem_updWt, hcem]

theorem EngineAt.rstOff (h : EngineAt p c (Cem.supplied true .inReset) s) :
    Answers p c (.cemIosig c 2#2 false) s .ok 0#16 (Cem.supplied false .atrTx) := by
  have hc : c.toNat < s.chans.length := Ready.chan_lt h.ready
  have hbody := cemIosigBody_rstOff (s := s) (c := c.toNat) (by rw [h.cem])
  refine h.answers (evs := []) rfl (h.readyIosig (by decide) _) hbody (List.append_nil _).symm rfl ?_
  rw [State.cem_updCem_same s hc, h.cem]
  rfl

/-- R152: a byte of the ATR before the last. -/
theorem EngineAt.atrByte (h : EngineAt p c x s) (hst : x.state = .atrTx) (hlt : x.atrIdx + 1 < p.atr.length) :
    Answers p c (.cemTxbyte c) s .ok ((p.atr.getD x.atrIdx 0#8).setWidth 16) { x with atrIdx := x.atrIdx + 1 } := by
  have hc : c.toNat < s.chans.length := Ready.chan_lt h.ready
  obtain ⟨hready, rfl, rfl⟩ := h
  refine EngineAt.answers (evs := []) ⟨hready, rfl, rfl⟩ rfl hready (cemTxbyteBody_atr hc hst hlt) (List.append_nil _).symm rfl ?_
  rw [State.cem_updCem_same s hc]

/-- R152: with the last byte of the ATR the engine is idle. -/
theorem EngineAt.atrEnd (h : EngineAt p c x s) (hst : x.state = .atrTx) (hend : x.atrIdx + 1 = p.atr.length) :
    Answers p c (.cemTxbyte c) s .ok ((p.atr.getD x.atrIdx 0#8).setWidth 16)
      { x.noExchange with atrIdx := x.atrIdx + 1, state := .idle } := by
  have hc : c.toNat < s.chans.length := Ready.chan_lt h.ready
  obtain ⟨hready, rfl, rfl⟩ := h
  refine EngineAt.answers (evs := []) ⟨hready, rfl, rfl⟩ rfl hready (cemTxbyteBody_atrEnd hc hst hend) (List.append_nil _).symm rfl ?_
  rw [State.cem_updWt, State.cem_updCem_same s hc]

theorem EngineAt.idle (h : EngineAt p c x s) (hst : x.state = .idle) : Answers p c (.cemTxbyte c) s .nodata 0#16 x := by
  have hbody := cemTxbyteBody_nodata (s := s) (c := c.toNat) (.inr (.inr (.inl (h.cem ▸ hst))))
  exact h.answers (evs := []) rfl h.ready hbody (List.append_nil _).symm rfl h.cem

/-- The bytes left of a list are the next one and those left after it. -/
theorem map_drop_okByte {bs : List Byte} {n : Nat} (hn : n < bs.length) :
    (bs.drop n).map okByte = ⟨.ok, 0#8, (bs.getD n 0#8).setWidth 16⟩ :: (bs.drop (n + 1)).map okByte := by
  rw [List.drop_eq_getElem_cons hn, List.map_cons, List.getD_eq_getElem _ _ hn]
  rfl

/-- R152, R161 (A): with `n + 1` bytes of the ATR left, that many requests hand them out in order and one more answers NODATA. -/
theorem EngineAt.runAtr (n : Nat) : ∀ {x : Cem} {s : State}, EngineAt p c x s → x.state = .atrTx →
    x.atrIdx + (n + 1) = p.atr.length → ∃ t, runAll (List.replicate (n + 2) (.cemTxbyte c)) s =
      some ((p.atr.drop x.atrIdx).map okByte ++ [⟨.nodata, 0#8, 0#16⟩], t) := by
  induction n with
  | zero =>
    intro x s h hst hleft
    obtain ⟨u, hlast, hresp, hu⟩ := h.atrEnd hst hleft
    obtain ⟨t, hidle, hnodata, -⟩ := hu.idle rfl
    refine ⟨t, (runAll_cons hlast (runAll_cons hidle rfl)).trans ?_⟩
    rw [map_drop_okByte (by omega), List.drop_eq_nil_of_le (by omega), hresp, hnodata]
    rfl
  | succ n ih =>
    intro x s h hst hleft
    obtain ⟨u, hnext, hresp, hu⟩ := h.atrByte hst (by omega)
    obtain ⟨t, hrun⟩ := ih hu hst (by dsimp only; omega)
    refine ⟨t, (runAll_cons hnext hrun).trans ?_⟩
    rw [map_drop_okByte (n := x.atrIdx) (by omega), hresp]
    rfl

end

end Sys2Proof.Machine
end

section
/-! The statements of the family 43_engine. -/

namespace Sys2Proof.Proofs

open Sys2Proof Sys2Proof.Machine

/-- Settles O19: each case of an operation that changes the engine's state is a row of R162; a suspended `UBT.PROCESS` that goes on is
the rest of its own request. -/
theorem engineStateFollowsTheTable : Obligations.EngineStateFollowsTheTable := by
  refine ⟨fun i s t c ⟨hp, _⟩ _ h hne => cemEdge_of_runs (configFacts_of hp) (.inl h) c hne, ?_⟩
  intro s t p c ⟨hp, _, _, _, _, hmain⟩ _ hm hpre h hne
  obtain ⟨hruns, hsel⟩ := runs_of_suspended hmain hm hpre h
  obtain ⟨hx, hy, -, hserves⟩ := cemEdge_of_runs (configFacts_of hp) hruns c hne
  exact ⟨hx, hy, hsel ▸ hserves⟩

/-- Settles O31: the cases of R133 on the two halves of the byte. -/
theorem cemFidiResult : Obligations.CemFidiResult := by
  intro c x s hready F D r
  have hclock := fidiClock_eq x
  have hrate := fidiRate_eq x
  have hx := x.isLt
  refine ⟨fun hunsupported => ?_, fun hF hD hmin hmax => ?_⟩
  · have hratio : ratioOf s.cfg (fidiClock x) (fidiRate x) = none := by
      rw [hclock, hrate]
      exact ratioOf_unsupported (.inr (.inr hunsupported))
    exact exec_of_ready_ret (evs := [.diag .fidiUnsupported x.toNat]) rfl hready (cemFidiBody_unsupported hratio) rfl
  · have hratio : ratioOf s.cfg (fidiClock x) (fidiRate x) = some r := by
      rw [hclock, hrate]
      exact ratioOf_supported (by omega) (by omega) hF hD hmin hmax
    rw [exec_of_ready_ret rfl hready (cemFidiBody_supported hready.configFacts hratio hmin hmax) rfl, lastDiag_timing]
    rfl

/-- Settles O35: an error bit, or the two cases of R121. -/
theorem urxIrqResult : Obligations.UrxIrqResult := fun _ _ _ _ hready =>
  ⟨exec_urxIrq_error hready, exec_urxIrq_full hready, exec_urxIrq_room hready⟩

/-- Settles O37: the levels that repeat, and those that power the engine up or leave it (R143 to R145). -/
theorem powerAndClockSignals : Obligations.PowerAndClockSignals := by
  intro c sig act s hready x
  refine ⟨fun hlevel => ?_, ?_, ?_, ?_⟩
  · refine exec_of_ready_quiet rfl hready (cemIosigBody_repeated ?_) rfl
    obtain ⟨rfl, rfl⟩ | ⟨rfl, rfl⟩ | ⟨rfl, rfl⟩ := hlevel <;> rfl
  · rintro rfl rfl hvcc
    rw [exec_of_ready_quiet rfl hready (cemIosigBody_vccOn hvcc) rfl]
    simp only [Cem.poweredUp, true_and]
  · rintro rfl rfl hclk
    rw [exec_of_ready_quiet rfl hready (cemIosigBody_clkOn hclk) rfl]
    simp only [Cem.poweredUp, and_true]
  · rintro rfl rfl hclk
    exact exec_of_ready_quiet rfl hready (cemIosigBody_clkOff hclk) rfl

/-- Settles O38: the edges of RST and the loss of VCC (R147 to R149); the reprogramming of the UART emits no diagnostic. -/
theorem resetAndPowerOffSignals : Obligations.ResetAndPowerOffSignals := by
  intro c sig act s hready x inReset r
  refine ⟨?_, ?_, ?_, ?_⟩
  · rintro rfl rfl hrst hkeep
    exact exec_of_ready_quiet rfl hready (cemIosigBody_rstOn hrst hkeep) rfl
  · rintro rfl rfl hrst hrestores
    rw [exec_of_ready_ret rfl hready (cemIosigBody_rstRestores hready.configFacts hrst hrestores) rfl, lastDiag_timing]
    rfl
  · rintro rfl rfl hvcc
    exact exec_of_ready_quiet rfl hready (cemIosigBody_vccOff hvcc) rfl
  · rintro rfl rfl hrst
    exact exec_of_ready_quiet rfl hready (cemIosigBody_rstOff hrst) rfl

/-- Settles O39: the extension byte, and the states with nothing to send (R150, R151). -/
theorem txbyteWithoutQueuedBytes : Obligations.TxbyteWithoutQueuedBytes := fun _ _ hready =>
  ⟨fun hst hnull => exec_of_ready_quiet rfl hready (cemTxbyteBody_extension hst hnull) rfl,
    fun hnothing => exec_of_ready_quiet rfl hready (cemTxbyteBody_nodata hnothing) rfl⟩

/-- Settles O40: a byte of the ATR before the last, and the last. -/
theorem txbyteHandsOutTheAtr : Obligations.TxbyteHandsOutTheAtr := fun _ _ hready hst =>
  ⟨fun hlt => exec_of_ready_quiet rfl hready (cemTxbyteBody_atr (Ready.chan_lt hready) hst hlt) rfl,
    fun hend => exec_of_ready_quiet rfl hready (cemTxbyteBody_atrEnd (Ready.chan_lt hready) hst hend) rfl⟩

/-- Settles O41: a byte before the last, and the three ends of the host's message (R153). -/
theorem txbyteHandsOutHostBytes : Obligations.TxbyteHandsOutHostBytes := by
  intro c s hready x b hst hdir hnull hcap
  have hc : c.toNat < s.chans.length := Ready.chan_lt hready
  have hbody (hlt : x.txIdx < x.txLen) := cemTxbyteBody_queued hc hst hdir hnull (Nat.lt_of_lt_of_le hlt hcap)
  refine ⟨fun hlt => ?_, fun hend hcont => ?_, fun hend hcont hleft => ?_, fun hend hcont hleft => ?_⟩
  · exact exec_of_ready_quiet rfl hready ((hbody (by omega)).trans (by rw [if_neg (Nat.ne_of_lt hlt)])) rfl
  all_goals
    have hlast := hbody (by omega)
    rw [if_pos hend] at hlast
  · rw [txFinish_tx hc hcont] at hlast
    exact exec_of_ready_quiet rfl hready hlast rfl
  · rw [txFinish_rx hc hcont, if_neg (Nat.ne_of_gt hleft)] at hlast
    exact exec_of_ready_quiet rfl hready hlast rfl
  · rw [txFinish_rx hc hcont, if_pos hleft] at hlast
    exact exec_of_ready_quiet rfl hready hlast rfl

/-- Settles O42: the first four header bytes, the byte without a meaning, and the bytes that are not received (R154, R155). -/
theorem rxbyteWithoutAMessage : Obligations.RxbyteWithoutAMessage := by
  intro c b s hready x
  refine ⟨fun hst hn hpps => ?_, fun hst hn hb => ?_, fun hidle hdata => ?_⟩
  · exact exec_of_ready_quiet rfl hready ((cemRxbyteBody_idle hst b).trans (rxHeader_partial (Ready.chan_lt hready) hn hpps)) rfl
  · exact exec_of_ready_quiet rfl hready ((cemRxbyteBody_idle hst b).trans (if_pos ⟨hn, hb⟩)) rfl
  · exact exec_of_ready_ret (evs := [.diag .rxBadState b.toNat]) rfl hready (cemRxbyteBody_discard hidle hdata b) rfl

/-- Settles O43: the fifth header byte, and its message queued (R155, R156). -/
theorem fifthHeaderByteSendsTheHeader : Obligations.FifthHeaderByteSendsTheHeader := by
  intro c b s e h hready hst hn hin hfree
  have hc : c.toNat < s.chans.length := Ready.chan_lt hready
  have hsize := hready.configFacts.ctxSize.1
  have hbody := (cemRxbyteBody_idle hst b).trans (rxHeader_full hc hn)
  rw [afterSend_queued hready.2.1 hc hin hfree (by simp only [List.length_cons, List.length_nil]; omega)] at hbody
  exact exec_of_ready_quiet rfl hready hbody rfl

/-- Settles O44: a data byte before the last, and the last with its message queued (R156, R157). -/
theorem dataBytesFillAndSendTheField : Obligations.DataBytesFillAndSendTheField := by
  intro c b s hready x hst hdir hsum
  have hc : c.toNat < s.chans.length := Ready.chan_lt hready
  have hcap := hready.configFacts.rxcap
  have hsize := hready.configFacts.ctxSize.1
  have hroom (hleft : 1 ≤ x.rxLeft) : x.rxN < s.cfg.rxbufCap := by omega
  refine ⟨fun hleft => ?_, fun e h hone hin hfree => ?_⟩
  · exact exec_of_ready_quiet rfl hready ((cemRxbyteBody_data hst hdir b).trans (rxData_partial hc (hroom (by omega)) hleft)) rfl
  · have hbody := (cemRxbyteBody_data hst hdir b).trans (rxData_full hc (hroom (by omega)) hone)
    have hlen := messageLength_data s c.toNat b x.rxN
    rw [afterSend_queued hready.2.1 hc hin hfree (by rw [hlen]; omega), hlen] at hbody
    exact exec_of_ready_quiet rfl hready hbody rfl

/-- Settles O45: a complete header or data field without an endpoint or a context for its message (R155, R157). -/
theorem unsendableUnitIsDropped : Obligations.UnsendableUnitIsDropped := by
  intro c b s hready x
  have hc : c.toNat < s.chans.length := Ready.chan_lt hready
  have hcap := hready.configFacts.rxcap
  refine ⟨?_, ?_⟩
  · intro hst hn dropped
    have hbody := (cemRxbyteBody_idle hst b).trans (rxHeader_full hc hn)
    refine ⟨fun hin => ?_, fun hin hfull => ?_⟩
    · exact exec_of_ready_ret (evs := [.diag .noInEp c.toNat]) rfl hready (hbody.trans (afterSend_noEp hin)) rfl
    · exact exec_of_ready_ret (evs := [.diag .poolOom 10]) rfl hready (hbody.trans (afterSend_full hin hfull)) rfl
  · intro hst hdir hle hone dropped
    have hroom : x.rxN < s.cfg.rxbufCap := by omega
    have hbody := (cemRxbyteBody_data hst hdir b).trans (rxData_full hc hroom hone)
    have hlen := messageLength_data s c.toNat b x.rxN
    refine ⟨fun hin => ?_, fun hin hfull => ?_⟩
    · exact exec_of_ready_ret (evs := [.diag .noInEp c.toNat]) rfl hready (hbody.trans (afterSend_noEp hin)) rfl
    · have hdrop := hbody.trans (afterSend_full hin hfull)
      rw [hlen] at hdrop
      exact exec_of_ready_ret (evs := [.diag .poolOom (6 + x.rxN)]) rfl hready hdrop rfl

/-- Settles O36: under the invariant the engine takes the oldest byte as `CEM.RXBYTE` brings it, and the two bodies end alike (R141). -/
theorem cemPumpMovesOneByte : Obligations.CemPumpMovesOneByte := by
  intro c s ⟨_, hs, hchans, _⟩ hready b
  have hp := hready.configFacts
  have hc : c.toNat < s.chans.length := Ready.chan_lt hready
  refine ⟨fun hcount => exec_of_ready_quiet rfl hready (if_pos (Ring.empty_iff.mpr hcount)) rfl, fun hcount => ?_⟩
  obtain ⟨t, r, hrx⟩ := cemRxbyteBody_completes hp hs hc (chans_forall.mp hchans _ hc) b
  have hexec : exec (.cemRxbyte c b) s = finish s (cemRxbyteBody c.toNat b s) := exec_of_ready rfl hready
  have hpump : exec (.cemPump c) s = finish s (cemPumpBody c.toNat s) := exec_of_ready rfl hready
  rw [cemPumpBody_eq hc hp.rbCap_pos hcount hrx] at hpump
  rw [hrx] at hexec
  refine ⟨_, hexec, fun (hrc : r.rc = .unmodelled) => ?_, fun (hrc : r.rc ≠ .unmodelled) => ?_⟩
  · rw [hpump, if_pos hrc, finish_ret, newEvents_self, lastDiag_nil]
  · have hcfg : t.cfg = s.cfg := (frame_cemRxbyteBody _ _ _ _ _ hrx).cfg
    rw [hpump, if_neg hrc, finish_ret, rbAdvance, hcfg]
    rfl

/-- Settles O46: power, clock and the pulse of RST leave the engine at the first byte of the ATR; the requests hand it out to its end. -/
theorem atrAfterResetInOrder : Obligations.AtrAfterResetInOrder := by
  intro p c hp hc
  obtain ⟨s1, hvcc, hr1, h1⟩ := (EngineAt.reset hp hc).vccOn
  obtain ⟨s2, hclk, hr2, h2⟩ := h1.clkOn
  obtain ⟨s3, hon, hr3, h3⟩ := h2.rstOn
  obtain ⟨s4, hoff, hr4, h4⟩ := h3.rstOff
  obtain ⟨n, hn⟩ : ∃ n, p.atr.length = n + 1 := Nat.exists_eq_add_of_le' (configFacts_of hp).atr.1
  obtain ⟨t, hrun⟩ := h4.runAtr n rfl ((Nat.zero_add _).trans hn.symm)
  refine ⟨t, ?_⟩
  rw [hn]
  refine (runAll_cons hvcc (runAll_cons hclk (runAll_cons hon (runAll_cons hoff hrun)))).trans ?_
  rw [hr1, hr2, hr3, hr4]
  rfl

end Sys2Proof.Proofs
end


section
/-! SUPPORT. `WT.SETWT`, `WT.SETETU` and `WT.TICK` in the cases of their rules (R181, R184, R186), and the run of ticks to the expiry
(R187). -/

namespace Sys2Proof.Machine

section
variable {c : Byte} {v : Half} {s : State}

/-! ### The settings (R181, R186) -/

/-- R181, R186: the settings reload a running countdown, whichever of them changed. -/
theorem reloaded_comp_eq (f : Wt → Wt) :
    (fun w => (f w).reloaded) = fun w => if (f w).armed = true then (f w).fromFull else f w :=
  funext fun w => reloaded_eq (f w)

theorem exec_wtSetwt_ready (h : Ready (.wtSetwt c v) s) :
    exec (.wtSetwt c v) s = .next ((s.updWt c.toNat fun w =>
      if w.armed = true then Wt.fromFull { w with wtime := v } else { w with wtime := v }).answer .ok 0#8 0#16) :=
  exec_of_ready_quiet rfl h (congrArg (fun f => ret (s.updWt c.toNat f) .ok) (reloaded_comp_eq fun w => { w with wtime := v })) rfl

theorem exec_wtSetetu_ready (h : Ready (.wtSetetu c v) s) :
    exec (.wtSetetu c v) s = .next ((s.updWt c.toNat fun w =>
      if w.armed = true then Wt.fromFull { w with etu := v } else { w with etu := v }).answer .ok 0#8 0#16) :=
  exec_of_ready_quiet rfl h (congrArg (fun f => ret (s.updWt c.toNat f) .ok) (reloaded_comp_eq fun w => { w with etu := v })) rfl

/-! ### One tick (R184) -/

/-- R184: a countdown one tick on. -/
abbrev Wt.counted (w : Wt) : Wt := { w with remaining := w.remaining - 1 }

/-- R184: the state that the expiring tick leaves, its answer included: the extension byte pending and the full period left. -/
abbrev State.wtExpired (s : State) (c : Nat) : State :=
  { (s.updCem c fun x => { x with nullPending := true }).updWt c fun w => { w with remaining := w.wtime.toNat * w.etu.toNat } with
    events := s.events ++ [.diag .wtxSent c], resp := ⟨.ok, 0x0C#8, 1#16⟩ }

theorem wtTickBody_stopped {c : Nat} (h : (s.wt c).armed = false) : wtTickBody c s = ret s .nop := by
  simp only [wtTickBody, h, Bool.not_false, if_true]

theorem wtTickBody_counts {c : Nat} (h : (s.wt c).armed = true) (hleft : 2 ≤ (s.wt c).remaining) :
    wtTickBody c s = ret (s.updWt c Wt.counted) .ok := by
  simp only [wtTickBody, h, Bool.not_true, Bool.false_eq_true, if_false]
  rw [if_neg (by omega), if_pos (by omega)]

theorem wtTickBody_expires {c : Nat} (h : (s.wt c).armed = true) (hlast : (s.wt c).remaining = 1) :
    wtTickBody c s = ret (((s.updCem c fun x => { x with nullPending := true }).diag .wtxSent c).updWt c fun w =>
      { w with remaining := w.period }) .ok 1#16 := by
  simp only [wtTickBody, h, Bool.not_true, Bool.false_eq_true, if_false]
  rw [if_neg (by omega), if_neg (by omega)]

theorem exec_wtTick_stopped (h : Ready (.wtTick c) s) (harmed : (s.wt c.toNat).armed = false) :
    exec (.wtTick c) s = .next (s.answer .nop 0#8 0#16) :=
  exec_of_ready_quiet rfl h (wtTickBody_stopped harmed) rfl

theorem exec_wtTick_counts (h : Ready (.wtTick c) s) (harmed : (s.wt c.toNat).armed = true) (hleft : 2 ≤ (s.wt c.toNat).remaining) :
    exec (.wtTick c) s = .next ((s.updWt c.toNat Wt.counted).answer .ok 0#8 0#16) :=
  exec_of_ready_quiet rfl h (wtTickBody_counts harmed hleft) rfl

theorem exec_wtTick_expires (h : Ready (.wtTick c) s) (harmed : (s.wt c.toNat).armed = true) (hlast : (s.wt c.toNat).remaining = 1) :
    exec (.wtTick c) s = .next (s.wtExpired c.toNat) :=
  exec_of_ready_ret (evs := [.diag .wtxSent c.toNat]) rfl h (wtTickBody_expires harmed hlast) rfl

/-! ### The run to the expiry (R187) -/

/-- A counting tick leaves a core that takes the next one. -/
theorem Ready.wtCounted (h : Ready (.wtTick c) s) :
    Ready (.wtTick c) ((s.updWt c.toNat Wt.counted).answer .ok 0#8 0#16) := by
  obtain ⟨hp, hs, hc, hh⟩ := h
  exact ⟨hp, (Frame.wt s c.toNat Wt.counted).shape hs, hc, hh⟩

/-- Changes of one channel's timer on both sides of one of its engine come together. -/
theorem State.updWt_updCem_updWt (s : State) (c : Nat) (f g : Wt → Wt) (e : Cem → Cem) :
    ((s.updWt c f).updCem c e).updWt c g = (s.updCem c e).updWt c (g ∘ f) := by
  rw [State.updWt_updCem, State.updWt_updCem]
  exact State.updChan_updChan ..

/-- R184: the expiry sets anew all that the ticks before it changed. -/
theorem State.wtExpired_counted (s : State) (c : Nat) (rc : RC) (aux : Byte) (val : Half) :
    ((s.updWt c Wt.counted).answer rc aux val).wtExpired c = s.wtExpired c := by
  have hchan := State.updWt_updCem_updWt s c Wt.counted (fun w => { w with remaining := w.period }) fun x => { x with nullPending := true }
  exact congrArg (fun u : State => { u with events := s.events ++ [Event.diag .wtxSent c], resp := ⟨.ok, 0x0C#8, 1#16⟩ }) hchan

/-- R187: every tick before the last counts, and the last expires. -/
theorem runAll_wtTick (n : Nat) : ∀ {s : State}, Ready (.wtTick c) s → (s.wt c.toNat).armed = true →
    (s.wt c.toNat).remaining = n + 1 → runAll (List.replicate (n + 1) (.wtTick c)) s =
      some (List.replicate n ⟨.ok, 0#8, 0#16⟩ ++ [⟨.ok, 0x0C#8, 1#16⟩], s.wtExpired c.toNat) := by
  induction n with
  | zero => exact fun h harmed hlast => runAll_cons (exec_wtTick_expires h harmed hlast) rfl
  | succ n ih =>
    intro s h harmed hleft
    have hc : c.toNat < s.chans.length := Ready.chan_lt h
    have hwt : ((s.updWt c.toNat Wt.counted).answer .ok 0#8 0#16).wt c.toNat = (s.wt c.toNat).counted :=
      State.wt_updWt_same s hc Wt.counted
    have hrest := ih h.wtCounted (hwt ▸ harmed) (by rw [hwt]; exact Nat.sub_eq_of_eq_add hleft)
    rw [State.wtExpired_counted] at hrest
    exact runAll_cons (exec_wtTick_counts h harmed (by omega)) hrest

end

end Sys2Proof.Machine
end

section
/-! The statements of the family 44_wt_timer. -/

namespace Sys2Proof.Proofs

open Sys2Proof Sys2Proof.Machine

/-- Settles O34: the run of ticks, by induction on what the countdown has left. -/
theorem expiryAfterExactlyThePeriod : Obligations.ExpiryAfterExactlyThePeriod := fun _ n s hready harmed hleft =>
  ⟨s.wtExpired _, runAll_wtTick n hready harmed hleft, rfl⟩

/-- Settles O32: both settings reload a running countdown. -/
theorem wtSettingsResult : Obligations.WtSettingsResult :=
  ⟨fun _ _ _ hready => exec_wtSetwt_ready hready, fun _ _ _ hready => exec_wtSetetu_ready hready⟩

/-- Settles O33: the three cases of R184. -/
theorem wtTickResult : Obligations.WtTickResult := fun _ _ hready =>
  ⟨exec_wtTick_stopped hready, exec_wtTick_counts hready, exec_wtTick_expires hready⟩

end Sys2Proof.Proofs
end

-- Proofs of the family 45_usb_transport: the transport's operations in the cases of their rules, and the parts of a `UBT.PROCESS`.
section
/-! SUPPORT. The bodies of `UBT.ENQ`, the refills and the completions on the inputs that their rules distinguish (R191 to R197). -/

namespace Sys2Proof.Machine

variable {s : State} {e h : Nat} {rest : List Nat} {status : Byte} {draw : Bool} {data : List Byte}

/-! ### Updates that change nothing -/

theorem State.updEp_eq_self {f : Ep → Ep} (hf : f (s.ep e) = s.ep e) : s.updEp e f = s := by
  rw [State.updEp_congr (g := id) hf, State.updEp, List.modify_id]

theorem State.updCtx_eq_self {f : Ctx → Ctx} (hf : f (s.ctx h) = s.ctx h) : s.updCtx h f = s := by
  rw [State.updCtx_congr (g := id) hf, State.updCtx, List.modify_id]

/-- Two events in a row. -/
theorem State.emit_diag (s : State) (ev : Event) (k : DiagCode) (n : Nat) :
    (s.emit ev).diag k n = { s with events := s.events ++ [ev, .diag k n] } := by
  simp [State.diag, State.emit]

theorem State.updEp_emit (s : State) (ev : Event) (f : Ep → Ep) : (s.emit ev).updEp e f = (s.updEp e f).emit ev := rfl

theorem State.release_emit (s : State) (ev : Event) : (s.emit ev).release h = (s.release h).emit ev := rfl

theorem State.release_updEp (s : State) (f : Ep → Ep) : (s.updEp e f).release h = (s.release h).updEp e f := rfl

/-! ### `UBT.ENQ` (R191) -/

theorem ubtEnqBody_badHandle (hp : s.cfg.poolN ≤ h) : ubtEnqBody e h s = .error (.fatal .badHandle) := if_pos hp

theorem ubtEnqBody_corrupt (hp : h < s.cfg.poolN) (hst : (s.ctx h).state ≠ .uartTxPending) :
    ubtEnqBody e h s = .error (.fatal .queueCorrupt) := by
  rw [ubtEnqBody, if_neg (Nat.not_le.mpr hp), if_pos hst]

theorem ubtEnqBody_queues (hp : h < s.cfg.poolN) (hst : (s.ctx h).state = .uartTxPending) :
    ubtEnqBody e h s = ret ((s.updCtx h fun y => { y with state := .usbTxPending, owner := some e }).updEp e fun y =>
      { y with queue := y.queue ++ [h] }) .ok := by
  rw [ubtEnqBody, if_neg (Nat.not_le.mpr hp), if_neg (not_not_intro hst)]

/-! ### `UBT.REFILL_TOHOST` (R192) -/

/-- R33: all that an idle endpoint holds is its queue. -/
theorem TransportOk.ep_idle (inv : TransportOk s) (he : e < s.eps.length) (hidle : (s.ep e).inProgress = false) :
    s.ep e = ⟨(s.ep e).queue, false, none, false⟩ := by
  obtain ⟨hcur, hzlp⟩ := inv.idle he hidle
  change (⟨(s.ep e).queue, (s.ep e).inProgress, (s.ep e).cur, (s.ep e).zlp⟩ : Ep) = _
  rw [hidle, hcur, hzlp]

theorem refillTohostBody_nop (hnone : (s.ep e).inProgress = true ∨ (s.ep e).queue = []) : refillTohostBody e draw s = ret s .nop := by
  rw [refillTohostBody]
  split
  · rfl
  · rw [hnone.resolve_left ‹_›]

theorem refillTohostBody_submits (hidle : (s.ep e).inProgress = false) (hq : (s.ep e).queue = h :: rest) (hh : h < s.ctxs.length) :
    refillTohostBody e true s = ret { (s.updEp e fun _ => ⟨rest, true, some h, false⟩).updCtx h fun y =>
        { y with state := .usbTxBusy } with
      events := s.events ++ [.usbWrite (s.epConst e).addr h (s.ctx h).size] } .ok (val16 h) := by
  simp only [refillTohostBody, hidle, hq, State.heldCtx_ok hh, bind_ok]
  rfl

/-- R192: a refused submission puts the context back at the head of the queue. -/
theorem refillTohostBody_refused (inv : TransportOk s) (he : e < s.eps.length) (hidle : (s.ep e).inProgress = false)
    (hq : (s.ep e).queue = h :: rest) :
    refillTohostBody e false s = ret { s with
      events := s.events ++ [.usbWrite (s.epConst e).addr h (s.ctx h).size, .diag .usbWriteSubmitFail h] } .fail (val16 h) := by
  have hback : (s.updEp e fun _ => ⟨rest, true, some h, false⟩).updEp e (fun y =>
      { y with queue := h :: y.queue, inProgress := false, cur := none }) = s := by
    rw [State.updEp_updEp]
    exact State.updEp_eq_self (by rw [Function.comp_apply, inv.ep_idle he hidle, hq])
  simp only [refillTohostBody, hidle, hq, State.heldCtx_ok (inv.queued he (hq ▸ List.mem_cons_self)).1, bind_ok, State.updEp_emit,
    hback, State.emit_diag]
  rfl

/-! ### `UBT.WCOMPLETE` (R194, R195) -/

section
variable (hbusy : (s.ep e).inProgress = true) (hcur : (s.ep e).cur = some h) (hh : h < s.ctxs.length)
include hbusy hcur hh

/-- R195: the three conditions of the zero-length follow-up. -/
theorem wcompleteBody_zlp (hzlp : (s.ep e).zlp = false) (hsize : (s.ctx h).size % (s.epConst e).mps = 0) :
    wcompleteBody e 0#8 draw s =
      if draw then ret { s.updEp e fun y => { y with zlp := true } with
        events := s.events ++ [.usbWrite (s.epConst e).addr h 0] } .ok
      else ret { writeDone e h s with
        events := s.events ++ [.usbWrite (s.epConst e).addr h 0, .diag .usbWriteSubmitFail h] } .ok := by
  have hdue : (!(s.ep e).zlp && isSuccess 0#8 && decide ((s.ctx h).size % (s.epConst e).mps = 0)) = true := by
    simp [hzlp, hsize, isSuccess]
  simp only [wcompleteBody, hbusy, hcur, State.heldCtx_ok hh, bind_ok, hdue, State.emit_diag]
  rfl

theorem wcompleteBody_done (hzlp : ¬((s.ep e).zlp = false ∧ (s.ctx h).size % (s.epConst e).mps = 0)) :
    wcompleteBody e 0#8 draw s = ret (writeDone e h s) .ok := by
  have hdue : (!(s.ep e).zlp && isSuccess 0#8 && decide ((s.ctx h).size % (s.epConst e).mps = 0)) = false := by
    simpa [isSuccess] using hzlp
  simp only [wcompleteBody, hbusy, hcur, State.heldCtx_ok hh, bind_ok, hdue]
  rfl

theorem wcompleteBody_error (hstatus : status ≠ 0#8) :
    wcompleteBody e status draw s = ret (writeDone e h (s.diag .usbXferError status.toNat)) .ok := by
  simp [wcompleteBody, hbusy, hcur, State.heldCtx_ok hh, isSuccess, hstatus]

end

/-! ### `UBT.REFILL_FROMHOST` (R196) -/

theorem refillFromhostBody_nop (hbusy : (s.ep e).inProgress = true) : refillFromhostBody e draw s = ret s .nop := by
  rw [refillFromhostBody, if_pos hbusy]

theorem refillFromhostBody_oom (hidle : (s.ep e).inProgress = false) (hfull : s.poolFull) :
    refillFromhostBody e draw s = ret (s.diag .poolOom s.cfg.ctxSize) .oom := by
  rw [refillFromhostBody, if_neg (by simp [hidle]), State.alloc_none (.inr (poolFull_first hfull))]

/-- R46, R114: the bookkeeping of a free context is clear already. -/
theorem TransportOk.allocated_eq (inv : TransportOk s) (hh : h < s.ctxs.length) (hfree : (s.ctx h).state = .free) (st : CtxState) :
    (s.ctx h).allocated st = { s.ctx h with state := st } := by
  obtain ⟨-, -, -, -, hclear⟩ := inv.ctx hh
  obtain ⟨hsize, htot, hidx, howner⟩ := hclear hfree
  simp only [Ctx.allocated, hsize, htot, hidx, howner]

theorem refillFromhostBody_submits (inv : TransportOk s) (hidle : (s.ep e).inProgress = false) (hfree : s.leastFree h) :
    refillFromhostBody e true s = ret { (s.updCtx h fun y => { y with state := .usbRxBusy, owner := some e }).updEp e fun y =>
        { y with inProgress := true, cur := some h } with
      events := s.events ++ [.usbRead (s.epConst e).addr h s.cfg.ctxSize] } .ok (val16 h) := by
  have ⟨hlt, hstate, _⟩ := hfree
  have hctx : (s.updCtx h (·.allocated .usbRxBusy)).updCtx h (fun y => { y with owner := some e }) =
      s.updCtx h fun y => { y with state := .usbRxBusy, owner := some e } := by
    rw [State.updCtx_updCtx]
    exact State.updCtx_congr (by rw [Function.comp_apply, inv.allocated_eq hlt hstate])
  rw [refillFromhostBody, if_neg (by simp [hidle]), State.alloc_some (Nat.le_refl _) (leastFree_first hfree)]
  simp only [hctx]
  rfl

/-- R196: a refused submission releases the context again. -/
theorem refillFromhostBody_refused (inv : TransportOk s) (he : e < s.eps.length) (hidle : (s.ep e).inProgress = false)
    (hfree : s.leastFree h) : refillFromhostBody e false s = ret { s with
      events := s.events ++ [.usbRead (s.epConst e).addr h s.cfg.ctxSize, .diag .usbReadSubmitFail e] } .fail := by
  have ⟨hlt, hstate, _⟩ := hfree
  have hctx : ((s.updCtx h (·.allocated .usbRxBusy)).updCtx h fun y => { y with owner := some e }).release h = s := by
    rw [State.release_eq, State.updCtx_updCtx, State.updCtx_updCtx]
    refine State.updCtx_eq_self ((inv.allocated_eq hlt hstate .free).trans ?_)
    rw [← hstate]
  have hep : (s.updEp e fun y => { y with inProgress := true, cur := some h }).updEp e (fun y =>
      { y with inProgress := false, cur := none }) = s := by
    rw [State.updEp_updEp]
    exact State.updEp_eq_self (by rw [Function.comp_apply, inv.ep_idle he hidle])
  rw [refillFromhostBody, if_neg (by simp [hidle]), State.alloc_some (Nat.le_refl _) (leastFree_first hfree)]
  simp only [State.release_emit, State.release_updEp, hctx, State.updEp_emit, hep, State.emit_diag]
  rfl

/-! ### `UBT.RCOMPLETE` (R197) -/

section
variable (hbusy : (s.ep e).inProgress = true) (hcur : (s.ep e).cur = some h) (hh : h < s.ctxs.length)
include hbusy hcur hh

theorem rcompleteBody_stores (hfits : data.length ≤ s.cfg.ctxSize) :
    rcompleteBody e 0#8 data s = ret ((s.updCtx h fun y => { y with
        buf := y.buf.storeList 0 data, size := data.length, totLen := data.length, idx := 0, state := .usbRxPending }).updEp e fun y =>
      { y with queue := y.queue ++ [h], inProgress := false, cur := none }) .ok := by
  have hwrite := memWrite_ok s (sp := .ctx h) (a := 0) (bs := data) (by rw [spaceSize_ctx hh]; omega)
  have hctx : (s.setMem (.ctx h) ((s.mem (.ctx h)).storeList 0 data)).updCtx h (fun y =>
      { y with size := data.length, totLen := data.length, idx := 0, state := .usbRxPending }) =
      s.updCtx h fun y => { y with
        buf := y.buf.storeList 0 data, size := data.length, totLen := data.length, idx := 0, state := .usbRxPending } :=
    (State.updCtx_updCtx ..).trans (State.updCtx_congr rfl)
  simp only [rcompleteBody, hbusy, hcur, State.heldCtx_ok hh, hwrite, bind_ok, hctx, readDone, State.updEp_updEp]
  rfl

theorem rcompleteBody_error (hstatus : status ≠ 0#8) :
    rcompleteBody e status data s = ret (readDone e ((s.diag .usbXferError status.toNat).release h)) .ok := by
  simp [rcompleteBody, hbusy, hcur, State.heldCtx_ok hh, isSuccess, hstatus]

end

end Sys2Proof.Machine
end

section
/-! SUPPORT. A held `UBT.DRAIN` and its end (R200), and the request that steps inside an operation in progress (R243). -/

namespace Sys2Proof.Machine

variable {s : State} {e : Nat}

/-- R73: a request presented whole at the port is taken whole and run. -/
theorem takeRequest_of_encode {i : Instr} {rest : List PortWord} (hi : i.encodable = true) (hport : s.port = encode i ++ rest) :
    takeRequest s = exec i { s with port := rest } :=
  takeRequest_of_decode (hport ▸ splitRequest_encode hi rest) (decode_encode hi)

/-- R76: a body without an event of its own answers no diagnostic. -/
theorem finish_ret_quiet {t : State} {rc : RC} {v : Half} (hevs : t.events = s.events) :
    finish s (ret t rc v) = .next (t.answer rc 0#8 v) := by
  rw [finish_ret, newEvents_of_append (hevs.trans (List.append_nil _).symm), lastDiag_nil]

theorem exec_ubtDrain_ready {e : Byte} (hready : Ready (.ubtDrain e) s) : exec (.ubtDrain e) s =
    if (s.ep e.toNat).inProgress then .next { s with mainOp := some (.drain e.toNat) } else drainEnd e.toNat s := by
  obtain ⟨-, -, hw, hh⟩ := hready
  rw [exec_ubtDrain, gate_pass hw hh]

theorem drainEnd_halted (hh : s.halted = true) : drainEnd e s = .next ({ s with mainOp := none } : State).answerHalted := if_pos hh

theorem drainEnd_running (hh : s.halted = false) :
    drainEnd e s = finish { s with mainOp := none } (drainBody e { s with mainOp := none }) := if_neg (by simp [hh])

/-- R200: what the end of a drain does where every queued context is in the pool. -/
theorem drainBody_eq (hheld : ∀ h ∈ (s.ep e).queue, h < s.ctxs.length) : drainBody e s = ret { s with
    ctxs := s.ctxs.mapIdx fun h x => if h ∈ (s.ep e).queue then x.released else x
    eps := s.eps.modify e fun y => { y with queue := [] } } .ok (val16 (s.ep e).queue.length) := by
  rw [drainBody, if_pos (by simpa using hheld), releaseAll_rest, releaseAll_ctxs]
  rfl

/-- R200: the step of a held drain goes on holding it while the transfer is in flight, but for a request that may step. -/
theorem step_drain_held (hm : s.mainOp = some (.drain e)) (hh : s.halted = false) (hbusy : (s.ep e).inProgress = true) :
    step s = if s.irqPresented then takeRequest s else .next s := by
  rw [step_drain hm, if_neg (by simp [hh, hbusy])]

theorem step_drain_over (hm : s.mainOp = some (.drain e)) (hover : s.halted = true ∨ (s.ep e).inProgress = false) :
    step s = drainEnd e s := by
  rw [step_drain hm, if_pos (by simpa using hover)]

end Sys2Proof.Machine
end

section
/-! SUPPORT. A request that is one part of a `UBT.PROCESS` does the same whatever operation is in progress, whatever choices the
environment has left and whatever was answered before; so the parts may be presented one by one (R199). -/

namespace Sys2Proof.Machine

variable {s t u : State} {m : Option MainOp} {ps : List Bool} {r : Response}

/-! ### A body does not look at its surroundings -/

/-- `s` with another operation in progress, other choices of the environment and another last response. -/
def State.inEnv (s : State) (m : Option MainOp) (ps : List Bool) (r : Response) : State := { s with mainOp := m, preempt := ps, resp := r }

/-- The end of a body, its state in the given surroundings. -/
def bodyInEnv (m : Option MainOp) (ps : List Bool) (r : Response) (x : Body) : Body := x.map fun a => (a.1.inEnv m ps r, a.2)

/-- In every surroundings the body does the same. -/
abbrev Blind (body : State → Body) : Prop := ∀ s m ps r, body (s.inEnv m ps r) = bodyInEnv m ps r (body s)

theorem bodyInEnv_ret (rc : RC) (v : Half) : bodyInEnv m ps r (ret s rc v) = ret (s.inEnv m ps r) rc v := rfl

theorem bodyInEnv_ite {c : Prop} [Decidable c] (x y : Body) :
    bodyInEnv m ps r (if c then x else y) = if c then bodyInEnv m ps r x else bodyInEnv m ps r y := apply_ite ..

theorem bodyInEnv_bind {α : Type} (x : Except Stop α) (f : α → Body) :
    bodyInEnv m ps r (x >>= f) = x >>= fun a => bodyInEnv m ps r (f a) := by
  cases x <;> rfl

theorem bodyInEnv_bindBody (x : Body) {f : State × Reply → Body}
    (hf : ∀ t reply, bodyInEnv m ps r (f (t, reply)) = f (t.inEnv m ps r, reply)) :
    bodyInEnv m ps r (x >>= f) = bodyInEnv m ps r x >>= f := by
  cases x with
  | ok a => exact hf a.1 a.2
  | error => rfl

theorem cemHostmsg_blind (c : Nat) (flags : Byte) (data : List Byte) : Blind (cemHostmsg c flags data) := by
  intro s m ps r
  have hwrite : memWrite (s.inEnv m ps r) (.txbuf c) 0 data = (memWrite s (.txbuf c) 0 data).map (·.inEnv m ps r) := by
    rw [memWrite, memWrite, apply_ite (Except.map fun u : State => u.inEnv m ps r)]
    rfl
  simp only [cemHostmsg, bodyInEnv_ite, bodyInEnv_ret, hwrite]
  cases memWrite s (.txbuf c) 0 data <;> rfl

theorem msgCheck_blind (c h : Nat) : Blind (msgCheck c h) := by
  intro s m ps r
  simp only [msgCheck, msgBody, bodyInEnv_bind, bodyInEnv_ite, bodyInEnv_ret, ← cemHostmsg_blind]
  rfl

theorem ubtDispatchBody_blind (e : Nat) : Blind (ubtDispatchBody e) := by
  intro s m ps r
  have hep : (s.inEnv m ps r).ep e = s.ep e := rfl
  have hout : (s.inEnv m ps r).outIf e = s.outIf e := rfl
  simp only [ubtDispatchBody, hep, hout]
  cases (s.ep e).queue with
  | nil => rfl
  | cons h rest =>
    rw [bodyInEnv_bind]
    refine congrArg (_ >>= ·) (funext fun _ => ?_)
    cases s.outIf e with
    | none => rfl
    | some f =>
      have hmsg := msgCheck_blind f.chan h (s.updEp e fun x => { x with queue := rest }) m ps r
      have hrest : ∀ (t : State) (reply : Reply), bodyInEnv m ps r (ret (t.release h) reply.rc (val16 h)) =
          ret ((t.inEnv m ps r).release h) reply.rc (val16 h) := fun _ _ => rfl
      dsimp only
      rw [bodyInEnv_bindBody _ hrest, ← hmsg]
      rfl

theorem refillTohostBody_blind (e : Nat) (draw : Bool) : Blind (refillTohostBody e draw) := by
  intro s m ps r
  have hep : (s.inEnv m ps r).ep e = s.ep e := rfl
  simp only [refillTohostBody, hep, bodyInEnv_ite]
  cases (s.ep e).queue with
  | nil => rfl
  | cons h rest =>
    simp only [bodyInEnv_bind, bodyInEnv_ite, bodyInEnv_ret]
    rfl

theorem refillFromhostBody_blind (e : Nat) (draw : Bool) : Blind (refillFromhostBody e draw) := by
  intro s m ps r
  have hep : (s.inEnv m ps r).ep e = s.ep e := rfl
  have halloc : (s.inEnv m ps r).alloc s.cfg.ctxSize .usbRxBusy =
      ((s.alloc s.cfg.ctxSize .usbRxBusy).1.inEnv m ps r, (s.alloc s.cfg.ctxSize .usbRxBusy).2) := by
    obtain ⟨hfail, hs⟩ | ⟨hsize, h, hfree, hs⟩ := s.alloc_cases s.cfg.ctxSize .usbRxBusy
    · rw [hs]
      exact State.alloc_none (s := s.inEnv m ps r) hfail _
    · rw [hs]
      exact State.alloc_some (s := s.inEnv m ps r) hsize hfree _
  simp only [refillFromhostBody, hep, bodyInEnv_ite]
  refine congrArg (ite _ _) ?_
  have hcfg : (s.inEnv m ps r).cfg = s.cfg := rfl
  rw [hcfg, halloc]
  obtain ⟨u, o⟩ := s.alloc s.cfg.ctxSize .usbRxBusy
  cases o with
  | none => rfl
  | some h =>
    simp only [bodyInEnv_ite, bodyInEnv_ret]
    rfl

/-! ### Requests presented one by one -/

/-- R76: the last of the codes that is not 0, over an earlier one. -/
theorem lastAux_cons (a : Byte) (codes : List Byte) : lastAux (a :: codes) = (codes.filter fun b => decide (b ≠ 0#8)).getLastD a := by
  by_cases ha : a = 0#8
  · rw [lastAux, List.filter_cons_of_neg (by simp [ha]), ha]
  · rw [lastAux, List.filter_cons_of_pos (by simp [ha]), List.getLastD_cons]

theorem getLastD_append {α : Type} (xs ys : List α) : ∀ a, (xs ++ ys).getLastD a = ys.getLastD (xs.getLastD a) := by
  induction xs with
  | nil => exact fun _ => rfl
  | cons x xs ih =>
    intro a
    rw [List.cons_append, List.getLastD_cons, List.getLastD_cons, ih]

theorem lastAux_append (a : Byte) (xs ys : List Byte) : lastAux (a :: (xs ++ ys)) = lastAux (lastAux (a :: xs) :: ys) := by
  simp only [lastAux_cons, List.filter_append, getLastD_append]

theorem partAux_eq_lastAux (a : Byte) (s t : State) : partAux a s t = lastAux [a, lastDiag (newEvents s t)] := by
  rw [lastAux_cons]
  by_cases hnone : lastDiag (newEvents s t) = 0#8 <;> simp [partAux, hnone]

theorem runAll_append {is js : List Instr} {qs : List Response} (hjs : runAll js t = some (qs, u)) :
    ∀ {rs : List Response} {s : State}, runAll is s = some (rs, t) → runAll (is ++ js) s = some (rs ++ qs, u) := by
  induction is with
  | nil =>
    intro rs s his
    obtain ⟨rfl, rfl⟩ := Prod.mk.inj (Option.some.inj his)
    exact hjs
  | cons i is ih =>
    intro rs s his
    cases hi : exec i s with
    | next v =>
      rw [runAll_cons_next hi] at his
      obtain ⟨⟨rest, t'⟩, hrest, heq⟩ := Option.map_eq_some_iff.mp his
      obtain ⟨rfl, rfl⟩ := Prod.mk.inj heq
      exact runAll_cons hi (ih hrest)
    | fault => simp [runAll, hi] at his
    | refused => simp [runAll, hi] at his

/-- Presented one by one in whatever surroundings, the requests lead from `s` to `t`; none answers EMPTY, and `b` is the last diagnostic
they answer after an earlier `a`. -/
def Presents (is : List Instr) (s t : State) (a b : Byte) : Prop :=
  ∀ m ps r, ∃ rs r', runAll is (s.inEnv m ps r) = some (rs, t.inEnv m ps r') ∧ (∀ x ∈ rs, x.rc ≠ .empty) ∧
    b = lastAux (a :: rs.map Response.aux)

theorem Presents.nil (s : State) (a : Byte) : Presents [] s s a (partAux a s s) := by
  refine fun m ps r => ⟨[], r, rfl, List.forall_mem_nil _, ?_⟩
  rw [partAux_eq_lastAux, newEvents_self, lastDiag_nil, List.map_nil, lastAux_cons, lastAux_cons]
  rfl

/-- A request past its checks. -/
theorem Presents.request {i : Instr} {body : State → Body} {reply : Reply} (hb : bodyOf i = some body) (hready : Ready i s)
    (hblind : Blind body) (hbody : body s = .ok (t, reply)) (hrc : reply.rc ≠ .empty) (a : Byte) :
    Presents [i] s t a (partAux a s t) := by
  intro m ps r
  have hexec : exec i (s.inEnv m ps r) = .next (t.inEnv m ps ⟨reply.rc, lastDiag (newEvents s t), reply.val⟩) := by
    have hready' : Ready i (s.inEnv m ps r) := hready
    rw [exec_of_ready hb hready', hblind, hbody]
    rfl
  exact ⟨_, _, runAll_cons hexec rfl, fun x hx => List.mem_singleton.mp hx ▸ hrc, partAux_eq_lastAux a s t⟩

/-- A boundary passed uses up a choice of the surroundings alone. -/
theorem Presents.of_passBoundary {is : List Instr} {a b : Byte} (h : Presents is s.passBoundary t a b) : Presents is s t a b := h

theorem Presents.append {is js : List Instr} {a b c : Byte} (his : Presents is s t a b) (hjs : Presents js t u b c) :
    Presents (is ++ js) s u a c := by
  intro m ps r
  obtain ⟨rs, r', hrun, hrs, rfl⟩ := his m ps r
  obtain ⟨qs, r'', hrun', hqs, rfl⟩ := hjs m ps r'
  refine ⟨rs ++ qs, r'', runAll_append hrun' hrun, fun x hx => (List.mem_append.mp hx).elim (hrs x) (hqs x), ?_⟩
  rw [List.map_append, lastAux_append]

end Sys2Proof.Machine
end

section
/-! SUPPORT. `UBT.PROCESS` part by part (R199): what one part presents, counts and leaves to come, and from it what a run of parts does up
to its end or to the first boundary at which an interrupt-context request steps. -/

namespace Sys2Proof.Machine

variable {f : IfConst} {p q : Proc} {s t u v : State} {e n : Nat} {ends : Bool}

/-! ### One part -/

/-- The operation has a part left to run at progress `p`, from a state in order. -/
structure PartReady (f : IfConst) (p : Proc) (s : State) : Prop where
  pool : PoolOk s
  running : s.halted = false
  iface : s.cfg.ifs[p.k]? = some f
  left : p.unfinished f s

/-- R1: what the interface of the operation names. -/
theorem PartReady.names (hr : PartReady f p s) : s.cfg.namesEp .toHost f.irq = true ∧ s.cfg.namesEp .toHost f.inn = true ∧
    s.cfg.namesEp .fromHost f.out = true := by
  obtain ⟨hirq, hinn, hout, -⟩ := hr.pool.facts.ifs f (List.mem_of_getElem? hr.iface)
  exact ⟨hirq, hinn, hout⟩

theorem PartReady.iface_eq {g : IfConst} (hr : PartReady f p s) (hg : s.cfg.ifs[p.k]? = some g) : g = f :=
  Option.some.inj (hg.symm.trans hr.iface)

/-- R1, R75: a request can select the endpoint that an interface names. -/
theorem PoolOk.selector (inv : PoolOk s) {d : EpDir} {o : Option Nat} (hn : s.cfg.namesEp d o = true) (ho : o = some e) :
    (BitVec.ofNat 8 e).toNat = e ∧ s.cfg.epIs (BitVec.ofNat 8 e) d = true := by
  have hlt := (inv.namedEp hn ho).1
  have hcount := inv.facts.eps.2
  have hlen := inv.shape.2.2
  have hto : (BitVec.ofNat 8 e).toNat = e := by
    rw [BitVec.toNat_ofNat]
    omega
  refine ⟨hto, ?_⟩
  subst ho
  rw [← hto] at hn
  exact hn

theorem refillTohostBody_ne_empty {draw : Bool} {r : Reply} (h : refillTohostBody e draw s = .ok (t, r)) : r.rc ≠ .empty := by
  unfold refillTohostBody at h
  split at h
  · obtain ⟨-, rfl⟩ := ret_eq_ok.mp h
    nofun
  · split at h
    · obtain ⟨-, rfl⟩ := ret_eq_ok.mp h
      nofun
    · obtain ⟨_, _, h⟩ := bind_eq_ok.mp h
      dsimp only at h
      split at h <;> obtain ⟨-, rfl⟩ := ret_eq_ok.mp h <;> nofun

theorem refillFromhostBody_ne_empty {draw : Bool} {r : Reply} (h : refillFromhostBody e draw s = .ok (t, r)) : r.rc ≠ .empty := by
  unfold refillFromhostBody at h
  split at h
  · obtain ⟨-, rfl⟩ := ret_eq_ok.mp h
    nofun
  · split at h
    · obtain ⟨-, rfl⟩ := ret_eq_ok.mp h
      nofun
    · dsimp only at h
      split at h <;> obtain ⟨-, rfl⟩ := ret_eq_ok.mp h <;> nofun

/-- R220: a dispatch that answers EMPTY found nothing queued and did nothing. -/
theorem ubtDispatchBody_empty {r : Reply} (h : ubtDispatchBody e s = .ok (t, r)) (hrc : r.rc = .empty) :
    (s.ep e).queue = [] ∧ t = s := by
  cases ubtDispatchBody_cases h with
  | empty hq => exact ⟨hq, rfl⟩
  | drop => exact nomatch hrc
  | acc => exact nomatch hrc

/-- R199: from the first dispatch on the parts are dispatches. -/
theorem partRequests_dispatches (hpart : 3 ≤ p.part) :
    partRequests f p q = List.replicate (q.n - p.n) (.ubtDispatch (BitVec.ofNat 8 (f.out.getD 0))) := by
  have hnone : ((refillParts f p.drawIrq p.drawIn p.drawOut).take q.part).drop p.part = [] :=
    List.drop_eq_nil_of_le ((List.length_take_le' ..).trans hpart)
  rw [partRequests, hnone]
  rfl

/-- R199: what one part does is what its request, presented alone, does; a part without an endpoint, or one that finds the OUT queue empty,
stands for no request. -/
theorem PartCase.presents (hr : PartReady f p s) (h : PartCase p s u n ends) :
    Presents (partRequests f p (p.next s u n)) s u p.aux (p.next s u n).aux := by
  obtain ⟨hirqs, hinns, houts⟩ := hr.names
  have hrequest : ∀ {i : Instr} {body : State → Body} {r : Reply}, partRequests f p (p.next s u n) = [i] → bodyOf i = some body →
      i.wellFormed s.cfg = true → Blind body → body s = .ok (u, r) → r.rc ≠ .empty →
      Presents (partRequests f p (p.next s u n)) s u p.aux (p.next s u n).aux := fun hreq hb hw hblind hbody hrc =>
    hreq ▸ .request hb ⟨hr.pool.config, hr.pool.shape, hw, hr.running⟩ hblind hbody hrc p.aux
  cases h with
  | noif hnone => exact absurd (hnone.symm.trans hr.iface) nofun
  | skip b g hg hcase =>
    obtain rfl := hr.iface_eq hg
    have hnone : partRequests g p (p.next s s p.n) = [] := by
      obtain ⟨hpart, hskip, -⟩ | ⟨hpart, hskip, -⟩ | ⟨hskip, hpart, -⟩ := hcase
      · simp [partRequests, refillParts, Proc.next, hpart, hskip]
      · simp [partRequests, refillParts, Proc.next, hpart, hskip]
      · obtain hpart | hpart : p.part = 2 ∨ 3 ≤ p.part := by omega
        · simp [partRequests, refillParts, Proc.next, hpart, hskip]
        · simp [partRequests_dispatches hpart, Proc.next]
    rw [hnone]
    exact .nil s p.aux
  | irq g e _ r hg hpart hirq hbody =>
    obtain rfl := hr.iface_eq hg
    obtain ⟨hto, hsel⟩ := hr.pool.selector hirqs hirq
    refine hrequest (i := .ubtRefillTohost (BitVec.ofNat 8 e) p.drawIrq) ?_ (by rw [bodyOf, hto]) hsel (refillTohostBody_blind e _) hbody
      (refillTohostBody_ne_empty hbody)
    simp [partRequests, refillParts, Proc.next, hpart, hirq]
  | inn g e _ r hg hpart hinn hbody =>
    obtain rfl := hr.iface_eq hg
    obtain ⟨hto, hsel⟩ := hr.pool.selector hinns hinn
    refine hrequest (i := .ubtRefillTohost (BitVec.ofNat 8 e) p.drawIn) ?_ (by rw [bodyOf, hto]) hsel (refillTohostBody_blind e _) hbody
      (refillTohostBody_ne_empty hbody)
    simp [partRequests, refillParts, Proc.next, hpart, hinn]
  | out g e _ r hg hpart hout hbody =>
    obtain rfl := hr.iface_eq hg
    obtain ⟨hto, hsel⟩ := hr.pool.selector houts hout
    refine hrequest (i := .ubtRefillFromhost (BitVec.ofNat 8 e) p.drawOut) ?_ (by rw [bodyOf, hto]) hsel
      (refillFromhostBody_blind e _) hbody (refillFromhostBody_ne_empty hbody)
    simp [partRequests, refillParts, Proc.next, hpart, hout]
  | disp g e _ r hg hpart hout hbody hrc =>
    obtain rfl := hr.iface_eq hg
    obtain ⟨hto, hsel⟩ := hr.pool.selector houts hout
    refine hrequest (i := .ubtDispatch (BitVec.ofNat 8 e)) ?_ (by rw [bodyOf, hto]) hsel (ubtDispatchBody_blind e) hbody hrc
    simp [partRequests_dispatches hpart, Proc.next, hout]
  | dispEmpty g e _ r hg hpart hout hbody hrc =>
    obtain rfl := hr.iface_eq hg
    obtain ⟨-, rfl⟩ := ubtDispatchBody_empty hbody hrc
    have hnone : partRequests g p (p.next u u p.n) = [] := by simp [partRequests_dispatches hpart, Proc.next]
    rw [hnone]
    exact .nil u p.aux

/-- R199: a part that counts takes one context from the OUT queue, and no other part changes how many wait there. -/
theorem PartCase.queue (hr : PartReady f p s) (h : PartCase p s u n ends) (hout : f.out = some e) :
    (u.ep e).queue.length + n = (s.ep e).queue.length + p.n := by
  obtain ⟨hirqs, hinns, houts⟩ := hr.names
  obtain ⟨he, hd⟩ := hr.pool.namedEp houts hout
  have htohost : ∀ {d o draw r}, s.cfg.namesEp .toHost o = true → o = some d → refillTohostBody d draw s = .ok (u, r) →
      u.ep e = s.ep e := by
    intro d o draw r hn ho hbody
    have hne : d ≠ e := by
      rintro rfl
      exact absurd ((hr.pool.namedEp hn ho).2.symm.trans hd) nofun
    cases refillTohostBody_cases hbody with
    | nop => rfl
    | sub => exact State.ep_updEp_ne s hne _
    | fail => exact State.ep_updEp_ne s hne _
  have hfromhost : ∀ {draw r}, refillFromhostBody e draw s = .ok (u, r) → (u.ep e).queue = (s.ep e).queue := by
    intro draw r hbody
    cases refillFromhostBody_cases hbody with
    | nop => rfl
    | oom => rfl
    | sub k => exact (congrArg Ep.queue (State.ep_updEp_same s he fun y => { y with inProgress := true, cur := some k }) :)
    | fail => exact (congrArg Ep.queue (State.ep_updEp_same s he fun y => { y with inProgress := false, cur := none }) :)
  have hdispatch : ∀ {r}, ubtDispatchBody e s = .ok (u, r) → r.rc ≠ .empty →
      (u.ep e).queue.length + 1 = (s.ep e).queue.length := by
    intro r hbody hrc
    cases ubtDispatchBody_cases hbody with
    | empty => exact absurd rfl hrc
    | drop h rest _ _ hq =>
      rw [hq]
      exact congrArg (·.queue.length + 1) (State.ep_updEp_same s he fun y => { y with queue := rest })
    | acc h rest _ _ _ _ hq =>
      rw [hq]
      exact congrArg (·.queue.length + 1) (State.ep_updEp_same s he fun y => { y with queue := rest })
  cases h with
  | noif => rfl
  | skip => rfl
  | irq g d _ r hg _ hirq hbody =>
    obtain rfl := hr.iface_eq hg
    rw [htohost hirqs hirq hbody]
  | inn g d _ r hg _ hinn hbody =>
    obtain rfl := hr.iface_eq hg
    rw [htohost hinns hinn hbody]
  | out g d _ r hg _ hd' hbody =>
    obtain rfl := hr.iface_eq hg
    obtain rfl := Option.some.inj (hout.symm.trans hd')
    rw [hfromhost hbody]
  | disp g d _ r hg _ hd' hbody hrc =>
    obtain rfl := hr.iface_eq hg
    obtain rfl := Option.some.inj (hout.symm.trans hd')
    have := hdispatch hbody hrc
    omega
  | dispEmpty g d _ r hg _ hd' hbody hrc =>
    obtain ⟨-, rfl⟩ := ubtDispatchBody_empty hbody hrc
    rfl

/-- R199: after the last part no part is left. -/
theorem PartCase.finished (hr : PartReady f p s) (h : PartCase p s u n true) : (p.next s u n).finished f u := by
  obtain ⟨hn, hleft⟩ := hr.left
  have hcfg := (frame_processPart h).cfg
  generalize hends : true = ends at h
  cases h with
  | noif hnone => exact absurd (hnone.symm.trans hr.iface) nofun
  | skip b g hg hcase =>
    obtain rfl := hr.iface_eq hg
    subst hends
    obtain ⟨-, -, hends⟩ | ⟨-, -, hends⟩ | ⟨hskip, hpart, -⟩ := hcase
    · exact nomatch hends
    · exact nomatch hends
    · simp only [Proc.finished, Proc.next, hskip] at hleft ⊢
      simp at hleft ⊢
      omega
  | irq => exact nomatch hends
  | inn => exact nomatch hends
  | out g d _ r hg hpart hout hbody =>
    obtain rfl := hr.iface_eq hg
    have hzero : s.cfg.dispatchMax = 0 := of_decide_eq_true hends.symm
    simp [Proc.finished, Proc.next, hout, hcfg, hzero, hpart]
    omega
  | disp g d _ r hg hpart hout hbody hrc =>
    obtain rfl := hr.iface_eq hg
    have hbound : s.cfg.dispatchMax ≤ p.n + 1 := of_decide_eq_true hends.symm
    have hless := (hleft.resolve_left (Nat.not_lt.mpr hpart)).2
    have hlast : s.cfg.dispatchMax = p.n + 1 := Nat.le_antisymm hbound hless
    simp [Proc.finished, Proc.next, hout, hcfg, hlast]
    omega
  | dispEmpty g d _ r hg hpart hout hbody hrc =>
    obtain rfl := hr.iface_eq hg
    obtain ⟨hq, rfl⟩ := ubtDispatchBody_empty hbody hrc
    have hless := (hleft.resolve_left (Nat.not_lt.mpr hpart)).2
    simp [Proc.finished, Proc.next, hout, hq, hless, Nat.le_of_lt hless]
    omega

/-- R199: after any other part one is left, whatever choice of the environment was used up. -/
theorem PartCase.ready (hr : PartReady f p s) (h : PartCase p s u n false) : PartReady f (p.next s u n) u.passBoundary := by
  have hframe := frame_processPart h
  have hiface : u.cfg.ifs[p.k]? = some f := hframe.cfg ▸ hr.iface
  obtain ⟨hcount, hleft⟩ := partCase_record hr.left.1 h
  simp only [hiface, Option.any_some, Bool.or_eq_true, Bool.and_eq_true, decide_eq_true_eq] at hleft
  have hpool := poolOk_keptByStep.passBoundary (poolOk_keptByStep.part _ _ _ _ _ hr.pool h)
  exact ⟨hpool, hframe.halted.trans hr.running, hiface, hcount, hleft⟩

/-! ### Parts in a row -/

theorem State.preempted_congr (hport : t.port = s.port) (hchoice : t.preempt.head? = s.preempt.head?) : t.preempted = s.preempted := by
  simp only [State.preempted, State.irqPresented, hport, hchoice]

/-- R199, R243: the parts from progress `p` up to progress `q` lead from `s` to `u`; they are presented one by one, each counted dispatch
takes a context, and no interrupt-context request steps at a boundary between them, which uses up one choice each. -/
structure PartsRun (f : IfConst) (p : Proc) (s : State) (q : Proc) (u : State) : Prop where
  operands : q.k = p.k ∧ q.drawIrq = p.drawIrq ∧ q.drawIn = p.drawIn ∧ q.drawOut = p.drawOut
  part : p.part < q.part
  count : p.n ≤ q.n
  quiet : ∀ j, p.part + j + 1 < q.part → ({ s with preempt := s.preempt.drop j } : State).preempted = false
  presents : Presents (partRequests f p q) s u p.aux q.aux
  queue : ∀ e, f.out = some e → (u.ep e).queue.length + q.n = (s.ep e).queue.length + p.n
  cfg : u.cfg = s.cfg
  resp : u.resp = s.resp
  port : u.port = s.port
  preempt : u.preempt = s.preempt.drop (q.part - p.part - 1)

theorem PartCase.count_le (h : PartCase p s u n ends) : p.n ≤ n ∧ (n = p.n ∨ 3 ≤ p.part) := by
  cases h <;> simp_all

theorem PartCase.run (hr : PartReady f p s) (h : PartCase p s u n ends) : PartsRun f p s (p.next s u n) u := by
  have hframe := frame_processPart h
  refine ⟨⟨rfl, rfl, rfl, rfl⟩, Nat.lt_succ_self _, h.count_le.1, fun j hj => ?_, h.presents hr, fun _ => h.queue hr, hframe.cfg,
    hframe.resp, hframe.port, ?_⟩
  · exact absurd hj (by simp [Proc.next])
  · simp [Proc.next, hframe.preempt]

theorem drop_take_next {α : Type} {a b : Nat} (hab : a < b) (l : List α) :
    (l.take b).drop a = (l.take (a + 1)).drop a ++ (l.take b).drop (a + 1) := by
  rw [← List.take_append_drop 1 ((l.take b).drop a), List.take_drop, List.take_take, List.drop_drop, Nat.min_eq_left hab]

/-- R199: the requests of the parts up to `q` are those of the next part and then those of the parts after it. -/
theorem partRequests_next (hcount : n = p.n ∨ 3 ≤ p.part) (hn : p.n ≤ n) (hpart : p.part < q.part) (hq : n ≤ q.n) :
    partRequests f p q = partRequests f p (p.next s u n) ++ partRequests f (p.next s u n) q := by
  obtain rfl | hdispatch := hcount
  · simp only [partRequests, Proc.next, drop_take_next hpart, List.flatten_append, Nat.sub_self, List.replicate_zero, List.append_nil,
      List.append_assoc]
  · rw [partRequests_dispatches hdispatch, partRequests_dispatches hdispatch,
      partRequests_dispatches (Nat.le_succ_of_le hdispatch), List.replicate_append_replicate]
    congr 1
    simp only [Proc.next]
    omega

/-- A part, and after a boundary at which no request steps the parts that follow it. -/
theorem PartsRun.cons (hr : PartReady f p s) (h : PartCase p s u n false) (hquiet : u.preempted = false)
    (hrest : PartsRun f (p.next s u n) u.passBoundary q v) : PartsRun f p s q v := by
  have hframe := frame_processPart h
  have hfirst := h.run hr
  obtain ⟨hn, hcount⟩ := h.count_le
  have hpart : p.part + 1 < q.part := hrest.part
  refine
    { operands := hrest.operands, part := Nat.lt_of_succ_lt hpart, count := hn.trans hrest.count, quiet := fun j hj => ?_
      presents := ?_, queue := fun e he => (hrest.queue e he).trans (hfirst.queue e he), cfg := hrest.cfg.trans hframe.cfg
      resp := hrest.resp.trans hframe.resp, port := hrest.port.trans hframe.port, preempt := ?_ }
  · cases j with
    | zero => exact (State.preempted_congr hframe.port.symm (congrArg List.head? hframe.preempt.symm)).trans hquiet
    | succ j =>
      have hlater := hrest.quiet j (by simp only [Proc.next]; omega)
      rw [← hlater]
      refine State.preempted_congr hframe.port.symm ?_
      simp [State.passBoundary, hframe.preempt]
  · rw [partRequests_next hcount hn (Nat.lt_of_succ_lt hpart) hrest.count]
    exact hfirst.presents.append hrest.presents.of_passBoundary
  · rw [hrest.preempt]
    simp only [State.passBoundary, hframe.preempt, Proc.next, List.drop_tail]
    congr 1
    omega

/-- R199, R243: a run of parts goes on to the end of the operation or to the first boundary at which an interrupt-context request steps. -/
theorem processRun_partsRun : ∀ (fuel : Nat) {p : Proc} {s t : State}, PartReady f p s → s.cfg.dispatchMax + 3 ≤ fuel + p.part →
    processRun fuel p s = .next t → ∃ q u, PartsRun f p s q u ∧
      ((q.finished f u ∧ t = processDone q.aux q.n u) ∨
        (q.unfinished f u ∧ u.preempted = true ∧ t = { u with mainOp := some (.process q) }))
  | 0, p, s, t, hr, hfuel, _ => by
    obtain ⟨hn, hpart | ⟨-, hless⟩⟩ := hr.left <;> omega
  | fuel + 1, p, s, t, hr, hfuel, h => by
    cases processRun_cases h with
    | last u n hu => exact ⟨_, u, hu.run hr, .inl ⟨hu.finished hr, rfl⟩⟩
    | stop u n hu hpre => exact ⟨_, u, hu.run hr, .inr ⟨(hu.ready hr).left, hpre, rfl⟩⟩
    | more u n _ hu hquiet hrest =>
      have hcfg : u.passBoundary.cfg = s.cfg := (frame_processPart hu).cfg
      have hleft : u.passBoundary.cfg.dispatchMax + 3 ≤ fuel + (p.next s u n).part := by
        rw [hcfg]
        simp only [Proc.next]
        omega
      obtain ⟨q, v, hrun, hend⟩ := processRun_partsRun fuel (hu.ready hr) hleft hrest
      exact ⟨q, v, .cons hr hu hquiet hrun, hend⟩

end Sys2Proof.Machine
end

section
/-! SUPPORT. `UBT.PROCESS` as a request and as the step that goes on with the rest of it (R199, R232, R243). -/

namespace Sys2Proof.Machine

variable {f : IfConst} {p : Proc} {s : State} {k : Byte} {d0 d1 d2 : Bool}

theorem exec_ubtProcess_ready (hready : Ready (.ubtProcess k d0 d1 d2) s) :
    exec (.ubtProcess k d0 d1 d2) s = processRun (processFuel s) ⟨k.toNat, d0, d1, d2, 0, 0, 0#8⟩ s := by
  obtain ⟨-, -, hw, hh⟩ := hready
  rw [exec_ubtProcess, gate_pass hw hh]

theorem CoreInv.sound (inv : CoreInv s) : Sound s := by
  obtain ⟨hp, hshape, hchans, htransport, -⟩ := inv
  exact ⟨⟨hp, hshape, chans_forall.mp hchans⟩, ⟨hp, hshape, htransport⟩⟩

/-- R199: a `UBT.PROCESS` that begins has its first part before it. -/
theorem PartReady.start (inv : Sound s) (hready : Ready (.ubtProcess k d0 d1 d2) s) (hf : s.cfg.ifs[k.toNat]? = some f) :
    PartReady f ⟨k.toNat, d0, d1, d2, 0, 0, 0#8⟩ s := by
  obtain ⟨-, -, -, hh⟩ := hready
  exact ⟨inv.pool, hh, hf, rfl, .inl (Nat.succ_pos 2)⟩

/-- R199: what is recorded of a suspended `UBT.PROCESS` has a part left. -/
theorem PartReady.resumed (inv : CoreInv s) (hh : s.halted = false) (hm : s.mainOp = some (.process p))
    (hf : s.cfg.ifs[p.k]? = some f) : PartReady f p s.passBoundary := by
  have hsound := sound_keptByStep.passBoundary inv.sound
  obtain ⟨-, -, -, -, -, hmain⟩ := inv
  simp only [mainOk, hm, hf, Option.any_some, Bool.and_eq_true, Bool.or_eq_true, decide_eq_true_eq] at hmain
  obtain ⟨⟨-, hn⟩, hleft⟩ := hmain
  exact ⟨hsound.pool, hh, hf, hn, hleft⟩

/-- R199: all that a `UBT.PROCESS` with a part left can do. -/
theorem processRun_ready (inv : Sound s) (hr : PartReady f p s) : ∃ q u, PartsRun f p s q u ∧
    ((q.finished f u ∧ processRun (processFuel s) p s = .next (processDone q.aux q.n u)) ∨
      (q.unfinished f u ∧ u.preempted = true ∧ processRun (processFuel s) p s = .next { u with mainOp := some (.process q) })) := by
  obtain ⟨t, ht⟩ := processRun_completes (processFuel s) p s inv
  have hfuel : s.cfg.dispatchMax + 3 ≤ processFuel s + p.part := by
    rw [processFuel]
    omega
  rw [ht]
  obtain ⟨q, u, hrun, ⟨hend, rfl⟩ | ⟨hleft, hpre, rfl⟩⟩ := processRun_partsRun _ hr hfuel ht
  · exact ⟨q, u, hrun, .inl ⟨hend, rfl⟩⟩
  · exact ⟨q, u, hrun, .inr ⟨hleft, hpre, rfl⟩⟩

/-- R199, R243: the parts in the statement's own terms: presented with no operation recorded and the choices of the boundaries between them
used up. -/
theorem processRun_runsParts (inv : Sound s) (hr : PartReady f p s) : RunsParts f p s (processRun (processFuel s) p s) := by
  obtain ⟨q, u, hrun, hend⟩ := processRun_ready inv hr
  obtain ⟨hk, hirq, hin, hout⟩ := hrun.operands
  obtain ⟨rs, r, hall, hrs, haux⟩ := hrun.presents none u.preempt s.resp
  refine ⟨q, rs, u.inEnv none u.preempt r, hk, hirq, hin, hout, hrun.part, hrun.count, hrun.quiet, hrun.preempt ▸ hall, hrs, haux, ?_⟩
  refine hend.imp id fun ⟨hleft, hpre, heq⟩ => ⟨hleft, hpre, ?_⟩
  rw [heq, ← hrun.resp]
  rfl

/-- R199: the first part ends no `UBT.PROCESS`, so a choice of the environment for the first boundary stops it there. -/
theorem processRun_stops (inv : Sound s) (hr : PartReady f p s) (hpart : p.part = 0) (hpre : s.preempted = true) :
    ∃ q u, q.part = 1 ∧ Frame s u ∧ processRun (processFuel s) p s = .next { u with mainOp := some (.process q) } := by
  obtain ⟨t, ht⟩ := processRun_completes (processFuel s) p s inv
  rw [ht]
  cases processRun_cases ht with
  | last u n hu =>
    have hend := (hu.finished hr).1
    simp only [Proc.next, hpart] at hend
    omega
  | stop u n hu _ => exact ⟨p.next s u n, u, by rw [Proc.next, hpart], frame_processPart hu, rfl⟩
  | more u n _ hu hquiet =>
    have hframe := frame_processPart hu
    have hstill : u.preempted = s.preempted := State.preempted_congr hframe.port (congrArg List.head? hframe.preempt)
    exact absurd (hstill.symm.trans hquiet) (by simp [hpre])

/-- R243: the request that steps at a boundary inside a `UBT.PROCESS`. -/
theorem step_process_preempted {i : Instr} {rest : List PortWord} (hm : s.mainOp = some (.process p)) (hpre : s.preempted = true)
    (hi : i.encodable = true) (hport : s.port = encode i ++ rest) :
    step s = exec i { s with preempt := s.preempt.tail, port := rest } := by
  rw [step_process hm, if_pos hpre]
  exact takeRequest_of_encode (s := s.passBoundary) hi hport

theorem step_process_goesOn (hm : s.mainOp = some (.process p)) (hpre : s.preempted = false) :
    step s = processResume p s.passBoundary := by
  rw [step_process hm, if_neg (by simp [hpre])]

theorem processResume_running (hh : s.halted = false) : processResume p s = processRun (processFuel s) p s := if_neg (by simp [hh])

theorem processResume_halted (hh : s.halted = true) :
    processResume p s = .next ({ s with mainOp := none } : State).answerHalted := if_pos hh

end Sys2Proof.Machine
end

section
/-! The statements of the family 45_usb_transport. -/

namespace Sys2Proof.Proofs

open Sys2Proof Sys2Proof.Machine

/-- Settles O51: the two tests of R191 in their order, then the queueing. -/
theorem ubtEnqResult : Obligations.UbtEnqResult := by
  intro e h s hready halts
  have hhalts (k : FatalCode) (hbody : ubtEnqBody e.toNat h.toNat s = .error (.fatal k)) : exec (.ubtEnq e h) s = halts k := by
    rw [exec_of_ready (b := ubtEnqBody e.toNat h.toNat) rfl hready, hbody]
    rfl
  exact ⟨fun hp => hhalts _ (ubtEnqBody_badHandle hp), fun hp hst => hhalts _ (ubtEnqBody_corrupt hp hst),
    fun hp hst => exec_of_ready_quiet rfl hready (ubtEnqBody_queues hp hst) rfl⟩

/-- Settles O52: the cases of R192; the head of a queue is in the pool (R33). -/
theorem ubtRefillTohostResult : Obligations.UbtRefillTohostResult := by
  intro e draw s ⟨_, _, _, htransport, _⟩ hready
  have ⟨_, hshape, hw, _⟩ := hready
  have he : e.toNat < s.eps.length := epIs_lt hshape hw
  refine ⟨fun hnone => exec_of_ready_quiet rfl hready (refillTohostBody_nop hnone) rfl, fun h rest hidle hq => ?_⟩
  intro ev
  refine ⟨?_, ?_⟩
  · rintro rfl
    have hh : h < s.ctxs.length := (htransport.queued he (hq ▸ List.mem_cons_self)).1
    exact exec_of_ready_ret (evs := [ev]) rfl hready (refillTohostBody_submits hidle hq hh) rfl
  · rintro rfl
    exact exec_of_ready_ret (evs := [ev, .diag .usbWriteSubmitFail h]) rfl hready
      (refillTohostBody_refused htransport he hidle hq) rfl

/-- Settles O53: whether R195 asks for the follow-up, then the draw or the status. -/
theorem ubtWcompleteResult : Obligations.UbtWcompleteResult := by
  intro e status draw h s hready hbusy hcur hp zlpDue ev done
  have ⟨_, ⟨_, hlen, _⟩, _⟩ := hready
  have hh : h < s.ctxs.length := hlen.symm ▸ hp
  refine ⟨?_, ?_, ?_, fun hstatus => ?_⟩
  · rintro ⟨hzlp, rfl, hsize⟩ rfl
    exact exec_of_ready_ret (evs := [ev]) rfl hready (wcompleteBody_zlp hbusy hcur hh hzlp hsize) rfl
  · rintro ⟨hzlp, rfl, hsize⟩ rfl
    exact exec_of_ready_ret (evs := [ev, .diag .usbWriteSubmitFail h]) rfl hready
      (wcompleteBody_zlp hbusy hcur hh hzlp hsize) rfl
  · rintro hdue rfl
    exact exec_of_ready_quiet rfl hready (wcompleteBody_done hbusy hcur hh fun hzlp => hdue ⟨hzlp.1, rfl, hzlp.2⟩) rfl
  · exact exec_of_ready_ret (evs := [.diag .usbXferError status.toNat]) rfl hready (wcompleteBody_error hbusy hcur hh hstatus) rfl

/-- Settles O54: the cases of R196; what the allocation clears of a free context is clear already (R114). -/
theorem ubtRefillFromhostResult : Obligations.UbtRefillFromhostResult := by
  intro e draw s ⟨_, _, _, htransport, _⟩ hready
  have ⟨_, hshape, hw, _⟩ := hready
  have he : e.toNat < s.eps.length := epIs_lt hshape hw
  refine ⟨fun hbusy => exec_of_ready_quiet rfl hready (refillFromhostBody_nop hbusy) rfl, fun hidle hfull => ?_,
    fun h hidle hfree => ?_⟩
  · exact exec_of_ready_ret (evs := [.diag .poolOom s.cfg.ctxSize]) rfl hready (refillFromhostBody_oom hidle hfull) rfl
  · intro ev
    refine ⟨?_, ?_⟩
    · rintro rfl
      exact exec_of_ready_ret (evs := [ev]) rfl hready (refillFromhostBody_submits htransport hidle hfree) rfl
    · rintro rfl
      exact exec_of_ready_ret (evs := [ev, .diag .usbReadSubmitFail e.toNat]) rfl hready
        (refillFromhostBody_refused htransport he hidle hfree) rfl

/-- Settles O55: the two ways of R197. -/
theorem ubtRcompleteResult : Obligations.UbtRcompleteResult := by
  intro e status data h s hready hbusy hcur hp
  have ⟨_, ⟨_, hlen, _⟩, hw, _⟩ := hready
  have hh : h < s.ctxs.length := hlen.symm ▸ hp
  have hfits : data.length ≤ s.cfg.ctxSize := by
    simp only [Instr.wellFormed, Bool.and_eq_true, decide_eq_true_eq] at hw
    exact hw.2
  refine ⟨?_, fun hstatus => ?_⟩
  · rintro rfl
    exact exec_of_ready_quiet rfl hready (rcompleteBody_stores hbusy hcur hh hfits) rfl
  · exact exec_of_ready_ret (evs := [.diag .usbXferError status.toNat]) rfl hready (rcompleteBody_error hbusy hcur hh hstatus) rfl

/-- Settles O59: the hold, the steps while it lasts, and its end on a running core and on a halted one. -/
theorem ubtDrainHolds : Obligations.UbtDrainHolds := by
  refine ⟨fun e s hready hbusy => ?_, fun e s hm hh hbusy => ⟨fun hirq => ?_, fun i rest hirq hi hport => ?_⟩,
    fun e s hready hm hidle => ?_, fun e s hm hh => ?_⟩
  · rw [exec_ubtDrain_ready hready, if_pos hbusy]
  · rw [step_drain_held hm hh hbusy, if_neg (by simp [hirq])]
  · rw [step_drain_held hm hh hbusy, if_pos hirq, takeRequest_of_encode hi hport]
  · have hreadyFree : Ready (.ubtDrain e) { s with mainOp := none } := hready
    rw [step_drain_over hm (.inr hidle), exec_ubtDrain_ready hreadyFree]
    exact (if_neg (Bool.eq_false_iff.mp hidle)).symm
  · rw [step_drain_over hm (.inl hh), drainEnd_halted hh]
    rfl

/-- Settles O58: under the invariant every queued context is in the pool, so the drain ends at once. -/
theorem ubtDrainFreesTheQueue : Obligations.UbtDrainFreesTheQueue := by
  intro e s ⟨_, _, _, htransport, _⟩ hready hm hidle
  have ⟨_, hshape, hw, hh⟩ := hready
  have he : e.toNat < s.eps.length := hshape.2.2.symm ▸ of_decide_eq_true hw
  have hrecord : ({ s with mainOp := none } : State) = s := by rw [← hm]
  refine ⟨_, ?_, rfl⟩
  rw [exec_ubtDrain_ready hready, if_neg (by simp [hidle]), drainEnd_running hh, hrecord,
    drainBody_eq fun h hq => (htransport.queued he hq).1]
  exact finish_ret_quiet rfl

/-- Settles O56: with no choice left nothing stops the parts, so they run to the end of the operation; each counted dispatch takes one
context from the OUT queue. -/
theorem ubtProcessRunsItsParts : Obligations.UbtProcessRunsItsParts := by
  intro k d0 d1 d2 f s inv hready hf hm hpreempt
  obtain ⟨q, u, hrun, hend⟩ := processRun_ready inv.sound (.start inv.sound hready hf)
  have hchoices : u.preempt = [] := hrun.preempt.trans (by rw [hpreempt, List.drop_nil])
  obtain ⟨⟨hpart, hbound, hnone, hdone⟩, hexec⟩ := hend.resolve_right fun ⟨_, hpre, _⟩ => by
    simp [State.preempted, hchoices] at hpre
  obtain ⟨rs, r, hall, hrs, haux⟩ := hrun.presents none [] s.resp
  have hstart : s.inEnv none [] s.resp = s := by rw [← hm, ← hpreempt]; rfl
  have hreqs : partRequests f ⟨k.toNat, d0, d1, d2, 0, 0, 0#8⟩ q = (refillParts f d0 d1 d2).flatten ++
      List.replicate q.n (.ubtDispatch (BitVec.ofNat 8 (f.out.getD 0))) := by
    rw [partRequests, List.take_of_length_le (by simp only [refillParts, List.length_cons, List.length_nil]; omega)]
    rfl
  rw [hstart, hreqs] at hall
  refine ⟨rs, u.inEnv none [] r, q.n, hall, hrs, hrun.cfg ▸ hbound, hnone, fun e he => ?_, ?_⟩
  · have htaken := hrun.queue e he
    have hlast := hdone e (Option.mem_toList.mpr he)
    rw [hrun.cfg] at hlast hbound
    refine ⟨?_, hlast⟩
    obtain hmax | hempty := hlast
    · simp only at htaken
      omega
    · simp only [hempty, List.length_nil] at htaken
      omega
  · have hdiag : q.aux = lastAux (rs.map Response.aux) := haux.trans (lastAux_cons _ _)
    rw [exec_ubtProcess_ready hready, hexec, ← hdiag, ← hchoices]
    rfl

/-- Settles O57: up to the first boundary at which a request steps, the request itself, the parts left after it, and the halted core. -/
theorem interruptStepsBetweenParts : Obligations.InterruptStepsBetweenParts := by
  refine ⟨fun k d0 d1 d2 i rest ps s inv hready hpreempt hi hport hirq => ?_, fun k d0 d1 d2 f s inv hready hf => ?_,
    fun p i rest s hm hpre hi hport => step_process_preempted hm hpre hi hport, fun p f s inv hh hm hpre hf => ?_,
    fun p s hh hm hpre => ?_⟩
  · have ⟨_, _, hw, _⟩ := hready
    have hlt : k.toNat < s.cfg.ifs.length := of_decide_eq_true hw
    have hpre : s.preempted = true := by simp [State.preempted, hpreempt, hirq]
    obtain ⟨q, u, hq, hframe, hexec⟩ :=
      processRun_stops inv.sound (.start inv.sound hready (List.getElem?_eq_getElem hlt)) rfl hpre
    refine ⟨_, q, (exec_ubtProcess_ready hready).trans hexec, rfl, hq, hframe.resp, hframe.port, ?_⟩
    have hstill : u.preempted = s.preempted := State.preempted_congr hframe.port (congrArg List.head? hframe.preempt)
    rw [step_process_preempted (s := { u with mainOp := some (.process q) }) rfl (hstill.trans hpre) hi (hframe.port.trans hport)]
    simp only [hframe.preempt, hpreempt, List.tail_cons]
  · rw [exec_ubtProcess_ready hready]
    exact processRun_runsParts inv.sound (.start inv.sound hready hf)
  · rw [step_process_goesOn hm hpre, processResume_running (s := s.passBoundary) hh]
    exact processRun_runsParts (sound_keptByStep.passBoundary inv.sound) (.resumed inv hh hm hf)
  · rw [step_process_goesOn hm hpre, processResume_halted (s := s.passBoundary) hh]
    rfl

end Sys2Proof.Proofs
end


section
/-! SUPPORT. The verdicts of `msg_check` in the order of its tests (R221 to R224), and what a dispatch makes of a verdict (R220). -/

namespace Sys2Proof.Machine

variable {s t : State} {c e h : Nat} {rest : List Nat} {f : IfConst}

@[simp] theorem State.messageBody_length (s : State) (h n : Nat) : (s.messageBody h n).length = n := by simp [State.messageBody]

/-- R90: the payload length that the message in context `h` states. -/
abbrev State.payloadLen (s : State) (h : Nat) : Nat := le16 (s.cell (.ctx h) 2) (s.cell (.ctx h) 3)

/-- R221 to R223: the message in context `h` passes the tests of size, length field, type and body length. -/
abbrev State.hasHostMessage (s : State) (h : Nat) : Prop :=
  4 ≤ (s.ctx h).size ∧ s.payloadLen h = (s.ctx h).size - 4 ∧ s.cell (.ctx h) 0 = 0x01#8 ∧
    2 ≤ s.payloadLen h ∧ s.payloadLen h ≤ 1 + s.cfg.txqCap

/-- R224: the engine that a host message of the bytes `bs` has been handed to. -/
abbrev Cem.handed (k : Cont) (bs : List Byte) (x : Cem) : Cem :=
  { x with txbuf := x.txbuf.storeList 0 bs, txLen := bs.length, txIdx := 0, cont := k, dir := .tx, state := .dataExchange }

theorem Cem.handed_messageBody (k : Cont) (s : State) (h n : Nat) : Cem.handed k (s.messageBody h n) = fun x => { x with
    txbuf := x.txbuf.storeList 0 (s.messageBody h n), txLen := n, txIdx := 0, cont := k, dir := .tx, state := .dataExchange } := by
  funext x
  rw [Cem.handed, State.messageBody_length]

/-- R223: the two flag bytes of a host message. -/
theorem hostFlagsOk_of_flags {x : Byte} (hx : x = 0x02#8 ∨ x = 0x04#8) : hostFlagsOk x = true := by
  obtain rfl | rfl := hx <;> rfl

/-! ### The tests of `msg_check` (R221 to R224) -/

section
variable (hw : ConfigFacts s.cfg) (hh : h < s.ctxs.length)
include hw hh

/-- R221: a message without a whole header, or whose length field disagrees with its size. -/
theorem msgCheck_malformed (hbad : (s.ctx h).size < 4 ∨ s.payloadLen h ≠ (s.ctx h).size - 4) :
    msgCheck c h s = ret (s.diag .msgMalformed (s.ctx h).size) .discarded := by
  by_cases hsmall : (s.ctx h).size < 4
  · exact msgCheck_small hh hsmall
  · rw [msgCheck_eq hh hw.ctxSize.1 (by omega)]
    exact if_pos (hbad.resolve_left hsmall)

/-- R222: a type that the core does not accept. -/
theorem msgCheck_unknownType (hn : 4 ≤ (s.ctx h).size) (hlen : s.payloadLen h = (s.ctx h).size - 4)
    (htype : s.cell (.ctx h) 0 ≠ 0x01#8) :
    msgCheck c h s = ret (s.diag .msgUnknownType (s.cell (.ctx h) 0).toNat) .discarded := by
  rw [msgCheck_eq hh hw.ctxSize.1 hn]
  exact (if_neg (not_not_intro hlen)).trans (if_pos htype)

/-- R222: a message of the accepted type is judged by its body. -/
theorem msgCheck_body (hn : 4 ≤ (s.ctx h).size) (hlen : s.payloadLen h = (s.ctx h).size - 4)
    (htype : s.cell (.ctx h) 0 = 0x01#8) : msgCheck c h s = msgBody c h (s.ctx h).size (s.payloadLen h) s := by
  rw [msgCheck_eq hh hw.ctxSize.1 hn]
  exact (if_neg (not_not_intro hlen)).trans (if_neg (not_not_intro htype))

/-- R223: no data byte, or more than the transmit buffer holds. -/
theorem msgCheck_badBodyLength (hn : 4 ≤ (s.ctx h).size) (hlen : s.payloadLen h = (s.ctx h).size - 4)
    (htype : s.cell (.ctx h) 0 = 0x01#8) (hbad : s.payloadLen h < 2 ∨ 1 + s.cfg.txqCap < s.payloadLen h) :
    msgCheck c h s = ret (s.diag .msgMalformed (s.ctx h).size) .discarded :=
  (msgCheck_body hw hh hn hlen htype).trans (if_pos hbad)

variable (hmsg : s.hasHostMessage h)
include hmsg

/-- R223: flags that no host message has. -/
theorem msgCheck_badFlags (hflags : hostFlagsOk (s.cell (.ctx h) 4) = false) :
    msgCheck c h s = ret (s.diag .msgMalformed (s.cell (.ctx h) 4).toNat) .discarded := by
  obtain ⟨hn, hlen, htype, hmin, hmax⟩ := hmsg
  rw [msgCheck_body hw hh hn hlen htype, msgBody_eq hh hw.ctxSize.1 hmin hmax]
  exact if_neg (by simp [hflags])

variable (hflags : s.cell (.ctx h) 4 = 0x02#8 ∨ s.cell (.ctx h) 4 = 0x04#8)
include hflags

/-- R223: a message that passes every test of its own is handed over. -/
theorem msgCheck_handsOver :
    msgCheck c h s = cemHostmsg c (s.cell (.ctx h) 4) (s.messageBody h (s.payloadLen h - 1)) s := by
  obtain ⟨hn, hlen, htype, hmin, hmax⟩ := hmsg
  rw [msgCheck_body hw hh hn hlen htype, msgBody_eq hh hw.ctxSize.1 hmin hmax]
  exact if_pos (hostFlagsOk_of_flags hflags)

/-- R224: no procedure byte is owed. -/
theorem msgCheck_badState (hst : (s.cem c).state ≠ .procedureByte) :
    msgCheck c h s = ret (s.diag .hostmsgBadState (s.cem c).state.code) .discarded :=
  (msgCheck_handsOver hw hh hmsg hflags).trans (cemHostmsg_bad hst)

/-- R224: an engine that owes a procedure byte takes the message's bytes. -/
theorem msgCheck_accepts (hc : c < s.chans.length) (hst : (s.cem c).state = .procedureByte) :
    msgCheck c h s = ret ((s.updCem c (Cem.handed (if s.cell (.ctx h) 4 = 0x04#8 then .rx else .tx)
      (s.messageBody h (s.payloadLen h - 1)))).updWt c Wt.stopped) .ok := by
  have ⟨_, _, _, _, hmax⟩ := hmsg
  have hfits : (s.messageBody h (s.payloadLen h - 1)).length ≤ s.cfg.txqCap := by
    rw [State.messageBody_length]
    omega
  rw [msgCheck_handsOver hw hh hmsg hflags, cemHostmsg_ok hc hst hfits, contOf_flags _ hflags]
  rfl

end

/-! ### `UBT.DISPATCH` (R220) -/

/-- R220: the head of the queue taken, `rest` left. -/
abbrev State.taken (s : State) (e : Nat) (rest : List Nat) : State := s.updEp e fun y => { y with queue := rest }

/-- R1: the channel that an interface serves exists. -/
theorem served_chan_lt (hw : ConfigFacts s.cfg) (hs : s.shape) (hf : f ∈ s.cfg.ifs) : f.chan < s.chans.length := by
  obtain ⟨-, -, -, hchan⟩ := hw.ifs f hf
  exact hs.1.symm ▸ hchan

theorem ubtDispatchBody_nil (hq : (s.ep e).queue = []) : ubtDispatchBody e s = ret s .empty := by
  simp only [ubtDispatchBody, hq]

section
variable (hq : (s.ep e).queue = h :: rest) (hh : h < s.ctxs.length)
include hq hh

/-- R220: no interface names the endpoint. -/
theorem ubtDispatchBody_noHandler (hout : s.outIf e = none) : ubtDispatchBody e s =
    ret (((s.taken e rest).updCtx h Ctx.released).diag .noHandler e) .discarded (val16 h) := by
  have hheld : (s.taken e rest).heldCtx h = .ok (s.ctx h) := State.heldCtx_ok hh
  simp only [ubtDispatchBody, hq, hheld, hout, bind_ok]
  rfl

/-- R220: the verdict on the head of the queue is the answer, and its context is released. -/
theorem ubtDispatchBody_judged {rc : RC} (hout : s.outIf e = some f)
    (hverdict : msgCheck f.chan h (s.taken e rest) = ret t rc) :
    ubtDispatchBody e s = ret (t.updCtx h Ctx.released) rc (val16 h) := by
  have hheld : (s.taken e rest).heldCtx h = .ok (s.ctx h) := State.heldCtx_ok hh
  simp only [ubtDispatchBody, hq, hheld, hout, bind_ok, hverdict]
  rfl

end

/-- R220, R224: the engine takes the bytes of an accepted message. -/
theorem ubtDispatchBody_accepts (hw : ConfigFacts s.cfg) (hq : (s.ep e).queue = h :: rest) (hh : h < s.ctxs.length)
    (hout : s.outIf e = some f) (hmsg : s.hasHostMessage h) (hflags : s.cell (.ctx h) 4 = 0x02#8 ∨ s.cell (.ctx h) 4 = 0x04#8)
    (hc : f.chan < s.chans.length) (hst : (s.cem f.chan).state = .procedureByte) : ubtDispatchBody e s =
    ret ((((s.taken e rest).updCtx h Ctx.released).updCem f.chan
      (Cem.handed (if s.cell (.ctx h) 4 = 0x04#8 then .rx else .tx) (s.messageBody h (s.payloadLen h - 1)))).updWt f.chan
        Wt.stopped) .ok (val16 h) :=
  ubtDispatchBody_judged hq hh hout (msgCheck_accepts (s := s.taken e rest) hw hh hmsg hflags hc hst)

end Sys2Proof.Machine
end

section
/-! SUPPORT. The run of `CEM.TXBYTE` requests that hands out a host message with the continue-transmit flag (R153, R161 (C), R226). -/

namespace Sys2Proof.Machine

variable {p : Config} {c b : Byte} {bs : List Byte} {x : Cem} {s : State}

/-- R153: the bytes that the engine has left to hand out are `bs`, in this order; with none left it is idle. -/
def Cem.sends (p : Config) : List Byte → Cem → Prop
  | [], x => x.state = .idle
  | b :: bs, x => x.state = .dataExchange ∧ x.dir = .tx ∧ x.nullPending = false ∧ x.cont = .tx ∧ x.txLen ≤ p.txqCap ∧
    x.txLen = x.txIdx + (b :: bs).length ∧ ∀ i < (b :: bs).length, x.txbuf.lookup (x.txIdx + i) = (b :: bs)[i]?

/-- R224: after the hand-over of a message with the continue-transmit flag its bytes are what is left. -/
theorem Cem.sends_handed (hne : bs ≠ []) (hfits : bs.length ≤ p.txqCap) (hnull : x.nullPending = false) :
    (x.handed .tx bs).sends p bs := by
  obtain ⟨b, bs, rfl⟩ := List.exists_cons_of_ne_nil hne
  refine ⟨rfl, rfl, hnull, rfl, hfits, (Nat.zero_add _).symm, fun i hi => ?_⟩
  rw [Nat.zero_add, Memory.lookup_storeList, if_pos ⟨Nat.zero_le _, (Nat.zero_add _).symm ▸ hi⟩, Nat.sub_zero]

/-- R153: a request takes the next byte. -/
theorem EngineAt.nextByte (h : EngineAt p c x s) (hx : x.sends p (b :: bs)) :
    ∃ y, Answers p c (.cemTxbyte c) s .ok (b.setWidth 16) y ∧ y.sends p bs := by
  have hc : c.toNat < s.chans.length := Ready.chan_lt h.ready
  obtain ⟨hready, rfl, rfl⟩ := h
  obtain ⟨hst, hdir, hnull, hcont, hcap, hleft, hbytes⟩ := hx
  rw [List.length_cons] at hleft
  have hbyte : s.cell (.txbuf c.toNat) (s.cem c.toNat).txIdx = b :=
    congrArg (Option.getD · _) (hbytes 0 (Nat.succ_pos _))
  have hbody := cemTxbyteBody_queued hc hst hdir hnull (by omega)
  rw [hbyte] at hbody
  cases bs with
  | nil =>
    have hend : (s.cem c.toNat).txIdx + 1 = (s.cem c.toNat).txLen := hleft.symm
    rw [if_pos hend, txFinish_tx hc hcont] at hbody
    refine ⟨_, EngineAt.answers (evs := []) ⟨hready, rfl, rfl⟩ rfl hready hbody (List.append_nil _).symm rfl rfl, ?_⟩
    rw [State.cem_updWt, State.cem_updCem_same s hc]
    rfl
  | cons b' bs =>
    rw [List.length_cons] at hleft
    rw [if_neg (by omega)] at hbody
    refine ⟨_, EngineAt.answers (evs := []) ⟨hready, rfl, rfl⟩ rfl hready hbody (List.append_nil _).symm rfl rfl, ?_⟩
    rw [State.cem_updCem_same s hc]
    refine ⟨hst, hdir, hnull, hcont, hcap, hleft.trans (by simp only [List.length_cons]; omega), fun i hi => ?_⟩
    rw [Nat.add_right_comm]
    exact hbytes (i + 1) (Nat.succ_lt_succ hi)

/-- R226: the bytes left leave in order, one for each request, and one more request answers NODATA. -/
theorem EngineAt.runMessage (h : EngineAt p c x s) (hx : x.sends p bs) :
    ∃ t, runAll (List.replicate (bs.length + 1) (.cemTxbyte c)) s = some (bs.map okByte ++ [⟨.nodata, 0#8, 0#16⟩], t) := by
  induction bs generalizing x s with
  | nil =>
    obtain ⟨t, hidle, hnodata, -⟩ := h.idle hx
    exact ⟨t, (runAll_cons hidle rfl).trans (by rw [hnodata]; rfl)⟩
  | cons b bs ih =>
    obtain ⟨y, ⟨u, hnext, hresp, hu⟩, hy⟩ := h.nextByte hx
    obtain ⟨t, hrun⟩ := ih hu hy
    exact ⟨t, (runAll_cons hnext hrun).trans (by rw [hresp]; rfl)⟩

end Sys2Proof.Machine
end

section
/-! The statements of the family 46_dispatch. -/

namespace Sys2Proof.Proofs

open Sys2Proof Sys2Proof.Machine

/-- Settles O60: each case is one verdict of `msg_check` on the head of the queue. -/
theorem ubtDispatchResult : Obligations.UbtDispatchResult := by
  intro e s ⟨_, hshape, _, htransport, _⟩ hready
  have hw := hready.configFacts
  have ⟨_, _, hdir, _⟩ := hready
  have he : e.toNat < s.eps.length := epIs_lt hshape hdir
  refine ⟨fun hq => exec_of_ready_quiet rfl hready (ubtDispatchBody_nil hq) rfl, fun h rest hq => ?_⟩
  intro done v n plen flags
  have hh : h < s.ctxs.length := (htransport.queued he (hq ▸ List.mem_cons_self)).1
  refine ⟨fun hnone => ?_, fun f hf hout => ?_⟩
  · exact exec_of_ready_ret (evs := [.diag .noHandler e.toNat]) rfl hready
      (ubtDispatchBody_noHandler hq hh (State.outIf_none hnone)) rfl
  have houtIf : s.outIf e.toNat = some f := State.outIf_eq hw hf hout
  have hc : f.chan < s.chans.length := served_chan_lt hw hshape hf
  have hdrop {k : DiagCode} {m : Nat}
      (hverdict : msgCheck f.chan h (s.taken e.toNat rest) = ret ((s.taken e.toNat rest).diag k m) .discarded) :
      exec (.ubtDispatch e) s = .next ((done.diag k m).answer .discarded k.code v) :=
    exec_of_ready_ret (evs := [.diag k m]) rfl hready (ubtDispatchBody_judged hq hh houtIf hverdict) rfl
  refine ⟨fun hbad => hdrop (msgCheck_malformed hw hh hbad), fun hn hlen htype => hdrop (msgCheck_unknownType hw hh hn hlen htype),
    fun hn hlen htype => ⟨fun hbad => hdrop (msgCheck_badBodyLength hw hh hn hlen htype hbad), fun hmin hmax => ?_⟩⟩
  have hmsg : s.hasHostMessage h := ⟨hn, hlen, htype, hmin, hmax⟩
  refine ⟨fun hflags => ?_, fun hflags => ⟨fun hst => hdrop (msgCheck_badState hw hh hmsg hflags hst), fun hst => ?_⟩⟩
  · have hbad : hostFlagsOk flags = false := Bool.eq_false_iff.mpr fun hok => (hostFlags_iff flags).mp hok hflags
    exact hdrop (msgCheck_badFlags hw hh hmsg hbad)
  · have hbody := ubtDispatchBody_accepts hw hq hh houtIf hmsg hflags hc hst
    rw [Cem.handed_messageBody] at hbody
    exact exec_of_ready_quiet rfl hready hbody rfl

/-- Settles O47: the dispatch leaves the engine with the message's bytes to hand out, and the run of requests hands them out. -/
theorem hostBytesLeaveInOrder : Obligations.HostBytesLeaveInOrder := by
  intro e c h n rest f s ⟨_, hshape, _, htransport, _⟩ hready hq hf hout hchan hst hnull hmin hmax hmessage
  obtain ⟨hsize, htype, (hplen : s.payloadLen h = 1 + n), hflags⟩ := hmessage
  have hw := hready.configFacts
  have ⟨hcfg, _, hdir, hrunning⟩ := hready
  have hh : h < s.ctxs.length := (htransport.queued (epIs_lt hshape hdir) (hq ▸ List.mem_cons_self)).1
  have hc : c.toNat < s.chans.length := hchan ▸ served_chan_lt hw hshape hf
  have hengine : EngineAt s.cfg c (s.cem c.toNat) s := ⟨⟨hcfg, hshape, decide_eq_true (hshape.1 ▸ hc), hrunning⟩, rfl, rfl⟩
  have hmsg : s.hasHostMessage h := ⟨by omega, by omega, htype, by omega, by omega⟩
  have hbody := ubtDispatchBody_accepts hw hq hh (State.outIf_eq hw hf hout) hmsg (.inl hflags) (hchan ▸ hc) (hchan ▸ hst)
  have hcount : s.payloadLen h - 1 = n := by omega
  rw [hchan, hflags, hcount, if_neg (by decide)] at hbody
  obtain ⟨u, hexec, hresp, hu⟩ := hengine.answers (evs := []) rfl hready hbody (List.append_nil _).symm rfl
    ((State.cem_updWt ..).trans (State.cem_updCem_same _ hc _))
  have hbytes : (s.messageBody h n).length = n := s.messageBody_length h n
  obtain ⟨t, hrun⟩ := hu.runMessage (Cem.sends_handed (List.ne_nil_of_length_pos (by omega)) (by omega) hnull)
  rw [hbytes] at hrun
  exact ⟨t, (runAll_cons hexec hrun).trans (by rw [hresp]; rfl)⟩

end Sys2Proof.Proofs
end

-- Proofs of the family 60_exceptions: the order of the checks, the fatal halt, and the way out of it.
section
/-! SUPPORT. The checks before every operation (R238), and a completion without a transfer in flight (R198). -/

namespace Sys2Proof.Machine

variable {i : Instr} {s t : State} {e status : Byte} {draw : Bool} {data : List Byte}

/-- R238: the checks stand before every operation but `SYS.RESET`. -/
theorem exec_eq_gate (hi : i ≠ .sysReset) : ∃ run, ∀ s, exec i s = gate i s run := by
  cases hb : bodyOf i with
  | some b => exact ⟨_, exec_body hb⟩
  | none =>
    cases i <;> simp only [bodyOf, reduceCtorEq] at hb
    case sysReset => exact absurd rfl hi
    case ubtProcess => exact ⟨_, exec_ubtProcess _ _ _ _⟩
    case ubtDrain => exact ⟨_, exec_ubtDrain _⟩

/-- R75, R238: the static tests come first; `SYS.RESET` passes them always. -/
theorem exec_illegal (hw : i.wellFormed s.cfg = false) : exec i s = .next s.answerIllegal := by
  have hi : i ≠ .sysReset := by
    rintro rfl
    exact nomatch hw
  obtain ⟨run, hrun⟩ := exec_eq_gate hi
  rw [hrun, gate_illegal hw]

/-- R232, R238: the halt comes before the rule body. -/
theorem exec_halted (hw : i.wellFormed s.cfg = true) (hh : s.halted = true) (hi : i ≠ .sysReset) :
    exec i s = .next s.answerHalted := by
  obtain ⟨run, hrun⟩ := exec_eq_gate hi
  rw [hrun, gate_halted hw hh]

/-- R198, R238: a rule body that answers ILLEGAL at once is a test like the static one. -/
theorem exec_of_illegal_body {b : State → Body} (hb : bodyOf i = some b) (hh : s.halted = false) (hbody : b s = ret s .illegal) :
    exec i s = .next s.answerIllegal := by
  cases hw : i.wellFormed s.cfg with
  | false => exact exec_illegal hw
  | true =>
    rw [exec_body hb, gate_pass hw hh, hbody, finish_ret, newEvents_self, lastDiag_nil]
    rfl

theorem wcompleteBody_illegal {e : Nat} (hidle : (s.ep e).inProgress = false) : wcompleteBody e status draw s = ret s .illegal :=
  if_pos (by simp [hidle])

theorem rcompleteBody_illegal {e : Nat} (hidle : (s.ep e).inProgress = false) : rcompleteBody e status data s = ret s .illegal :=
  if_pos (by simp [hidle])

end Sys2Proof.Machine
end

section
/-! SUPPORT. A halted core (R232): what a step leaves as it is unless it takes a `SYS.RESET`. -/

namespace Sys2Proof.Machine

variable {i : Instr} {s t u : State}

/-- The halt, the contexts, the channels, the endpoints, the event history and the count of resets stay: only the environment's own
fields, the answer and the record of an operation may differ. -/
structure SameElements (s t : State) : Prop where
  halted : t.halted = s.halted
  haltCode : t.haltCode = s.haltCode
  ctxs : t.ctxs = s.ctxs
  chans : t.chans = s.chans
  eps : t.eps = s.eps
  events : t.events = s.events
  era : t.era = s.era

theorem SameElements.outer (s : State) (port : List PortWord) (preempt : List Bool) (mainOp : Option MainOp) (resp : Response) :
    SameElements s { s with port := port, preempt := preempt, mainOp := mainOp, resp := resp } :=
  ⟨rfl, rfl, rfl, rfl, rfl, rfl, rfl⟩

theorem SameElements.trans (h : SameElements s t) (k : SameElements t u) : SameElements s u :=
  ⟨k.halted.trans h.halted, k.haltCode.trans h.haltCode, k.ctxs.trans h.ctxs, k.chans.trans h.chans, k.eps.trans h.eps,
    k.events.trans h.events, k.era.trans h.era⟩

/-- The next request on the port is a `SYS.RESET`. -/
abbrev ResetPresented (s : State) : Prop :=
  ∃ ws rest, splitRequest s.port = some (ws, rest) ∧ decode ws = .ok .sysReset

/-- R232, R238: a request to a halted core changes the answer alone. -/
theorem exec_sameElements (hh : s.halted = true) (hi : i ≠ .sysReset) (h : exec i s = .next t) : SameElements s t := by
  cases hw : i.wellFormed s.cfg with
  | false =>
    obtain rfl := next_inj ((exec_illegal hw).symm.trans h)
    exact .outer s _ _ _ _
  | true =>
    obtain rfl := next_inj ((exec_halted hw hh hi).symm.trans h)
    exact .outer s _ _ _ _

theorem takeRequest_halted (hh : s.halted = true) (h : takeRequest s = .next t) : SameElements s t ∨ ResetPresented s := by
  cases hsplit : splitRequest s.port with
  | none =>
    obtain rfl := next_inj ((takeRequest_of_waiting hsplit).symm.trans h)
    exact .inl (.outer s _ _ _ _)
  | some r =>
    obtain ⟨ws, rest⟩ := r
    cases hdec : decode ws with
    | error =>
      obtain rfl := next_inj ((takeRequest_of_reject hsplit hdec).symm.trans h)
      exact .inl (.outer s _ _ _ _)
    | ok i =>
      rw [takeRequest_of_decode hsplit hdec] at h
      by_cases hi : i = .sysReset
      · exact .inr ⟨ws, rest, hsplit, hi ▸ hdec⟩
      · exact .inl ((SameElements.outer s rest _ _ _).trans (exec_sameElements (s := { s with port := rest }) hh hi h))

/-- R232: a halted core takes a request, or ends the operation in progress with HALTED. -/
theorem step_halted (hh : s.halted = true) (h : step s = .next t) : SameElements s t ∨ ResetPresented s := by
  cases hm : s.mainOp with
  | none => exact takeRequest_halted hh ((step_of_mainOp_none hm).symm.trans h)
  | some m =>
    cases m with
    | drain e =>
      rw [step_drain_over hm (.inl hh), drainEnd_halted hh] at h
      obtain rfl := next_inj h
      exact .inl (.outer s _ _ _ _)
    | process p =>
      rw [step_process hm] at h
      split at h
      · have hpass : SameElements s s.passBoundary := .outer s _ _ _ _
        exact (takeRequest_halted (s := s.passBoundary) hh h).imp_left hpass.trans
      · rw [processResume_halted (s := s.passBoundary) hh] at h
        obtain rfl := next_inj h
        exact .inl (.outer s _ _ _ _)

end Sys2Proof.Machine
end

section
/-! SUPPORT. Which rule bodies raise the fatal halt (R231, R237): `POOL.FREE` and `UBT.ENQ` at the operation port. Every other body stops
with nothing worse than a fault; the enqueueing inside a message's composition finds its context just allocated. -/

namespace Sys2Proof.Machine

variable {s : State} {c : Nat}

/-! ### The ring buffer, the timing register and the card signals -/

theorem rbWriteBody_notFatal (c : Nat) (b : Byte) (s : State) : NotFatal (rbWriteBody c b s) :=
  .ite (fun _ => .ret _ _ _) fun _ => .bind (memWrite_notFatal _ _ _ _) fun _ _ => .ret _ _ _

theorem rbReadBody_notFatal (c : Nat) (s : State) : NotFatal (rbReadBody c s) :=
  .ite (fun _ => .ret _ _ _) fun _ => .bind (memRead1_notFatal _ _ _) fun _ _ => .ret _ _ _

theorem rbPeekBody_notFatal (c : Nat) (s : State) : NotFatal (rbPeekBody c s) :=
  .ite (fun _ => .ret _ _ _) fun _ => .bind (memRead1_notFatal _ _ _) fun _ _ => .ret _ _ _

theorem timRatioBody_notFatal (ci ri : Nat) (s : State) : NotFatal (timRatioBody ci ri s) := by
  unfold timRatioBody
  split <;> exact .ret _ _ _

theorem timApplyBody_notFatal (c : Nat) (ratio : Half) (s : State) : NotFatal (timApplyBody c ratio s) :=
  .ite (fun _ => .ret _ _ _) fun _ => .ret _ _ _

theorem cemFidiBody_notFatal (c : Nat) (fidi : Byte) (s : State) : NotFatal (cemFidiBody c fidi s) := by
  unfold cemFidiBody
  split
  · exact .ret _ _ _
  · exact .bind (timApplyBody_notFatal _ _ _) fun _ _ => .ret _ _ _

theorem wtTickBody_notFatal (c : Nat) (s : State) : NotFatal (wtTickBody c s) :=
  .ite (fun _ => .ret _ _ _) fun _ => .ite (fun _ => .fault _) fun _ => .ite (fun _ => .ret _ _ _) fun _ => .ret _ _ _

theorem urxIrqBody_notFatal (c : Nat) (status : Half) (b : Byte) (s : State) : NotFatal (urxIrqBody c status b s) :=
  .ite (fun _ => rbWriteBody_notFatal _ _ _) fun _ => .ret _ _ _

theorem rstActive_notFatal (c : Nat) (s : State) : NotFatal (rstActive c s) :=
  .ite (fun _ => .bind (timApplyBody_notFatal _ _ _) fun _ _ => .ret _ _ _) fun _ => .ret _ _ _

theorem cemIosigBody_notFatal (c : Nat) (sig : Signal) (act : Bool) (s : State) : NotFatal (cemIosigBody c sig act s) := by
  refine .ite (fun _ => .ret _ _ _) fun _ => ?_
  dsimp only
  split
  case h_4 => exact rstActive_notFatal _ _
  all_goals exact .ret _ _ _

/-! ### Bytes to the reader and from it -/

theorem txNullOr_notFatal {x : Body} (hx : NotFatal x) : NotFatal (txNullOr c s x) := .ite (fun _ => .ret _ _ _) fun _ => hx

theorem cemTxbyteBody_notFatal (c : Nat) (s : State) : NotFatal (cemTxbyteBody c s) := by
  unfold cemTxbyteBody
  split
  · exact .bind (memRead1_notFatal _ _ _) fun _ _ => .ret _ _ _
  · exact txNullOr_notFatal (.ret _ _ _)
  · split
    · exact txNullOr_notFatal (.bind (memRead1_notFatal _ _ _) fun _ _ => .ret _ _ _)
    · exact .ret _ _ _
  · exact .ret _ _ _

/-- R156, R191: the context that a message is composed in is in the pool and waits for its enqueueing, so neither test of R191 fails. -/
theorem cemSend_notFatal (hs : s.shape) (c : Nat) (flags : Byte) (bytes : List Byte) : NotFatal (cemSend c flags bytes s) := by
  cases hin : s.inEp c with
  | none =>
    rw [cemSend_noEp hin]
    exact .ok _
  | some e =>
    obtain ⟨-, halloc⟩ | ⟨hfits, h, hfree, -⟩ := State.alloc_cases s (5 + bytes.length) .uartTxPending
    · simp only [cemSend, hin, halloc]
      exact .ret _ _ _
    · rw [cemSend_ok hs hin hfree hfits]
      exact .ok _

theorem afterSend_notFatal {x : Body} (hx : NotFatal x) : NotFatal (afterSend c x) :=
  .bind hx fun _ _ => .ite (fun _ => .ret _ _ _) fun _ => .ret _ _ _

theorem rxHeader_notFatal (hs : s.shape) (c : Nat) (b : Byte) : NotFatal (rxHeader c b s) :=
  .ite (fun _ => .ret _ _ _) fun _ => .bind (memWrite_notFatal _ _ _ _) fun _ hu =>
    .ite (fun _ => .ret _ _ _) fun _ => .bind (memRead_notFatal _ _ _ _) fun _ _ => .bind (memRead1_notFatal _ _ _) fun _ _ =>
      have hu3 := ((Frame.memWrite hu).trans (.cem _ _ _)).trans (.cem _ _ _)
      afterSend_notFatal (cemSend_notFatal (hu3.shape hs) _ _ _)

theorem rxData_notFatal (hs : s.shape) (c : Nat) (b : Byte) : NotFatal (rxData c b s) :=
  .ite (fun _ => .fault _) fun _ => .bind (memWrite_notFatal _ _ _ _) fun _ hu =>
    .ite (fun _ => .ret _ _ _) fun _ => .bind (memRead_notFatal _ _ _ _) fun _ _ =>
      have hu2 := (Frame.memWrite hu).trans (.cem _ _ _)
      afterSend_notFatal (cemSend_notFatal (hu2.shape hs) _ _ _)

theorem cemRxbyteBody_notFatal (hs : s.shape) (c : Nat) (b : Byte) : NotFatal (cemRxbyteBody c b s) := by
  unfold cemRxbyteBody
  split
  · exact rxHeader_notFatal hs c b
  · split
    · exact rxData_notFatal hs c b
    · exact .ret _ _ _
  · exact .ret _ _ _

theorem cemPumpBody_notFatal (hs : s.shape) (c : Nat) : NotFatal (cemPumpBody c s) :=
  .ite (fun _ => .ret _ _ _) fun _ => .bind (memRead1_notFatal _ _ _) fun b _ =>
    .bind (cemRxbyteBody_notFatal hs c b) fun _ _ => .ite (fun _ => .ret _ _ _) fun _ => .ret _ _ _

/-! ### The pool and the transport -/

theorem poolAllocBody_notFatal (n : Nat) (st : CtxState) (s : State) : NotFatal (poolAllocBody n st s) := by
  unfold poolAllocBody
  split <;> exact .ret _ _ _

theorem wcompleteBody_notFatal (e : Nat) (status : Byte) (draw : Bool) (s : State) : NotFatal (wcompleteBody e status draw s) := by
  refine .ite (fun _ => .ret _ _ _) fun _ => ?_
  split
  · exact .fault _
  · exact .bind (heldCtx_notFatal _ _) fun _ _ => .ite (fun _ => .ite (fun _ => .ret _ _ _) fun _ => .ret _ _ _) fun _ =>
      .ite (fun _ => .ret _ _ _) fun _ => .ret _ _ _

theorem rcompleteBody_notFatal (e : Nat) (status : Byte) (data : List Byte) (s : State) :
    NotFatal (rcompleteBody e status data s) := by
  refine .ite (fun _ => .ret _ _ _) fun _ => ?_
  split
  · exact .fault _
  · exact .bind (heldCtx_notFatal _ _) fun _ _ =>
      .ite (fun _ => .bind (memWrite_notFatal _ _ _ _) fun _ _ => .ret _ _ _) fun _ => .ret _ _ _

theorem drainBody_notFatal (e : Nat) (s : State) : NotFatal (drainBody e s) := .ite (fun _ => .ret _ _ _) fun _ => .fault _

/-! ### Every operation -/

/-- R237: the operations whose rules can raise the fatal halt. -/
abbrev RaisesHalt (i : Instr) : Prop := (∃ h, i = .poolFree h) ∨ ∃ e h, i = .ubtEnq e h

theorem body_notFatal {i : Instr} {b : State → Body} (hb : bodyOf i = some b) (hs : s.shape) (hi : ¬RaisesHalt i) : NotFatal (b s) := by
  cases i <;> simp only [bodyOf, Option.some.injEq, reduceCtorEq] at hb <;> subst hb
  case rbReset => exact .ret _ _ _
  case rbWrite => exact rbWriteBody_notFatal _ _ _
  case rbRead => exact rbReadBody_notFatal _ _
  case rbPeek => exact rbPeekBody_notFatal _ _
  case rbIsempty => exact .ret _ _ _
  case timRatio => exact timRatioBody_notFatal _ _ _
  case timApply => exact timApplyBody_notFatal _ _ _
  case urxIrq => exact urxIrqBody_notFatal _ _ _ _
  case cemIosig => exact cemIosigBody_notFatal _ _ _ _
  case cemTxbyte => exact cemTxbyteBody_notFatal _ _
  case cemRxbyte => exact cemRxbyteBody_notFatal hs _ _
  case cemFidi => exact cemFidiBody_notFatal _ _ _
  case cemPump => exact cemPumpBody_notFatal hs _
  case wtSetwt => exact .ret _ _ _
  case wtSetetu => exact .ret _ _ _
  case wtTick => exact wtTickBody_notFatal _ _
  case poolAlloc => exact poolAllocBody_notFatal _ _ _
  case poolFree h => exact absurd (.inl ⟨h, rfl⟩) hi
  case poolReport => exact .ret _ _ _
  case ubtEnq e h => exact absurd (.inr ⟨e, h, rfl⟩) hi
  case ubtRefillTohost => exact refillTohostBody_notFatal _ _ _
  case ubtWcomplete => exact wcompleteBody_notFatal _ _ _ _
  case ubtRefillFromhost => exact refillFromhostBody_notFatal _ _ _
  case ubtRcomplete => exact rcompleteBody_notFatal _ _ _ _
  case ubtDispatch => exact ubtDispatchBody_notFatal _ _

end Sys2Proof.Machine
end

section
/-! SUPPORT. The way into the halt (R231): a running core halts as `raiseFatal` says or stays running. -/

namespace Sys2Proof.Machine

variable {i : Instr} {p : Proc} {e : Nat} {s t : State}

/-! ### Requests and the rest of an operation -/

/-- R199, R237: the parts of `UBT.PROCESS` leave a running core running. -/
theorem processRun_keeps_running {fuel : Nat} (hh : s.halted = false) (h : processRun fuel p s = .next t) : t.halted = false :=
  processRun_keeps (P := fun s => s.halted = false) (fun _ _ _ _ _ hs hpart => (frame_processPart hpart).halted.trans hs)
    (fun _ => id) (fun _ _ => id) (fun _ _ _ _ => id) fuel p s t hh h

theorem processResume_keeps_running (hh : s.halted = false) (h : processResume p s = .next t) : t.halted = false :=
  processRun_keeps_running hh ((processResume_running hh).symm.trans h)

/-- R200, R237: so does the end of a `UBT.DRAIN`. -/
theorem drainEnd_keeps_running (hh : s.halted = false) (h : drainEnd e s = .next t) : t.halted = false := by
  rw [drainEnd_running hh] at h
  obtain ⟨u, r, hu, rfl⟩ | ⟨k, hk, -⟩ := finish_next h
  · exact (frame_drainBody _ _ _ _ hu).halted.trans hh
  · exact absurd hk (drainBody_notFatal e _ k)

/-- A request that the checks of R238 turn away changes the answer alone. -/
theorem gate_keeps_running {run : State → Outcome} (hh : s.halted = false) (hrun : run s = .next t → t.halted = false)
    (h : gate i s run = .next t) : t.halted = false := by
  obtain ⟨-, rfl⟩ | ⟨-, rfl⟩ | ⟨-, -, hr⟩ := gate_next h
  · exact hh
  · exact hh
  · exact hrun hr

/-- R231, R237: the halt discards every other effect of the request that raises it. -/
theorem exec_halts (hs : s.shape) (hh : s.halted = false) (h : exec i s = .next t) (ht : t.halted = true) :
    RaisesHalt i ∧ ∃ k, t = s.raiseFatal k := by
  have stays (hrunning : t.halted = false) : RaisesHalt i ∧ ∃ k, t = s.raiseFatal k :=
    absurd (ht.symm.trans hrunning) nofun
  cases hb : bodyOf i with
  | some b =>
    obtain ⟨_, rfl⟩ | ⟨-, -, ⟨u, r, aux, -, hframe, rfl⟩ | ⟨k, hk, rfl⟩⟩ := plain_next hb h
    · exact stays hh
    · exact stays (hframe.halted.trans hh)
    · exact ⟨by_contra fun hi => body_notFatal hb hs hi k hk, k, rfl⟩
  | none =>
    refine stays ?_
    cases i <;> simp only [bodyOf, reduceCtorEq] at hb
    case sysReset =>
      obtain rfl := next_inj h
      rfl
    case ubtProcess => exact gate_keeps_running hh (processRun_keeps_running hh) h
    case ubtDrain =>
      rw [exec_ubtDrain] at h
      refine gate_keeps_running hh (fun hrun => ?_) h
      split at hrun
      · obtain rfl := next_inj hrun
        exact hh
      · exact drainEnd_keeps_running hh hrun

/-- R231, R237: the same where a step goes on with the rest of an operation, which raises nothing. -/
theorem runs_halts (hs : s.shape) (hh : s.halted = false) (h : Runs i s t) (ht : t.halted = true) :
    RaisesHalt i ∧ ∃ k, t = s.raiseFatal k := by
  obtain hexec | ⟨p, k, -, -, -, -, hresume⟩ | ⟨e, -, -, -, hend⟩ := runs_cases h
  · exact exec_halts hs hh hexec ht
  · exact absurd (ht.symm.trans (processResume_keeps_running (s := s.passBoundary) hh hresume)) nofun
  · exact absurd (ht.symm.trans (drainEnd_keeps_running hh hend)) nofun

/-- R199, R200, R237: the step that goes on with an operation in progress. -/
theorem step_goesOn_keeps_running (hh : s.halted = false) (hgo : s.goesOn = true) (h : step s = .next t) : t.halted = false := by
  cases hm : s.mainOp with
  | none => simp [State.goesOn, hm] at hgo
  | some m =>
    cases m with
    | drain e =>
      have hidle : (s.ep e).inProgress = false := by simpa [State.goesOn, hm, hh] using hgo
      exact drainEnd_keeps_running hh ((step_drain_over hm (.inr hidle)).symm.trans h)
    | process p =>
      have hpre : s.preempted = false := by simpa [State.goesOn, hm] using hgo
      exact processResume_keeps_running (s := s.passBoundary) hh ((step_process_goesOn hm hpre).symm.trans h)

end Sys2Proof.Machine
end

section
/-! The statements of the family 60_exceptions. -/

namespace Sys2Proof.Proofs

open Sys2Proof Sys2Proof.Machine

/-- Settles O8: the two checks of the gate in their order, then the first test of either completion. -/
theorem orderOfChecks : Obligations.OrderOfChecks :=
  ⟨fun _ _ hw => exec_illegal hw, fun _ _ hw hh hi => exec_halted hw hh hi, fun _ _ _ _ _ hh hidle =>
    ⟨exec_of_illegal_body rfl hh (wcompleteBody_illegal hidle), exec_of_illegal_body rfl hh (rcompleteBody_illegal hidle)⟩⟩

/-- Settles O17: a request halts the core through its rule body alone, and only two bodies do; the rest of an operation runs none of
these. -/
theorem haltIsPreciseAndOnlyAtThePort : Obligations.HaltIsPreciseAndOnlyAtThePort :=
  ⟨fun _ _ _ ⟨_, hshape, _⟩ hh hruns ht => runs_halts hshape hh hruns ht, fun _ _ _ hh hgo h => step_goesOn_keeps_running hh hgo h⟩

/-- Settles O18: every way a step of a halted core can go ends in an answer or takes a `SYS.RESET`. -/
theorem onlyResetLeavesTheHalt : Obligations.OnlyResetLeavesTheHalt := by
  intro s t hh h
  obtain ⟨hhalted, hcode, hctxs, hchans, heps, hevents, hera⟩ | hreset := step_halted hh h
  · exact .inl ⟨hhalted.trans hh, hcode, hctxs, hchans, heps, hevents, hera⟩
  · exact .inr hreset

end Sys2Proof.Proofs
end
